-- ==== Sys2Proof/Word.lean ====
section
/-! DEFINITION. The word types of the Yiloux device and the register format tags (R13). -/

namespace Sys2Proof

/-- A byte of memory. -/
abbrev Byte := BitVec 8

/-- The 32 bits of a v-register (R11). -/
abbrev Word := BitVec 32

/-- A 64-bit value: an address, an s-register, an instruction word (R11, R55). -/
abbrev DWord := BitVec 64

/-- The 4-bit format tag of a v-register (R13). The three reserved codes are never produced. -/
inductive Tag where
  | raw | i32 | n32 | f32 | b16x2 | h16x2 | t16x2 | t8x4 | i8x4 | n8x4 | t6x5 | p64l | p64h
  | resD | resE | resF
  deriving DecidableEq, Repr, Inhabited

end Sys2Proof
end

