-- ==== Sys2Proof/Syntax/Operand.lean ====
section
/-! DEFINITION. The operand forms of the instruction words: selectors, controls, sizes, spaces, conditions
(R57 to R71, R82). -/

namespace Sys2Proof

/-- The read-only specials (R58). -/
inductive Special where
  | zero | ones | lane | fidx | gfidl | gfidh | rank (q : Fin 8) | teamsize
  deriving DecidableEq, Repr

/-- A source selector (R57): a v-register, an s-register, a run latch, a special, an inline integer (held as its
selector value less 0x140, so that 64 stands for 0) or an inline F32 constant. -/
inductive Src where
  | v (n : Fin 256) | s (n : Fin 32) | b (n : Fin 4) | sp (x : Special) | int (n : Fin 128) | fc (n : Fin 64)
  deriving DecidableEq, Repr

/-- A register destination; `none` is a destination written `_`, encoded with W = 1 (R57, R61). -/
inductive Dst where
  | none | v (n : Fin 256) | s (n : Fin 32)
  deriving DecidableEq, Repr

/-- A 64-bit register operand: the even pair v(2n), v(2n+1), or an s-register read whole (R31, R93). -/
inductive Op64 where
  | pair (n : Fin 128) | s (n : Fin 32)
  deriving DecidableEq, Repr

/-- A 64-bit destination (R84); `none` is `_`. -/
inductive Dst64 where
  | none | pair (n : Fin 128) | s (n : Fin 32)
  deriving DecidableEq, Repr

/-- The destination of movw, of the kind its function names (R98). -/
inductive MovwDst where
  | pair (n : Option (Fin 128)) | sreg (n : Option (Fin 32))
  deriving DecidableEq, Repr

/-- The operand of wrsys (R383). -/
inductive WrSrc where
  | pair (n : Fin 128) | s (n : Fin 32) | zero | int (n : Fin 128)
  deriving DecidableEq, Repr

/-- The deadline operand of tbegin (R262). -/
inductive DlSrc where
  | v (n : Fin 256) | s (n : Fin 32) | int (n : Fin 128) | zero
  deriving DecidableEq, Repr

/-- A source of a store (R130): every selector but the two 64-bit forms, or one of those. -/
inductive StSrc where
  | one (x : Src) | wide (n : Fin 256) | sreg (n : Fin 32)
  deriving DecidableEq, Repr

/-- The predicate prefix of an instruction (R62): predicate number and negate bit. -/
structure Guard where
  pred : Fin 16
  neg  : Bool
  deriving DecidableEq, Repr

/-- The controls of an instruction that may stand inside a run: its prefix and its C bit (R62, R74). -/
structure Ctl where
  g : Guard
  c : Bool
  deriving DecidableEq, Repr

/-- Signed (.s) or unsigned (.n) integer type (R29). -/
inductive Sgn where
  | s | n
  deriving DecidableEq, Repr

/-- The rounding modes (R34). -/
inductive Rm where
  | rne | rtz | rdn | rup
  deriving DecidableEq, Repr

/-- Integer conditions (R63). -/
inductive ICond where
  | eq | ne | lt | le | gt | ge
  deriving DecidableEq, Repr

/-- Floating-point conditions (R63). -/
inductive FCond where
  | oeq | one | olt | ole | ogt | oge | uno | ord
  deriving DecidableEq, Repr

/-- Access sizes (R67). -/
inductive Size where
  | b8 | b16 | b32 | b64 | b128
  deriving DecidableEq, Repr

/-- Address spaces (R67). -/
inductive Space where
  | g | x | f
  deriving DecidableEq, Repr

/-- Cache hints (R67). -/
inductive Hint where
  | normal | stream | keep
  deriving DecidableEq, Repr

/-- Scopes (R82, R144). -/
inductive Scope where
  | lane | core | quad | die | pkg | pod
  deriving DecidableEq, Repr

/-- Orderings (R63, R68). -/
inductive Ord where
  | rlx | acq | rel | ar
  deriving DecidableEq, Repr

/-- The address operand of a Format M word (R67, R69). -/
structure Addr where
  base : Fin 32
  off  : Option (Fin 256)
  imm  : BitVec 12
  deriving DecidableEq, Repr

/-- Packed 16-bit element formats (R106). -/
inductive PFmt where
  | b16 | h16 | t16
  deriving DecidableEq, Repr

/-- Types of the narrow distance instructions vdot8 and vl2d8 (R112). -/
inductive NFmt where
  | t8 | i8 | n8
  deriving DecidableEq, Repr

/-- The rounding or saturation modifier of vdot8 and vl2d8 (R112). -/
inductive NMod where
  | rm (m : Rm) | sat (b : Bool)
  deriving DecidableEq, Repr

/-- The tag that movi's function selects (R97). -/
inductive MoviTag where
  | i32 | n32 | f32 | raw
  deriving DecidableEq, Repr

/-- Operations of atom (R252). -/
inductive AOp where
  | add | minS | maxS | minN | maxN | and | or | exch
  deriving DecidableEq, Repr

/-- Exact cell kinds (R49). -/
inductive EaKind where
  | ea160 | ea320
  deriving DecidableEq, Repr

/-- Cell kinds of ldsum (R257). -/
inductive SumKind where
  | int | ea160 | ea320
  deriving DecidableEq, Repr

/-- vote's forms with their destination (R171); `none` is `_`. -/
inductive VoteOp where
  | any (pd : Option (Fin 16)) | all (pd : Option (Fin 16)) | ballot (d : Dst)
  deriving DecidableEq, Repr

/-- shfl's modes (R172). -/
inductive ShflMode where
  | idx | xor | up | down
  deriving DecidableEq, Repr

/-- credi's operations (R174). -/
inductive RedOp where
  | add | min | max | and | or | xor
  deriving DecidableEq, Repr

/-- credf's operations (R175). -/
inductive FRedOp where
  | sum (m : Rm) | min | max
  deriving DecidableEq, Repr

/-- cscan's operations (R176). -/
inductive ScanOp where
  | add | min | max
  deriving DecidableEq, Repr

/-- cscan's types (R176). -/
inductive ScanTy where
  | s | n | f
  deriving DecidableEq, Repr

/-- Sparsity patterns (R312). -/
inductive Pattern where
  | p24 | p14 | p48
  deriving DecidableEq, Repr

/-- acdrain's kinds with their operands (R326). -/
inductive DrainKind where
  | tile (t : Fin 64) (m : Rm) | f32 (x y : Op64) (m : Rm) | add160 (x y : Op64) | add320 (x y : Op64)
  deriving DecidableEq, Repr

/-- The words of a tree as they are fetched (R76 to R80): the header, the node words, the arc words and the target words. -/
structure TreeWords where
  header  : DWord
  nodes   : List DWord
  arcs    : List DWord
  targets : List DWord
  deriving DecidableEq, Repr

/-- What an uncorrectable error strikes (R204): a byte of memory by physical address, a byte of a core's unified store, or a window
entry of a fibre. -/
inductive ErrAt where
  | mem (pa : Nat) | store (core addr : Nat) | reg (fibre entry : Nat) | sreg (team n : Nat)
  | l1 (core line granule : Nat) | rdc (die line granule : Nat)
  deriving DecidableEq, Repr

/-- What a commit of another module asks of a line's home (R232): its reservation, for a module; or, where it holds that, the write of its masked bytes, none
where the commit has failed, with the release. -/
inductive CommitStep where
  | take (module : Nat) | write (mask : BitVec 128) (data : BitVec 1024)
  deriving DecidableEq, Repr

/-- Who watches a line (R239): a fibre of this module, a shawm thread, a port engine, or a fibre of another module. -/
inductive Watcher where
  | fibre (key : Nat) | thread (q : Nat) | port (n : Nat) | far (mod die key : Nat)
  deriving DecidableEq, Repr

/-- What the boot ROM finds as its sequence goes on (R442): at power-up, whether the fuses can be read; from the training, the bundles that did
not come up, as die and bundle; an address on the port being tried; and at the end, whether the memory could be initialised. -/
inductive BootInput where
  | begin (fuseOk : Bool)
  | train (down : List (Nat × Nat))
  | address (server : BitVec 128) (file : BitVec 512)
  | finish (memOk : Bool)
  deriving DecidableEq, Repr

end Sys2Proof
end

