-- ==== Sys2Proof/Syntax.lean ====
section
/-! DEFINITION. The steps of the device, one constructor per row of spec/opcode_table.json. The first 136 and the last are
instructions that a fibre issues; the others are indivisible steps of the device's other agents (spec/95), whose arguments
name the agent and carry what comes from outside the module. -/

namespace Sys2Proof

inductive Instr where
  -- major 0x00: integer (R86)
  | iadd (c : Ctl) (t : Sgn) (sat : Bool) (d : Dst) (a b : Src)
  | isub (c : Ctl) (t : Sgn) (sat : Bool) (d : Dst) (a b : Src)
  | imul (c : Ctl) (t : Sgn) (sat : Bool) (d : Dst) (a b : Src)
  | imulh (c : Ctl) (t : Sgn) (d : Dst) (a b : Src)
  | imad (c : Ctl) (t : Sgn) (sat : Bool) (d : Dst) (a b x : Src)
  | idiv (c : Ctl) (t : Sgn) (d : Dst) (a b : Src)
  | irem (c : Ctl) (t : Sgn) (d : Dst) (a b : Src)
  | imin (c : Ctl) (t : Sgn) (d : Dst) (a b : Src)
  | imax (c : Ctl) (t : Sgn) (d : Dst) (a b : Src)
  | iabs (c : Ctl) (sat : Bool) (d : Dst) (a : Src)
  | ineg (c : Ctl) (sat : Bool) (d : Dst) (a : Src)
  | icmp (c : Ctl) (t : Sgn) (cd : ICond) (pd : Option (Fin 16)) (a b : Src)
  -- major 0x01: bitwise (R90)
  | and (c : Ctl) (d : Dst) (a b : Src)
  | or (c : Ctl) (d : Dst) (a b : Src)
  | xor (c : Ctl) (d : Dst) (a b : Src)
  | andn (c : Ctl) (d : Dst) (a b : Src)
  | not (c : Ctl) (d : Dst) (a : Src)
  | shl (c : Ctl) (d : Dst) (a b : Src)
  | shr (c : Ctl) (d : Dst) (a b : Src)
  | sha (c : Ctl) (d : Dst) (a b : Src)
  | rot (c : Ctl) (d : Dst) (a b : Src)
  | popc (c : Ctl) (d : Dst) (a : Src)
  | clz (c : Ctl) (d : Dst) (a : Src)
  | ctz (c : Ctl) (d : Dst) (a : Src)
  | brev (c : Ctl) (d : Dst) (a : Src)
  | bfx (c : Ctl) (t : Sgn) (d : Dst) (a b : Src)
  | bfi (c : Ctl) (d : Dst) (a b x : Src)
  -- major 0x02: address, move, select (R93 to R96)
  | lea (c : Ctl) (sh : Fin 5) (d : Dst64) (a : Op64) (b : Src)
  | addc (c : Ctl) (d : Dst64) (a b : Op64)
  | mov (c : Ctl) (d : Dst) (a : Src)
  | sel (c : Ctl) (d : Dst) (p : Fin 16) (b x : Src)
  | plog (c : Ctl) (tt : Fin 16) (pd : Option (Fin 16)) (pa pb : Fin 16)
  -- majors 0x03 and 0x04: immediates (R97, R98)
  | movi (c : Ctl) (t : MoviTag) (d : Dst) (imm : Word)
  | movw (c : Ctl) (d : MovwDst) (imm : DWord)
  -- major 0x20: FP32 (R99)
  | fadd (c : Ctl) (m : Rm) (d : Dst) (a b : Src)
  | fsub (c : Ctl) (m : Rm) (d : Dst) (a b : Src)
  | fmul (c : Ctl) (m : Rm) (d : Dst) (a b : Src)
  | ffma (c : Ctl) (m : Rm) (d : Dst) (a b x : Src)
  | fmin (c : Ctl) (d : Dst) (a b : Src)
  | fmax (c : Ctl) (d : Dst) (a b : Src)
  | fabs (c : Ctl) (d : Dst) (a : Src)
  | fneg (c : Ctl) (d : Dst) (a : Src)
  | fcmp (c : Ctl) (cd : FCond) (pd : Option (Fin 16)) (a b : Src)
  | fdiv (c : Ctl) (m : Rm) (d : Dst) (a b : Src)
  | fsqrt (c : Ctl) (m : Rm) (d : Dst) (a : Src)
  | frcp (c : Ctl) (m : Rm) (d : Dst) (a : Src)
  | fexp2 (c : Ctl) (m : Rm) (d : Dst) (a : Src)
  | flog2 (c : Ctl) (m : Rm) (d : Dst) (a : Src)
  | frnd (c : Ctl) (m : Rm) (d : Dst) (a : Src)
  | fcls (c : Ctl) (d : Dst) (a : Src)
  -- majors 0x30 to 0x34: packed pairs, conversions (R106 to R111)
  | hadd (c : Ctl) (f : PFmt) (m : Rm) (d : Dst) (a b : Src)
  | hmul (c : Ctl) (f : PFmt) (m : Rm) (d : Dst) (a b : Src)
  | hfma (c : Ctl) (f : PFmt) (m : Rm) (d : Dst) (a b x : Src)
  | hmax (c : Ctl) (f : PFmt) (d : Dst) (a b : Src)
  | cvt (c : Ctl) (src dst : Tag) (m : Rm) (d : Dst) (a : Src)
  | pack (c : Ctl) (src dst : Tag) (m : Rm) (d : Dst) (a : Src) (j : Fin 5) (x : Src)
  | unpack (c : Ctl) (src dst : Tag) (m : Rm) (d : Dst) (a : Src) (j : Fin 5)
  | retag (c : Ctl) (t : Tag) (d : Option (Fin 256)) (a : Src)
  -- major 0x38: narrow distances and random numbers (R112)
  | vdot8 (c : Ctl) (f : NFmt) (m : NMod) (d : Dst) (a b x : Src)
  | vdot6 (c : Ctl) (m : Rm) (d : Dst) (a b x : Src)
  | vl2d8 (c : Ctl) (f : NFmt) (m : NMod) (d : Dst) (a b x : Src)
  | vhamm (c : Ctl) (d : Dst) (a b x : Src)
  | vpqd (c : Ctl) (grp : Fin 16) (d : Dst) (a : Src) (sB : Fin 32) (x : Src)
  | vrand (c : Ctl) (f : Bool) (d : Dst) (a : Src)
  -- majors 0x40 to 0x42: control flow (R119 to R128, R66)
  | bra (g : Guard) (off : BitVec 34)
  | dbra (g : Guard) (off : BitVec 34) (ctr : Fin 256)
  | call (g : Guard) (off : BitVec 34) (sh : Fin 33)
  | jmp (g : Guard) (a : Op64)
  | calli (g : Guard) (a : Op64) (sh : Fin 33)
  | ret (g : Guard)
  | nop (g : Guard)
  | frameWord (imm : Word)
  -- majors 0x50 to 0x53: fibres, crews, collectives, budgets (R159 to R179)
  | fork (g : Guard) (off : BitVec 34) (vD : Fin 256)
  | spawn (g : Guard) (off : BitVec 34) (vA : Fin 128)
  | endF (g : Guard)
  | yield (g : Guard)
  | crew (g : Guard) (pd : Option (Fin 16)) (size : Fin 5) (q : Fin 8)
  | join (g : Guard) (pd : Option (Fin 16)) (k : Fin 12) (dl : Option Src) (q : Fin 8)
  | leave (g : Guard) (k : Fin 12) (q : Fin 8)
  | vote (g : Guard) (op : VoteOp) (ps : Fin 16) (q : Fin 8)
  | shfl (g : Guard) (m : ShflMode) (d : Dst) (a b : Src) (q : Fin 8)
  | cbcast (g : Guard) (d : Dst) (a b : Src) (q : Fin 8)
  | credi (g : Guard) (op : RedOp) (t : Sgn) (d : Dst) (a : Src) (q : Fin 8)
  | credf (g : Guard) (op : FRedOp) (d : Dst) (a : Src) (q : Fin 8)
  | cscan (g : Guard) (op : ScanOp) (excl : Bool) (t : ScanTy) (d : Dst) (a : Src) (q : Fin 8)
  | regrow (g : Guard) (pd : Option (Fin 16)) (b : Src) (dl : Option Src)
  | regshrink (g : Guard) (pd : Option (Fin 16)) (b : Src)
  -- majors 0x60 to 0x6E: memory, transactions, barriers, sealing (R129, R130, R248 to R265)
  | ld (c : Ctl) (sz : Size) (sp : Space) (h : Hint) (t : Tag) (d : Dst) (ad : Addr)
  | ldSplit (c : Ctl) (sz : Size) (h : Hint) (t : Tag) (d : Dst) (p : Fin 128) (imm : BitVec 12)
  | st (g : Guard) (sz : Size) (sp : Space) (h : Hint) (x : StSrc) (ad : Addr)
  | stSplit (g : Guard) (sz : Size) (h : Hint) (x : StSrc) (p : Fin 128) (imm : BitVec 12)
  | atom (g : Guard) (op : AOp) (o : Ord) (sc : Scope) (sz : Size) (sp : Space) (d : Fin 256) (nw : Bool) (ad : Addr)
  | acas (g : Guard) (o : Ord) (sc : Scope) (sz : Size) (sp : Space) (d : Fin 256) (nw : Bool) (ad : Addr)
  | eacc (g : Guard) (k : EaKind) (o : Ord) (sc : Scope) (sp : Space) (d : Fin 256) (ad : Addr)
  | earead (c : Ctl) (k : EaKind) (m : Rm) (sp : Space) (d : Option (Fin 256)) (ad : Addr)
  | ldsum (c : Ctl) (k : SumKind) (pod : Bool) (d : Option (Fin 256)) (ad : Addr)
  | ldver (c : Ctl) (sp : Space) (d : Option (Fin 256)) (ad : Addr)
  | stv (g : Guard) (sz : Size) (sp : Space) (d : Fin 256) (nw : Bool) (ad : Addr)
  | pfl (g : Guard) (sp : Space) (h : Hint) (ad : Addr)
  | fence (g : Guard) (o : Ord) (sc : Scope)
  | tbegin (g : Guard) (off : BitVec 34) (dl : DlSrc)
  | otherwise (g : Guard) (off : BitVec 34)
  | tcommit (g : Guard)
  | tabort (g : Guard) (a : Src)
  | retry (g : Guard)
  | tstat (g : Guard) (d : Dst) (ps : Fin 16)
  | bar (g : Guard) (sc : Scope) (d : Dst) (a : Op64)
  | seal (g : Guard) (pod : Bool) (a : Op64) (b : Src)
  | unseal (g : Guard) (pod : Bool) (a : Op64) (b : Src)
  -- majors 0x70 to 0x76: tiles and engines (R312)
  | talloc (g : Guard) (t : Fin 64) (q : Fin 8) (x y : Src)
  | tfree (g : Guard) (t : Fin 64) (q : Fin 8)
  | tinfo (g : Guard) (t : Fin 64) (d : Dst64)
  | tinfoGetexp (g : Guard) (t : Fin 64) (y : Src)
  | tinfoSetexp (g : Guard) (t : Fin 64) (y : Src)
  | xcopy (g : Guard) (q : Fin 8) (x : Src) (y : Op64)
  | xchain (g : Guard) (q : Fin 8) (x : Src) (y : Op64)
  | tmove (g : Guard) (q : Fin 8) (x : Src) (y : Op64)
  | mlds (g : Guard) (t : Fin 64) (q : Fin 8)
  | mma (g : Guard) (swap : Bool) (ad : Option (Fin 64)) (t : Fin 64) (q : Fin 8) (acc : Bool) (x : Src)
  | mmas (g : Guard) (swap : Bool) (pat : Pattern) (ta tb tc : Fin 64) (q : Fin 8) (acc : Bool) (x : Src)
  | acsnap (g : Guard) (tc : Fin 64) (q : Fin 8) (acc : Bool) (d : Dst) (y : Src)
  | acdrain (g : Guard) (q : Fin 8) (acc : Bool) (k : DrainKind)
  | acclr (g : Guard) (all : Bool) (k : EaKind) (q : Fin 8) (acc : Bool)
  | adload (g : Guard) (q : Fin 8) (x y : Src)
  | adinv (g : Guard) (q : Fin 8) (x : Option Src)
  | vprune (g : Guard) (pat : Pattern) (hi : Bool) (ta tb tc : Fin 64) (q : Fin 8) (x y : Src)
  | sift (g : Guard) (strm : Fin 8) (x y : Src)
  | sieveget (g : Guard) (strm : Fin 8) (q : Fin 8) (x : Src)
  | sieveset (g : Guard) (strm : Fin 8) (q : Fin 8) (x : Src)
  | fwalk (g : Guard) (q : Fin 8) (x : Src) (y : Op64)
  -- majors 0x7C and 0x7D: system (R377)
  | trap (g : Guard) (a : Src)
  | rti (g : Guard)
  | brk (g : Guard)
  | rdsys (g : Guard) (d : Dst) (code : Fin 19) (q : Fin 8)
  | wrsys (g : Guard) (mark : Bool) (b : WrSrc)
  -- major 0x7E: trees (R76)
  | tree (t : TreeWords)
  -- encodings that no instruction has (R83)
  | unassignedMajor (w : DWord)
  -- steps of a core and its teams (R138 to R178, R235 to R240)
  | sealingUnitApply
  | tileZeroDone (core entry : Nat)
  | issueSelect (core slot : Nat)
  | colanderWindow (core slot : Nat)
  | slotWatchdog (core slot : Nat)
  | clusterAdmit (launch : Nat) (cores : List Nat)
  | teamRetire (team : Nat)
  | clusterRetireReport (launch pos : Nat)
  | allotmentStep (core : Nat)
  | regrowDeadline (team : Nat)
  | crewEvaluate (core : Nat)
  | txnDeadline (fibre : Nat)
  | wake (fibre : Nat)
  | watch (line ver : Nat) (who : Watcher)
  | watchCancel (who : Watcher)
  -- steps of homes, buffers, caches, links and translation (R195 to R209, R398 to R404)
  | barArrival (ext : Option (Nat × Nat))
  | claim (core line : Nat)
  | wcbDrainTimeout (core line : Nat)
  | wcbDrain (core line : Nat)
  | farAtomic (op : AOp) (pa len : Nat) (x : DWord)
  | loadResponse (core line : Nat)
  | rdcPush (die line ver : Nat) (mask : BitVec 128) (data : BitVec 1024) (poison : BitVec 4)
  | rdcDropNotice (die line : Nat)
  | l1CopyExpiry (core line : Nat)
  | rdcRemoteExpiry (die line : Nat)
  | messageDeliver (die src : Nat)
  | walkComplete (die ctx page : Nat)
  | tlbinvPage (die va ctx : Nat)
  | tlbinvContext (die ctx : Nat)
  | tlbinvAll (die : Nat)
  | tlbinvDone (die : Nat)
  | ldsumGather (id : Nat) (ext : Option (Nat × Int × BitVec 3 × BitVec 2))
  -- steps of the matrix engine (R271 to R296)
  | arbiterGrant (quad : Nat)
  | passPromotion (quad part : Nat)
  | requestStart (quad part : Nat)
  | rowAddition (quad part req row : Nat)
  | passComplete (quad part req : Nat)
  | adapterSliceArrival (quad part id proj kstep nstep : Nat)
  | replaySidePass (quad part req row : Nat)
  | replayAddition (quad part req row : Nat)
  | adapterFault (quad part id proj kstep nstep : Nat)
  | addOnStore (quad part : Nat)
  -- steps of the copy engine, the index engine and the pruning stage (R297 to R310)
  | copyEntryCopy (core cmd : Nat)
  | copyEntryCopymma (core cmd : Nat)
  | copyEntryTmove (core cmd : Nat)
  | copyEntryPrefetch (core cmd : Nat)
  | copyEntryLoop (core cmd : Nat)
  | copyEntrySkipif (core cmd : Nat)
  | copyEntrySignal (core cmd : Nat)
  | copyEntryEnd (core cmd : Nat)
  | completionRecord (id : Nat)
  | indexWalkStart (quad walk : Nat)
  | indexSampleDone (quad walk : Nat)
  | pruneComplete (quad part : Nat)
  -- traps and debug (R342 to R356)
  | halt (team : Nat)
  | haltRecords (team : Nat)
  | nestedFault (team : Nat)
  | asyncEngineFault (team cause : Nat)
  | dbgRelease (core : Nat) (slots : BitVec 16)
  | dbgHaltreq (core : Nat) (slots : BitVec 16)
  | dbgFstop (core : Nat) (slots : BitVec 16)
  -- contexts (R360 to R371)
  | preempt (ctx us : Nat)
  | drainDeadline (ctx : Nat)
  | resetCtx (ctx : Nat)
  | freeze (ctx : Nat)
  | thaw (ctx : Nat)
  | start (ctx : Nat)
  | resume (ctx : Nat)
  | ctxsaveWrite (ctx : Nat) (val : DWord) (root : Nat) (queues : BitVec 32) (frames : List (Nat × Nat))
  -- queues, packets, launches (R408 to R428)
  | qpSubmit (q : Nat) (val : DWord)
  | qpQcbWrite (q : Nat) (val : DWord)
  | qpStatClear (q : Nat) (val : DWord)
  | packetTake (q : Nat)
  | launch (q : Nat)
  | pool (q : Nat)
  | wait (q : Nat)
  | waitDeadline (q : Nat)
  | signal (q : Nat)
  | marker (q : Nat)
  | digest (q : Nat)
  | poolBinForm (launch : Nat) (pc : DWord) (core : Nat)
  | poolEnd (launch : Nat)
  | launchFlush (launch : Nat)
  | flushAnswer (launch die : Nat)
  | launchComplete (launch : Nat)
  | shawmWatchdog (q : Nat)
  | firmwareRestart
  -- control registers (R187, R188, R273, R447 to R453)
  | ubWrite (core : Nat) (which : Fin 3) (val : Nat)
  | mxdirWrite (quad : Nat) (part : Fin 4) (val : DWord)
  | retctlWrite (die : Nat) (val : DWord)
  | retentionReencodeDone (die : Nat) (layer : Fin 4)
  | kheartWrite (val : DWord)
  | kernelStop (fatal : Bool)
  | qenableWrite (val : DWord)
  | modidWrite (val : DWord)
  | podmembWrite (val : DWord)
  -- ports, boot, supply (R439 to R449)
  | podResendTimeout (peer : Nat)
  | podAckTimer (peer : Nat)
  | bootRetry
  | blockRequestTimeout (block : Nat)
  -- completions and the rest of the events
  | nonpassRequestComplete (quad part req : Nat)
  | regrowCopyComplete (team : Nat)
  | waitPacketWake (q : Nat)
  | sievegetDone (core team : Nat)
  | writeAcknowledge (core : Nat)
  | warmRebootDone
  | dhcpPortTimeout
  -- events that only the outside and the resident kernel begin
  | homeWrite (host : Bool) (pa : Nat) (bytes : List Byte)
  | commitReserve (line : Nat) (step : CommitStep)
  | uncorrectableError (e : ErrAt)
  | powerUp (i : BootInput)
  | bootBlockReply (block len : Nat) (data : BitVec 8192)
  | powerLoss (burnt : Bool)
  | droopStretch (die : Nat)
  | linkFlitRetry (die bundle : Nat)
  | attestationReport (nonce : BitVec 256)
  | portDescriptor (desc status : Nat) (data : List Byte)
  | podFrameReceive (src dst flits seq ack : Nat)
  | registerWrite (off : Nat) (val : DWord)
  | loadCodeObject (ctx src code data desc : Nat)
  | proebTranslate (ctx src len code desc : Nat)
  | xlatCacheLookup (key : BitVec 512)
  deriving DecidableEq, Repr

end Sys2Proof
end

