-- ==== Sys2Proof/Config.lean ====
section
/-! DEFINITION. What the implementation or the outside world fixes, and the free values: constants without a body, of which nothing can be
proved. The log entries under notes/assumptions/ name each. -/

namespace Sys2Proof.Config

/-- What the outside world and the agents of other modules do at a clock: the events they put on the agenda (host writes, kernel
commands, debugger writes, frames, errors, foreign accesses). Unconstrained. -/
opaque outside : Nat → List Instr

/-- Whether an agent whose rate or latency the spec leaves open holds back at this draw (R155, R288, R297). Unconstrained. -/
opaque stall : Nat → Bool

/-- A free choice among alternatives that the spec leaves open (R141, R203, R288). Unconstrained. -/
opaque choose : Nat → Nat

/-- The set of the adapter cache that line n of a slice occupies: a function of the slice's tag that the implementation does not disclose
(R288). Unconstrained. -/
opaque adapterSet (part id proj kstep nstep n : Nat) : Nat

/-- A value that the spec leaves open, at a draw (log 9). Unconstrained. -/
opaque freeWord : Nat → DWord

/-- Whether another module of the pod maps the contribution page with a number, which only its own tables say (R210, R409). Unconstrained. -/
opaque podMaps (module page : Nat) : Bool

/-- Whether an Ed448 signature over a digest is one of the key with a digest (RFC 8032, an external standard). -/
opaque signatureOk (key : BitVec 512) (sig : List Byte) (hash : BitVec 512) : Bool

/-- The 114-byte Ed448 signature of bytes by the key pair derived from a 57-byte seed (RFC 8032; R444, R445). -/
opaque edSign (seed : BitVec 456) (bs : List Byte) : BitVec 912

/-- The fuses: the 57-byte identity seed (R444) and the digest of the boot key (R442). -/
opaque seed : BitVec 456
opaque bootKeyDigest : BitVec 512

/-- The digest of the key that the resident kernel accepts for code objects, which it decides itself (R429). -/
opaque objectKeyDigest : BitVec 512

/-- The code that the resident kernel translates a Proeb module into, and the word at which a function of the module begins in it: the
instructions are not fixed by R436. -/
opaque proebCode : List Byte → List Byte
opaque proebEntry : List Byte → Nat → Nat

/-- The shims of the signed library that an image's data section holds, as the two words of a feature-table entry (R431, R442). -/
opaque shimLibrary : List Byte → List (DWord × DWord)

/-- The line of far memory from which the boot ROM loads the image, which the spec does not give (R442, R448). -/
opaque imageLine : Nat

/-- Clocks to a dependent instruction of a load that L1, L2 or near memory, or far memory serves (R155). -/
def latL1 : Nat := 30
def latNear : Nat := 160
def latFar : Nat := 600

/-- Clocks in a microsecond: 1.5 GHz (R8). -/
def clocksPerUs : Nat := 1500

end Sys2Proof.Config
end

