-- ==== Sys2Proof/Decode.lean ====
section
/-! DEFINITION. The decoder of instruction words and, after it, the encoder (R55 to R83 and the field tables R86 to R130,
R159, R248 to R265, R312, R377). Checks follow the order of R56; the step that fails, and for step 5 the selector, are
the AUX of ILLEGAL (R340). -/

namespace Sys2Proof

/-- Why a word is refused: too few words were given, or a check of R56 failed (its step, and the selector of step 5). -/
inductive DecErr where
  | truncated
  | illegal (step sel : Nat)
  deriving DecidableEq, Repr

abbrev Dec (α : Type) := Except DecErr α

/-- Bits [lo + n - 1 : lo] of w. -/
def fld (w lo n : Nat) : Nat := w / 2 ^ lo % 2 ^ n

/-- A check of R56 step `st`. -/
def ck (b : Bool) (st : Nat) : Dec Unit := if b then .ok () else .error (.illegal st 0)

/-- A failing selector (R56 step 5). -/
def badSel {α : Type} (x : Nat) : Dec α := .error (.illegal 5 x)

/-! The word formats. -/

/-- The fields of a Format A word below its major opcode (R62). -/
structure FA where
  (fn ty d a b c pr ng w cb md : Nat)
  deriving DecidableEq, Repr

def FA.split (w : Nat) : FA :=
  { fn := fld w 51 6, ty := fld w 47 4, d := fld w 38 9, a := fld w 29 9, b := fld w 20 9, c := fld w 11 9,
    pr := fld w 7 4, ng := fld w 6 1, w := fld w 5 1, cb := fld w 4 1, md := fld w 0 4 }

def FA.join (mj : Nat) (f : FA) : Nat :=
  mj * 2 ^ 57 + f.fn * 2 ^ 51 + f.ty * 2 ^ 47 + f.d * 2 ^ 38 + f.a * 2 ^ 29 + f.b * 2 ^ 20 + f.c * 2 ^ 11 + f.pr * 2 ^ 7
    + f.ng * 2 ^ 6 + f.w * 2 ^ 5 + f.cb * 2 ^ 4 + f.md

/-- The fields of a Format I word (R64). -/
structure FI where
  (fn d imm pr ng w cb md : Nat)
  deriving DecidableEq, Repr

def FI.split (w : Nat) : FI :=
  { fn := fld w 51 6, d := fld w 42 9, imm := fld w 10 32, pr := fld w 6 4, ng := fld w 5 1, w := fld w 4 1,
    cb := fld w 3 1, md := fld w 0 3 }

def FI.join (mj : Nat) (f : FI) : Nat :=
  mj * 2 ^ 57 + f.fn * 2 ^ 51 + f.d * 2 ^ 42 + f.imm * 2 ^ 10 + f.pr * 2 ^ 6 + f.ng * 2 ^ 5 + f.w * 2 ^ 4 + f.cb * 2 ^ 3
    + f.md

/-- The fields of a Format M word (R67). -/
structure FM where
  (fn sz sp h dt base off imm pr ng w cb md : Nat)
  deriving DecidableEq, Repr

def FM.split (w : Nat) : FM :=
  { fn := fld w 51 6, sz := fld w 48 3, sp := fld w 46 2, h := fld w 44 2, dt := fld w 35 9, base := fld w 30 5,
    off := fld w 21 9, imm := fld w 9 12, pr := fld w 5 4, ng := fld w 4 1, w := fld w 3 1, cb := fld w 2 1,
    md := fld w 0 2 }

def FM.join (mj : Nat) (f : FM) : Nat :=
  mj * 2 ^ 57 + f.fn * 2 ^ 51 + f.sz * 2 ^ 48 + f.sp * 2 ^ 46 + f.h * 2 ^ 44 + f.dt * 2 ^ 35 + f.base * 2 ^ 30
    + f.off * 2 ^ 21 + f.imm * 2 ^ 9 + f.pr * 2 ^ 5 + f.ng * 2 ^ 4 + f.w * 2 ^ 3 + f.cb * 2 ^ 2 + f.md

/-- The fields of a Format B word (R70). -/
structure FB where
  (fn pr ng off aux rsv : Nat)
  deriving DecidableEq, Repr

def FB.split (w : Nat) : FB :=
  { fn := fld w 51 6, pr := fld w 47 4, ng := fld w 46 1, off := fld w 12 34, aux := fld w 3 9, rsv := fld w 0 3 }

def FB.join (mj : Nat) (f : FB) : Nat :=
  mj * 2 ^ 57 + f.fn * 2 ^ 51 + f.pr * 2 ^ 47 + f.ng * 2 ^ 46 + f.off * 2 ^ 12 + f.aux * 2 ^ 3 + f.rsv

/-- The fields of a Format T word (R71). -/
structure FT where
  (fn ta tb tc q acc x y pr ng w cb md : Nat)
  deriving DecidableEq, Repr

def FT.split (w : Nat) : FT :=
  { fn := fld w 51 6, ta := fld w 45 6, tb := fld w 39 6, tc := fld w 33 6, q := fld w 30 3, acc := fld w 29 1,
    x := fld w 20 9, y := fld w 11 9, pr := fld w 7 4, ng := fld w 6 1, w := fld w 5 1, cb := fld w 4 1, md := fld w 0 4 }

def FT.join (mj : Nat) (f : FT) : Nat :=
  mj * 2 ^ 57 + f.fn * 2 ^ 51 + f.ta * 2 ^ 45 + f.tb * 2 ^ 39 + f.tc * 2 ^ 33 + f.q * 2 ^ 30 + f.acc * 2 ^ 29
    + f.x * 2 ^ 20 + f.y * 2 ^ 11 + f.pr * 2 ^ 7 + f.ng * 2 ^ 6 + f.w * 2 ^ 5 + f.cb * 2 ^ 4 + f.md

/-! Operand fields. -/

def toGuard (pr ng : Nat) : Guard := ⟨Fin.ofNat 16 pr, ng == 1⟩

def FA.guard (f : FA) : Guard := toGuard f.pr f.ng
def FA.ctl (f : FA) : Ctl := ⟨f.guard, f.cb == 1⟩
def FI.ctl (f : FI) : Ctl := ⟨toGuard f.pr f.ng, f.cb == 1⟩
def FM.guard (f : FM) : Guard := toGuard f.pr f.ng
def FM.ctl (f : FM) : Ctl := ⟨f.guard, f.cb == 1⟩
def FB.guard (f : FB) : Guard := toGuard f.pr f.ng
def FT.guard (f : FT) : Guard := toGuard f.pr f.ng

/-- A read-only special (R58). -/
def decSpecial (x : Nat) : Option Special :=
  if x = 0x130 then some .zero else if x = 0x131 then some .ones else if x = 0x132 then some .lane
  else if x = 0x133 then some .fidx else if x = 0x134 then some .gfidl else if x = 0x135 then some .gfidh
  else if x < 0x136 then none else if x < 0x13E then some (.rank (Fin.ofNat 8 (x - 0x136)))
  else if x = 0x13E then some .teamsize else none

/-- A source selector (R57). -/
def decSrc (x : Nat) : Dec Src :=
  if x < 0x100 then .ok (.v (Fin.ofNat 256 x))
  else if x < 0x120 then .ok (.s (Fin.ofNat 32 (x - 0x100)))
  else if x < 0x124 then .ok (.b (Fin.ofNat 4 (x - 0x120)))
  else if x < 0x140 then (match decSpecial x with | some p => .ok (.sp p) | none => badSel x)
  else if x < 0x1C0 then .ok (.int (Fin.ofNat 128 (x - 0x140)))
  else if x < 0x200 then .ok (.fc (Fin.ofNat 64 (x - 0x1C0)))
  else badSel x

/-- A register destination; with W = 1 the field is zero (R61), which step 4 has checked. -/
def decDst (w x : Nat) : Dec Dst :=
  if w = 1 then .ok .none
  else if x < 0x100 then .ok (.v (Fin.ofNat 256 x))
  else if x < 0x120 then .ok (.s (Fin.ofNat 32 (x - 0x100)))
  else badSel x

/-- A destination that must be a v-register (R111, R255 to R258). -/
def decVDst (w x : Nat) : Dec (Option (Fin 256)) :=
  if w = 1 then .ok none else if x < 0x100 then .ok (some (Fin.ofNat 256 x)) else badSel x

/-- A v-register operand. -/
def decV (x : Nat) : Dec (Fin 256) := if x < 0x100 then .ok (Fin.ofNat 256 x) else badSel x

/-- An even v-register, given by its half number (R31). -/
def decPair (x : Nat) : Dec (Fin 128) :=
  if x < 0x100 ∧ x % 2 = 0 then .ok (Fin.ofNat 128 (x / 2)) else badSel x

/-- An s-register operand. -/
def decS (x : Nat) : Dec (Fin 32) := if 0x100 ≤ x ∧ x < 0x120 then .ok (Fin.ofNat 32 (x - 0x100)) else badSel x

/-- A predicate number (R60). -/
def decP (x : Nat) : Dec (Fin 16) := if x < 16 then .ok (Fin.ofNat 16 x) else badSel x

/-- A predicate destination (R60, R61). -/
def decPDst (w x : Nat) : Dec (Option (Fin 16)) :=
  if w = 1 then .ok none else if x < 16 then .ok (some (Fin.ofNat 16 x)) else badSel x

/-- A 64-bit operand (R93). -/
def decOp64 (x : Nat) : Dec Op64 :=
  if x < 0x100 ∧ x % 2 = 0 then .ok (.pair (Fin.ofNat 128 (x / 2)))
  else if 0x100 ≤ x ∧ x < 0x120 then .ok (.s (Fin.ofNat 32 (x - 0x100)))
  else badSel x

/-- A 64-bit destination (R93). -/
def decDst64 (w x : Nat) : Dec Dst64 :=
  if w = 1 then .ok .none
  else if x < 0x100 ∧ x % 2 = 0 then .ok (.pair (Fin.ofNat 128 (x / 2)))
  else if 0x100 ≤ x ∧ x < 0x120 then .ok (.s (Fin.ofNat 32 (x - 0x100)))
  else badSel x

/-- A crew field in a selector (R159). -/
def decCrew (x : Nat) : Dec (Fin 8) := if x < 8 then .ok (Fin.ofNat 8 x) else badSel x

/-- A mask field in a selector (R159). -/
def decMask (x : Nat) : Dec (Fin 12) := if x < 12 then .ok (Fin.ofNat 12 x) else badSel x

/-- An inline integer below `n`, given as a number (R109, R124). -/
def decInl (n : Nat) [NeZero n] (x : Nat) : Dec (Fin n) :=
  if 0x180 ≤ x ∧ x < 0x180 + n then .ok (Fin.ofNat n (x - 0x180)) else badSel x

def decSgn (x : Nat) : Dec Sgn :=
  if x = 1 then .ok .s else if x = 2 then .ok .n else .error (.illegal 3 0)

def decRm (x : Nat) : Dec Rm :=
  match x with
  | 0 => .ok .rne | 1 => .ok .rtz | 2 => .ok .rdn | 3 => .ok .rup
  | _ => .error (.illegal 4 0)

def decICond (x : Nat) : Dec ICond :=
  match x with
  | 0 => .ok .eq | 1 => .ok .ne | 2 => .ok .lt | 3 => .ok .le | 4 => .ok .gt | 5 => .ok .ge
  | _ => .error (.illegal 4 0)

def decFCond (x : Nat) : Dec FCond :=
  match x with
  | 8 => .ok .oeq | 9 => .ok .one | 10 => .ok .olt | 11 => .ok .ole | 12 => .ok .ogt | 13 => .ok .oge
  | 14 => .ok .uno | 15 => .ok .ord
  | _ => .error (.illegal 4 0)

def decTag (x : Nat) : Option Tag :=
  match x with
  | 0 => some .raw | 1 => some .i32 | 2 => some .n32 | 3 => some .f32 | 4 => some .b16x2 | 5 => some .h16x2
  | 6 => some .t16x2 | 7 => some .t8x4 | 8 => some .i8x4 | 9 => some .n8x4 | 10 => some .t6x5 | 11 => some .p64l
  | 12 => some .p64h | 13 => some .resD | 14 => some .resE | 15 => some .resF
  | _ => none

/-- The number of elements of a tag (R43); 0 for tags without elements. -/
def Tag.count : Tag → Nat
  | .i32 | .n32 | .f32 => 1
  | .b16x2 | .h16x2 | .t16x2 => 2
  | .t8x4 | .i8x4 | .n8x4 => 4
  | .t6x5 => 5
  | _ => 0

def decSize (x : Nat) : Dec Size :=
  match x with
  | 0 => .ok .b8 | 1 => .ok .b16 | 2 => .ok .b32 | 3 => .ok .b64 | 4 => .ok .b128
  | _ => .error (.illegal 4 0)

def decSpace (x : Nat) : Dec Space :=
  match x with
  | 0 => .ok .g | 1 => .ok .x | 2 => .ok .f
  | _ => .error (.illegal 4 0)

def decHint (x : Nat) : Dec Hint :=
  match x with
  | 0 => .ok .normal | 1 => .ok .stream | 2 => .ok .keep
  | _ => .error (.illegal 4 0)

def decScope (x : Nat) : Option Scope :=
  match x with
  | 0 => some .lane | 1 => some .core | 2 => some .quad | 3 => some .die | 4 => some .pkg | 5 => some .pod
  | _ => none

def decOrd (x : Nat) : Dec Ord :=
  match x with
  | 0 => .ok .rlx | 1 => .ok .acq | 2 => .ok .rel | 3 => .ok .ar
  | _ => .error (.illegal 4 0)

def decAOp (x : Nat) : AOp :=
  match x with
  | 0 => .add | 1 => .minS | 2 => .maxS | 3 => .minN | 4 => .maxN | 5 => .and | 6 => .or | _ => .exch

def decPattern (x : Nat) : Dec Pattern :=
  match x with
  | 1 => .ok .p24 | 2 => .ok .p14 | 3 => .ok .p48
  | _ => .error (.illegal 4 0)

/-- The offset selector of a memory operand (R67). -/
def decOff (x : Nat) : Dec (Option (Fin 256)) :=
  if x < 0x100 then .ok (some (Fin.ofNat 256 x)) else if x = 0x130 then .ok none else badSel x

def FM.addr (f : FM) : Dec Addr := do
  let o ← decOff f.off
  pure ⟨Fin.ofNat 32 f.base, o, BitVec.ofNat 12 f.imm⟩

/-! Which functions a major lists (R82). -/

def fnListed (mj fn : Nat) : Bool :=
  match mj with
  | 0x00 => fn ≤ 0x0B
  | 0x01 => fn ≤ 0x0E
  | 0x02 => fn ≤ 0x04
  | 0x03 => fn ≤ 0x03
  | 0x04 => fn ≤ 0x01
  | 0x20 => fn ≤ 0x0F
  | 0x30 => fn ≤ 0x03
  | 0x31 => 1 ≤ fn && fn ≤ 0x0A
  | 0x32 => 1 ≤ fn && fn ≤ 0x0A
  | 0x33 => 1 ≤ fn && fn ≤ 0x0A
  | 0x34 => fn == 0
  | 0x38 => fn ≤ 0x05
  | 0x40 => fn ≤ 0x02
  | 0x41 => fn ≤ 0x03
  | 0x42 => fn == 0
  | 0x50 => fn ≤ 0x01
  | 0x51 => fn ≤ 0x01
  | 0x52 => fn ≤ 0x08
  | 0x53 => fn ≤ 0x01
  | 0x60 => fn ≤ 0x0C
  | 0x61 => fn == 0
  | 0x62 => fn / 8 ≤ 5
  | 0x63 => fn / 8 ≤ 5 && fn % 8 == 0
  | 0x64 => fn / 8 ≤ 5 && fn % 8 ≤ 1
  | 0x65 => fn ≤ 0x01
  | 0x66 => fn ≤ 0x02
  | 0x67 => fn == 0
  | 0x68 => fn == 0
  | 0x69 => fn == 0
  | 0x6A => fn ≤ 0x05
  | 0x6B => fn ≤ 0x01
  | 0x6C => fn ≤ 0x03
  | 0x6D => 1 ≤ fn && fn ≤ 0x05
  | 0x6E => fn ≤ 0x01
  | 0x70 => fn ≤ 0x02
  | 0x71 => fn ≤ 0x02
  | 0x72 => fn ≤ 0x05
  | 0x73 => fn ≤ 0x01
  | 0x74 => fn == 0
  | 0x75 => fn ≤ 0x02
  | 0x76 => fn == 0
  | 0x7C => fn ≤ 0x02
  | 0x7D => fn ≤ 0x01
  | 0x7E => true
  | _ => false

/-- Whether a word's major is unassigned or its function unlisted (R83). -/
def unassigned (w : Nat) : Bool := ! fnListed (fld w 57 7) (fld w 51 6)

/-! Format A instructions. W = 1 needs a zero destination field (R61). -/

def FA.wOk (f : FA) : Bool := f.w == 0 || f.d == 0

def FA.k1 (f : FA) (k : Dst → Src → Instr) : Dec Instr := do
  let d ← decDst f.w f.d
  let a ← decSrc f.a
  pure (k d a)

def FA.k2 (f : FA) (k : Dst → Src → Src → Instr) : Dec Instr := do
  let d ← decDst f.w f.d
  let a ← decSrc f.a
  let b ← decSrc f.b
  pure (k d a b)

def FA.k3 (f : FA) (k : Dst → Src → Src → Src → Instr) : Dec Instr := do
  let d ← decDst f.w f.d
  let a ← decSrc f.a
  let b ← decSrc f.b
  let c ← decSrc f.c
  pure (k d a b c)

/-- Major 0x00 (R86). -/
def decInt (f : FA) : Dec Instr :=
  let tag (k : Sgn → Dec Instr) : Dec Instr := do let t ← decSgn f.ty; k t
  let sgnOnly (k : Dec Instr) : Dec Instr := do ck (f.ty == 1) 3; k
  match f.fn with
  | 0x00 => tag fun t => do ck (f.c == 0 && f.md ≤ 1 && f.wOk) 4; f.k2 (.iadd f.ctl t (f.md == 1))
  | 0x01 => tag fun t => do ck (f.c == 0 && f.md ≤ 1 && f.wOk) 4; f.k2 (.isub f.ctl t (f.md == 1))
  | 0x02 => tag fun t => do ck (f.c == 0 && f.md ≤ 1 && f.wOk) 4; f.k2 (.imul f.ctl t (f.md == 1))
  | 0x03 => tag fun t => do ck (f.c == 0 && f.md == 0 && f.wOk) 4; f.k2 (.imulh f.ctl t)
  | 0x04 => tag fun t => do ck (f.md ≤ 1 && f.wOk) 4; f.k3 (.imad f.ctl t (f.md == 1))
  | 0x05 => tag fun t => do ck (f.c == 0 && f.md == 0 && f.wOk) 4; f.k2 (.idiv f.ctl t)
  | 0x06 => tag fun t => do ck (f.c == 0 && f.md == 0 && f.wOk) 4; f.k2 (.irem f.ctl t)
  | 0x07 => tag fun t => do ck (f.c == 0 && f.md == 0 && f.wOk) 4; f.k2 (.imin f.ctl t)
  | 0x08 => tag fun t => do ck (f.c == 0 && f.md == 0 && f.wOk) 4; f.k2 (.imax f.ctl t)
  | 0x09 => sgnOnly do ck (f.b == 0 && f.c == 0 && f.md ≤ 1 && f.wOk) 4; f.k1 (.iabs f.ctl (f.md == 1))
  | 0x0A => sgnOnly do ck (f.b == 0 && f.c == 0 && f.md ≤ 1 && f.wOk) 4; f.k1 (.ineg f.ctl (f.md == 1))
  | 0x0B => tag fun t => do
      ck (f.c == 0 && f.wOk) 4
      let cd ← decICond f.md
      let pd ← decPDst f.w f.d
      let a ← decSrc f.a
      let b ← decSrc f.b
      pure (.icmp f.ctl t cd pd a b)
  | _ => .error (.illegal 2 0)

/-- Major 0x01 (R90). -/
def decBit (f : FA) : Dec Instr :=
  let k2 (k : Dst → Src → Src → Instr) : Dec Instr := do
    ck (f.ty == 0) 3; ck (f.c == 0 && f.md == 0 && f.wOk) 4; f.k2 k
  let k1 (k : Dst → Src → Instr) : Dec Instr := do
    ck (f.ty == 0) 3; ck (f.b == 0 && f.c == 0 && f.md == 0 && f.wOk) 4; f.k1 k
  match f.fn with
  | 0x00 => k2 (.and f.ctl)
  | 0x01 => k2 (.or f.ctl)
  | 0x02 => k2 (.xor f.ctl)
  | 0x03 => k2 (.andn f.ctl)
  | 0x04 => k1 (.not f.ctl)
  | 0x05 => k2 (.shl f.ctl)
  | 0x06 => k2 (.shr f.ctl)
  | 0x07 => k2 (.sha f.ctl)
  | 0x08 => k2 (.rot f.ctl)
  | 0x09 => k1 (.popc f.ctl)
  | 0x0A => k1 (.clz f.ctl)
  | 0x0B => k1 (.ctz f.ctl)
  | 0x0C => k1 (.brev f.ctl)
  | 0x0D => do let t ← decSgn f.ty; ck (f.c == 0 && f.md == 0 && f.wOk) 4; f.k2 (.bfx f.ctl t)
  | 0x0E => do ck (f.ty == 0) 3; ck (f.md == 0 && f.wOk) 4; f.k3 (.bfi f.ctl)
  | _ => .error (.illegal 2 0)

/-- Major 0x02 (R93 to R96). -/
def decAddr (f : FA) : Dec Instr := do
  ck (f.ty == 0) 3
  match f.fn with
  | 0x00 => do
      ck (f.c == 0 && f.md ≤ 4 && f.wOk) 4
      let d ← decDst64 f.w f.d
      let a ← decOp64 f.a
      let b ← decSrc f.b
      pure (.lea f.ctl (Fin.ofNat 5 f.md) d a b)
  | 0x01 => do
      ck (f.c == 0 && f.md == 0 && f.wOk) 4
      let d ← decDst64 f.w f.d
      let a ← decOp64 f.a
      let b ← decOp64 f.b
      pure (.addc f.ctl d a b)
  | 0x02 => do ck (f.b == 0 && f.c == 0 && f.md == 0 && f.wOk) 4; f.k1 (.mov f.ctl)
  | 0x03 => do
      ck (f.md == 0 && f.wOk) 4
      let d ← decDst f.w f.d
      let p ← decP f.a
      let b ← decSrc f.b
      let c ← decSrc f.c
      pure (.sel f.ctl d p b c)
  | 0x04 => do
      ck (f.c == 0 && f.wOk) 4
      let pd ← decPDst f.w f.d
      let pa ← decP f.a
      let pb ← decP f.b
      pure (.plog f.ctl (Fin.ofNat 16 f.md) pd pa pb)
  | _ => .error (.illegal 2 0)

/-- Major 0x20 (R99). -/
def decFp (f : FA) : Dec Instr := do
  ck (f.ty == 3) 3
  match f.fn with
  | 0x00 => do ck (f.c == 0 && f.wOk) 4; let m ← decRm f.md; f.k2 (.fadd f.ctl m)
  | 0x01 => do ck (f.c == 0 && f.wOk) 4; let m ← decRm f.md; f.k2 (.fsub f.ctl m)
  | 0x02 => do ck (f.c == 0 && f.wOk) 4; let m ← decRm f.md; f.k2 (.fmul f.ctl m)
  | 0x03 => do ck f.wOk 4; let m ← decRm f.md; f.k3 (.ffma f.ctl m)
  | 0x04 => do ck (f.c == 0 && f.md == 0 && f.wOk) 4; f.k2 (.fmin f.ctl)
  | 0x05 => do ck (f.c == 0 && f.md == 0 && f.wOk) 4; f.k2 (.fmax f.ctl)
  | 0x06 => do ck (f.b == 0 && f.c == 0 && f.md == 0 && f.wOk) 4; f.k1 (.fabs f.ctl)
  | 0x07 => do ck (f.b == 0 && f.c == 0 && f.md == 0 && f.wOk) 4; f.k1 (.fneg f.ctl)
  | 0x08 => do
      ck (f.c == 0 && f.wOk) 4
      let cd ← decFCond f.md
      let pd ← decPDst f.w f.d
      let a ← decSrc f.a
      let b ← decSrc f.b
      pure (.fcmp f.ctl cd pd a b)
  | 0x09 => do ck (f.c == 0 && f.wOk) 4; let m ← decRm f.md; f.k2 (.fdiv f.ctl m)
  | 0x0A => do ck (f.b == 0 && f.c == 0 && f.wOk) 4; let m ← decRm f.md; f.k1 (.fsqrt f.ctl m)
  | 0x0B => do ck (f.b == 0 && f.c == 0 && f.wOk) 4; let m ← decRm f.md; f.k1 (.frcp f.ctl m)
  | 0x0C => do ck (f.b == 0 && f.c == 0 && f.wOk) 4; let m ← decRm f.md; f.k1 (.fexp2 f.ctl m)
  | 0x0D => do ck (f.b == 0 && f.c == 0 && f.wOk) 4; let m ← decRm f.md; f.k1 (.flog2 f.ctl m)
  | 0x0E => do ck (f.b == 0 && f.c == 0 && f.wOk) 4; let m ← decRm f.md; f.k1 (.frnd f.ctl m)
  | 0x0F => do ck (f.b == 0 && f.c == 0 && f.md == 0 && f.wOk) 4; f.k1 (.fcls f.ctl)
  | _ => .error (.illegal 2 0)

def decPFmt (x : Nat) : Dec PFmt :=
  match x with
  | 4 => .ok .b16 | 5 => .ok .h16 | 6 => .ok .t16
  | _ => .error (.illegal 3 0)

/-- A rounding mode for a packed format: tapered targets take modifier 0 only (R40, R106). -/
def decPRm (t : PFmt) (x : Nat) : Dec Rm := do
  ck (t != .t16 || x == 0) 4
  decRm x

/-- Major 0x30 (R106). -/
def decPack (f : FA) : Dec Instr := do
  let t ← decPFmt f.ty
  match f.fn with
  | 0x00 => do ck (f.c == 0 && f.wOk) 4; let m ← decPRm t f.md; f.k2 (.hadd f.ctl t m)
  | 0x01 => do ck (f.c == 0 && f.wOk) 4; let m ← decPRm t f.md; f.k2 (.hmul f.ctl t m)
  | 0x02 => do ck f.wOk 4; let m ← decPRm t f.md; f.k3 (.hfma f.ctl t m)
  | 0x03 => do ck (f.c == 0 && f.md == 0 && f.wOk) 4; f.k2 (.hmax f.ctl t)
  | _ => .error (.illegal 2 0)

/-- Whether a tag is one of the tapered formats (R36). -/
def Tag.tapered : Tag → Bool
  | .t16x2 | .t8x4 | .t6x5 => true
  | _ => false

/-- A conversion's rounding mode (R40, R108). -/
def decCvtRm (dst : Tag) (x : Nat) : Dec Rm := do
  ck (! dst.tapered || x == 0) 4
  decRm x

/-- The pairs of cvt (R108). -/
def cvtOk (s d : Tag) : Bool := s != d && s.count == d.count && s.count != 0 && s.count != 5

/-- The pairs of pack (R109). -/
def packOk (s d : Tag) : Bool := s.count == 1 && 2 ≤ d.count

/-- Majors 0x31 to 0x33: the function is the source tag code, the type the target tag code (R108 to R110). -/
def decCvt (mj : Nat) (f : FA) : Dec Instr :=
  match decTag f.fn, decTag f.ty with
  | some s, some d =>
    match mj with
    | 0x31 => do
        ck (cvtOk s d) 3; ck (f.b == 0 && f.c == 0 && f.wOk) 4
        let m ← decCvtRm d f.md
        f.k1 (.cvt f.ctl s d m)
    | 0x32 => do
        ck (packOk s d) 3; ck f.wOk 4
        let m ← decCvtRm d f.md
        let dd ← decDst f.w f.d
        let a ← decSrc f.a
        let j ← decInl 5 f.b
        if j.val < d.count then
          let c ← decSrc f.c
          pure (.pack f.ctl s d m dd a j c)
        else badSel f.b
    | 0x33 => do
        ck (packOk d s) 3; ck (f.c == 0 && f.wOk) 4
        let m ← decCvtRm d f.md
        let dd ← decDst f.w f.d
        let a ← decSrc f.a
        let j ← decInl 5 f.b
        if j.val < s.count then pure (.unpack f.ctl s d m dd a j) else badSel f.b
    | _ => .error (.illegal 1 0)
  | _, _ => .error (.illegal 3 0)

/-- Major 0x34 (R111). -/
def decRetag (f : FA) : Dec Instr := do
  ck (f.ty ≤ 12) 3
  ck (f.b == 0 && f.c == 0 && f.md == 0 && f.wOk) 4
  let d ← decVDst f.w f.d
  let a ← decSrc f.a
  match decTag f.ty with
  | some t => pure (.retag f.ctl t d a)
  | none => .error (.illegal 3 0)

def decNFmt (x : Nat) : Dec NFmt :=
  match x with
  | 7 => .ok .t8 | 8 => .ok .i8 | 9 => .ok .n8
  | _ => .error (.illegal 3 0)

/-- The modifier of vdot8 and vl2d8 (R112). -/
def decNMod (t : NFmt) (x : Nat) : Dec NMod :=
  match t with
  | .t8 => do let m ← decRm x; pure (.rm m)
  | _ => do ck (x ≤ 1) 4; pure (.sat (x == 1))

/-- Major 0x38 (R112). -/
def decDist (f : FA) : Dec Instr :=
  match f.fn with
  | 0x00 => do let t ← decNFmt f.ty; ck f.wOk 4; let m ← decNMod t f.md; f.k3 (.vdot8 f.ctl t m)
  | 0x01 => do ck (f.ty == 10) 3; ck f.wOk 4; let m ← decRm f.md; f.k3 (.vdot6 f.ctl m)
  | 0x02 => do let t ← decNFmt f.ty; ck f.wOk 4; let m ← decNMod t f.md; f.k3 (.vl2d8 f.ctl t m)
  | 0x03 => do ck (f.ty == 0) 3; ck (f.md == 0 && f.wOk) 4; f.k3 (.vhamm f.ctl)
  | 0x04 => do
      ck (f.ty == 9) 3; ck f.wOk 4
      let d ← decDst f.w f.d
      let a ← decSrc f.a
      let s ← decS f.b
      let c ← decSrc f.c
      pure (.vpqd f.ctl (Fin.ofNat 16 f.md) d a s c)
  | 0x05 => do
      ck (f.ty == 2 || f.ty == 3) 3; ck (f.b == 0 && f.c == 0 && f.md == 0 && f.wOk) 4
      f.k1 (.vrand f.ctl (f.ty == 3))
  | _ => .error (.illegal 2 0)

/-- No C bit (R74), W = 0 and no destination (R61). -/
def FA.plain (f : FA) : Bool := f.cb == 0 && f.w == 0 && f.d == 0

/-- Major 0x41 (R122 to R128). -/
def decJump (f : FA) : Dec Instr := do
  ck (f.ty == 0) 3
  match f.fn with
  | 0x00 => do
      ck (f.plain && f.b == 0 && f.c == 0 && f.md == 0) 4
      let a ← decOp64 f.a
      pure (.jmp f.guard a)
  | 0x01 => do
      ck (f.plain && f.c == 0 && f.md == 0) 4
      let a ← decOp64 f.a
      let sh ← decInl 33 f.b
      pure (.calli f.guard a sh)
  | 0x02 => do ck (f.plain && f.a == 0 && f.b == 0 && f.c == 0 && f.md == 0) 4; pure (.ret f.guard)
  | 0x03 => do ck (f.plain && f.a == 0 && f.b == 0 && f.c == 0 && f.md == 0) 4; pure (.nop f.guard)
  | _ => .error (.illegal 2 0)

/-- Major 0x51 (R164, R166). -/
def decEnd (f : FA) : Dec Instr := do
  ck (f.ty == 0) 3
  ck (f.plain && f.a == 0 && f.b == 0 && f.c == 0 && f.md == 0) 4
  match f.fn with
  | 0x00 => pure (.endF f.guard)
  | 0x01 => pure (.yield f.guard)
  | _ => .error (.illegal 2 0)

/-- A deadline operand: present when the modifier is 1 (R159). -/
def decDl (md x : Nat) : Dec (Option Src) :=
  if md = 1 then do let a ← decSrc x; pure (some a) else .ok none

/-- Major 0x52 (R159). -/
def decCrews (f : FA) : Dec Instr :=
  let t0 (k : Dec Instr) : Dec Instr := do ck (f.ty == 0) 3; k
  match f.fn with
  | 0x00 => t0 do
      ck (f.cb == 0 && f.wOk && f.a == 0 && f.b == 0 && f.md ≤ 4) 4
      let pd ← decPDst f.w f.d
      let q ← decCrew f.c
      pure (.crew f.guard pd (Fin.ofNat 5 f.md) q)
  | 0x01 => t0 do
      ck (f.cb == 0 && f.wOk && f.md ≤ 1 && (f.md == 1 || f.b == 0)) 4
      let pd ← decPDst f.w f.d
      let k ← decMask f.a
      let dl ← decDl f.md f.b
      let q ← decCrew f.c
      pure (.join f.guard pd k dl q)
  | 0x02 => t0 do
      ck (f.plain && f.b == 0 && f.md == 0) 4
      let k ← decMask f.a
      let q ← decCrew f.c
      pure (.leave f.guard k q)
  | 0x03 => t0 do
      ck (f.cb == 0 && f.wOk && f.b == 0 && f.md ≤ 2) 4
      if f.md = 2 then
        let d ← decDst f.w f.d
        let p ← decP f.a
        let q ← decCrew f.c
        pure (.vote f.guard (.ballot d) p q)
      else
        let pd ← decPDst f.w f.d
        let p ← decP f.a
        let q ← decCrew f.c
        pure (.vote f.guard (if f.md = 0 then .any pd else .all pd) p q)
  | 0x04 => t0 do
      ck (f.cb == 0 && f.wOk && f.md ≤ 3) 4
      let d ← decDst f.w f.d
      let a ← decSrc f.a
      let b ← decSrc f.b
      let q ← decCrew f.c
      pure (.shfl f.guard (match f.md with | 0 => .idx | 1 => .xor | 2 => .up | _ => .down) d a b q)
  | 0x05 => t0 do
      ck (f.cb == 0 && f.wOk && f.md == 0) 4
      let d ← decDst f.w f.d
      let a ← decSrc f.a
      let b ← decSrc f.b
      let q ← decCrew f.c
      pure (.cbcast f.guard d a b q)
  | 0x06 => do
      let t ← decSgn f.ty
      ck (f.cb == 0 && f.wOk && f.b == 0 && f.md ≤ 5) 4
      let d ← decDst f.w f.d
      let a ← decSrc f.a
      let q ← decCrew f.c
      pure (.credi f.guard (match f.md with | 0 => .add | 1 => .min | 2 => .max | 3 => .and | 4 => .or | _ => .xor) t d a q)
  | 0x07 => do
      ck (f.ty == 3) 3
      ck (f.cb == 0 && f.wOk && f.b == 0 && (f.md < 4 || f.md == 4 || f.md == 8)) 4
      let m ← decRm (f.md % 4)
      let d ← decDst f.w f.d
      let a ← decSrc f.a
      let q ← decCrew f.c
      pure (.credf f.guard (if f.md = 4 then .min else if f.md = 8 then .max else .sum m) d a q)
  | 0x08 => do
      ck (f.ty == 1 || f.ty == 2 || f.ty == 3) 3
      ck (f.cb == 0 && f.wOk && f.b == 0 && f.md ≤ 7 && f.md % 4 ≤ 2) 4
      let d ← decDst f.w f.d
      let a ← decSrc f.a
      let q ← decCrew f.c
      pure (.cscan f.guard (match f.md % 4 with | 0 => .add | 1 => .min | _ => .max) (4 ≤ f.md)
        (match f.ty with | 1 => .s | 2 => .n | _ => .f) d a q)
  | _ => .error (.illegal 2 0)

/-- Major 0x53 (R159). -/
def decBudget (f : FA) : Dec Instr := do
  ck (f.ty == 0) 3
  match f.fn with
  | 0x00 => do
      ck (f.cb == 0 && f.wOk && f.a == 0 && f.md ≤ 1 && (f.md == 1 || f.c == 0)) 4
      let pd ← decPDst f.w f.d
      let b ← decSrc f.b
      let dl ← decDl f.md f.c
      pure (.regrow f.guard pd b dl)
  | 0x01 => do
      ck (f.cb == 0 && f.wOk && f.a == 0 && f.c == 0 && f.md == 0) 4
      let pd ← decPDst f.w f.d
      let b ← decSrc f.b
      pure (.regshrink f.guard pd b)
  | _ => .error (.illegal 2 0)

/-- Major 0x6A (R261). -/
def decFence (f : FA) : Dec Instr := do
  ck (f.ty == 0) 3
  ck (f.plain && f.a == 0 && f.b == 0 && f.c == 0) 4
  let o ← decOrd f.md
  match decScope f.fn with
  | some sc => pure (.fence f.guard o sc)
  | none => .error (.illegal 2 0)

/-- Major 0x6C (R263). -/
def decTxn (f : FA) : Dec Instr := do
  ck (f.ty == 0) 3
  match f.fn with
  | 0x00 => do ck (f.plain && f.a == 0 && f.b == 0 && f.c == 0 && f.md == 0) 4; pure (.tcommit f.guard)
  | 0x01 => do
      ck (f.plain && f.b == 0 && f.c == 0 && f.md == 0) 4
      let a ← decSrc f.a
      pure (.tabort f.guard a)
  | 0x02 => do ck (f.plain && f.a == 0 && f.b == 0 && f.c == 0 && f.md == 0) 4; pure (.retry f.guard)
  | 0x03 => do
      ck (f.cb == 0 && f.wOk && f.b == 0 && f.c == 0 && f.md == 0) 4
      let d ← decDst f.w f.d
      let p ← decP f.a
      pure (.tstat f.guard d p)
  | _ => .error (.illegal 2 0)

/-- Major 0x6D (R264). -/
def decBar (f : FA) : Dec Instr := do
  ck (f.ty == 0) 3
  ck (f.cb == 0 && f.wOk && f.b == 0 && f.c == 0 && f.md == 0) 4
  let d ← decDst f.w f.d
  let a ← decOp64 f.a
  match decScope f.fn with
  | some sc => pure (.bar f.guard sc d a)
  | none => .error (.illegal 2 0)

/-- Major 0x6E (R265). -/
def decSeal (f : FA) : Dec Instr := do
  ck (f.ty == 0) 3
  ck (f.plain && f.c == 0 && (f.md == 4 || f.md == 5)) 4
  let a ← decOp64 f.a
  let b ← decSrc f.b
  match f.fn with
  | 0x00 => pure (.seal f.guard (f.md == 5) a b)
  | 0x01 => pure (.unseal f.guard (f.md == 5) a b)
  | _ => .error (.illegal 2 0)

/-- Major 0x7C (R377). -/
def decTrap (f : FA) : Dec Instr := do
  ck (f.ty == 0) 3
  match f.fn with
  | 0x00 => do
      ck (f.plain && f.b == 0 && f.c == 0 && f.md == 0) 4
      let a ← decSrc f.a
      pure (.trap f.guard a)
  | 0x01 => do ck (f.plain && f.a == 0 && f.b == 0 && f.c == 0 && f.md == 0) 4; pure (.rti f.guard)
  | 0x02 => do ck (f.plain && f.a == 0 && f.b == 0 && f.c == 0 && f.md == 0) 4; pure (.brk f.guard)
  | _ => .error (.illegal 2 0)

/-- The system values of 64 bits (R381). -/
def sysWide (code : Nat) : Bool := code == 0 || code == 12 || code == 13 || code == 16

/-- The operand of wrsys (R383). -/
def decWrSrc (x : Nat) : Dec WrSrc :=
  if x < 0x100 ∧ x % 2 = 0 then .ok (.pair (Fin.ofNat 128 (x / 2)))
  else if 0x100 ≤ x ∧ x < 0x120 then .ok (.s (Fin.ofNat 32 (x - 0x100)))
  else if x = 0x130 then .ok .zero
  else if 0x140 ≤ x ∧ x < 0x1C0 then .ok (.int (Fin.ofNat 128 (x - 0x140)))
  else badSel x

/-- Major 0x7D (R377, R381 to R383). -/
def decSys (f : FA) : Dec Instr := do
  ck (f.ty == 0) 3
  match f.fn with
  | 0x00 => do
      ck (f.cb == 0 && f.w == 0 && f.b == 0 && f.c == 0 && f.md ≤ 7 && (f.a == 3 || f.a == 4 || f.md == 0)) 4
      let d ← decDst 0 f.d
      if f.a < 19 then
        if sysWide f.a && f.d < 0x100 && f.d % 2 == 1 then badSel f.d
        else pure (.rdsys f.guard d (Fin.ofNat 19 f.a) (Fin.ofNat 8 f.md))
      else badSel f.a
  | 0x01 => do
      ck (f.plain && f.c == 0 && f.md == 0) 4
      if f.a = 13 ∨ f.a = 16 then
        let b ← decWrSrc f.b
        pure (.wrsys f.guard (f.a == 16) b)
      else badSel f.a
  | _ => .error (.illegal 2 0)

/-! Format I instructions. -/

/-- Major 0x03 (R97). -/
def decMovi (f : FI) : Dec Instr := do
  ck (f.md == 0 && (f.w == 0 || f.d == 0)) 4
  let d ← decDst f.w f.d
  pure (.movi f.ctl (match f.fn with | 0 => .i32 | 1 => .n32 | 2 => .f32 | _ => .raw) d (BitVec.ofNat 32 f.imm))

/-- Major 0x04, with its data word (R65, R98). -/
def decMovw (f : FI) (data : Nat) : Dec Instr := do
  ck (f.md == 0 && f.imm == 0 && (f.w == 0 || f.d == 0)) 4
  match f.fn with
  | 0x00 => do
      let d ← (if f.w = 1 then pure none else do let n ← decPair f.d; pure (some n) : Dec (Option (Fin 128)))
      pure (.movw f.ctl (.pair d) (BitVec.ofNat 64 data))
  | 0x01 => do
      let d ← (if f.w = 1 then pure none else do let n ← decS f.d; pure (some n) : Dec (Option (Fin 32)))
      pure (.movw f.ctl (.sreg d) (BitVec.ofNat 64 data))
  | _ => .error (.illegal 2 0)

/-- The frame sizes of a frame word (R66). -/
def frameOk (n : Nat) : Bool := 8 ≤ n && n ≤ 256 && n % 8 == 0

/-- Major 0x42 (R66). -/
def decFrame (f : FI) : Dec Instr := do
  ck (f.d == 0 && f.pr == 0 && f.ng == 0 && f.w == 0 && f.cb == 0 && f.md == 0 && frameOk f.imm) 4
  pure (.frameWord (BitVec.ofNat 32 f.imm))

/-! Format M instructions. -/

def Size.bytes : Size → Nat
  | .b8 => 1 | .b16 => 2 | .b32 => 4 | .b64 => 8 | .b128 => 16

/-- The functions ld accepts for a size and destination (R129). -/
def ldOk (sz : Size) (t : Tag) (d : Dst) : Bool :=
  match sz with
  | .b8 | .b16 => t == .raw || t == .i32 || t == .n32
  | .b32 => t.count != 0 || t == .raw
  | .b64 => match d with
    | .s _ => t == .raw
    | _ => t.count != 0 || t == .raw || t == .p64l
  | .b128 => t.count != 0 || t == .raw || t == .p64l

/-- The placement of a data register for a size (R67). -/
def dataOk (sz : Size) (n : Nat) : Bool :=
  match sz with
  | .b64 => n % 2 == 0
  | .b128 => n % 4 == 0
  | _ => true

/-- Where a data register of ld lies (R67, R129). -/
def decLdDst (sz : Size) (w x : Nat) : Dec Dst :=
  if w = 1 then .ok .none
  else if x < 0x100 then (if dataOk sz x then .ok (.v (Fin.ofNat 256 x)) else badSel x)
  else if x < 0x120 then (if sz = .b64 then .ok (.s (Fin.ofNat 32 (x - 0x100))) else badSel x)
  else badSel x

/-- A cache hint is allowed in space g only, but for pfl (R67). -/
def hintOk (sp h : Nat) : Bool := sp == 0 || h == 0

/-- Major 0x60 (R129, R248, R249). -/
def decLd (f : FM) : Dec Instr := do
  let sz ← decSize f.sz
  let sp ← decSpace f.sp
  let h ← decHint f.h
  ck (hintOk f.sp f.h && f.md ≤ 1 && (f.w == 0 || f.dt == 0) && (f.md == 0 || (f.sp == 0 && f.base == 0))) 4
  let d ← decLdDst sz f.w f.dt
  match decTag f.fn with
  | some t =>
    if ldOk sz t d then
      if f.md = 0 then
        let ad ← f.addr
        pure (.ld f.ctl sz sp h t d ad)
      else
        let p ← decPair f.off
        pure (.ldSplit f.ctl sz h t d p (BitVec.ofNat 12 f.imm))
    else .error (.illegal 4 0)
  | none => .error (.illegal 2 0)

/-- A store's data selector (R130). -/
def decStSrc (sz : Size) (x : Nat) : Dec StSrc :=
  match sz with
  | .b64 =>
    if x < 0x100 then (if x % 2 = 0 then .ok (.wide (Fin.ofNat 256 x)) else badSel x)
    else if x < 0x120 then .ok (.sreg (Fin.ofNat 32 (x - 0x100))) else badSel x
  | .b128 => if x < 0x100 ∧ x % 4 = 0 then .ok (.wide (Fin.ofNat 256 x)) else badSel x
  | _ => if 0x100 ≤ x ∧ x < 0x120 then badSel x else do let a ← decSrc x; pure (.one a)

/-- Major 0x61 (R130, R248, R249). -/
def decSt (f : FM) : Dec Instr := do
  let sz ← decSize f.sz
  let sp ← decSpace f.sp
  let h ← decHint f.h
  ck (hintOk f.sp f.h && f.md ≤ 1 && f.w == 0 && f.cb == 0 && (f.md == 0 || (f.sp == 0 && f.base == 0))) 4
  let x ← decStSrc sz f.dt
  if f.md = 0 then
    let ad ← f.addr
    pure (.st f.guard sz sp h x ad)
  else
    let p ← decPair f.off
    pure (.stSplit f.guard sz h x p (BitVec.ofNat 12 f.imm))

/-- A scope in space x reaches no further than the core (R252). -/
def xScopeOk (sp : Space) (sc : Scope) : Bool := sp != .x || sc == .lane || sc == .core

/-- Majors 0x62 and 0x63 (R252, R254). -/
def decAtom (mj : Nat) (f : FM) : Dec Instr :=
  match decScope (f.fn / 8) with
  | none => .error (.illegal 2 0)
  | some sc => do
    let sz ← decSize f.sz
    let sp ← decSpace f.sp
    let o ← decOrd f.md
    ck (f.h == 0 && f.cb == 0 && xScopeOk sp sc && (sz == .b32 || sz == .b64)) 4
    let d ← decV f.dt
    if mj = 0x62 then
      if sz = .b64 ∧ d.val % 2 = 1 then badSel f.dt
      else
        let ad ← f.addr
        pure (.atom f.guard (decAOp (f.fn % 8)) o sc sz sp d (f.w == 1) ad)
    else
      if (sz = .b32 ∧ d.val % 2 = 1) ∨ (sz = .b64 ∧ d.val % 4 ≠ 0) then badSel f.dt
      else
        let ad ← f.addr
        pure (.acas f.guard o sc sz sp d (f.w == 1) ad)

/-- Major 0x64 (R255). -/
def decEacc (f : FM) : Dec Instr :=
  match decScope (f.fn / 8) with
  | none => .error (.illegal 2 0)
  | some sc => do
    let sp ← decSpace f.sp
    let o ← decOrd f.md
    ck (f.sz == 2 && f.h == 0 && f.cb == 0 && f.w == 0 && sp != .x) 4
    let d ← decV f.dt
    let ad ← f.addr
    pure (.eacc f.guard (if f.fn % 8 = 0 then .ea160 else .ea320) o sc sp d ad)

/-- Major 0x65 (R256). -/
def decEaread (f : FM) : Dec Instr := do
  let sp ← decSpace f.sp
  ck (f.sz == 2 && f.h == 0 && sp != .x && (f.w == 0 || f.dt == 0)) 4
  let m ← decRm f.md
  let d ← decVDst f.w f.dt
  let ad ← f.addr
  pure (.earead f.ctl (if f.fn = 0 then .ea160 else .ea320) m sp d ad)

/-- Major 0x66 (R257). -/
def decLdsum (f : FM) : Dec Instr := do
  ck (f.sz == 2 && f.sp == 0 && f.h ≤ 1 && f.md == 0 && (f.w == 0 || f.dt == 0)) 4
  let d ← decVDst f.w f.dt
  let ad ← f.addr
  pure (.ldsum f.ctl (match f.fn with | 0 => .int | 1 => .ea160 | _ => .ea320) (f.h == 1) d ad)

/-- Major 0x67 (R258). -/
def decLdver (f : FM) : Dec Instr := do
  let sp ← decSpace f.sp
  ck (f.sz == 2 && f.h == 0 && f.md == 0 && sp != .x && (f.w == 0 || f.dt == 0)) 4
  let d ← decVDst f.w f.dt
  let ad ← f.addr
  pure (.ldver f.ctl sp d ad)

/-- Major 0x68 (R259). -/
def decStv (f : FM) : Dec Instr := do
  let sz ← decSize f.sz
  let sp ← decSpace f.sp
  ck (f.h == 0 && f.md == 0 && f.cb == 0 && sp != .x && (sz == .b32 || sz == .b64)) 4
  let d ← decV f.dt
  if (sz = .b32 ∧ d.val % 2 = 1) ∨ (sz = .b64 ∧ d.val % 4 ≠ 0) then badSel f.dt
  else
    let ad ← f.addr
    pure (.stv f.guard sz sp d (f.w == 1) ad)

/-- Major 0x69 (R260). -/
def decPfl (f : FM) : Dec Instr := do
  let sp ← decSpace f.sp
  let h ← decHint f.h
  ck (f.sz == 0 && f.dt == 0 && f.w == 0 && f.cb == 0 && f.md == 0 && sp != .x) 4
  let ad ← f.addr
  pure (.pfl f.guard sp h ad)

/-! Format B instructions. -/

def FB.offset (f : FB) : BitVec 34 := BitVec.ofNat 34 f.off

/-- Major 0x40 (R120, R121, R124). -/
def decBra (f : FB) : Dec Instr :=
  match f.fn with
  | 0x00 => do ck (f.rsv == 0 && f.aux == 0) 4; pure (.bra f.guard f.offset)
  | 0x01 => do ck (f.rsv == 0) 4; let v ← decV f.aux; pure (.dbra f.guard f.offset v)
  | 0x02 => do ck (f.rsv == 0) 4; let sh ← decInl 33 f.aux; pure (.call f.guard f.offset sh)
  | _ => .error (.illegal 2 0)

/-- Major 0x50 (R163, R165). -/
def decFork (f : FB) : Dec Instr :=
  match f.fn with
  | 0x00 => do ck (f.rsv == 0) 4; let v ← decV f.aux; pure (.fork f.guard f.offset v)
  | 0x01 => do ck (f.rsv == 0) 4; let v ← decPair f.aux; pure (.spawn f.guard f.offset v)
  | _ => .error (.illegal 2 0)

/-- The deadline operand of tbegin (R262). -/
def decDlSrc (x : Nat) : Dec DlSrc :=
  if x < 0x100 then .ok (.v (Fin.ofNat 256 x))
  else if x < 0x120 then .ok (.s (Fin.ofNat 32 (x - 0x100)))
  else if x = 0x130 then .ok .zero
  else if 0x140 ≤ x ∧ x < 0x1C0 then .ok (.int (Fin.ofNat 128 (x - 0x140)))
  else badSel x

/-- Major 0x6B (R262). -/
def decTbegin (f : FB) : Dec Instr :=
  match f.fn with
  | 0x00 => do ck (f.rsv == 0) 4; let a ← decDlSrc f.aux; pure (.tbegin f.guard f.offset a)
  | 0x01 => do ck (f.rsv == 0 && f.aux == 0) 4; pure (.otherwise f.guard f.offset)
  | _ => .error (.illegal 2 0)

/-! Format T instructions (R312). -/

/-- No tile, accumulator, W or C. -/
def FT.noW (f : FT) : Bool := f.w == 0 && f.cb == 0

def tile (n : Nat) : Fin 64 := Fin.ofNat 64 n
def FT.crew (f : FT) : Fin 8 := Fin.ofNat 8 f.q

/-- Major 0x70 (R317 to R319). -/
def decTile (f : FT) : Dec Instr :=
  match f.fn with
  | 0x00 => do
      ck (f.noW && f.tb == 0 && f.tc == 0 && f.acc == 0 && f.md == 0) 4
      let x ← decSrc f.x
      let y ← decSrc f.y
      pure (.talloc f.guard (tile f.ta) f.crew x y)
  | 0x01 => do
      ck (f.noW && f.tb == 0 && f.tc == 0 && f.acc == 0 && f.x == 0 && f.y == 0 && f.md == 0) 4
      pure (.tfree f.guard (tile f.ta) f.crew)
  | 0x02 => do
      ck (f.cb == 0 && f.tb == 0 && f.tc == 0 && f.q == 0 && f.acc == 0 && f.md ≤ 2) 4
      if f.md = 0 then
        ck (f.y == 0 && (f.w == 0 || f.x == 0)) 4
        let d ← decDst64 f.w f.x
        pure (.tinfo f.guard (tile f.ta) d)
      else
        ck (f.x == 0 && f.w == 0) 4
        let y ← decSrc f.y
        pure (if f.md = 1 then .tinfoGetexp f.guard (tile f.ta) y else .tinfoSetexp f.guard (tile f.ta) y)
  | _ => .error (.illegal 2 0)

/-- Major 0x71 (R320). -/
def decCopy (f : FT) : Dec Instr := do
  ck (f.noW && f.ta == 0 && f.tb == 0 && f.tc == 0 && f.acc == 0 && f.md == 0) 4
  let x ← decSrc f.x
  let y ← decOp64 f.y
  match f.fn with
  | 0x00 => pure (.xcopy f.guard f.crew x y)
  | 0x01 => pure (.xchain f.guard f.crew x y)
  | 0x02 => pure (.tmove f.guard f.crew x y)
  | _ => .error (.illegal 2 0)

/-- acdrain's kind and operands (R312, R326). -/
def decDrain (f : FT) : Dec DrainKind :=
  match f.md / 4 with
  | 0 => do
      ck (f.x == 0 && f.y == 0) 4
      let m ← decRm (f.md % 4)
      pure (.tile (tile f.tc) m)
  | 1 => do
      ck (f.tc == 0) 4
      let m ← decRm (f.md % 4)
      let x ← decOp64 f.x
      let y ← decOp64 f.y
      pure (.f32 x y m)
  | 2 => do
      ck (f.tc == 0 && f.md % 4 == 0) 4
      let x ← decOp64 f.x
      let y ← decOp64 f.y
      pure (.add160 x y)
  | _ => do
      ck (f.tc == 0 && f.md % 4 == 0) 4
      let x ← decOp64 f.x
      let y ← decOp64 f.y
      pure (.add320 x y)

/-- Major 0x72 (R322 to R327). -/
def decMatrix (f : FT) : Dec Instr :=
  match f.fn with
  | 0x00 => do
      ck (f.noW && f.tb == 0 && f.tc == 0 && f.acc == 0 && f.x == 0 && f.y == 0 && f.md == 0) 4
      pure (.mlds f.guard (tile f.ta) f.crew)
  | 0x01 => do
      ck (f.noW && f.tb == 0 && f.y == 0 && f.md ≤ 3 && (2 ≤ f.md || f.tc == 0)) 4
      let x ← decSrc f.x
      pure (.mma f.guard (f.md % 2 == 1) (if 2 ≤ f.md then some (tile f.tc) else none) (tile f.ta) f.crew (f.acc == 1) x)
  | 0x02 => do
      ck (f.noW && f.y == 0 && f.md ≤ 7) 4
      let pat ← decPattern (f.md / 2)
      let x ← decSrc f.x
      pure (.mmas f.guard (f.md % 2 == 1) pat (tile f.ta) (tile f.tb) (tile f.tc) f.crew (f.acc == 1) x)
  | 0x03 => do
      ck (f.cb == 0 && f.ta == 0 && f.tb == 0 && f.md == 0 && (f.w == 0 || f.x == 0)) 4
      let d ← decDst f.w f.x
      let y ← decSrc f.y
      pure (.acsnap f.guard (tile f.tc) f.crew (f.acc == 1) d y)
  | 0x04 => do
      ck (f.noW && f.ta == 0 && f.tb == 0) 4
      let k ← decDrain f
      pure (.acdrain f.guard f.crew (f.acc == 1) k)
  | 0x05 => do
      ck (f.noW && f.ta == 0 && f.tb == 0 && f.tc == 0 && f.x == 0 && f.y == 0 && f.md ≤ 3
        && (f.md % 2 == 0 || f.acc == 0)) 4
      pure (.acclr f.guard (f.md % 2 == 1) (if 2 ≤ f.md then .ea320 else .ea160) f.crew (f.acc == 1))
  | _ => .error (.illegal 2 0)

/-- Major 0x73 (R328). -/
def decAdapter (f : FT) : Dec Instr := do
  ck (f.noW && f.ta == 0 && f.tb == 0 && f.tc == 0 && f.acc == 0) 4
  match f.fn with
  | 0x00 => do
      ck (f.md == 0) 4
      let x ← decSrc f.x
      let y ← decSrc f.y
      pure (.adload f.guard f.crew x y)
  | 0x01 => do
      ck (f.md ≤ 1 && f.y == 0 && (f.md == 1 || f.x == 0)) 4
      let x ← decDl f.md f.x
      pure (.adinv f.guard f.crew x)
  | _ => .error (.illegal 2 0)

/-- Major 0x74 (R329). -/
def decPrune (f : FT) : Dec Instr := do
  ck (f.noW && f.acc == 0 && f.md ≤ 7) 4
  let pat ← decPattern (f.md % 4)
  let x ← decSrc f.x
  let y ← decSrc f.y
  pure (.vprune f.guard pat (4 ≤ f.md) (tile f.ta) (tile f.tb) (tile f.tc) f.crew x y)

/-- Major 0x75 (R330 to R332). -/
def decSieve (f : FT) : Dec Instr := do
  ck (f.noW && f.ta == 0 && f.tb == 0 && f.tc == 0 && f.acc == 0 && f.md ≤ 7) 4
  match f.fn with
  | 0x00 => do
      ck (f.q == 0) 4
      let x ← decSrc f.x
      let y ← decSrc f.y
      pure (.sift f.guard (Fin.ofNat 8 f.md) x y)
  | 0x01 => do ck (f.y == 0) 4; let x ← decSrc f.x; pure (.sieveget f.guard (Fin.ofNat 8 f.md) f.crew x)
  | 0x02 => do ck (f.y == 0) 4; let x ← decSrc f.x; pure (.sieveset f.guard (Fin.ofNat 8 f.md) f.crew x)
  | _ => .error (.illegal 2 0)

/-- Major 0x76 (R333). -/
def decFwalk (f : FT) : Dec Instr := do
  ck (f.noW && f.ta == 0 && f.tb == 0 && f.tc == 0 && f.acc == 0 && f.md == 0) 4
  let x ← decSrc f.x
  let y ← decOp64 f.y
  pure (.fwalk f.guard f.crew x y)

/-! Trees. -/

def popcount7 (x : Nat) : Nat := ((List.range 7).filter fun i => x / 2 ^ i % 2 = 1).length

/-- The number of present nodes of a tree header (R76). -/
def treeNodes (w : Nat) : Nat := popcount7 (fld w 48 7)

/-- The number of arc operations of a tree header (R76). -/
def treeArcs (w : Nat) : Nat := popcount7 (fld w 34 7) + popcount7 (fld w 41 7)

/-- The number of target slots of a tree header (R76). -/
def treeTargets (w : Nat) : Nat := fld w 8 2 + 1

/-- The length in words of the instruction that a word begins (R55, R79). -/
def wordCount (w : Nat) : Nat :=
  let mj := fld w 57 7
  if mj = 0x7E then 1 + (treeNodes w + 1) / 2 + treeArcs w + (treeTargets w + 1) / 2
  else if mj = 0x04 ∧ fld w 51 6 ≤ 1 then 2
  else 1

/-- The decoder: the words of one instruction, the first word first (R55, R56). -/
def decodeWords (ws : List Nat) : Dec Instr :=
  match ws with
  | [] => .error .truncated
  | w :: rest =>
    if rest.length < wordCount w - 1 then .error .truncated
    else if unassigned w then .ok (.unassignedMajor (BitVec.ofNat 64 w))
    else
      match fld w 57 7 with
      | 0x00 => decInt (.split w)
      | 0x01 => decBit (.split w)
      | 0x02 => decAddr (.split w)
      | 0x03 => decMovi (.split w)
      | 0x04 => decMovw (.split w) (rest.headD 0)
      | 0x20 => decFp (.split w)
      | 0x30 => decPack (.split w)
      | 0x31 => decCvt 0x31 (.split w)
      | 0x32 => decCvt 0x32 (.split w)
      | 0x33 => decCvt 0x33 (.split w)
      | 0x34 => decRetag (.split w)
      | 0x38 => decDist (.split w)
      | 0x40 => decBra (.split w)
      | 0x41 => decJump (.split w)
      | 0x42 => decFrame (.split w)
      | 0x50 => decFork (.split w)
      | 0x51 => decEnd (.split w)
      | 0x52 => decCrews (.split w)
      | 0x53 => decBudget (.split w)
      | 0x60 => decLd (.split w)
      | 0x61 => decSt (.split w)
      | 0x62 => decAtom 0x62 (.split w)
      | 0x63 => decAtom 0x63 (.split w)
      | 0x64 => decEacc (.split w)
      | 0x65 => decEaread (.split w)
      | 0x66 => decLdsum (.split w)
      | 0x67 => decLdver (.split w)
      | 0x68 => decStv (.split w)
      | 0x69 => decPfl (.split w)
      | 0x6A => decFence (.split w)
      | 0x6B => decTbegin (.split w)
      | 0x6C => decTxn (.split w)
      | 0x6D => decBar (.split w)
      | 0x6E => decSeal (.split w)
      | 0x70 => decTile (.split w)
      | 0x71 => decCopy (.split w)
      | 0x72 => decMatrix (.split w)
      | 0x73 => decAdapter (.split w)
      | 0x74 => decPrune (.split w)
      | 0x75 => decSieve (.split w)
      | 0x76 => decFwalk (.split w)
      | 0x7C => decTrap (.split w)
      | 0x7D => decSys (.split w)
      | 0x7E =>
        let n := (treeNodes w + 1) / 2
        let a := treeArcs w
        let t := (treeTargets w + 1) / 2
        .ok (.tree { header := BitVec.ofNat 64 w
                     nodes := (rest.take n).map (BitVec.ofNat 64)
                     arcs := ((rest.drop n).take a).map (BitVec.ofNat 64)
                     targets := ((rest.drop (n + a)).take t).map (BitVec.ofNat 64) })
      | _ => .error (.illegal 1 0)

/-- The value of eight little-endian bytes, the first at the lowest address (R6, R55). -/
def leWord (bs : List Byte) : Nat := bs.foldr (fun b acc => b.toNat + 256 * acc) 0

/-- The whole 64-bit words of a byte string. -/
def wordsOf : Nat → List Byte → List Nat
  | 0, _ => []
  | k + 1, bs => if bs.length < 8 then [] else leWord (bs.take 8) :: wordsOf k (bs.drop 8)

/-- The decoder over bytes: total on any byte string. -/
def decodeBytes (bs : List Byte) : Dec Instr := decodeWords (wordsOf 21 bs)

/-- The instruction that the decoder reads from an instruction whose bits are w, bit 0 the least significant bit of its
first word; bits above nbits are 0. -/
def decodeTableWord (nbits w : Nat) : Option Instr :=
  let v := w % 2 ^ nbits
  match decodeWords ((List.range 21).map fun i => fld v (64 * i) 64) with
  | .ok i => some i
  | .error _ => none

/-! The encoder, from the same tables. -/

def bit (b : Bool) : Nat := if b then 1 else 0

def Special.code : Special → Nat
  | .zero => 0x130 | .ones => 0x131 | .lane => 0x132 | .fidx => 0x133 | .gfidl => 0x134 | .gfidh => 0x135
  | .rank q => 0x136 + q.val | .teamsize => 0x13E

def Src.code : Src → Nat
  | .v n => n.val | .s n => 0x100 + n.val | .b n => 0x120 + n.val | .sp x => x.code
  | .int n => 0x140 + n.val | .fc n => 0x1C0 + n.val

def Dst.code : Dst → Nat
  | .none => 0 | .v n => n.val | .s n => 0x100 + n.val

def Dst.w : Dst → Nat
  | .none => 1 | _ => 0

def Op64.code : Op64 → Nat
  | .pair n => 2 * n.val | .s n => 0x100 + n.val

def Dst64.code : Dst64 → Nat
  | .none => 0 | .pair n => 2 * n.val | .s n => 0x100 + n.val

def Dst64.w : Dst64 → Nat
  | .none => 1 | _ => 0

def WrSrc.code : WrSrc → Nat
  | .pair n => 2 * n.val | .s n => 0x100 + n.val | .zero => 0x130 | .int n => 0x140 + n.val

def DlSrc.code : DlSrc → Nat
  | .v n => n.val | .s n => 0x100 + n.val | .zero => 0x130 | .int n => 0x140 + n.val

def StSrc.code : StSrc → Nat
  | .one x => x.code | .wide n => n.val | .sreg n => 0x100 + n.val

/-- The field and the W bit of an optional destination numbered below n. -/
def optCode {n : Nat} : Option (Fin n) → Nat
  | none => 0 | some x => x.val

def optW {n : Nat} : Option (Fin n) → Nat
  | none => 1 | some _ => 0

def Sgn.code : Sgn → Nat
  | .s => 1 | .n => 2

def Rm.code : Rm → Nat
  | .rne => 0 | .rtz => 1 | .rdn => 2 | .rup => 3

def ICond.code : ICond → Nat
  | .eq => 0 | .ne => 1 | .lt => 2 | .le => 3 | .gt => 4 | .ge => 5

def FCond.code : FCond → Nat
  | .oeq => 8 | .one => 9 | .olt => 10 | .ole => 11 | .ogt => 12 | .oge => 13 | .uno => 14 | .ord => 15

def Tag.code : Tag → Nat
  | .raw => 0 | .i32 => 1 | .n32 => 2 | .f32 => 3 | .b16x2 => 4 | .h16x2 => 5 | .t16x2 => 6 | .t8x4 => 7 | .i8x4 => 8
  | .n8x4 => 9 | .t6x5 => 10 | .p64l => 11 | .p64h => 12 | .resD => 13 | .resE => 14 | .resF => 15

def MoviTag.code : MoviTag → Nat
  | .i32 => 0 | .n32 => 1 | .f32 => 2 | .raw => 3

def PFmt.code : PFmt → Nat
  | .b16 => 4 | .h16 => 5 | .t16 => 6

def NFmt.code : NFmt → Nat
  | .t8 => 7 | .i8 => 8 | .n8 => 9

def NMod.code : NMod → Nat
  | .rm m => m.code | .sat b => bit b

def Size.code : Size → Nat
  | .b8 => 0 | .b16 => 1 | .b32 => 2 | .b64 => 3 | .b128 => 4

def Space.code : Space → Nat
  | .g => 0 | .x => 1 | .f => 2

def Hint.code : Hint → Nat
  | .normal => 0 | .stream => 1 | .keep => 2

def Scope.code : Scope → Nat
  | .lane => 0 | .core => 1 | .quad => 2 | .die => 3 | .pkg => 4 | .pod => 5

def Ord.code : Ord → Nat
  | .rlx => 0 | .acq => 1 | .rel => 2 | .ar => 3

def AOp.code : AOp → Nat
  | .add => 0 | .minS => 1 | .maxS => 2 | .minN => 3 | .maxN => 4 | .and => 5 | .or => 6 | .exch => 7

def Pattern.code : Pattern → Nat
  | .p24 => 1 | .p14 => 2 | .p48 => 3

def EaKind.code : EaKind → Nat
  | .ea160 => 0 | .ea320 => 1

def SumKind.code : SumKind → Nat
  | .int => 0 | .ea160 => 1 | .ea320 => 2

def ShflMode.code : ShflMode → Nat
  | .idx => 0 | .xor => 1 | .up => 2 | .down => 3

def RedOp.code : RedOp → Nat
  | .add => 0 | .min => 1 | .max => 2 | .and => 3 | .or => 4 | .xor => 5

def FRedOp.code : FRedOp → Nat
  | .sum m => m.code | .min => 4 | .max => 8

def ScanOp.code : ScanOp → Nat
  | .add => 0 | .min => 1 | .max => 2

def ScanTy.code : ScanTy → Nat
  | .s => 1 | .n => 2 | .f => 3

def offCode : Option (Fin 256) → Nat
  | none => 0x130 | some n => n.val

/-- An optional trailing operand and its presence bit (R159). -/
def dlCode : Option Src → Nat
  | none => 0 | some a => a.code

def dlBit : Option Src → Nat
  | none => 0 | some _ => 1

/-- A Format A word of an instruction that may stand inside a run. -/
def encA (mj fn ty : Nat) (c : Ctl) (md w d a b x : Nat) : List Nat :=
  [FA.join mj { fn := fn, ty := ty, d := d, a := a, b := b, c := x, pr := c.g.pred.val, ng := bit c.g.neg, w := w, cb := bit c.c, md := md }]

/-- A Format A word without C. -/
def encG (mj fn ty : Nat) (g : Guard) (md w d a b x : Nat) : List Nat := encA mj fn ty ⟨g, false⟩ md w d a b x

def encM (mj fn sz sp h : Nat) (c : Ctl) (md w dt : Nat) (ad : Addr) : List Nat :=
  [FM.join mj { fn := fn, sz := sz, sp := sp, h := h, dt := dt, base := ad.base.val, off := offCode ad.off, imm := ad.imm.toNat, pr := c.g.pred.val, ng := bit c.g.neg, w := w, cb := bit c.c, md := md }]

def encB (mj fn : Nat) (g : Guard) (off : BitVec 34) (aux : Nat) : List Nat :=
  [FB.join mj { fn := fn, pr := g.pred.val, ng := bit g.neg, off := off.toNat, aux := aux, rsv := 0 }]

def encT (mj fn : Nat) (g : Guard) (ta tb tc q acc x y w md : Nat) : List Nat :=
  [FT.join mj { fn := fn, ta := ta, tb := tb, tc := tc, q := q, acc := acc, x := x, y := y, pr := g.pred.val, ng := bit g.neg, w := w, cb := 0, md := md }]

/-- The address operand of a split form: no base, the pair as offset (R249). -/
def splitAddr (p : Fin 128) (imm : BitVec 12) : Addr := ⟨0, some (Fin.ofNat 256 (2 * p.val)), imm⟩

def MovwDst.code : MovwDst → Nat
  | .pair none => 0 | .pair (some n) => 2 * n.val | .sreg none => 0 | .sreg (some n) => 0x100 + n.val

def MovwDst.w : MovwDst → Nat
  | .pair d => optW d | .sreg d => optW d

/-- The words of an instruction, the first word first; none for the steps of other agents, which have no encoding. -/
def encode : Instr → List Nat
  | .iadd c t sat d a b => encA 0x00 0x00 t.code c (bit sat) d.w d.code a.code b.code 0
  | .isub c t sat d a b => encA 0x00 0x01 t.code c (bit sat) d.w d.code a.code b.code 0
  | .imul c t sat d a b => encA 0x00 0x02 t.code c (bit sat) d.w d.code a.code b.code 0
  | .imulh c t d a b => encA 0x00 0x03 t.code c 0 d.w d.code a.code b.code 0
  | .imad c t sat d a b x => encA 0x00 0x04 t.code c (bit sat) d.w d.code a.code b.code x.code
  | .idiv c t d a b => encA 0x00 0x05 t.code c 0 d.w d.code a.code b.code 0
  | .irem c t d a b => encA 0x00 0x06 t.code c 0 d.w d.code a.code b.code 0
  | .imin c t d a b => encA 0x00 0x07 t.code c 0 d.w d.code a.code b.code 0
  | .imax c t d a b => encA 0x00 0x08 t.code c 0 d.w d.code a.code b.code 0
  | .iabs c sat d a => encA 0x00 0x09 1 c (bit sat) d.w d.code a.code 0 0
  | .ineg c sat d a => encA 0x00 0x0A 1 c (bit sat) d.w d.code a.code 0 0
  | .icmp c t cd pd a b => encA 0x00 0x0B t.code c cd.code (optW pd) (optCode pd) a.code b.code 0
  | .and c d a b => encA 0x01 0x00 0 c 0 d.w d.code a.code b.code 0
  | .or c d a b => encA 0x01 0x01 0 c 0 d.w d.code a.code b.code 0
  | .xor c d a b => encA 0x01 0x02 0 c 0 d.w d.code a.code b.code 0
  | .andn c d a b => encA 0x01 0x03 0 c 0 d.w d.code a.code b.code 0
  | .not c d a => encA 0x01 0x04 0 c 0 d.w d.code a.code 0 0
  | .shl c d a b => encA 0x01 0x05 0 c 0 d.w d.code a.code b.code 0
  | .shr c d a b => encA 0x01 0x06 0 c 0 d.w d.code a.code b.code 0
  | .sha c d a b => encA 0x01 0x07 0 c 0 d.w d.code a.code b.code 0
  | .rot c d a b => encA 0x01 0x08 0 c 0 d.w d.code a.code b.code 0
  | .popc c d a => encA 0x01 0x09 0 c 0 d.w d.code a.code 0 0
  | .clz c d a => encA 0x01 0x0A 0 c 0 d.w d.code a.code 0 0
  | .ctz c d a => encA 0x01 0x0B 0 c 0 d.w d.code a.code 0 0
  | .brev c d a => encA 0x01 0x0C 0 c 0 d.w d.code a.code 0 0
  | .bfx c t d a b => encA 0x01 0x0D t.code c 0 d.w d.code a.code b.code 0
  | .bfi c d a b x => encA 0x01 0x0E 0 c 0 d.w d.code a.code b.code x.code
  | .lea c sh d a b => encA 0x02 0x00 0 c sh.val d.w d.code a.code b.code 0
  | .addc c d a b => encA 0x02 0x01 0 c 0 d.w d.code a.code b.code 0
  | .mov c d a => encA 0x02 0x02 0 c 0 d.w d.code a.code 0 0
  | .sel c d p b x => encA 0x02 0x03 0 c 0 d.w d.code p.val b.code x.code
  | .plog c tt pd pa pb => encA 0x02 0x04 0 c tt.val (optW pd) (optCode pd) pa.val pb.val 0
  | .movi c t d imm => [FI.join 0x03 { fn := t.code, d := d.code, imm := imm.toNat, pr := c.g.pred.val, ng := bit c.g.neg, w := d.w, cb := bit c.c, md := 0 }]
  | .movw c d imm =>
    [FI.join 0x04 { fn := (match d with | .pair _ => 0 | .sreg _ => 1), d := d.code, imm := 0, pr := c.g.pred.val, ng := bit c.g.neg, w := d.w, cb := bit c.c, md := 0 }, imm.toNat]
  | .fadd c m d a b => encA 0x20 0x00 3 c m.code d.w d.code a.code b.code 0
  | .fsub c m d a b => encA 0x20 0x01 3 c m.code d.w d.code a.code b.code 0
  | .fmul c m d a b => encA 0x20 0x02 3 c m.code d.w d.code a.code b.code 0
  | .ffma c m d a b x => encA 0x20 0x03 3 c m.code d.w d.code a.code b.code x.code
  | .fmin c d a b => encA 0x20 0x04 3 c 0 d.w d.code a.code b.code 0
  | .fmax c d a b => encA 0x20 0x05 3 c 0 d.w d.code a.code b.code 0
  | .fabs c d a => encA 0x20 0x06 3 c 0 d.w d.code a.code 0 0
  | .fneg c d a => encA 0x20 0x07 3 c 0 d.w d.code a.code 0 0
  | .fcmp c cd pd a b => encA 0x20 0x08 3 c cd.code (optW pd) (optCode pd) a.code b.code 0
  | .fdiv c m d a b => encA 0x20 0x09 3 c m.code d.w d.code a.code b.code 0
  | .fsqrt c m d a => encA 0x20 0x0A 3 c m.code d.w d.code a.code 0 0
  | .frcp c m d a => encA 0x20 0x0B 3 c m.code d.w d.code a.code 0 0
  | .fexp2 c m d a => encA 0x20 0x0C 3 c m.code d.w d.code a.code 0 0
  | .flog2 c m d a => encA 0x20 0x0D 3 c m.code d.w d.code a.code 0 0
  | .frnd c m d a => encA 0x20 0x0E 3 c m.code d.w d.code a.code 0 0
  | .fcls c d a => encA 0x20 0x0F 3 c 0 d.w d.code a.code 0 0
  | .hadd c f m d a b => encA 0x30 0x00 f.code c m.code d.w d.code a.code b.code 0
  | .hmul c f m d a b => encA 0x30 0x01 f.code c m.code d.w d.code a.code b.code 0
  | .hfma c f m d a b x => encA 0x30 0x02 f.code c m.code d.w d.code a.code b.code x.code
  | .hmax c f d a b => encA 0x30 0x03 f.code c 0 d.w d.code a.code b.code 0
  | .cvt c s t m d a => encA 0x31 s.code t.code c m.code d.w d.code a.code 0 0
  | .pack c s t m d a j x => encA 0x32 s.code t.code c m.code d.w d.code a.code (0x180 + j.val) x.code
  | .unpack c s t m d a j => encA 0x33 s.code t.code c m.code d.w d.code a.code (0x180 + j.val) 0
  | .retag c t d a => encA 0x34 0x00 t.code c 0 (optW d) (optCode d) a.code 0 0
  | .vdot8 c f m d a b x => encA 0x38 0x00 f.code c m.code d.w d.code a.code b.code x.code
  | .vdot6 c m d a b x => encA 0x38 0x01 10 c m.code d.w d.code a.code b.code x.code
  | .vl2d8 c f m d a b x => encA 0x38 0x02 f.code c m.code d.w d.code a.code b.code x.code
  | .vhamm c d a b x => encA 0x38 0x03 0 c 0 d.w d.code a.code b.code x.code
  | .vpqd c g d a s x => encA 0x38 0x04 9 c g.val d.w d.code a.code (0x100 + s.val) x.code
  | .vrand c f d a => encA 0x38 0x05 (2 + bit f) c 0 d.w d.code a.code 0 0
  | .bra g off => encB 0x40 0x00 g off 0
  | .dbra g off v => encB 0x40 0x01 g off v.val
  | .call g off sh => encB 0x40 0x02 g off (0x180 + sh.val)
  | .jmp g a => encG 0x41 0x00 0 g 0 0 0 a.code 0 0
  | .calli g a sh => encG 0x41 0x01 0 g 0 0 0 a.code (0x180 + sh.val) 0
  | .ret g => encG 0x41 0x02 0 g 0 0 0 0 0 0
  | .nop g => encG 0x41 0x03 0 g 0 0 0 0 0 0
  | .frameWord imm => [FI.join 0x42 { fn := 0, d := 0, imm := imm.toNat, pr := 0, ng := 0, w := 0, cb := 0, md := 0 }]
  | .fork g off v => encB 0x50 0x00 g off v.val
  | .spawn g off v => encB 0x50 0x01 g off (2 * v.val)
  | .endF g => encG 0x51 0x00 0 g 0 0 0 0 0 0
  | .yield g => encG 0x51 0x01 0 g 0 0 0 0 0 0
  | .crew g pd sz q => encG 0x52 0x00 0 g sz.val (optW pd) (optCode pd) 0 0 q.val
  | .join g pd k dl q => encG 0x52 0x01 0 g (dlBit dl) (optW pd) (optCode pd) k.val (dlCode dl) q.val
  | .leave g k q => encG 0x52 0x02 0 g 0 0 0 k.val 0 q.val
  | .vote g (.any pd) p q => encG 0x52 0x03 0 g 0 (optW pd) (optCode pd) p.val 0 q.val
  | .vote g (.all pd) p q => encG 0x52 0x03 0 g 1 (optW pd) (optCode pd) p.val 0 q.val
  | .vote g (.ballot d) p q => encG 0x52 0x03 0 g 2 d.w d.code p.val 0 q.val
  | .shfl g m d a b q => encG 0x52 0x04 0 g m.code d.w d.code a.code b.code q.val
  | .cbcast g d a b q => encG 0x52 0x05 0 g 0 d.w d.code a.code b.code q.val
  | .credi g op t d a q => encG 0x52 0x06 t.code g op.code d.w d.code a.code 0 q.val
  | .credf g op d a q => encG 0x52 0x07 3 g op.code d.w d.code a.code 0 q.val
  | .cscan g op ex t d a q => encG 0x52 0x08 t.code g (op.code + 4 * bit ex) d.w d.code a.code 0 q.val
  | .regrow g pd b dl => encG 0x53 0x00 0 g (dlBit dl) (optW pd) (optCode pd) 0 b.code (dlCode dl)
  | .regshrink g pd b => encG 0x53 0x01 0 g 0 (optW pd) (optCode pd) 0 b.code 0
  | .ld c sz sp h t d ad => encM 0x60 t.code sz.code sp.code h.code c 0 d.w d.code ad
  | .ldSplit c sz h t d p imm => encM 0x60 t.code sz.code 0 h.code c 1 d.w d.code (splitAddr p imm)
  | .st g sz sp h x ad => encM 0x61 0 sz.code sp.code h.code ⟨g, false⟩ 0 0 x.code ad
  | .stSplit g sz h x p imm => encM 0x61 0 sz.code 0 h.code ⟨g, false⟩ 1 0 x.code (splitAddr p imm)
  | .atom g op o sc sz sp d nw ad => encM 0x62 (8 * sc.code + op.code) sz.code sp.code 0 ⟨g, false⟩ o.code (bit nw) d.val ad
  | .acas g o sc sz sp d nw ad => encM 0x63 (8 * sc.code) sz.code sp.code 0 ⟨g, false⟩ o.code (bit nw) d.val ad
  | .eacc g k o sc sp d ad => encM 0x64 (8 * sc.code + k.code) 2 sp.code 0 ⟨g, false⟩ o.code 0 d.val ad
  | .earead c k m sp d ad => encM 0x65 k.code 2 sp.code 0 c m.code (optW d) (optCode d) ad
  | .ldsum c k pod d ad => encM 0x66 k.code 2 0 (bit pod) c 0 (optW d) (optCode d) ad
  | .ldver c sp d ad => encM 0x67 0 2 sp.code 0 c 0 (optW d) (optCode d) ad
  | .stv g sz sp d nw ad => encM 0x68 0 sz.code sp.code 0 ⟨g, false⟩ 0 (bit nw) d.val ad
  | .pfl g sp h ad => encM 0x69 0 0 sp.code h.code ⟨g, false⟩ 0 0 0 ad
  | .fence g o sc => encG 0x6A sc.code 0 g o.code 0 0 0 0 0
  | .tbegin g off dl => encB 0x6B 0x00 g off dl.code
  | .otherwise g off => encB 0x6B 0x01 g off 0
  | .tcommit g => encG 0x6C 0x00 0 g 0 0 0 0 0 0
  | .tabort g a => encG 0x6C 0x01 0 g 0 0 0 a.code 0 0
  | .retry g => encG 0x6C 0x02 0 g 0 0 0 0 0 0
  | .tstat g d p => encG 0x6C 0x03 0 g 0 d.w d.code p.val 0 0
  | .bar g sc d a => encG 0x6D sc.code 0 g 0 d.w d.code a.code 0 0
  | .seal g pod a b => encG 0x6E 0x00 0 g (4 + bit pod) 0 0 a.code b.code 0
  | .unseal g pod a b => encG 0x6E 0x01 0 g (4 + bit pod) 0 0 a.code b.code 0
  | .talloc g t q x y => encT 0x70 0x00 g t.val 0 0 q.val 0 x.code y.code 0 0
  | .tfree g t q => encT 0x70 0x01 g t.val 0 0 q.val 0 0 0 0 0
  | .tinfo g t d => encT 0x70 0x02 g t.val 0 0 0 0 d.code 0 d.w 0
  | .tinfoGetexp g t y => encT 0x70 0x02 g t.val 0 0 0 0 0 y.code 0 1
  | .tinfoSetexp g t y => encT 0x70 0x02 g t.val 0 0 0 0 0 y.code 0 2
  | .xcopy g q x y => encT 0x71 0x00 g 0 0 0 q.val 0 x.code y.code 0 0
  | .xchain g q x y => encT 0x71 0x01 g 0 0 0 q.val 0 x.code y.code 0 0
  | .tmove g q x y => encT 0x71 0x02 g 0 0 0 q.val 0 x.code y.code 0 0
  | .mlds g t q => encT 0x72 0x00 g t.val 0 0 q.val 0 0 0 0 0
  | .mma g swap ad t q acc x => encT 0x72 0x01 g t.val 0 (optCode ad) q.val (bit acc) x.code 0 0 (bit swap + 2 * bit ad.isSome)
  | .mmas g swap pat ta tb tc q acc x => encT 0x72 0x02 g ta.val tb.val tc.val q.val (bit acc) x.code 0 0 (bit swap + 2 * pat.code)
  | .acsnap g tc q acc d y => encT 0x72 0x03 g 0 0 tc.val q.val (bit acc) d.code y.code d.w 0
  | .acdrain g q acc (.tile t m) => encT 0x72 0x04 g 0 0 t.val q.val (bit acc) 0 0 0 m.code
  | .acdrain g q acc (.f32 x y m) => encT 0x72 0x04 g 0 0 0 q.val (bit acc) x.code y.code 0 (4 + m.code)
  | .acdrain g q acc (.add160 x y) => encT 0x72 0x04 g 0 0 0 q.val (bit acc) x.code y.code 0 8
  | .acdrain g q acc (.add320 x y) => encT 0x72 0x04 g 0 0 0 q.val (bit acc) x.code y.code 0 12
  | .acclr g all k q acc => encT 0x72 0x05 g 0 0 0 q.val (bit acc) 0 0 0 (bit all + 2 * k.code)
  | .adload g q x y => encT 0x73 0x00 g 0 0 0 q.val 0 x.code y.code 0 0
  | .adinv g q x => encT 0x73 0x01 g 0 0 0 q.val 0 (dlCode x) 0 0 (dlBit x)
  | .vprune g pat hi ta tb tc q x y => encT 0x74 0x00 g ta.val tb.val tc.val q.val 0 x.code y.code 0 (pat.code + 4 * bit hi)
  | .sift g s x y => encT 0x75 0x00 g 0 0 0 0 0 x.code y.code 0 s.val
  | .sieveget g s q x => encT 0x75 0x01 g 0 0 0 q.val 0 x.code 0 0 s.val
  | .sieveset g s q x => encT 0x75 0x02 g 0 0 0 q.val 0 x.code 0 0 s.val
  | .fwalk g q x y => encT 0x76 0x00 g 0 0 0 q.val 0 x.code y.code 0 0
  | .trap g a => encG 0x7C 0x00 0 g 0 0 0 a.code 0 0
  | .rti g => encG 0x7C 0x01 0 g 0 0 0 0 0 0
  | .brk g => encG 0x7C 0x02 0 g 0 0 0 0 0 0
  | .rdsys g d code q => encG 0x7D 0x00 0 g q.val 0 d.code code.val 0 0
  | .wrsys g mark b => encG 0x7D 0x01 0 g 0 0 0 (if mark then 16 else 13) b.code 0
  | .tree t => t.header.toNat :: (t.nodes.map BitVec.toNat ++ t.arcs.map BitVec.toNat ++ t.targets.map BitVec.toNat)
  | .unassignedMajor w => [w.toNat]
  | _ => []

end Sys2Proof
end

