-- ==== Sys2Proof/Machine/Map.lean ====
section
/-! DEFINITION. Finite maps held as plain lists of (key, value) pairs with strictly rising keys: the sparse form of memories,
register windows and tables. Their laws are in Sys2Proof/Laws/Map.lean. -/

namespace Sys2Proof.Machine

/-- The value at a key, if there is one. -/
def look {α : Type} (k : Nat) : List (Nat × α) → Option α
  | [] => none
  | (k', v) :: t => if k = k' then some v else look k t

/-- The map with the value at a key replaced or added. -/
def put {α : Type} (k : Nat) (v : α) : List (Nat × α) → List (Nat × α)
  | [] => [(k, v)]
  | (k', v') :: t => if k < k' then (k, v) :: (k', v') :: t else if k = k' then (k, v) :: t else (k', v') :: put k v t

/-- The map without a key. -/
def del {α : Type} (k : Nat) : List (Nat × α) → List (Nat × α)
  | [] => []
  | (k', v') :: t => if k = k' then del k t else (k', v') :: del k t

/-- The value at a key of a map in which an unlisted key holds d. -/
def getD {α : Type} (d : α) (k : Nat) (m : List (Nat × α)) : α := (look k m).getD d

/-- Writes a key of such a map; writing d removes the entry. -/
def setD {α : Type} [DecidableEq α] (d : α) (k : Nat) (v : α) (m : List (Nat × α)) : List (Nat × α) :=
  if v = d then del k m else put k v m

/-- Strictly rising keys. -/
def rising {α : Type} : List (Nat × α) → Bool
  | [] => true
  | [_] => true
  | (k, _) :: (k', v') :: t => decide (k < k') && rising ((k', v') :: t)

/-- The canonical form of a map with default d: rising keys and no entry that holds d. -/
def canon {α : Type} [DecidableEq α] (d : α) (m : List (Nat × α)) : Bool := rising m && m.all fun e => e.2 != d

/-- Changes the value at a key, if there is one. -/
def upd {α : Type} (k : Nat) (f : α → α) (m : List (Nat × α)) : List (Nat × α) :=
  match look k m with
  | some v => put k (f v) m
  | none => m

/-- Element i of a list, or d. -/
def nth {α : Type} (d : α) (l : List α) (i : Nat) : α := l.getD i d

/-- Insertion by a key into a list ordered by that key. -/
def insertBy {α : Type} (key : α → Nat) (x : α) : List α → List α
  | [] => [x]
  | y :: t => if key x < key y then x :: y :: t else y :: insertBy key x t

/-- The list ordered by a key, equal keys in their first order. -/
def sortBy {α : Type} (key : α → Nat) (l : List α) : List α := l.foldl (fun acc x => insertBy key x acc) []

/-- The first element of least key. -/
def minBy {α : Type} (key : α → Nat) : List α → Option α
  | [] => none
  | x :: t => match minBy key t with
    | none => some x
    | some y => if key y < key x then some y else some x

/-- The list without repeats, first occurrences kept. -/
def dedupe {α : Type} [DecidableEq α] (l : List α) : List α := l.foldl (fun acc x => if x ∈ acc then acc else acc ++ [x]) []

end Sys2Proof.Machine
end

