-- ==== Sys2Proof/Machine/State.lean ====
section
/-! DEFINITION. The state of the module: everything the spec gives the machine, as plain data. INVENTORY.md lists each piece with
the rule that names it and its reset value. Tables of records are maps with rising keys (Machine/Map.lean). -/

namespace Sys2Proof.Machine

/-! ## Traps -/

/-- The trap codes (R340). -/
inductive TrapCode where
  | illegal | illegalTree | formatMismatch | crewPartial | frameOverflow | translation | protection | sealedStore
  | poison | align | breakpoint | software | slotWatchdog | feature | nonuniform | tileState | nestedFault | engineFault
  deriving DecidableEq, Repr

/-- A trap with the fields that R340 gives it. -/
structure Trap where
  code   : TrapCode
  faddr  : DWord := 0
  detail : Nat := 0
  aux    : Nat := 0
  deriving DecidableEq, Repr

/-- A trap that a fibre has raised: the trap, its resume and instruction addresses, the flags of R346, and its place in the
team's events (R341, R344, R346). -/
structure TrapRec where
  trap   : Trap
  rpc    : DWord
  ipc    : DWord
  inRun  : Bool
  inTree : Bool
  closed : Bool
  shim   : Option DWord
  event  : Nat
  order  : Nat
  deriving DecidableEq, Repr

/-! ## Fibres (R11) -/

/-- A v-register: 32 bits and its format tag (R11, R13). -/
structure Reg where
  val : Word := 0
  tag : Tag := .raw
  deriving DecidableEq, Repr

/-- The register of a freshly launched fibre (R13). -/
def Reg.zero : Reg := {}

/-- A read-set line: its version when first read and the image kept for it (R229). -/
structure RLine where
  line   : Nat
  ver    : Nat
  img    : BitVec 1024
  poison : BitVec 4
  deriving DecidableEq, Repr

/-- A write-set line: its buffered bytes and byte mask (R230). -/
structure WLine where
  line : Nat
  mask : BitVec 128
  data : BitVec 1024
  deriving DecidableEq, Repr

/-- An open transaction (R227). -/
structure Txn where
  origin   : DWord
  lfail    : DWord
  deadline : Option Nat
  opened   : Nat
  depth    : Nat
  succ     : Option DWord
  rset     : List RLine
  wset     : List WLine
  deriving DecidableEq, Repr

/-- A transaction to be restarted at its tbegin, with its first deadline clock (R236, R237, R238). -/
structure Restart where
  origin   : DWord
  deadline : Option Nat
  deriving DecidableEq, Repr

/-- Where a fibre stands: loose with the first two parts of its sort key (R147), in a gang, asleep on its read set (R236), waiting
in a join (R168) or at the budget barrier since a clock (R177), trapped and waiting for the handler (R349), or stopped in fibre-stop mode
(R356). -/
inductive FSt where
  | loose (clk rank : Nat)
  | ganged
  | sleeping (origin lfail : DWord) (deadline : Option Nat) (depth rset : Nat)
  | joining (q k : Nat) (pd : Option (Fin 16)) (phase : Nat) (deadline : Option Nat) (issued : Nat)
  | budget (grow : Bool) (w sel : Nat) (dl : Option Nat) (pd : Option (Fin 16)) (pending : Bool) (issued : Nat)
  | trapped
  | stopped
  deriving DecidableEq, Repr

/-- What a member of a handler crew or of a shim is inside (R347, R352). -/
inductive Hand where
  | none | handler | shim
  deriving DecidableEq, Repr

/-- A fibre: its index and team (R138), PC, predicates, frame base and size, window entries (sparse, zero where unlisted) and those that hold an
uncorrectable error (R204), return stack with the newest entry first and its depth (R125, R126), seed, status word (R233), open transaction and those
to be restarted, the run's position, first PC, latches and registers read (R72 to R75), where it stands, handler membership and trap, the address exempt
from register matches (R354), the resume address and the address of the brk that stopped it last (R379), the clocks at which registers, predicates and each latch of its run hold a result still owed to them (R151), the
acknowledgements that its later accesses wait for, the clock before which they do not issue, the clock by which its loads and atomics have returned
(R217), whether it has not run yet, and the point its shim or handler was entered at. -/
structure Fibre where
  fidx    : Nat
  team    : Nat
  pc      : DWord
  preds   : BitVec 16 := 1
  fb      : Nat := 0
  fs      : Nat
  regs    : List (Nat × Reg) := []
  badRegs : List Nat := []
  stack   : List DWord := []
  depth   : Nat := 0
  seed    : DWord
  status  : Word := 0xF
  txn     : Option Txn := none
  restart : List Restart := []
  runPos  : Nat := 0
  runPc   : DWord
  latches : List Reg := []
  runVs   : List Nat := []
  runSs   : List Nat := []
  runPs   : List Nat := []
  st      : FSt
  hand    : Hand := .none
  trap    : Option TrapRec := none
  skipBrk : Option DWord := none
  lastBrk : Option (DWord × DWord) := none
  avail   : List (Nat × Nat) := []
  pAvail  : List (Nat × Nat) := []
  lAvail  : List Nat := []
  await   : List Nat := []
  accAt   : Nat := 0
  doneAt  : Nat := 0
  fresh   : Bool := false
  entry   : Option DWord := none
  deriving DecidableEq, Repr

/-! ## Teams and gangs (R138 to R153) -/

/-- One mask of a crew (R145): expected and arrived bits, and its phase count (R168). -/
structure KMask where
  expected : BitVec 32
  arrived  : BitVec 32 := 0
  phase    : Nat := 0
  deriving DecidableEq, Repr

/-- A crew (R145). -/
structure Crew where
  size    : Nat
  members : List Nat
  live    : BitVec 32
  masks   : List KMask
  version : Nat := 0
  deriving DecidableEq, Repr

/-- A halt of a team: the clock c of R342, whether every gang has stopped and its records are written (R343), and whether a
debugger holds it (R356). -/
structure Halt where
  clk      : Nat
  recorded : Bool := false
  debug    : Bool := false
  deriving DecidableEq, Repr

/-- A trap event of a team (R344): its number, given when its halt arrives, the clock, its fibres in order, and the issue that it belongs to, as slot and
clock; none where fibres trap without an issue. -/
structure TrapEvent where
  num    : Option Nat
  clk    : Nat
  fibres : List Nat
  issue  : Option (Nat × Nat) := none
  deriving DecidableEq, Repr

/-- A halt record (R343). -/
structure HaltRec where
  pc    : DWord
  slot  : Nat
  skid  : Nat
  fidx0 : Nat
  count : Nat
  kind  : Nat
  deriving DecidableEq, Repr

/-- What a team reports as faulted: code, detail and address, the event, and the trap frames of its fibres, in order (R340, R350). -/
structure Report where
  code   : TrapCode
  detail : Nat
  faddr  : DWord := 0
  event  : Option TrapEvent
  frames : List (List Reg) := []
  deriving DecidableEq, Repr

/-- A pool record: target PC and the two words with their tags, the clock of its arrival (R165, R422), and the vector clock of the spawning fibre's die,
which the team formed of it has delivered (R165, R214, R402). -/
structure PoolRec where
  pc   : DWord
  lo   : Reg
  hi   : Reg
  born : Nat
  stamp : List Nat := []
  deriving DecidableEq, Repr

/-- An s-register write of the current clock: register, value, the value before and the clock at which that is available, for each issue, named by slot
and clock, the fibres that wrote it with the state they had before, and whether the clock's values differ (R160). -/
structure SWrite where
  sreg   : Nat
  val    : DWord
  old    : DWord
  was    : Nat := 0
  before : List ((Nat × Nat) × List Fibre)
  clash  : Bool := false
  deriving DecidableEq, Repr

/-- A team (R138, R141, R142): identity, place, launch, cluster index, index in the cluster and curve position; size and window (R156); carve-outs
and tile-table block (R189, R192), of which the register carve-out lies at byte `regBase` of the register region; s-registers with their clocks (R11)
and those that hold an uncorrectable error (R204); crews with the program's q7 that a handler crew keeps aside (R145, R347);
partition (R272); event count, events, halt, halt records and report (R342 to R350); an engine's fault that waits (R293); places freed by ended fibres
(R163); a regrow's copy (R157); the clock's s-register writes (R160); pool records (R422). -/
structure Team where
  id       : Nat
  core     : Nat
  slot     : Nat
  launch   : Nat
  cluster  : Nat
  index    : Nat
  pos      : Nat
  n        : Nat
  w        : Nat
  regBytes : Nat
  regBase  : Nat := 0
  scrBase  : Nat
  scrSize  : Nat
  tileBase : Nat
  tileSize : Nat
  tblBase  : Nat
  tblCount : Nat
  sregs    : List (Nat × DWord) := []
  sAvail   : List (Nat × Nat) := []
  badS     : List Nat := []
  crews    : List (Nat × Crew) := []
  kept     : Option (Option Crew) := none
  part     : Option Nat := none
  events   : Nat := 0
  pendEv   : List TrapEvent := []
  halt     : Option Halt := none
  haltRecs : List HaltRec := []
  report   : Option Report := none
  asyncTrap : Option Trap := none
  ended    : List (Nat × Nat) := []
  copying  : Bool := false
  swClk    : Nat := 0
  swlog    : List SWrite := []
  recs     : List PoolRec := []
  deriving DecidableEq, Repr

/-- A gang (R140, R150): core and slot, team, members as lane and fidx, the clock it formed, the clocks it has waited ready (R154), its halt's skid
(R342), whether a trap left it as remainder (R343), while an access of its last issue has not been served yet (R4) the clocks of that issue and of the
last time it was tried, and the clock in which such an access was last served. -/
structure Gang where
  gid     : Nat
  core    : Nat
  slot    : Nat
  team    : Nat
  members : List (Nat × Nat)
  formed  : Nat
  waited  : Nat := 0
  skid    : Nat := 0
  remainder : Bool := false
  pend    : Option (Nat × Nat) := none
  served  : Option Nat := none
  deriving DecidableEq, Repr

/-! ## The core -/

/-- The states of a tile entry (R191). -/
inductive TileSt where
  | empty | filling | ready | draining
  deriving DecidableEq, Repr

/-- A tile table entry (R191): descriptor and exponents (sparse, 0 where unlisted). `addr` is the store address of row 0; `zeroed` the clock
in which the entry becomes READY after talloc (R317). -/
structure Tile where
  owner   : Nat := 0
  addr    : Nat := 0
  off     : Nat := 0
  cols    : Nat := 0
  rows    : Nat := 0
  fmt     : Nat := 0
  st      : TileSt := .empty
  rowExp  : List (Nat × BitVec 5) := []
  colExp  : List (Nat × BitVec 5) := []
  zeroed  : Option Nat := none
  deriving DecidableEq, Repr

/-- A write-combining entry, with the fibres that have stored into it (R197, R217). -/
structure Wcb where
  line   : Nat
  mask   : BitVec 128
  data   : BitVec 1024
  alloc  : Nat
  merged : Nat
  claimed : Bool := false
  recalled : Bool := false
  who     : List Nat := []
  deriving DecidableEq, Repr

/-- A write that its home has not acknowledged yet, with the fibres whose bytes it carries (R217). -/
structure Ack where
  id  : Nat
  who : List Nat
  deriving DecidableEq, Repr

/-- A copy of a global line in L1 or an RDC (R196, R200); `own` are the granules in which the copy itself has an uncorrectable error (R204). -/
structure Copy where
  img    : BitVec 1024
  poison : BitVec 4
  ver    : Nat
  filled : Nat
  exempt : Bool := false
  own    : BitVec 4 := 0
  deriving DecidableEq, Repr

/-- The loop of a copy-engine chain: first entry, length, iterations, index, strides (R302). -/
structure CopyLoop where
  first : Nat
  n     : Nat
  k     : Nat
  j     : Nat
  srcStride : DWord
  dstStride : DWord
  deriving DecidableEq, Repr

inductive CopyKind where
  | xcopy | xchain | tmove
  deriving DecidableEq, Repr

/-- An entry of a copy-engine chain in progress (R297, R299): its first word as read, the chunks still to be moved, in order, as source, destination and
length, whether none has been moved yet, and the tiles that it writes and reads, which are READY again when it ends. -/
structure CopyWork where
  w0    : Nat
  todo  : List (Nat × Nat × Nat)
  first : Bool := true
  out   : Option Nat := none
  inn   : Option Nat := none
  deriving DecidableEq, Repr

/-- A copy-engine command, with the answers that its first access awaits (R223, R297, R298, R311). -/
structure CopyCmd where
  id      : Nat
  team    : Nat
  crew    : Nat
  kind    : CopyKind
  base    : Nat
  cell    : DWord
  pos     : Nat := 0
  lp      : Option CopyLoop := none
  skipped : Nat := 0
  acks    : List Nat := []
  work    : Option CopyWork := none
  deriving DecidableEq, Repr

/-- A sieve stream (R305 to R307): descriptor, the held pairs (score, identifier) in rank order, and the pairs pushed in clock `newClk`,
which a sieveget of a later clock sees. -/
structure Sieve where
  key   : Bool := false
  order : Bool := false
  k     : Nat := 0
  owner : Nat := 0
  team  : Nat := 0
  held    : List (Word × Word) := []
  new     : List (Word × Word) := []
  newClk  : Nat := 0
  deriving DecidableEq, Repr

/-- What a slot issued last (R152): gang, its team, the place it held, and whether it just yielded. -/
structure LastIssue where
  gid     : Nat
  team    : Nat
  launch  : Nat
  place   : Nat
  yielded : Bool
  clk     : Nat
  deriving DecidableEq, Repr

/-- A pending register request of a team (R157): bytes asked, deadline clock. -/
structure Allot where
  team     : Nat
  bytes    : Nat
  w        : Nat
  deadline : Option Nat
  deriving DecidableEq, Repr

/-- A sieveget whose pairs are being written (R332): the clock by which all are, and the byte address and the bytes still to be written. -/
structure SieveBusy where
  team  : Nat
  crew  : Nat
  clk   : Nat
  at_   : Nat := 0
  rest  : List Byte := []
  deriving DecidableEq, Repr

/-- A translation held by a TLB (R207): context, first address and log2 size of the page, and its leaf. -/
structure TlbEnt where
  ctx  : Nat
  base : Nat
  bits : Nat
  leaf : DWord
  deriving DecidableEq, Repr

/-- A core: partition boundaries (R187), breakpoint registers, fibre-stop slots and mark (R353, R356, R384), the unified store's bytes and poisoned
granules (R186, R204), tile table (R191), combining entries (R197), L1 (R196), loads whose fill is to come, writes not yet acknowledged (R217), copy
engine (R297), sieve (R305), what each slot issued last (R152), register requests, the registers freed in a clock, of the free pool and of the express
reserve, the bytes of the free pool at the last allotment step and the version of the allotment cell (R157, R158), and the L1 TLB (R207). -/
structure Core where
  ubScratch : Nat := 0x080
  ubTiles   : Nat := 0x0C0
  ubL1      : Nat := 0x0F0
  brk       : List (Nat × DWord) := []
  fstop     : BitVec 16 := 0
  mark      : DWord := 0
  markAt    : Nat × Nat := (0, 0)
  store     : List Host.Cell := []
  scrPoison : List (Nat × Bool) := []
  tiles     : List (Nat × Tile) := []
  wcb       : List Wcb := []
  l1        : List (Nat × Copy) := []
  fills     : List (Nat × Nat) := []
  acks      : List Ack := []
  copyQ     : List CopyCmd := []
  sieves    : List (Nat × Sieve) := []
  siftAt    : Option Nat := none
  sieveBusy : List SieveBusy := []
  last      : List (Nat × LastIssue) := []
  allot     : List Allot := []
  freed     : Nat := 0
  freedX    : Nat := 0
  freedAt   : Nat := 0
  poolWas   : Nat := 458752
  allotVer  : Nat := 0
  tlb       : List TlbEnt := []
  deriving DecidableEq, Repr

/-! ## The quad (R271 to R296, R308 to R310) -/

/-- An exact accumulator element: V as an integer and the special state (R49). -/
structure Acc where
  v    : Int := 0
  pinf : Bool := false
  ninf : Bool := false
  nan  : Bool := false
  deriving DecidableEq, Repr

/-- A weight plane (R271): codes by 128*k + j, column exponents, format; no format when cleared (R321). `bad` lists the weights that
came from a poisoned granule (R282). -/
structure Plane where
  fmt    : Option Nat := none
  w      : List (Nat × Nat) := []
  colExp : List (Nat × BitVec 5) := []
  bad    : List Nat := []
  deriving DecidableEq, Repr

/-- The tag of an adapter slice (R288); 0xFF stands where the field does not apply. -/
structure SliceTag where
  part  : Nat
  id    : Nat
  proj  : Nat
  kstep : Nat
  nstep : Nat
  deriving DecidableEq, Repr

/-- A cached slice: its rank and scale, its T16 codes (NaR where the granule was poisoned, R282), and the clock of its last use (R287, R288). -/
structure Slice where
  tag   : SliceTag
  rank  : Nat
  sigma : Int
  codes : List Nat
  used  : Nat
  deriving DecidableEq, Repr

/-- The matrix requests (R274), their operands resolved at posting. -/
inductive ReqKind where
  | mlds (t : Nat)
  | pass (swap : Bool) (ids : Option Nat) (ta : Nat) (sparse : Option (Pattern × Nat × Nat)) (acc : Bool) (word : Nat)
  | snap (tc : Nat) (acc : Bool) (row : Nat) (dsts : List (Nat × Nat)) (sd : Option Nat)
  | drainTile (tc : Nat) (acc : Bool) (m : Rm)
  | drainMem (acc : Bool) (kind : Nat) (m : Rm) (va cell : DWord)
  | clr (all : Bool) (k : EaKind) (acc : Bool)
  | adload (id : Nat) (word : Nat)
  | adinv (id : Option Nat)
  | vprune (pat : Pattern) (hi : Bool) (ta tb tc : Nat) (base : Word) (theta : Word) (key : Word)
  deriving DecidableEq, Repr

/-- A request in the reservation table, with the clock at which it started or was granted, the swap clocks and rows of a granted
pass with the clocks at which they entered, the plane and the slices it uses, and the rows already added. `due` is the clock in which a
non-pass request completes. -/
structure MReq where
  id      : Nat
  team    : Nat
  core    : Nat
  crew    : Nat
  cls     : Nat
  posted  : Nat
  kind    : ReqKind
  acks    : List Nat := []
  next    : Option Nat := none
  promo   : Nat := 0
  started : Option Nat := none
  swapClk : Nat := 0
  m       : Nat := 0
  plane   : Plane := {}
  slices  : List Slice := []
  entered : List (Nat × Nat) := []
  added   : List Nat := []
  due     : Option Nat := none
  failed  : Bool := false
  deriving DecidableEq, Repr

/-- What an acdrain into memory has read and is still to do (R285, R326): cells by physical address with the elements, which are added to EA160 or wide
cells, or written as F32 values read out from a kind of element in a mode; and the record's cell. -/
structure AddOn where
  id    : Nat
  team  : Nat
  core  : Nat
  wide  : Bool
  f32   : Option (EaKind × Rm) := none
  cells : List (Nat × Acc)
  cell  : DWord
  deriving DecidableEq, Repr

/-- What a posting does to the formats of a partition's planes (R321): an mlds loads the shadow plane, a swap exchanges the two. -/
inductive PlaneStep where
  | load (fmt : Nat)
  | swap
  deriving DecidableEq, Repr

/-- A partition (R271, R272): its cluster, mode, accumulators and step counts, side sums, planes, the formats they will hold (R321) with those before the
postings of clock `fmtClk` and the postings of that clock by core and crew, requests and add-on-stores. -/
structure Part where
  owner   : Option (Nat × Nat) := none
  ea320   : Bool := false
  acc     : List (Nat × Acc) := []
  steps   : List (Nat × Nat) := []
  side    : List (Nat × Acc) := []
  active  : Plane := {}
  shadow  : Plane := {}
  fmtA    : Option Nat := none
  fmtS    : Option Nat := none
  fmtOld  : Option Nat × Option Nat := (none, none)
  fmtClk  : Nat := 0
  fmtLog  : List (Nat × PlaneStep) := []
  reqs    : List MReq := []
  adds    : List AddOn := []
  clearing : Bool := false
  deriving DecidableEq, Repr

/-- A slice being fetched, with the context of the request that first missed it (R288, R296). -/
structure Fetch where
  tag  : SliceTag
  ctx  : Nat
  clk  : Nat
  deriving DecidableEq, Repr

/-- A replay-buffer entry (R290): the row of a request, the held main column sums, the clock of normal addition, the clock at which its
slices were all present, and the clock of its pass through the side array. -/
structure Replay where
  part   : Nat
  req    : Nat
  row    : Nat
  id     : Nat
  entry  : Nat
  since  : Option Nat := none
  sidePass : Option Nat := none
  failed : Bool := false
  deriving DecidableEq, Repr

/-- A feature of a fetched row: its value, one that is poisoned, or one whose access failed with a status and an address (R309). -/
inductive Feat where
  | val (w : Nat)
  | bad
  | fail (st : Nat) (fa : DWord)
  deriving DecidableEq, Repr

/-- A sample in flight (R309 to R311): its index and entity, its feature row once fetched, tree, node once the tree's root is read, depth, sum, the clock
from which what it waits for is there, and, when it has finished, its output with the status and address of its failure. -/
structure Sample where
  ix    : Nat
  ent   : Nat := 0
  row   : Option (List Feat) := none
  tree  : Nat := 0
  node  : Option Int := none
  depth : Nat := 0
  acc   : Acc := {}
  ready : Nat := 0
  out   : Option (Nat × Option (Nat × DWord)) := none
  deriving DecidableEq, Repr

/-- A queued walk of the index engine (R308, R310, R333), with the answers that its first access awaits (R223): once started, the address of the forest
descriptor and the descriptor as read, the next sample to begin, those in flight, and the lowest failed sample with its status and address. -/
structure Walk where
  id      : Nat
  team    : Nat
  core    : Nat
  off     : Nat
  cell    : DWord
  acks    : List Nat := []
  started : Bool := false
  desc    : DWord := 0
  forest  : Nat := 0
  ents    : DWord := 0
  outs    : DWord := 0
  n       : Nat := 0
  next    : Nat := 0
  flight  : List Sample := []
  fail    : Option (Nat × Nat × DWord) := none
  deriving DecidableEq, Repr

/-- A quad's matrix and index engines: partitions, directories (R273), the clock from which the array is free (R275), adapter cache and slices
being fetched (R288), replay buffer (R290), walks with the lines that the node buffer holds, oldest first, and those being fetched into it with their clocks (R310), and the quad's TLB (R207). -/
structure Quad where
  parts     : List (Nat × Part) := []
  mxdir     : List (Nat × DWord) := []
  arrayFree : Nat := 0
  cache     : List Slice := []
  fetches   : List Fetch := []
  replay    : List Replay := []
  walks     : List Walk := []
  nodes     : List Nat := []
  nodeDue   : List (Nat × Nat) := []
  tlb       : List TlbEnt := []
  deriving DecidableEq, Repr

/-- A miss of the die's TLB that waits for its walk, with the cores that wait (R207). -/
structure Miss where
  ctx   : Nat
  page  : Nat
  cores : List Nat
  deriving DecidableEq, Repr

/-! ## The die (R195 to R207, R239 to R242, R398 to R404) -/

/-- A wake-table entry: line, version seen, watcher, and the watcher's die (8 is the hub die) and module (R239). -/
structure Watch where
  line : Nat
  ver  : Nat
  who  : Watcher
  die  : Nat
  mod  : Nat
  deriving DecidableEq, Repr

/-- A wake on its way (R240, R401): the watcher, the home's die and its clock, none from another module. -/
structure Wake where
  who   : Watcher
  die   : Nat
  stamp : List Nat
  deriving DecidableEq, Repr

/-- A pushed change of a line: the bytes with their mask, the new version and poison (R403). -/
structure Push where
  line   : Nat
  mask   : BitVec 128
  data   : BitVec 1024
  ver    : Nat
  poison : BitVec 4
  deriving DecidableEq, Repr

/-- An announced epoch on its way to a die: sender, stamp and pushes (R401). -/
structure Msg where
  src    : Nat
  stamp  : List Nat
  pushes : List Push
  deriving DecidableEq, Repr

/-- CD_TLBINV (R207): kind, address and context of the invalidation in progress. -/
structure TlbInv where
  kind : Nat
  va   : Nat
  ctx  : Nat
  deriving DecidableEq, Repr

/-- A die: claims (R197), watches, buckets and their counts (R239 to R242), RDC (R200), the far-memory lines in its L2 slices, oldest first (R195),
sharers registered at its homes (R403), TLB, misses and the invalidation in progress (R207), vector clock, inbox, the clock's writes and pushes (R401,
R403), link retries and states (R400), droops (R449), retention bits, re-encoding in progress, the encoding in force and the clock at which a re-encoding ends (R450). -/
structure Die where
  claims   : List (Nat × List Nat) := []
  watches  : List Watch := []
  buckets  : List (Nat × List Watcher) := []
  refused  : Nat := 0
  bucketed : Nat := 0
  rdc      : List (Nat × Copy) := []
  l2       : List Nat := []
  sharers  : List (Nat × List Nat) := []
  tlb      : List TlbEnt := []
  misses   : List Miss := []
  inv      : Option TlbInv := none
  vc       : List (Nat × Nat) := []
  inbox    : List Msg := []
  wrote    : Bool := false
  pushQ    : List (Nat × Push) := []
  retries  : List (Nat × Nat) := []
  link     : List (Nat × Nat) := []
  droop    : Nat := 0
  ret      : BitVec 4 := 0
  busy     : BitVec 4 := 0
  enc      : BitVec 4 := 0
  encAt    : Nat := 0
  deriving DecidableEq, Repr

/-- The metadata of a line: version, poison by granule, and the module that holds a commit's reservation of it (R203, R204, R232). -/
structure LineMeta where
  ver    : Nat := 0
  poison : BitVec 4 := 0
  resv   : Option Nat := none
  deriving DecidableEq, Repr

/-! ## Contexts (R360 to R371) -/

/-- The states of a context (R362). -/
inductive CtxSt where
  | idle | running | draining | stopped | frozen | reset | faulted
  deriving DecidableEq, Repr

/-- What the ladle holds of a frozen context (R311, R367): copy commands by core, index walks by quad. -/
structure Ladle where
  copies : List (Nat × CopyCmd) := []
  walks  : List (Nat × Walk) := []
  deriving DecidableEq, Repr

/-- A context: HUB_CTXSTAT, HUB_CTXSAVE and HUB_CTXFEAT (R361, R431), translation root and queues (R360), frames granted (R303), drain
deadline (R363), what it was frozen from and when, the ladle's contents and a thaw that waits for places in the engines' queues (R367), a reset being
carried out (R364), the team blocks of the save area with their offsets and the end of the last one (R343, R368), and the launch table of launches that
a stop or a reset has ended (R425). -/
structure Ctx where
  st       : CtxSt := .idle
  ignored  : Nat := 0
  reason   : Nat := 0
  resume   : Nat := 0
  saveBase : Nat := 0
  saveSize : Nat := 0
  featBase : Nat := 0
  featCount : Nat := 0
  root     : Nat := 0
  queues   : BitVec 32 := 0
  frames   : List (Nat × Nat) := []
  drainAt  : Option Nat := none
  frozenFrom : Option CtxSt := none
  frozenAt : Nat := 0
  ladle    : Ladle := {}
  thawing  : Bool := false
  resetting : Bool := false
  blocks   : List (Nat × Nat) := []
  areaEnd  : Nat := 0x300
  ended    : List (DWord × DWord) := []
  deriving DecidableEq, Repr

/-! ## Launches and pools (R141, R365, R366, R408, R410, R417 to R422) -/

/-- A bin of a pool (R422). -/
structure Bin where
  pc   : DWord
  recs : List PoolRec
  deriving DecidableEq, Repr

/-- A launch or pool (R408, R417 to R422): packet, context and class; team size, grid, cluster shape and curve start; entry, registers and window,
tiles, scratch, boundaries, arguments, seed; placement, signal, H, locality and matrix directory, digest with its ranges; the clock of its
acceptance, status, positions admitted, retirement bits, positions recorded, clusters retired, dies that ran one and those still to flush. -/
structure Launch where
  id      : Nat
  queue   : Nat
  index   : Nat
  ctx     : Nat
  cls     : Nat
  express : Bool := false
  pool    : Bool := false
  pod     : Bool := false
  n       : Nat
  gx      : Nat := 1
  gy      : Nat := 1
  gz      : Nat := 1
  cx      : Nat := 1
  cy      : Nat := 1
  cz      : Nat := 1
  resume  : Nat := 0
  entry   : DWord
  regs    : Nat
  w       : Nat
  tiles   : Nat := 0
  scratch : Nat := 0
  tileBytes : Nat := 0
  rr      : Bool := false
  gridsync : Bool := false
  isMatrix : Bool := false
  ub      : Nat × Nat × Nat := (0x080, 0x0C0, 0x0F0)
  args    : List (Nat × DWord) := []
  seed    : DWord := 0
  stride  : DWord := 0
  home    : Option Nat := none
  sig     : DWord := 0
  h       : DWord := 0
  locB    : DWord := 0
  locF    : Nat := 0
  mxdir   : DWord := 0
  digest  : DWord := 0
  ranges  : List (DWord × DWord) := []
  accepted : Nat := 0
  status  : Nat := 0
  admitted : List Nat := []
  bits    : List Nat := []
  recorded : Nat := 0
  retired : Nat := 0
  dies    : List Nat := []
  flush   : Option (List Nat) := none
  -- a pool's own fields (R422)
  store    : DWord := 0
  capacity : Nat := 0
  held     : Nat := 0
  bins     : List Bin := []
  waiting  : List PoolRec := []
  formed   : Nat := 0
  deriving DecidableEq, Repr

/-! ## Queues (R411 to R416) -/

/-- The states of a queue (R411). -/
inductive QSt where
  | idle | serving | stopped | error
  deriving DecidableEq, Repr

/-- A packet that a thread has taken: its index, the context of its queue, and its eight words (R415). -/
structure Packet where
  index : Nat
  ctx   : Nat
  words : List DWord
  handed : Bool := false
  deriving DecidableEq, Repr

/-- A queue with its shawm thread (R411 to R416): registers, the packet in the thread's hand, the one that the dispatch unit has in work, the
completed packets at or above QCB_DONEIDX, the accepted packets that stopped the queue with the code each gave (R414, R416), the clock of the thread's
last progress, a WAIT's deadline and watched line, and the index and submission clock of a packet whose launch R359 bounds. -/
structure Queue where
  wridx    : DWord := 0
  accepted : DWord := 0
  stale    : BitVec 16 := 0
  error    : Nat := 0
  st       : QSt := .idle
  qcb      : Nat := 0
  hand     : Option Packet := none
  unit     : Option Packet := none
  finished : List Nat := []
  failed   : List (Nat × Nat) := []
  progress : Nat := 0
  waitDl   : Option Nat := none
  watching : Option Nat := none
  bound    : Option (Nat × Nat) := none
  deriving DecidableEq, Repr

/-! ## The hub, ports and boot (R429 to R453) -/

/-- Where the boot sequence stands (R442). -/
inductive BootSt where
  | off | failedFuse | training | waitRetry (clk step : Nat) | address | fetching | booted
  deriving DecidableEq, Repr

/-- An outstanding block request of the boot ROM (R443): the 64-byte file name, block, clock of the last sending, sendings. -/
structure BlockReq where
  file  : BitVec 512
  block : Nat
  sent  : Nat
  tries : Nat
  deriving DecidableEq, Repr

/-- A pod port pair (R439, R440): next SEQ expected, flits sent and not acknowledged, last ACKSEQ, its clock, and the clock of the last
report to the peer. -/
structure PodPort where
  expect   : Nat := 0
  unacked  : List Nat := []
  sent     : Nat := 0
  ackseq   : Nat := 0
  ackClk   : Nat := 0
  reported : Nat := 0
  resent   : Nat := 0
  deriving DecidableEq, Repr

/-- A loaded code object (R429 to R432): its context, the VA of its code region, LENGTH, SVN and the features that shims stand in for. -/
structure CodeObj where
  ctx  : Nat
  base : Nat
  len  : Nat
  svn  : Nat
  feats : List Nat
  deriving DecidableEq, Repr

/-- Why the loader or the Proeb translator refuses an object or a module (R25, R429, R431, R432, R434 to R436). -/
inductive LoadErr where
  | badSignature | check | frameDecl | missingFeature | svnRevoked | proeb
  deriving DecidableEq, Repr

/-- A translation-cache entry (R437): the module's digest and the device's feature mask, SVN, signature, and the translated code. -/
structure XlatEnt where
  digest : BitVec 512
  feats  : BitVec 512
  svn    : Nat
  sig    : BitVec 912
  base   : Nat
  deriving DecidableEq, Repr

/-- The hub: register base and host window, enabled queues, heartbeat (R447, R452), boot status and sequence (R442, R443), module number and pod
members, fuses (R446), the seeds of the identity and the translation key once derived (R444), server and file of the image, image digest and SVN, warm reboot (R448), the firmware's restart (R426), ports with the headers of the frames sent in this clock (R439), loaded objects, shims, translation
cache (R429 to R437), the loader's last refusal and the cache's last hit, and the last attestation report (R444). -/
structure Hub where
  regbase  : Nat := 0
  hostwin  : Nat := 0
  hostEn   : Bool := false
  qenable  : BitVec 32 := 0
  kheart   : Word := 0
  kTimer   : Option Nat := none
  attempts : Nat := 0
  bootStep : Nat := 0
  bootCode : Nat := 0
  modid    : Nat := 0
  modidSet : Bool := false
  podmemb  : DWord := 0
  svnfuse  : Nat := 0
  boot     : BootSt := .off
  identity : Option (BitVec 456 × BitVec 456) := none
  bootPort : Nat := 0
  bootServer : BitVec 128 := 0
  bootFile : BitVec 512 := 0
  bootClk  : Nat := 0
  imgLen   : Option Nat := none
  blocks   : List (Nat × BitVec 8192) := []
  reqs     : List BlockReq := []
  imgDigest : BitVec 512 := 0
  imgSvn   : Nat := 0
  reboot   : Bool := false
  fwRestart : Option Nat := none
  ports    : List (Nat × PodPort) := []
  wire     : List (List Byte) := []
  objs     : List CodeObj := []
  shims    : List (DWord × DWord) := []
  xlat     : List XlatEnt := []
  loadErr  : Option LoadErr := none
  xlatHit  : Option Nat := none
  report   : Option (List Byte) := none
  deriving DecidableEq, Repr

/-! ## Work in flight -/

/-- A page that a TMOVE is moving (R202): the command, the page's context, address, leaf, table entry and log2 size, the two frames, and how many of its
lines lie in the new one. -/
structure PageMove where
  core : Nat
  cmd  : Nat
  ctx  : Nat
  va   : DWord
  leaf : DWord
  ea   : Nat
  bits : Nat
  old  : Nat
  new  : Nat
  done : Nat := 0
  deriving DecidableEq, Repr

/-- A completion record to be written (R304): team for the translation of its cell, the cell, and its fields. -/
structure Record where
  id      : Nat
  ctx     : Nat
  team    : Nat
  core    : Nat
  cell    : DWord
  faddr   : DWord
  skipped : Nat
  index   : Nat
  detail  : Nat
  status  : Nat
  deriving DecidableEq, Repr

/-- An operation that has reached the sealing unit (R265): context, seal or unseal, scope, first page and number of pages, and
the fibre that waits for it. -/
structure SealOp where
  ctx   : Nat
  die   : Nat
  isSeal : Bool
  pod   : Bool
  start : Nat
  pages : Nat
  fibre : Nat
  deriving DecidableEq, Repr

/-- An ldsum whose gather is outstanding (R257, R409): the fibre as it stands after the ldsum and as it stood before it, the clock of its issue, the fibres
that fork has made of it since, whose earlier load it is too (R163), destination, cell kind, scope, address, the modules still to
answer, and what each has answered: its sum, and which of the cell's granules are poisoned there. -/
structure Gather where
  id     : Nat
  fibre  : Nat
  before : Fibre
  issued : Nat := 0
  heirs  : List Nat := []
  pos    : Nat
  c      : Bool
  d      : Option (Fin 256)
  kind   : SumKind
  pod    : Bool
  pa     : Nat
  va     : DWord
  await  : List Nat
  sums   : List (Nat × Acc × BitVec 2) := []
  deriving DecidableEq, Repr

/-- An arrival at a barrier cell (R244, R264): global fibre index, core, destination, the cell's address, the clock of its issue, and the fibre as it stood
before the bar, with the trap addresses of its instruction. -/
structure Arrival where
  gfid   : Nat
  core   : Nat
  dst    : Dst
  va     : DWord
  issued : Nat := 0
  before : Fibre
  deriving DecidableEq, Repr

/-- A combined barrier message (R244): cell, network, clock, and its arrivals. -/
structure BarMsg where
  pa    : Nat
  scope : Nat
  unit  : Nat
  clk   : Nat
  arrivals : List Arrival
  deriving DecidableEq, Repr

/-- The module. `epoch` is the clock of the last power-up, from which each core counts its clocks
(R148); `agenda` holds the events still to happen in this clock, `postponed` those of other agents that wait for a line
(R232, R438, R450), to which the event being carried out is added where `putOff` is set; `issue` the gang
that a slot has selected and that issues next; `nextId` and `free` number what the model creates and draws (logs 2, 3, 9). -/
structure State where
  clock    : Nat
  epoch    : Nat
  agenda   : List Instr
  issue    : Option Nat
  nextId   : Nat
  free     : Nat
  power    : Bool
  mem      : List Host.Cell
  lines    : List (Nat × LineMeta)
  fibres   : List (Nat × Fibre)
  teams    : List (Nat × Team)
  gangs    : List Gang
  cores    : List (Nat × Core)
  quads    : List (Nat × Quad)
  dies     : List (Nat × Die)
  ctxs     : List (Nat × Ctx)
  launches : List (Nat × Launch)
  queues   : List (Nat × Queue)
  hub      : Hub
  hubVc    : List (Nat × Nat)
  records  : List Record
  sealQ    : List SealOp
  gathers  : List Gather
  bars     : List BarMsg
  moves    : List PageMove
  wakes    : List Wake
  postponed : List Instr
  putOff   : Bool
  deriving DecidableEq, Repr

/-- What stops the machine for good: nothing does. Every trap of the spec is taken as the spec says (R340 to R356), every engine's failure is
reported (R293, R304), and a module without power waits for a power-up (R442, R446). -/
inductive Fault where
  deriving DecidableEq, Repr

/-- Why exec gives an instruction no meaning. -/
inductive Refusal where
  /-- Raised by exec's arm of an instruction that has no meaning in the model yet. Safe: no step is taken. -/
  | notModelled (mnemonic : String)
  deriving DecidableEq, Repr

/-- The state at power-on, before the boot ROM's first step (R442): every register at the reset value the spec states, and where it
states none at the value a log entry names. -/
def State.reset : State :=
  { clock := 0, epoch := 0, agenda := [], issue := none, nextId := 0, free := 0, power := true, mem := [], lines := [],
    fibres := [], teams := [], gangs := [], cores := [], quads := [], dies := [], ctxs := [], launches := [], queues := [],
    hub := {}, hubVc := [], records := [], sealQ := [], gathers := [], bars := [], moves := [], wakes := [], postponed := [], putOff := false }

end Sys2Proof.Machine
end

