-- ==== Sys2Proof/Machine/NumFmt.lean ====
section
/-! DEFINITION. The number formats: exact values, Round_F, the tapered formats, conversions and the exact accumulators (R29 to R54). -/

namespace Sys2Proof.Machine

/-- An exact value: a signed rational (a zero keeps its sign), an infinity or NaN. Denominators are never 0. -/
inductive Xr where
  | fin (neg : Bool) (num den : Nat)
  | inf (neg : Bool)
  | nan
  deriving DecidableEq, Repr

/-- The exact value num / den of an integer numerator; zero is +0. -/
def Xr.ofInt (num : Int) (den : Nat) : Xr := .fin (num < 0) num.natAbs den

/-- The signed numerator. -/
def signed (neg : Bool) (n : Nat) : Int := if neg then -(n : Int) else n

/-- 2 ^ e of an integer exponent, as numerator and denominator. -/
def pow2 (e : Int) : Nat × Nat := if 0 ≤ e then (2 ^ e.toNat, 1) else (1, 2 ^ (-e).toNat)

/-- m * 2 ^ e. -/
def Xr.dyadic (neg : Bool) (m : Nat) (e : Int) : Xr := .fin neg (m * (pow2 e).1) (pow2 e).2

/-! IEEE formats (R32). -/

inductive Fmt where
  | f32 | bf16 | h16
  deriving DecidableEq, Repr

/-- Precision: fraction bits and the leading bit. -/
def Fmt.prec : Fmt → Nat
  | .f32 => 24 | .bf16 => 8 | .h16 => 11

/-- The exponent of the smallest subnormal. -/
def Fmt.emin : Fmt → Int
  | .f32 => -149 | .bf16 => -133 | .h16 => -24

/-- The bit pattern of +infinity. -/
def Fmt.infBits : Fmt → Nat
  | .f32 => 0x7F800000 | .bf16 => 0x7F80 | .h16 => 0x7C00

/-- The canonical NaN (R33). -/
def Fmt.nanBits : Fmt → Nat
  | .f32 => 0x7FC00000 | .bf16 => 0x7FC0 | .h16 => 0x7E00

/-- The sign bit. -/
def Fmt.signBit : Fmt → Nat
  | .f32 => 2 ^ 31 | .bf16 => 2 ^ 15 | .h16 => 2 ^ 15

/-- The exact value of a bit pattern. -/
def Fmt.val (f : Fmt) (x : Nat) : Xr :=
  let neg := f.signBit ≤ x % (2 * f.signBit)
  let m := x % f.signBit
  if f.infBits < m then .nan
  else if m = f.infBits then .inf neg
  else
    let e := m / 2 ^ (f.prec - 1)
    let g := m % 2 ^ (f.prec - 1)
    if e = 0 then .dyadic neg g f.emin else .dyadic neg (2 ^ (f.prec - 1) + g) (f.emin + (e - 1 : Nat))

/-- Whether a magnitude with remainder r over d above the integer n is rounded up by a mode (R34). -/
def roundUp (m : Rm) (neg : Bool) (n r d : Nat) : Bool :=
  match m with
  | .rne => decide (d < 2 * r) || (decide (2 * r = d) && n % 2 == 1)
  | .rtz => false
  | .rdn => neg && r != 0
  | .rup => !neg && r != 0

/-- num / den in units of 2 ^ q: quotient, remainder and the divisor of the remainder. -/
def units (num den : Nat) (q : Int) : Nat × Nat × Nat :=
  let n := num * (pow2 (-q)).1
  let d := den * (pow2 (-q)).2
  (n / d, n % d, d)

/-- The largest e with 2 ^ e ≤ num / den, for a nonzero num. -/
def ilog2 (num den : Nat) : Int :=
  let e := (Nat.log2 num : Int) - Nat.log2 den
  if num * (pow2 (-e)).1 < den * (pow2 (-e)).2 then e - 1 else e

/-- Round_F (R35). -/
def roundF (f : Fmt) (m : Rm) : Xr → Nat
  | .nan => f.nanBits
  | .inf neg => f.infBits + (if neg then f.signBit else 0)
  | .fin neg num den =>
    let s := if neg then f.signBit else 0
    if num = 0 then s
    else
      let q := max (ilog2 num den - (f.prec - 1 : Nat)) f.emin
      let u := units num den q
      let n := u.1 + (if roundUp m neg u.1 u.2.1 u.2.2 then 1 else 0)
      let b := (q - f.emin).toNat * 2 ^ (f.prec - 1) + n
      if f.infBits ≤ b then
        let big := match m with
          | .rne => true
          | .rtz => false
          | .rdn => neg
          | .rup => !neg
        s + (if big then f.infBits else f.infBits - 1)
      else s + b

/-! Exact operations, with IEEE's rules for specials (R100, R101). -/

def Xr.neg : Xr → Xr
  | .fin n a d => .fin (!n) a d
  | .inf n => .inf (!n)
  | .nan => .nan

/-- The sign of a sum that is exactly zero (R100). -/
def zeroSign (m : Rm) (n1 n2 : Bool) : Bool := if n1 == n2 then n1 else m == .rdn

/-- The exact sum; a zero sum takes the sign R100 gives it. -/
def Xr.add (m : Rm) : Xr → Xr → Xr
  | .nan, _ => .nan
  | _, .nan => .nan
  | .inf n1, .inf n2 => if n1 == n2 then .inf n1 else .nan
  | .inf n, _ => .inf n
  | _, .inf n => .inf n
  | .fin n1 a b, .fin n2 c d =>
    let s := signed n1 a * d + signed n2 c * b
    if s = 0 then
      if a = 0 ∧ c = 0 then .fin (zeroSign m n1 n2) 0 1 else .fin (m == .rdn) 0 1
    else .ofInt s (b * d)

/-- The exact product. -/
def Xr.mul : Xr → Xr → Xr
  | .nan, _ => .nan
  | _, .nan => .nan
  | .inf n1, .inf n2 => .inf (n1 != n2)
  | .inf n1, .fin n2 c _ => if c = 0 then .nan else .inf (n1 != n2)
  | .fin n1 a _, .inf n2 => if a = 0 then .nan else .inf (n1 != n2)
  | .fin n1 a b, .fin n2 c d => .fin (n1 != n2) (a * c) (b * d)

/-- The exact quotient. -/
def Xr.div : Xr → Xr → Xr
  | .nan, _ => .nan
  | _, .nan => .nan
  | .inf _, .inf _ => .nan
  | .inf n1, .fin n2 _ _ => .inf (n1 != n2)
  | .fin n1 _ _, .inf n2 => .fin (n1 != n2) 0 1
  | .fin n1 a b, .fin n2 c d =>
    if c = 0 then (if a = 0 then .nan else .inf (n1 != n2)) else .fin (n1 != n2) (a * d) (b * c)

/-- Newton's iteration for the integer square root, from above. -/
def isqrtGo (n : Nat) : Nat → Nat → Nat
  | 0, x => x
  | k + 1, x =>
    let y := (x + n / x) / 2
    if y < x then isqrtGo n k y else x

/-- ⌊√n⌋. -/
def isqrt (n : Nat) : Nat := if n = 0 then 0 else isqrtGo n (Nat.log2 n + 2) (2 ^ (Nat.log2 n / 2 + 1))

/-- The square root, as a value that every mode rounds as the exact root: 64 bits of the root and, below them, a bit that says whether
more follow. -/
def Xr.sqrt : Xr → Xr
  | .nan => .nan
  | .inf false => .inf false
  | .inf true => .nan
  | .fin neg a d =>
    if a = 0 then .fin neg 0 1
    else if neg then .nan
    else
      let e := ilog2 a d / 2 - 64
      let t := units a d (2 * e)
      let r := isqrt t.1
      let sticky := if r * r = t.1 ∧ t.2.1 = 0 then 0 else 1
      .dyadic false (2 * r + sticky) (e - 1)

/-- Bits kept by the bracketing of fexp2. -/
def expBits : Nat := 320

/-- The product of 2 ^ (2 ^ -j) over the bits of a fraction m / 2 ^ t, from the highest bit downward, as a lower bound in units of
2 ^ -expBits; c is 2 ^ (2 ^ -j) of the step before. -/
def exp2Go (m : Nat) : Nat → Nat → Nat → Nat
  | 0, _, p => p
  | t + 1, c, p =>
    let c' := isqrt (c * 2 ^ expBits)
    exp2Go m t c' (if m / 2 ^ t % 2 = 1 then p * c' / 2 ^ expBits else p)

/-- 2 ^ a (R100, R101): exact for an integral a, else a bracketed value that no rounding boundary separates from the exact one. -/
def Xr.exp2 : Xr → Xr
  | .nan => .nan
  | .inf false => .inf false
  | .inf true => .fin false 0 1
  | .fin neg a d =>
    let v := signed neg a
    let i := v / (d : Int)
    let r := (v - i * d).toNat
    if r = 0 then (if 1024 < i then .dyadic false 1 1024 else if i < -1024 then .dyadic false 1 (-1024) else .dyadic false 1 i)
    else
      let i := if 1024 < i then 1024 else if i < -1024 then -1024 else i
      let p := exp2Go r (Nat.log2 d) (2 ^ (expBits + 1)) (2 ^ expBits)
      .dyadic false (2 * p + 1) (i - expBits - 1)

/-- Fraction bits computed by flog2, and the working precision. -/
def logDigits : Nat := 180
def logBits : Nat := 448

/-- The binary digits of log2 y for y in [1, 2), y in units of 2 ^ -logBits, by repeated squaring. -/
def log2Go : Nat → Nat → Nat → Nat
  | 0, _, acc => acc
  | k + 1, y, acc =>
    let y2 := y * y / 2 ^ logBits
    if 2 ^ (logBits + 1) ≤ y2 then log2Go k (y2 / 2) (2 * acc + 1) else log2Go k y2 (2 * acc)

/-- log2 a (R100, R101): exact for a power of two, else a bracketed value that no rounding boundary separates from the exact one. -/
def Xr.log2 : Xr → Xr
  | .nan => .nan
  | .inf false => .inf false
  | .inf true => .nan
  | .fin neg a d =>
    if a = 0 then .inf true
    else if neg then .nan
    else
      let e := ilog2 a d
      let u := units a d (e - logBits)
      if u.1 = 2 ^ logBits ∧ u.2.1 = 0 then .ofInt e 1
      else
        let g := log2Go logDigits u.1 0
        .ofInt (e * 2 ^ (logDigits + 1) + (2 * g + 1 : Nat)) (2 ^ (logDigits + 1))

/-- The total order of values used by minimumNumber and comparisons; −0 is below +0 where `zeros` asks for it. -/
def Xr.lt (zeros : Bool) : Xr → Xr → Bool
  | .nan, _ => false
  | _, .nan => false
  | .inf n1, .inf n2 => n1 && !n2
  | .inf n1, .fin _ _ _ => n1
  | .fin _ _ _, .inf n2 => !n2
  | .fin n1 a b, .fin n2 c d =>
    if a = 0 ∧ c = 0 then zeros && n1 && !n2 else decide (signed n1 a * d < signed n2 c * b)

def Xr.isNan : Xr → Bool
  | .nan => true | _ => false

/-- Equality of values: the zeros are equal (R103). -/
def Xr.eqv (x y : Xr) : Bool := !x.isNan && !y.isNan && !x.lt false y && !y.lt false x

/-- ExactSum (R113). A sum that is zero is +0, in every rounding mode: DESIGN CHOICE, log 91. -/
def exactSum (ts : List Xr) : Xr := ts.foldl (Xr.add .rne) (.fin false 0 1)

/-! Integers from exact values (R47). -/

/-- The integer to which a mode rounds a finite value. -/
def roundInt (m : Rm) (neg : Bool) (num den : Nat) : Int :=
  signed neg (num / den + (if roundUp m neg (num / den) (num % den) den then 1 else 0))

/-- Conversion to an integer range: saturation, and 0 for NaN (R47). -/
def toIntRange (m : Rm) (lo hi : Int) : Xr → Int
  | .nan => 0
  | .inf neg => if neg then lo else hi
  | .fin neg num den => max lo (min hi (roundInt m neg num den))

/-! Tapered formats (R36 to R40). -/

/-- The three tapered formats. -/
inductive Tap where
  | t6 | t8 | t16
  deriving DecidableEq, Repr

def Tap.width : Tap → Nat
  | .t6 => 6 | .t8 => 8 | .t16 => 16

def Tap.es : Tap → Nat
  | .t6 => 1 | .t8 => 1 | .t16 => 2

/-- The length of the run of bits equal to b in m from bit i − 1 downward. -/
def runLen (m : Nat) (b : Nat) : Nat → Nat
  | 0 => 0
  | i + 1 => if m / 2 ^ i % 2 = b then 1 + runLen m b i else 0

/-- Decode_T of a nonzero magnitude field (R36): mantissa and exponent. -/
def Tap.mag (t : Tap) (m : Nat) : Nat × Int :=
  let w := t.width - 1
  let b := m / 2 ^ (w - 1) % 2
  let l := runLen m b w
  let k : Int := if b = 1 then (l : Int) - 1 else -(l : Int)
  let rl := w - l - 1
  let rest := m % 2 ^ rl
  let e := if t.es ≤ rl then rest / 2 ^ (rl - t.es) else rest * 2 ^ (t.es - rl)
  let gl := rl - t.es
  let g := rest % 2 ^ gl
  (2 ^ gl + g, k * 2 ^ t.es + e - gl)

/-- Decode_T (R36); NaR is NaN. -/
def Tap.val (t : Tap) (code : Nat) : Xr :=
  let h := 2 ^ (t.width - 1)
  let m := code % h
  let s := code / h % 2
  if m = 0 then (if s = 0 then .fin false 0 1 else .nan)
  else .dyadic (s == 1) (t.mag m).1 (t.mag m).2

/-- Whether the magnitude field m has a value at most num / den. -/
def Tap.atMost (t : Tap) (m num den : Nat) : Bool :=
  let v := t.mag m
  decide (v.1 * (pow2 v.2).1 * den ≤ num * (pow2 v.2).2)

/-- The largest magnitude field whose value is at most num / den, by bisection over its bits. -/
def Tap.floor (t : Tap) (num den : Nat) : Nat → Nat → Nat
  | 0, acc => acc
  | i + 1, acc => if t.atMost (acc + 2 ^ i) num den then t.floor num den i (acc + 2 ^ i) else t.floor num den i acc

/-- The tapered rounding (R39). -/
def Tap.round (t : Tap) : Xr → Nat
  | .nan => 2 ^ (t.width - 1)
  | .inf _ => 2 ^ (t.width - 1)
  | .fin neg num den =>
    if num = 0 then 0
    else
      let s := if neg then 2 ^ (t.width - 1) else 0
      let hi := 2 ^ (t.width - 1) - 1
      let m := t.floor num den (t.width - 1) 0
      if m = 0 then s + 1
      else if m = hi then s + hi
      else
        let a := t.mag m
        let b := t.mag (m + 1)
        -- twice the value against the sum of the neighbours
        let lhs : Int := 2 * num * (pow2 a.2).2 * (pow2 b.2).2
        let rhs : Int := (a.1 * (pow2 a.2).1 * (pow2 b.2).2 + b.1 * (pow2 b.2).1 * (pow2 a.2).2) * den
        if lhs < rhs then s + m else if rhs < lhs then s + m + 1 else if m % 2 = 0 then s + m else s + m + 1

/-! Elements of registers (R43, R44). -/

/-- The element formats. -/
inductive Elem where
  | int (sg : Bool) (w : Nat) | ieee (f : Fmt) | tap (t : Tap)
  deriving DecidableEq, Repr

def Elem.width : Elem → Nat
  | .int _ w => w
  | .ieee .f32 => 32
  | .ieee _ => 16
  | .tap t => t.width

/-- The element format of a tag; tags without elements read as N32. -/
def tagElem : Tag → Elem
  | .i32 => .int true 32
  | .f32 => .ieee .f32
  | .b16x2 => .ieee .bf16
  | .h16x2 => .ieee .h16
  | .t16x2 => .tap .t16
  | .t8x4 => .tap .t8
  | .i8x4 => .int true 8
  | .n8x4 => .int false 8
  | .t6x5 => .tap .t6
  | _ => .int false 32

/-- A value of w bits read as signed or unsigned. -/
def intOf (sg : Bool) (w x : Nat) : Int :=
  let m := x % 2 ^ w
  if sg && decide (2 ^ (w - 1) ≤ m) then (m : Int) - 2 ^ w else m

/-- The exact value of an element. -/
def Elem.val (e : Elem) (x : Nat) : Xr :=
  match e with
  | .int sg w => .ofInt (intOf sg w x) 1
  | .ieee f => f.val x
  | .tap t => t.val x

/-- An integer modulo 2 ^ w. -/
def wrapNat (w : Nat) (i : Int) : Nat := (i % (2 ^ w : Int)).toNat

/-- Conversion into an element format (R47). -/
def Elem.conv (e : Elem) (m : Rm) (v : Xr) : Nat :=
  match e with
  | .int true w => wrapNat w (toIntRange m (-(2 ^ (w - 1) : Int)) (2 ^ (w - 1) - 1) v)
  | .int false w => wrapNat w (toIntRange m 0 (2 ^ w - 1) v)
  | .ieee f => roundF f m v
  | .tap t => t.round v

/-- Element i of a 32-bit value of a tag. -/
def elemAt (t : Tag) (v : Word) (i : Nat) : Nat := v.toNat / 2 ^ (i * (tagElem t).width) % 2 ^ (tagElem t).width

/-- A 32-bit value from its elements, element 0 lowest. -/
def ofElems (t : Tag) (es : List Nat) : Word :=
  BitVec.ofNat 32 (es.foldr (fun e acc => e % 2 ^ (tagElem t).width + 2 ^ (tagElem t).width * acc) 0)

def elems (t : Tag) (v : Word) : List Nat := (List.range t.count).map (elemAt t v)

/-! Exact accumulators (R49 to R53). -/

def eaWidth : EaKind → Nat
  | .ea160 => 160 | .ea320 => 320

/-- The weight of V's bit 0 is 2 ^ -eaFrac. -/
def eaFrac : EaKind → Nat
  | .ea160 => 64 | .ea320 => 160

def Acc.zero : Acc := {}

/-- An integer read as two's complement of w bits. -/
def wrapInt (w : Nat) (i : Int) : Int := intOf true w (wrapNat w i)

/-- EA_Add (R50). -/
def eaAdd (k : EaKind) (a b : Acc) : Acc :=
  { v := wrapInt (eaWidth k) (a.v + b.v), pinf := a.pinf || b.pinf, ninf := a.ninf || b.ninf, nan := a.nan || b.nan }

/-- EA_From (R51). -/
def eaFrom (k : EaKind) : Xr → Acc
  | .nan => { nan := true }
  | .inf false => { pinf := true }
  | .inf true => { ninf := true }
  | .fin neg num den => { v := wrapInt (eaWidth k) (roundInt .rne neg (num * 2 ^ eaFrac k) den) }

/-- The value an accumulator stands for, its special state resolved (R52). -/
def eaVal (k : EaKind) (a : Acc) : Xr :=
  if a.nan || (a.pinf && a.ninf) then .nan
  else if a.pinf then .inf false
  else if a.ninf then .inf true
  else .ofInt a.v (2 ^ eaFrac k)

/-- EA_Read into an element format (R52); a tapered target reads NaR from any special state, as Tap.round does of an infinity. -/
def eaRead (k : EaKind) (e : Elem) (m : Rm) (a : Acc) : Nat := e.conv m (eaVal k a)

/-- An exact cell's bits (R53) as an accumulator: reserved bits are ignored. -/
def eaOfNat (k : EaKind) (x : Nat) : Acc :=
  let w := eaWidth k
  { v := intOf true w x, pinf := x / 2 ^ w % 2 == 1, ninf := x / 2 ^ (w + 1) % 2 == 1, nan := x / 2 ^ (w + 2) % 2 == 1 }

/-- An accumulator as an exact cell's bits: reserved bits are zero (R53). -/
def eaToNat (k : EaKind) (a : Acc) : Nat :=
  let w := eaWidth k
  wrapNat w a.v + (if a.pinf then 2 ^ w else 0) + (if a.ninf then 2 ^ (w + 1) else 0) + (if a.nan then 2 ^ (w + 2) else 0)

/-- Bytes of an exact cell. -/
def eaBytes : EaKind → Nat
  | .ea160 => 32 | .ea320 => 64

/-- An EA160 element widened exactly into EA320 (R284). -/
def eaWiden (a : Acc) : Acc := { a with v := a.v * 2 ^ 96 }

/-! Random numbers (R117). -/

def mix32 (ctr key : Word) : Word :=
  let x := ctr ^^^ key
  let x := x ^^^ (x >>> 16)
  let x := x * 0x2C9F85A1#32
  let x := x ^^^ (x >>> 13)
  let x := x * 0x6E3B5D27#32
  x ^^^ (x >>> 16)

/-- The key of a seed (R117). -/
def keyOf (seed : DWord) : Word := seed.setWidth 32 ^^^ (seed >>> 32).setWidth 32

end Sys2Proof.Machine
end

