-- ==== Sys2Proof/Machine/Flags.lean ====
section
/-! DEFINITION. Conditions and predicates: the comparisons of R63, R89 and R103, the truth table of plog, the class mask of fcls. -/

namespace Sys2Proof.Machine

/-- An integer operand as its type reads it (R87). -/
def intVal (t : Sgn) (x : Word) : Int :=
  match t with
  | .s => x.toInt
  | .n => x.toNat

/-- An integer condition over exact integers (R63, R89). -/
def ICond.holds (c : ICond) (x y : Int) : Bool :=
  match c with
  | .eq => decide (x = y)
  | .ne => decide (x ≠ y)
  | .lt => decide (x < y)
  | .le => decide (x ≤ y)
  | .gt => decide (y < x)
  | .ge => decide (y ≤ x)

/-- A floating-point condition: the IEEE predicate of its name (R103). -/
def FCond.holds (c : FCond) (x y : Xr) : Bool :=
  let un := x.isNan || y.isNan
  match c with
  | .oeq => x.eqv y
  | .one => !un && !x.eqv y
  | .olt => x.lt false y
  | .ole => !un && !y.lt false x
  | .ogt => y.lt false x
  | .oge => !un && !x.lt false y
  | .uno => un
  | .ord => !un

/-- Predicate n of a predicate word; p0 reads 1 (R11). -/
def predBit (p : BitVec 16) (n : Nat) : Bool := n == 0 || p.getLsbD n

/-- The predicate word with predicate n set to b; a write to p0 is discarded (R11). -/
def setPred (p : BitVec 16) (n : Nat) (b : Bool) : BitVec 16 :=
  if n = 0 then p
  else if b then p ||| (1#16 <<< n) else p &&& ~~~(1#16 <<< n)

/-- Whether a prefix lets an instruction execute (R26). -/
def guardOk (g : Guard) (p : BitVec 16) : Bool := predBit p g.pred.val != g.neg

/-- Bit 2 * pa + pb of plog's truth table (R96). -/
def plogBit (tt : Nat) (pa pb : Bool) : Bool := tt / 2 ^ (2 * bit pa + bit pb) % 2 == 1

/-- The class bit of an F32 pattern (R105). -/
def fclsBit (x : Nat) : Nat :=
  let m := x % 2 ^ 31
  let neg := decide (2 ^ 31 ≤ x)
  if 0x7F800000 < m then 0
  else if m = 0x7F800000 then (if neg then 1 else 8)
  else if m = 0 then (if neg then 4 else 5)
  else if m < 0x00800000 then (if neg then 3 else 6)
  else (if neg then 2 else 7)

end Sys2Proof.Machine
end

