-- ==== Sys2Proof/Machine/Operands.lean ====
section
/-! DEFINITION. Operands of one fibre: reading sources with their tags, the tag checks, forming destinations and latches
(R12 to R14, R26, R30, R31, R57 to R61, R84), and the registers each instruction reads and writes. -/

namespace Sys2Proof.Machine

/-- What a fibre's operands read from outside the fibre: its lane, global index, team size, crew ranks and the team's s-registers
(R57, R58). -/
structure Env where
  lane     : Nat
  gfid     : Nat
  teamsize : Nat
  ranks    : List Nat
  sregs    : List (Nat × DWord)
  badS     : List Nat := []
  deriving DecidableEq, Repr

/-- A source as read: value, tag, its selector, and whether it is the zero or ones special, which passes every check (R58). -/
structure Opd where
  val : Word
  tag : Tag
  sel : Nat
  any : Bool := false
  deriving DecidableEq, Repr

/-- The inline F32 constants (R59). -/
def inlineF32 : List Nat :=
  [0x00000000, 0x3F000000, 0x3F800000, 0x3FC00000, 0x40000000, 0x40200000, 0x40400000, 0x40800000,
   0x40A00000, 0x40C00000, 0x40E00000, 0x41000000, 0x41200000, 0x41800000, 0x42000000, 0x42800000] ++
  [0xBF000000, 0xBF800000, 0xBFC00000, 0xC0000000, 0xC0400000, 0xC0800000, 0xC1000000, 0xC1800000,
   0x3E800000, 0x3E000000, 0x3D800000, 0x3F400000, 0x3EC00000, 0x42C80000, 0x447A0000, 0x43000000] ++
  [0x43800000, 0x44800000, 0x47800000, 0x4B800000, 0x33800000, 0x00800000, 0x7F7FFFFF, 0xFF7FFFFF,
   0x7F800000, 0xFF800000, 0x7FC00000, 0x80000000, 0x00000001, 0x3EAAAAAB, 0x3F2AAAAB, 0x3DCCCCCD] ++
  [0x40490FDB, 0x3FC90FDB, 0x3F490FDB, 0x40C90FDB, 0x3EA2F983, 0x402DF854, 0x3F317218, 0x3FB8AA3B,
   0x40549A78, 0x3E9A209B, 0x3FB504F3, 0x3F3504F3, 0x3A83126F, 0x358637BD, 0x437F0000, 0x3B808081]

/-- v-register n of a fibre: window entry fb + n (R11). -/
def Fibre.reg (f : Fibre) (n : Nat) : Reg := getD Reg.zero (f.fb + n) f.regs

/-- Writes v-register n; a value written over an uncorrectable error ends it (R204). -/
def Fibre.setReg (f : Fibre) (n : Nat) (r : Reg) : Fibre :=
  { f with regs := setD Reg.zero (f.fb + n) r f.regs, badRegs := f.badRegs.filter (· != f.fb + n) }

def Trap.poisonReg (sel : Nat) : Trap := { code := .poison, aux := sel }

/-- FORMAT_MISMATCH at a register or special source (R340). -/
def Trap.mismatch (sel : Nat) (t : Tag) : Trap := { code := .formatMismatch, aux := sel + 512 * t.code }

/-- ILLEGAL at step 5 of R56 with its selector (R340). -/
def Trap.badSel (sel : Nat) : Trap := { code := .illegal, aux := 5 + 8 * sel }

/-- ILLEGAL at another step of R56; step 0 where R56 has no step for it. -/
def Trap.illegalAt (step : Nat) : Trap := { code := .illegal, aux := step }

def reservedTag (t : Tag) : Bool := t == .resD || t == .resE || t == .resF

/-- A v-register as a source; an uncorrectable error in it raises POISON (R204), a reserved tag ILLEGAL (R13). -/
def readV (f : Fibre) (n : Nat) : Except Trap Reg :=
  if reservedTag (f.reg n).tag then .error (.badSel n)
  else if f.badRegs.contains (f.fb + n) then .error (.poisonReg n) else .ok (f.reg n)

/-- The value and tag of a special (R58). -/
def specialVal (e : Env) (f : Fibre) : Special → Word × Tag
  | .zero => (0, .raw)
  | .ones => (0xFFFFFFFF, .raw)
  | .lane => (BitVec.ofNat 32 e.lane, .n32)
  | .fidx => (BitVec.ofNat 32 f.fidx, .n32)
  | .gfidl => (BitVec.ofNat 32 e.gfid, .n32)
  | .gfidh => (BitVec.ofNat 32 (e.gfid / 2 ^ 32), .n32)
  | .rank q => (BitVec.ofNat 32 (nth 0xFFFFFFFF e.ranks q.val), .n32)
  | .teamsize => (BitVec.ofNat 32 e.teamsize, .n32)

def sreg (e : Env) (n : Nat) : DWord := getD 0 n e.sregs

/-- An s-register as a source; an uncorrectable error in it raises POISON at the fibre that reads it (R204). -/
def readS (e : Env) (n : Nat) : Except Trap DWord := if e.badS.contains n then .error (.poisonReg (0x100 + n)) else .ok (sreg e n)

/-- Src and TagOf of an operand (R57). A latch that no instruction of the run wrote reads as zero, RAW (R73). -/
def readSrc (e : Env) (f : Fibre) (x : Src) : Except Trap Opd :=
  match x with
  | .v n => do let r ← readV f n.val; pure { val := r.val, tag := r.tag, sel := n.val }
  | .s n => do let v ← readS e n.val; pure { val := v.setWidth 32, tag := .i32, sel := 0x100 + n.val }
  | .b n => let r := nth Reg.zero f.latches n.val; .ok { val := r.val, tag := r.tag, sel := 0x120 + n.val }
  | .sp p => let v := specialVal e f p; .ok { val := v.1, tag := v.2, sel := p.code, any := p == .zero || p == .ones }
  | .int n => .ok { val := BitVec.ofInt 32 ((n.val : Int) - 64), tag := .i32, sel := 0x140 + n.val }
  | .fc n => .ok { val := BitVec.ofNat 32 (nth 0 inlineF32 n.val), tag := .f32, sel := 0x1C0 + n.val }

/-- A tag check at step 3 of R26. -/
def Opd.need (o : Opd) (ok : Bool) : Except Trap Opd := if o.any || ok then .ok o else .error (.mismatch o.sel o.tag)

def intTag (t : Tag) : Bool := t == .i32 || t == .n32

/-- A source that must be I32 or N32 (R30). -/
def readInt (e : Env) (f : Fibre) (x : Src) : Except Trap Word := do
  let o ← readSrc e f x
  let o ← o.need (intTag o.tag)
  pure o.val

/-- Whether an operand is an inline integer, which passes a check for N32 as well as one for I32 (R30, R57). -/
def Opd.inline (o : Opd) : Bool := decide (0x140 ≤ o.sel ∧ o.sel < 0x1C0)

/-- A source that must carry one tag (R99, R106, R108). -/
def readTag (e : Env) (f : Fibre) (t : Tag) (x : Src) : Except Trap Word := do
  let o ← readSrc e f x
  let o ← o.need (o.tag == t || (t == .n32 && o.inline))
  pure o.val

/-- A 32-bit operand extended by its tag; inline integers and the zero and ones specials extend as I32 (R30, R93). -/
def readExt (e : Env) (f : Fibre) (x : Src) : Except Trap DWord := do
  let o ← readSrc e f x
  let o ← o.need (o.tag == .i32 || o.tag == .n32)
  pure (if o.tag == .n32 then o.val.setWidth 64 else o.val.signExtend 64)

/-- An even pair tagged P64L and P64H (R31). -/
def readPair (f : Fibre) (n : Nat) : Except Trap DWord := do
  let lo ← readV f (2 * n)
  let hi ← readV f (2 * n + 1)
  if lo.tag != .p64l then .error (.mismatch (2 * n) lo.tag)
  else if hi.tag != .p64h then .error (.mismatch (2 * n) hi.tag)
  else pure (hi.val ++ lo.val)

/-- A 64-bit operand (R93). -/
def readOp64 (e : Env) (f : Fibre) (x : Op64) : Except Trap DWord :=
  match x with
  | .pair n => readPair f n.val
  | .s n => readS e n.val

/-- What an instruction writes at a fibre: v-registers by number, s-registers, predicates, and its latch (R84). -/
structure Wr where
  regs  : List (Nat × Reg) := []
  sregs : List (Nat × DWord) := []
  preds : List (Nat × Bool) := []
  latch : Option Reg := none
  deriving DecidableEq, Repr

/-- A 32-bit result in an s-register (R84). -/
def extSreg (v : Word) (t : Tag) : DWord := if t == .i32 then v.signExtend 64 else v.setWidth 64

/-- Dst of a 32-bit result (R84). -/
def Wr.one (d : Dst) (v : Word) (t : Tag) : Wr :=
  match d with
  | .none => { latch := some ⟨v, t⟩ }
  | .v n => { regs := [(n.val, ⟨v, t⟩)], latch := some ⟨v, t⟩ }
  | .s n => { sregs := [(n.val, extSreg v t)], latch := some ⟨v, t⟩ }

/-- Dst of a 64-bit result in a pair, with the tags of its halves, or in an s-register (R84). -/
def Wr.wide (d : Dst64) (v : DWord) (tl th : Tag) : Wr :=
  let lo : Word := v.setWidth 32
  let hi : Word := (v >>> 32).setWidth 32
  match d with
  | .none => { latch := some ⟨lo, .p64l⟩ }
  | .pair n => { regs := [(2 * n.val, ⟨lo, tl⟩), (2 * n.val + 1, ⟨hi, th⟩)], latch := some ⟨lo, .p64l⟩ }
  | .s n => { sregs := [(n.val, v)], latch := some ⟨lo, .p64l⟩ }

/-- A predicate result (R84). -/
def Wr.pred (pd : Option (Fin 16)) (b : Bool) : Wr :=
  let l : Reg := ⟨if b then 1 else 0, .n32⟩
  match pd with
  | none => { latch := some l }
  | some p => { preds := [(p.val, b)], latch := some l }

/-- A register written, or nothing where W is 1. -/
def Wr.opt (d : Option (Fin 256)) (v : Word) (t : Tag) : Wr :=
  match d with
  | none => { latch := some ⟨v, t⟩ }
  | some n => { regs := [(n.val, ⟨v, t⟩)], latch := some ⟨v, t⟩ }

/-- Writes registers and predicates of a fibre; s-registers belong to the team, latches to the run. -/
def Fibre.write (f : Fibre) (w : Wr) : Fibre :=
  let f := w.regs.foldl (fun f r => f.setReg r.1 r.2) f
  { f with preds := w.preds.foldl (fun p x => setPred p x.1 x.2) f.preds }

/-! Registers an instruction names. -/

/-- An operand by its selector: how many v-registers from it on, whether they are read and whether they are written. -/
structure Opnd where
  sel : Nat
  n   : Nat := 1
  r   : Bool := false
  w   : Bool := false
  deriving DecidableEq, Repr

/-- The operands an instruction names, in field order, and the predicates it reads and writes besides its prefix. -/
structure Uses where
  ops : List Opnd := []
  rp  : List Nat := []
  wp  : List Nat := []
  deriving DecidableEq, Repr

def oSrc (x : Src) : List Opnd := [{ sel := x.code, r := true }]

def oDst : Dst → List Opnd
  | .none => []
  | d => [{ sel := d.code, w := true }]

def oDst64 : Dst64 → List Opnd
  | .none => []
  | d => [{ sel := d.code, n := 2, w := true }]

def oOp64 (x : Op64) : List Opnd := [{ sel := x.code, n := 2, r := true }]

def oOptV : Option (Fin 256) → List Opnd
  | none => []
  | some n => [{ sel := n.val, w := true }]

def oOpt : Option Src → List Opnd
  | none => []
  | some x => oSrc x

def optP : Option (Fin 16) → List Nat
  | none => []
  | some p => [p.val]

/-- Registers of an access of a size. -/
def sizeRegs : Size → Nat
  | .b64 => 2 | .b128 => 4 | _ => 1

def oAddr (a : Addr) : List Opnd :=
  { sel := 0x100 + a.base.val, r := true } :: (match a.off with | none => [] | some n => [{ sel := n.val, r := true }])

/-- The destination of ld: 1, 2 or 4 registers, or an s-register. -/
def oLdDst (sz : Size) : Dst → List Opnd
  | .none => []
  | .v n => [{ sel := n.val, n := sizeRegs sz, w := true }]
  | .s n => [{ sel := 0x100 + n.val, w := true }]

def oStSrc (sz : Size) : StSrc → List Opnd
  | .one x => oSrc x
  | .wide n => [{ sel := n.val, n := sizeRegs sz, r := true }]
  | .sreg n => [{ sel := 0x100 + n.val, r := true }]

/-- The data registers of atom, acas or stv that are read, and those that are written back. -/
def oAtomData (d n : Nat) (wsel wn : Nat) (nw : Bool) : List Opnd :=
  { sel := d, n := n, r := true } :: (if nw then [] else [{ sel := wsel, n := wn, w := true }])

def ops (l : List (List Opnd)) : Uses := { ops := l.flatten }

/-- The operands that each instruction names (R26 step 1, R74, R151). -/
def uses : Instr → Uses
  | .iadd _ _ _ d a b => ops [oDst d, oSrc a, oSrc b]
  | .isub _ _ _ d a b => ops [oDst d, oSrc a, oSrc b]
  | .imul _ _ _ d a b => ops [oDst d, oSrc a, oSrc b]
  | .imulh _ _ d a b => ops [oDst d, oSrc a, oSrc b]
  | .imad _ _ _ d a b x => ops [oDst d, oSrc a, oSrc b, oSrc x]
  | .idiv _ _ d a b => ops [oDst d, oSrc a, oSrc b]
  | .irem _ _ d a b => ops [oDst d, oSrc a, oSrc b]
  | .imin _ _ d a b => ops [oDst d, oSrc a, oSrc b]
  | .imax _ _ d a b => ops [oDst d, oSrc a, oSrc b]
  | .iabs _ _ d a => ops [oDst d, oSrc a]
  | .ineg _ _ d a => ops [oDst d, oSrc a]
  | .icmp _ _ _ pd a b => { ops [oSrc a, oSrc b] with wp := optP pd }
  | .and _ d a b => ops [oDst d, oSrc a, oSrc b]
  | .or _ d a b => ops [oDst d, oSrc a, oSrc b]
  | .xor _ d a b => ops [oDst d, oSrc a, oSrc b]
  | .andn _ d a b => ops [oDst d, oSrc a, oSrc b]
  | .not _ d a => ops [oDst d, oSrc a]
  | .shl _ d a b => ops [oDst d, oSrc a, oSrc b]
  | .shr _ d a b => ops [oDst d, oSrc a, oSrc b]
  | .sha _ d a b => ops [oDst d, oSrc a, oSrc b]
  | .rot _ d a b => ops [oDst d, oSrc a, oSrc b]
  | .popc _ d a => ops [oDst d, oSrc a]
  | .clz _ d a => ops [oDst d, oSrc a]
  | .ctz _ d a => ops [oDst d, oSrc a]
  | .brev _ d a => ops [oDst d, oSrc a]
  | .bfx _ _ d a b => ops [oDst d, oSrc a, oSrc b]
  | .bfi _ d a b x => ops [oDst d, oSrc a, oSrc b, oSrc x]
  | .lea _ _ d a b => ops [oDst64 d, oOp64 a, oSrc b]
  | .addc _ d a b => ops [oDst64 d, oOp64 a, oOp64 b]
  | .mov _ d a => ops [oDst d, oSrc a]
  | .sel _ d p b x => { ops [oDst d, oSrc b, oSrc x] with rp := [p.val] }
  | .plog _ _ pd pa pb => { ops := [], rp := [pa.val, pb.val], wp := optP pd }
  | .movi _ _ d _ => ops [oDst d]
  | .movw _ (.pair (some n)) _ => ops [[{ sel := 2 * n.val, n := 2, w := true }]]
  | .movw _ (.sreg (some n)) _ => ops [[{ sel := 0x100 + n.val, w := true }]]
  | .movw _ _ _ => {}
  | .fadd _ _ d a b => ops [oDst d, oSrc a, oSrc b]
  | .fsub _ _ d a b => ops [oDst d, oSrc a, oSrc b]
  | .fmul _ _ d a b => ops [oDst d, oSrc a, oSrc b]
  | .ffma _ _ d a b x => ops [oDst d, oSrc a, oSrc b, oSrc x]
  | .fmin _ d a b => ops [oDst d, oSrc a, oSrc b]
  | .fmax _ d a b => ops [oDst d, oSrc a, oSrc b]
  | .fabs _ d a => ops [oDst d, oSrc a]
  | .fneg _ d a => ops [oDst d, oSrc a]
  | .fcmp _ _ pd a b => { ops [oSrc a, oSrc b] with wp := optP pd }
  | .fdiv _ _ d a b => ops [oDst d, oSrc a, oSrc b]
  | .fsqrt _ _ d a => ops [oDst d, oSrc a]
  | .frcp _ _ d a => ops [oDst d, oSrc a]
  | .fexp2 _ _ d a => ops [oDst d, oSrc a]
  | .flog2 _ _ d a => ops [oDst d, oSrc a]
  | .frnd _ _ d a => ops [oDst d, oSrc a]
  | .fcls _ d a => ops [oDst d, oSrc a]
  | .hadd _ _ _ d a b => ops [oDst d, oSrc a, oSrc b]
  | .hmul _ _ _ d a b => ops [oDst d, oSrc a, oSrc b]
  | .hfma _ _ _ d a b x => ops [oDst d, oSrc a, oSrc b, oSrc x]
  | .hmax _ _ d a b => ops [oDst d, oSrc a, oSrc b]
  | .cvt _ _ _ _ d a => ops [oDst d, oSrc a]
  | .pack _ _ _ _ d a _ x => ops [oDst d, oSrc a, oSrc x]
  | .unpack _ _ _ _ d a _ => ops [oDst d, oSrc a]
  | .retag _ _ d a => ops [oOptV d, oSrc a]
  | .vdot8 _ _ _ d a b x => ops [oDst d, oSrc a, oSrc b, oSrc x]
  | .vdot6 _ _ d a b x => ops [oDst d, oSrc a, oSrc b, oSrc x]
  | .vl2d8 _ _ _ d a b x => ops [oDst d, oSrc a, oSrc b, oSrc x]
  | .vhamm _ d a b x => ops [oDst d, oSrc a, oSrc b, oSrc x]
  | .vpqd _ _ d a s x => ops [oDst d, oSrc a, [{ sel := 0x100 + s.val, r := true }], oSrc x]
  | .vrand _ _ d a => ops [oDst d, oSrc a]
  | .dbra _ _ v => ops [[{ sel := v.val, r := true, w := true }]]
  | .jmp _ a => ops [oOp64 a]
  | .calli _ a _ => ops [oOp64 a]
  | .fork _ _ v => ops [[{ sel := v.val, w := true }]]
  | .spawn _ _ v => ops [[{ sel := 2 * v.val, n := 2, r := true }]]
  | .crew _ pd _ _ => { wp := optP pd }
  | .join _ pd _ dl _ => { ops [oOpt dl] with wp := optP pd }
  | .vote _ (.any pd) p _ => { rp := [p.val], wp := optP pd }
  | .vote _ (.all pd) p _ => { rp := [p.val], wp := optP pd }
  | .vote _ (.ballot d) p _ => { ops [oDst d] with rp := [p.val] }
  | .shfl _ _ d a b _ => ops [oDst d, oSrc a, oSrc b]
  | .cbcast _ d a b _ => ops [oDst d, oSrc a, oSrc b]
  | .credi _ _ _ d a _ => ops [oDst d, oSrc a]
  | .credf _ _ d a _ => ops [oDst d, oSrc a]
  | .cscan _ _ _ _ d a _ => ops [oDst d, oSrc a]
  | .regrow _ pd b dl => { ops [oSrc b, oOpt dl] with wp := optP pd }
  | .regshrink _ pd b => { ops [oSrc b] with wp := optP pd }
  | .ld _ sz _ _ _ d ad => ops [oLdDst sz d, oAddr ad]
  | .ldSplit _ sz _ _ d p _ => ops [oLdDst sz d, [{ sel := 2 * p.val, n := 2, r := true }]]
  | .st _ sz _ _ x ad => ops [oStSrc sz x, oAddr ad]
  | .stSplit _ sz _ x p _ => ops [oStSrc sz x, [{ sel := 2 * p.val, n := 2, r := true }]]
  | .atom _ _ _ _ sz _ d nw ad => ops [oAtomData d.val (sizeRegs sz) d.val (sizeRegs sz) nw, oAddr ad]
  | .acas _ _ _ sz _ d nw ad => ops [oAtomData d.val (2 * sizeRegs sz) d.val (sizeRegs sz) nw, oAddr ad]
  | .eacc _ _ _ _ _ d ad => ops [[{ sel := d.val, r := true }], oAddr ad]
  | .earead _ _ _ _ d ad => ops [oOptV d, oAddr ad]
  | .ldsum _ _ _ d ad => ops [oOptV d, oAddr ad]
  | .ldver _ _ d ad => ops [oOptV d, oAddr ad]
  | .stv _ sz _ d nw ad => ops [oAtomData d.val (sizeRegs sz + 1) (d.val + sizeRegs sz) 1 nw, oAddr ad]
  | .pfl _ _ _ ad => ops [oAddr ad]
  | .tbegin _ _ dl => ops [[{ sel := dl.code, r := true }]]
  | .tabort _ a => ops [oSrc a]
  | .tstat _ d p => { ops [oDst d] with wp := [p.val] }
  | .bar _ _ d a => ops [oDst d, oOp64 a]
  | .seal _ _ a b => ops [oOp64 a, oSrc b]
  | .unseal _ _ a b => ops [oOp64 a, oSrc b]
  | .talloc _ _ _ x y => ops [oSrc x, oSrc y]
  | .tinfo _ _ d => ops [oDst64 d]
  | .tinfoGetexp _ _ y => ops [oSrc y]
  | .tinfoSetexp _ _ y => ops [oSrc y]
  | .xcopy _ _ x y => ops [oSrc x, oOp64 y]
  | .xchain _ _ x y => ops [oSrc x, oOp64 y]
  | .tmove _ _ x y => ops [oSrc x, oOp64 y]
  | .mma _ _ _ _ _ _ x => ops [oSrc x]
  | .mmas _ _ _ _ _ _ _ _ x => ops [oSrc x]
  | .acsnap _ _ _ _ d y => ops [oDst d, oSrc y]
  | .acdrain _ _ _ (.f32 x y _) => ops [oOp64 x, oOp64 y]
  | .acdrain _ _ _ (.add160 x y) => ops [oOp64 x, oOp64 y]
  | .acdrain _ _ _ (.add320 x y) => ops [oOp64 x, oOp64 y]
  | .adload _ _ x y => ops [oSrc x, oSrc y]
  | .adinv _ _ x => ops [oOpt x]
  | .vprune _ _ _ _ _ _ _ x y => ops [oSrc x, oSrc y]
  | .sift _ _ x y => ops [oSrc x, oSrc y]
  | .sieveget _ _ _ x => ops [oSrc x]
  | .sieveset _ _ _ x => ops [oSrc x]
  | .fwalk _ _ x y => ops [oSrc x, oOp64 y]
  | .trap _ a => ops [oSrc a]
  | .rdsys _ (.v n) code _ => ops [[{ sel := n.val, n := if sysWide code.val then 2 else 1, w := true }]]
  | .rdsys _ (.s n) _ _ => ops [[{ sel := 0x100 + n.val, w := true }]]
  | .wrsys _ _ (.pair n) => ops [[{ sel := 2 * n.val, n := 2, r := true }]]
  | .wrsys _ _ (.s n) => ops [[{ sel := 0x100 + n.val, r := true }]]
  | _ => {}

/-- The prefix of an instruction; trees and frame words have none. -/
def guardOf : Instr → Option Guard
  | .iadd c _ _ _ _ _ | .isub c _ _ _ _ _ | .imul c _ _ _ _ _ | .imulh c _ _ _ _ | .imad c _ _ _ _ _ _ | .idiv c _ _ _ _
  | .irem c _ _ _ _ | .imin c _ _ _ _ | .imax c _ _ _ _ | .iabs c _ _ _ | .ineg c _ _ _ | .icmp c _ _ _ _ _ => some c.g
  | .and c _ _ _ | .or c _ _ _ | .xor c _ _ _ | .andn c _ _ _ | .not c _ _ | .shl c _ _ _ | .shr c _ _ _ | .sha c _ _ _
  | .rot c _ _ _ | .popc c _ _ | .clz c _ _ | .ctz c _ _ | .brev c _ _ | .bfx c _ _ _ _ | .bfi c _ _ _ _ => some c.g
  | .lea c _ _ _ _ | .addc c _ _ _ | .mov c _ _ | .sel c _ _ _ _ | .plog c _ _ _ _ | .movi c _ _ _ | .movw c _ _ => some c.g
  | .fadd c _ _ _ _ | .fsub c _ _ _ _ | .fmul c _ _ _ _ | .ffma c _ _ _ _ _ | .fmin c _ _ _ | .fmax c _ _ _ | .fabs c _ _
  | .fneg c _ _ | .fcmp c _ _ _ _ | .fdiv c _ _ _ _ | .fsqrt c _ _ _ | .frcp c _ _ _ | .fexp2 c _ _ _ | .flog2 c _ _ _
  | .frnd c _ _ _ | .fcls c _ _ => some c.g
  | .hadd c _ _ _ _ _ | .hmul c _ _ _ _ _ | .hfma c _ _ _ _ _ _ | .hmax c _ _ _ _ | .cvt c _ _ _ _ _ | .pack c _ _ _ _ _ _ _
  | .unpack c _ _ _ _ _ _ | .retag c _ _ _ => some c.g
  | .vdot8 c _ _ _ _ _ _ | .vdot6 c _ _ _ _ _ | .vl2d8 c _ _ _ _ _ _ | .vhamm c _ _ _ _ | .vpqd c _ _ _ _ _ | .vrand c _ _ _ => some c.g
  | .bra g _ | .dbra g _ _ | .call g _ _ | .jmp g _ | .calli g _ _ | .ret g | .nop g => some g
  | .fork g _ _ | .spawn g _ _ | .endF g | .yield g | .crew g _ _ _ | .join g _ _ _ _ | .leave g _ _ | .vote g _ _ _
  | .shfl g _ _ _ _ _ | .cbcast g _ _ _ _ | .credi g _ _ _ _ _ | .credf g _ _ _ _ | .cscan g _ _ _ _ _ _ | .regrow g _ _ _
  | .regshrink g _ _ => some g
  | .ld c _ _ _ _ _ _ | .ldSplit c _ _ _ _ _ _ | .earead c _ _ _ _ _ | .ldsum c _ _ _ _ | .ldver c _ _ _ => some c.g
  | .st g _ _ _ _ _ | .stSplit g _ _ _ _ _ | .atom g _ _ _ _ _ _ _ _ | .acas g _ _ _ _ _ _ _ | .eacc g _ _ _ _ _ _
  | .stv g _ _ _ _ _ | .pfl g _ _ _ | .fence g _ _ | .tbegin g _ _ | .otherwise g _ | .tcommit g | .tabort g _ | .retry g
  | .tstat g _ _ | .bar g _ _ _ | .seal g _ _ _ | .unseal g _ _ _ => some g
  | .talloc g _ _ _ _ | .tfree g _ _ | .tinfo g _ _ | .tinfoGetexp g _ _ | .tinfoSetexp g _ _ | .xcopy g _ _ _ | .xchain g _ _ _
  | .tmove g _ _ _ | .mlds g _ _ | .mma g _ _ _ _ _ _ | .mmas g _ _ _ _ _ _ _ _ | .acsnap g _ _ _ _ _ | .acdrain g _ _ _
  | .acclr g _ _ _ _ | .adload g _ _ _ | .adinv g _ _ | .vprune g _ _ _ _ _ _ _ _ | .sift g _ _ _ | .sieveget g _ _ _
  | .sieveset g _ _ _ | .fwalk g _ _ _ => some g
  | .trap g _ | .rti g | .brk g | .rdsys g _ _ _ | .wrsys g _ _ => some g
  | _ => none

/-- The C bit of an instruction (R62, R64, R67, R74). -/
def runBit : Instr → Bool
  | .iadd c _ _ _ _ _ | .isub c _ _ _ _ _ | .imul c _ _ _ _ _ | .imulh c _ _ _ _ | .imad c _ _ _ _ _ _ | .idiv c _ _ _ _
  | .irem c _ _ _ _ | .imin c _ _ _ _ | .imax c _ _ _ _ | .iabs c _ _ _ | .ineg c _ _ _ | .icmp c _ _ _ _ _ => c.c
  | .and c _ _ _ | .or c _ _ _ | .xor c _ _ _ | .andn c _ _ _ | .not c _ _ | .shl c _ _ _ | .shr c _ _ _ | .sha c _ _ _
  | .rot c _ _ _ | .popc c _ _ | .clz c _ _ | .ctz c _ _ | .brev c _ _ | .bfx c _ _ _ _ | .bfi c _ _ _ _ => c.c
  | .lea c _ _ _ _ | .addc c _ _ _ | .mov c _ _ | .sel c _ _ _ _ | .plog c _ _ _ _ | .movi c _ _ _ | .movw c _ _ => c.c
  | .fadd c _ _ _ _ | .fsub c _ _ _ _ | .fmul c _ _ _ _ | .ffma c _ _ _ _ _ | .fmin c _ _ _ | .fmax c _ _ _ | .fabs c _ _
  | .fneg c _ _ | .fcmp c _ _ _ _ | .fdiv c _ _ _ _ | .fsqrt c _ _ _ | .frcp c _ _ _ | .fexp2 c _ _ _ | .flog2 c _ _ _
  | .frnd c _ _ _ | .fcls c _ _ => c.c
  | .hadd c _ _ _ _ _ | .hmul c _ _ _ _ _ | .hfma c _ _ _ _ _ _ | .hmax c _ _ _ _ | .cvt c _ _ _ _ _ | .pack c _ _ _ _ _ _ _
  | .unpack c _ _ _ _ _ _ | .retag c _ _ _ => c.c
  | .vdot8 c _ _ _ _ _ _ | .vdot6 c _ _ _ _ _ | .vl2d8 c _ _ _ _ _ _ | .vhamm c _ _ _ _ | .vpqd c _ _ _ _ _ | .vrand c _ _ _ => c.c
  | .ld c _ _ _ _ _ _ | .ldSplit c _ _ _ _ _ _ | .earead c _ _ _ _ _ | .ldsum c _ _ _ _ | .ldver c _ _ _ => c.c
  | _ => false

/-- The v-registers, s-registers and latches among the operands read, and the v- and s-registers written. -/
def Uses.readV (u : Uses) : List Nat :=
  (u.ops.filter fun o => o.r && decide (o.sel < 0x100)).flatMap fun o => (List.range o.n).map (o.sel + ·)
def Uses.writeV (u : Uses) : List Nat :=
  (u.ops.filter fun o => o.w && decide (o.sel < 0x100)).flatMap fun o => (List.range o.n).map (o.sel + ·)
def Uses.readS (u : Uses) : List Nat :=
  (u.ops.filter fun o => o.r && decide (0x100 ≤ o.sel) && decide (o.sel < 0x120)).map fun o => o.sel - 0x100
def Uses.writeS (u : Uses) : List Nat :=
  (u.ops.filter fun o => o.w && decide (0x100 ≤ o.sel) && decide (o.sel < 0x120)).map fun o => o.sel - 0x100
def Uses.latches (u : Uses) : List Nat :=
  (u.ops.filter fun o => o.r && decide (0x120 ≤ o.sel) && decide (o.sel < 0x124)).map fun o => o.sel - 0x120

end Sys2Proof.Machine
end

