-- ==== Sys2Proof/Machine/Ops.lean ====
section
/-! DEFINITION. The shared operations over State: accessors, memory at its homes, the links between dies, translation, the
combining buffers and L1, the scratchpad, the taking of a trap and the return from one. -/

namespace Sys2Proof.Machine

/-! ## Accessors -/

def State.core (s : State) (c : Nat) : Core := getD {} c s.cores
def State.setCore (s : State) (c : Nat) (x : Core) : State := { s with cores := setD {} c x s.cores }
def State.quad (s : State) (q : Nat) : Quad := getD {} q s.quads
def State.setQuad (s : State) (q : Nat) (x : Quad) : State := { s with quads := setD {} q x s.quads }
def State.die (s : State) (d : Nat) : Die := getD {} d s.dies
def State.setDie (s : State) (d : Nat) (x : Die) : State := { s with dies := setD {} d x s.dies }
def State.ctx (s : State) (c : Nat) : Ctx := getD {} c s.ctxs
def State.setCtx (s : State) (c : Nat) (x : Ctx) : State := { s with ctxs := setD {} c x s.ctxs }
def State.queue (s : State) (q : Nat) : Queue := getD {} q s.queues
def State.setQueue (s : State) (q : Nat) (x : Queue) : State := { s with queues := setD {} q x s.queues }
def State.fibre (s : State) (k : Nat) : Option Fibre := look k s.fibres
def State.setFibre (s : State) (k : Nat) (f : Fibre) : State := { s with fibres := put k f s.fibres }
def State.team (s : State) (t : Nat) : Option Team := look t s.teams
def State.setTeam (s : State) (t : Nat) (x : Team) : State := { s with teams := put t x s.teams }
def State.launch (s : State) (l : Nat) : Option Launch := look l s.launches
def State.setLaunch (s : State) (l : Nat) (x : Launch) : State := { s with launches := put l x s.launches }
def State.gang (s : State) (g : Nat) : Option Gang := s.gangs.find? (·.gid == g)
def State.setGang (s : State) (x : Gang) : State :=
  { s with gangs := s.gangs.map fun g => if g.gid == x.gid then x else g }
/-- The machine with nothing issuing. -/
def State.unissue (s : State) : State := { s with issue := none }
/-- An event to be executed before the next clock. -/
def State.later (s : State) (i : Instr) : State := { s with agenda := s.agenda ++ [i] }
/-- The machine with the event of another agent that is being carried out put off to the next clock: what it would reach gives no answer (R232, R438,
R450). -/
def State.postpone (s : State) : State := { s with putOff := true }

/-- A free choice among n alternatives (log 3). -/
def draw (s : State) (n : Nat) : Nat × State := (Config.choose s.free % n, { s with free := s.free + 1 })
/-- Whether an agent of free rate holds back (log 3). -/
def drawStall (s : State) : Bool × State := (Config.stall s.free, { s with free := s.free + 1 })

def dieOfCore (c : Nat) : Nat := c / 128
def quadOfCore (c : Nat) : Nat := c / 4
def Fibre.key (f : Fibre) : Nat := f.team * 1024 + f.fidx
def Team.key (t : Team) (fidx : Nat) : Nat := t.id * 1024 + fidx
/-- The fibres of a team, by fidx. -/
def State.teamFibres (s : State) (t : Nat) : List Fibre := (s.fibres.filter fun e => e.1 / 1024 == t).map (·.2)
def State.teamLaunch (s : State) (t : Team) : Launch :=
  (s.launch t.launch).getD
    { id := 0, queue := 0, index := 0, ctx := 0, cls := 2, n := 1, entry := 0, regs := 16, w := 16 }
def Launch.clusterSize (l : Launch) : Nat := l.cx * l.cy * l.cz
/-- The global fibre index (R142). -/
def gfidOf (l : Launch) (t : Team) (fidx : Nat) : Nat := (t.cluster * l.clusterSize + t.index) * t.n + fidx
def State.gfid (s : State) (f : Fibre) : Nat :=
  match s.team f.team with
  | some t => gfidOf (s.teamLaunch t) t f.fidx
  | none => f.fidx

/-- The rank of a fidx in a crew. -/
def rankIn (c : Crew) (fidx : Nat) : Option Nat := c.members.findIdx? (· == fidx)
def Team.crew (t : Team) (q : Nat) : Option Crew := look q t.crews
/-- The members of a crew that have not ended. -/
def liveOf (c : Crew) : List Nat := (c.members.zipIdx.filter fun e => c.live.getLsbD e.2).map (·.1)

/-- The s-registers as a fibre issuing at this clock reads them: writes of this clock are seen from the next (R160). -/
def Team.seen (t : Team) (clk : Nat) : List (Nat × DWord) :=
  if t.swClk = clk then t.swlog.foldl (fun m w => setD 0 w.sreg w.old m) t.sregs else t.sregs

/-- What a fibre's operands read from outside it (R57, R58). -/
def envOf (s : State) (t : Team) (lane fidx : Nat) : Env :=
  { lane := lane, gfid := gfidOf (s.teamLaunch t) t fidx, teamsize := t.n, sregs := t.seen s.clock, badS := t.badS,
    ranks := (List.range 8).map fun q => match t.crew q with
      | some c => match rankIn c fidx with
        | some r => if c.live.getLsbD r then r else 0xFFFFFFFF
        | none => 0xFFFFFFFF
      | none => 0xFFFFFFFF }

/-! ## Bytes -/

/-- n bytes of a number, lowest first (R6). -/
def leBytes (x : Nat) : Nat → List Byte
  | 0 => []
  | n + 1 => BitVec.ofNat 8 x :: leBytes (x / 256) n

def byteOf (img : BitVec 1024) (i : Nat) : Byte := img.extractLsb' (8 * i) 8
def imgOf (bs : List Byte) : BitVec 1024 := BitVec.ofNat 1024 (leWord bs)
/-- The image with n bytes from offset o on replaced. -/
def imgPut (img : BitVec 1024) (o : Nat) (bs : List Byte) : BitVec 1024 :=
  imgOf ((List.range 128).map fun i => if o ≤ i then (bs[i - o]?).getD (byteOf img i) else byteOf img i)
/-- The image with the masked bytes taken from another. -/
def imgMerge (img : BitVec 1024) (mask : BitVec 128) (data : BitVec 1024) : BitVec 1024 :=
  imgOf ((List.range 128).map fun i => if mask.getLsbD i then byteOf data i else byteOf img i)
/-- The mask of n bytes from offset o on. -/
def maskOf (o n : Nat) : BitVec 128 := BitVec.ofNat 128 ((2 ^ n - 1) * 2 ^ o)
def imgBytes (img : BitVec 1024) (o n : Nat) : List Byte := (List.range n).map fun i => byteOf img (o + i)

/-! ## Physical memory (R195, R201, R203, R204) -/

def lineOf (pa : Nat) : Nat := pa / 128
def moduleOfLine (line : Nat) : Nat := line / 2 ^ 45 % 64
def dieOfLine (line : Nat) : Nat := line / 2 ^ 42 % 8
def farLine (line : Nat) : Bool := line / 2 ^ 41 % 2 == 1
/-- The home slice of a line on its die (R195). -/
def sliceOf (line : Nat) : Nat := line % 2 ^ 41 % 160
/-- Whether a physical address is memory (R201). -/
def isMemory (pa : Nat) : Bool := decide (pa % 2 ^ 48 < (if pa / 2 ^ 48 % 2 = 1 then 2 ^ 38 else 2 ^ 32))

def State.byte (s : State) (pa : Nat) : Byte := getD 0 pa s.mem
def State.setByte (s : State) (pa : Nat) (b : Byte) : State := { s with mem := setD 0 pa b s.mem }
def State.bytes (s : State) (pa n : Nat) : List Byte := (List.range n).map fun i => s.byte (pa + i)
def State.dword (s : State) (pa : Nat) : Nat := leWord (s.bytes pa 8)
def State.line (s : State) (line : Nat) : LineMeta := getD {} line s.lines
def State.setLine (s : State) (line : Nat) (m : LineMeta) : State := { s with lines := setD {} line m s.lines }
def State.image (s : State) (line : Nat) : BitVec 1024 := imgOf (s.bytes (line * 128) 128)
/-- Whether the line lies in this module. -/
def State.ownLine (s : State) (line : Nat) : Bool := moduleOfLine line == s.hub.modid
/-- HUB_PODMEMB as it reads: the module's own bit is 1 (R453). -/
def members (s : State) : DWord := s.hub.podmemb ||| BitVec.ofNat 64 (2 ^ s.hub.modid)
/-- Whether the line lies in a module outside the membership: a message to it is discarded (R440, R453). -/
def State.outcast (s : State) (line : Nat) : Bool := !s.ownLine line && !(members s).getLsbD (moduleOfLine line)

/-- Whether a granule of n bytes from pa on is poisoned at its home. -/
def State.poisoned (s : State) (pa n : Nat) : Bool :=
  (List.range 4).any fun g =>
    decide (pa % 128 < 32 * (g + 1) ∧ 32 * g < pa % 128 + n) && (s.line (lineOf pa)).poison.getLsbD g
/-- The granules fully covered by a mask. -/
def coveredGranules (mask : BitVec 128) : BitVec 4 :=
  BitVec.ofNat 4 (((List.range 4).map fun g => if mask.extractLsb' (32 * g) 32 = BitVec.allOnes 32 then 2 ^ g else 0).sum)

def Die.clockOf (d : Die) (k : Nat) : Nat := getD 0 k d.vc
/-- A die's clock with the epoch that this clock's writes have begun. -/
def stampOf (s : State) (e : Nat) : List Nat :=
  (List.range 8).map fun k => if k = e ∧ (s.die e).wrote then ((s.die e).clockOf k + 1) % 2 ^ 32 else (s.die e).clockOf k

/-- A wake that a line's home sends, with its die's clock (R401). -/
def wakeOf (s : State) (line : Nat) (who : Watcher) : Wake :=
  { who := who, die := dieOfLine line, stamp := if s.ownLine line then stampOf s (dieOfLine line) else [] }

/-- The wakes that a changed line sends: its exact watchers, and the bucket its address hashes to in its slice (R240, R241). -/
def bucketOf (line : Nat) : Nat := sliceOf line * 256 + (line % 256 ^^^ line / 256 % 256)
def wakeLine (s : State) (line : Nat) : State :=
  let d := s.die (dieOfLine line)
  let b := bucketOf line
  let ws := (d.watches.filter (·.line == line)).map (·.who) ++ if s.ownLine line then getD [] b d.buckets else []
  if ws = [] then s
  else
    let s := s.setDie (dieOfLine line)
      { d with watches := d.watches.filter (·.line != line), buckets := if s.ownLine line then setD [] b [] d.buckets else d.buckets }
    { s with wakes := s.wakes ++ ws.map (wakeOf s line) }

/-- A changed line marks its die's epoch and is pushed to every die registered for it (R401, R403). -/
def pushLine (s : State) (line : Nat) (mask : BitVec 128) (data : BitVec 1024) (m : LineMeta) : State :=
  let d := s.die (dieOfLine line)
  let p : Push := { line := line, mask := mask, data := data, ver := m.ver, poison := m.poison }
  s.setDie (dieOfLine line)
    { d with wrote := true, pushQ := d.pushQ ++ ((getD [] line d.sharers).map fun e => (e, p)) }

/-- A home applies one write to a line: the masked bytes, and poison marks to add. The version rises by one if any byte or poison bit
changes; a granule that the mask covers loses its poison (R203, R204). A write to a module outside the membership is discarded (R440). -/
def homeWrite (s : State) (line : Nat) (mask : BitVec 128) (data : BitVec 1024) (bad : BitVec 4 := 0)
    (clears : Bool := true) : State :=
  let m := s.line line
  let idx := (List.range 128).filter fun i => mask.getLsbD i && byteOf data i != s.byte (line * 128 + i)
  let pz := (if clears then m.poison &&& ~~~(coveredGranules mask) else m.poison) ||| bad
  let s := if s.ownLine line then { s with dies := setD {} (dieOfLine line) { s.die (dieOfLine line) with wrote := true } s.dies } else s
  if s.outcast line || idx = [] ∧ pz = m.poison then s
  else
    let s := idx.foldl (fun s i => s.setByte (line * 128 + i) (byteOf data i)) s
    let m := { m with ver := (m.ver + 1) % 2 ^ 24, poison := pz }
    let s := s.setLine line m
    let chg := BitVec.ofNat 128 ((idx.map fun i => 2 ^ i).sum)
    let s := if s.ownLine line then pushLine s line chg data m else s
    wakeLine s line

/-- One write of bytes that lie in one line. -/
def homePut (s : State) (pa : Nat) (bs : List Byte) (bad : BitVec 4 := 0) (clears : Bool := true) : State :=
  homeWrite s (lineOf pa) (maskOf (pa % 128) bs.length) (imgPut 0 (pa % 128) bs) bad clears

/-- The bytes of a list split at line boundaries, with their addresses. -/
def lineParts (pa : Nat) (bs : List Byte) : List (Nat × List Byte) :=
  let h := min bs.length (128 - pa % 128)
  let rest := bs.drop h
  (pa, bs.take h) ::
    (List.range ((rest.length + 127) / 128)).map fun i => (pa + h + 128 * i, (rest.drop (128 * i)).take 128)

/-- Writes of bytes that may span lines, one per line in ascending address. -/
def homePutAll (s : State) (pa : Nat) (bs : List Byte) : State :=
  if bs = [] then s else (lineParts pa bs).foldl (fun s p => homePut s p.1 p.2) s

/-! ## Links, vector clocks and remote copies (R200, R398 to R404) -/

/-- a ≥ b modulo 2^32 (R402). -/
def vcGe (a b : Nat) : Bool := decide ((a + 2 ^ 32 - b % 2 ^ 32) % 2 ^ 32 < 2 ^ 31)
def vcMax (a b : Nat) : Nat := if vcGe a b then a else b
def mergeVc (vc : List (Nat × Nat)) (v : List Nat) : List (Nat × Nat) :=
  (List.range 8).foldl (fun m k => setD 0 k (vcMax (getD 0 k m) (nth 0 v k)) m) vc

/-- A copy with the bytes of a push, the home's poison and its own errors, but for granules that the push covers (R204, R403). -/
def Copy.pushed (c : Copy) (p : Push) : Copy :=
  let own := c.own &&& ~~~(coveredGranules p.mask)
  { c with img := imgMerge c.img p.mask p.data, poison := p.poison ||| own, own := own, ver := p.ver }

/-- A die applies a push: only to a line it holds, and only the version that follows its copy's (R403); one that brings poison alone keeps the
version (log 21). -/
def applyPush (s : State) (d : Nat) (p : Push) : State :=
  let x := s.die d
  match look p.line x.rdc with
  | none => s
  | some c =>
    if p.ver = (c.ver + 1) % 2 ^ 24 ∨ (p.ver = c.ver ∧ p.mask = 0) then
      s.setDie d { x with rdc := put p.line (c.pushed p) x.rdc }
    else s

/-- Die d delivers what a message stamped v requires: each die's epochs up to the stamp, and merges the stamp (R402). -/
def deliverTo (s : State) (d : Nat) (v : List Nat) : State :=
  let x := s.die d
  let due := x.inbox.filter fun m => vcGe (nth 0 v m.src) (nth 0 m.stamp m.src)
  let s := s.setDie d
    { x with inbox := x.inbox.filter fun m => !vcGe (nth 0 v m.src) (nth 0 m.stamp m.src) }
  let s := (due.flatMap (·.pushes)).foldl (fun s p => applyPush s d p) s
  let s := (List.range 8).foldl (fun s k =>
    let y := s.die k
    if k ≠ d ∧ ¬ vcGe (y.clockOf k) (nth 0 v k) then
      let s := s.setDie k { y with pushQ := y.pushQ.filter (·.1 != d) }
      ((y.pushQ.filter (·.1 == d)).map (·.2)).foldl (fun s p => applyPush s d p) s
    else s) s
  let x := s.die d
  s.setDie d { x with vc := mergeVc x.vc ((List.range 8).map fun k => if k = d then 0 + x.clockOf d else nth 0 v k) }

/-- A request of die d reaches the home of a line (R402). -/
def reachHome (s : State) (d line : Nat) : State :=
  if s.ownLine line && dieOfLine line != d then deliverTo s (dieOfLine line) (stampOf s d) else s
/-- The answer of a line's home reaches die d (R402). -/
def reachBack (s : State) (d line : Nat) : State :=
  if s.ownLine line && dieOfLine line != d then deliverTo s d (stampOf s (dieOfLine line)) else s
/-- A request of die d that a line's home serves, and its answer. -/
def visitHome (s : State) (d line : Nat) : State := reachBack (reachHome s d line) d line

/-- A die announces the epoch of this clock, with its pushes, to each other die (R401). -/
def announce (s : State) (e : Nat) : State :=
  let x := s.die e
  if x.wrote then
    let vc := setD 0 e ((x.clockOf e + 1) % 2 ^ 32) x.vc
    let stamp := (List.range 8).map fun k => getD 0 k vc
    let s := s.setDie e { x with vc := vc, wrote := false, pushQ := [] }
    (List.range 8).foldl (fun s d =>
      if d = e then s
      else
        let y := s.die d
        s.setDie d { y with inbox := y.inbox ++ [{ src := e, stamp := stamp, pushes := (x.pushQ.filter (·.1 == d)).map (·.2) }] }) s
  else s

/-- The hub's writes and reads at a home carry and merge its clock (R404). -/
def hubReach (s : State) (line : Nat) : State :=
  if s.ownLine line then deliverTo s (dieOfLine line) ((List.range 8).map fun k => getD 0 k s.hubVc) else s
def hubMerge (s : State) (line : Nat) : State :=
  if s.ownLine line then { s with hubVc := mergeVc s.hubVc (stampOf s (dieOfLine line)) } else s
/-- One write by the hub. -/
def hubPut (s : State) (pa : Nat) (bs : List Byte) : State :=
  if bs = [] then s
  else (lineParts pa bs).foldl (fun s p => hubMerge (homePut (hubReach s (lineOf p.1)) p.1 p.2) (lineOf p.1)) s

/-! ## Pod transport (R439, R440) -/

def State.port (s : State) (m : Nat) : PodPort := getD {} m s.hub.ports
def State.setPort (s : State) (m : Nat) (p : PodPort) : State := { s with hub := { s.hub with ports := setD {} m p s.hub.ports } }

/-- Whether a sender can hold one more unacknowledged flit. -/
def podRoom (s : State) (m : Nat) : Bool := decide ((s.port m).unacked.length < 2 ^ 16)

/-- The header of a pod frame: source, destination, number of flits, SEQ of the first, and ACKSEQ (R439). -/
def podHeader (src dst flits seq ack : Nat) : List Byte := leBytes src 1 ++ leBytes dst 1 ++ leBytes flits 2 ++ leBytes seq 4 ++ leBytes ack 4

/-- Flits sent to a peer go out in frames of at most 56, fewer where fewer are waiting (R439). -/
def podFrames (src dst ack : Nat) (seqs : List Nat) : List (List Byte) :=
  (List.range ((seqs.length + 55) / 56)).map fun i =>
    let l := (seqs.drop (56 * i)).take 56
    podHeader src dst l.length (l.headD 0) ack

/-- A message to another module takes a flit, which the sender keeps until it is acknowledged (log 20). -/
def podSend (s : State) (m : Nat) : State :=
  let p := s.port m
  let s := { s with hub := { s.hub with wire := s.hub.wire ++ podFrames s.hub.modid m p.expect [p.sent] } }
  s.setPort m { p with unacked := p.unacked ++ [p.sent], sent := (p.sent + 1) % 2 ^ 32, ackClk := if p.unacked = [] then s.clock else p.ackClk }

/-! ## Translation (R205 to R207, R210) -/

def canonical (va : DWord) : Bool := va.toNat < 2 ^ 55 || 2 ^ 64 - 2 ^ 55 ≤ va.toNat
def leafBit (leaf : DWord) (i : Nat) : Bool := leaf.getLsbD i
def leafR (l : DWord) : Bool := l.getLsbD 2
def leafW (l : DWord) : Bool := l.getLsbD 3
def leafX (l : DWord) : Bool := l.getLsbD 4
def leafSealed (l : DWord) : Bool := l.getLsbD 58
def leafContrib (l : DWord) : Bool := l.getLsbD 59
def leafAddr (l : DWord) : Nat := l.toNat % 2 ^ 58 / 2 ^ 12 * 2 ^ 12
/-- The bits [63:60], [11:8], [5] and [1], which must be 0 (R206). -/
def entryReserved (e : DWord) : Bool := e &&& 0xF000000000000F22#64 != 0

/-- The walk of a level with its table's address: the leaf, its address, and the log2 of the page's size (R205, R206). -/
def walkFrom (s : State) (va : DWord) : Nat → Nat → Option (DWord × Nat × Nat)
  | 0, tab => step 0 tab fun _ => none
  | lv + 1, tab => step (lv + 1) tab fun a => walkFrom s va lv a
where
  step (lv tab : Nat) (down : Nat → Option (DWord × Nat × Nat)) : Option (DWord × Nat × Nat) :=
    let ix := va.toNat / 2 ^ (12 + 9 * lv) % (if lv = 4 then 256 else 512)
    let ea := tab + 8 * ix
    let e : DWord := BitVec.ofNat 64 (s.dword ea)
    let leaf := e.getLsbD 6
    let bits := 12 + 9 * lv + (if e.getLsbD 7 then 4 else 0)
    if !e.getLsbD 0 || entryReserved e then none
    else if leaf then
      if 3 ≤ lv || leafAddr e % 2 ^ bits != 0 || !isMemory (leafAddr e) then none else some (e, ea, bits)
    else if e.getLsbD 7 || lv == 0 then none
    else if !isMemory (leafAddr e) then none
    else down (leafAddr e)

/-- The lines of the table entries that a walk reads (R205). -/
def walkLinesFrom (s : State) (va : DWord) : Nat → Nat → List Nat
  | 0, tab => [lineOf (tab + 8 * (va.toNat / 2 ^ 12 % 512))]
  | lv + 1, tab =>
    let ea := tab + 8 * (va.toNat / 2 ^ (12 + 9 * (lv + 1)) % (if lv = 3 then 256 else 512))
    let e : DWord := BitVec.ofNat 64 (s.dword ea)
    lineOf ea :: if !e.getLsbD 0 || entryReserved e || e.getLsbD 6 || e.getLsbD 7 || !isMemory (leafAddr e) then [] else walkLinesFrom s va lv (leafAddr e)

def walkLines (s : State) (ctx : Nat) (va : DWord) : List Nat := if canonical va then walkLinesFrom s va 4 (s.ctx ctx).root else []

def walk (s : State) (ctx : Nat) (va : DWord) : Option (DWord × Nat × Nat) :=
  if canonical va then walkFrom s va 4 (s.ctx ctx).root else none

/-- A line of a page that is being moved lies in the new frame once it has been copied: the old home forwards every later access (R202). -/
def State.forwarded (s : State) (pa : Nat) : Nat :=
  match s.moves.find? fun m => decide (m.old ≤ pa ∧ pa < m.old + 128 * m.done) with
  | some m => pa - m.old + m.new
  | none => pa

/-- The physical address under a leaf: a contribution page's replica of the die and module (R210). -/
def underLeaf (s : State) (die : Nat) (leaf : DWord) (bits : Nat) (va : DWord) : Nat :=
  let pa := leafAddr leaf / 2 ^ bits * 2 ^ bits + va.toNat % 2 ^ bits
  if leafContrib leaf then pa % 2 ^ 49 + die * 2 ^ 49 + s.hub.modid * 2 ^ 52 else pa

/-- The entry of a TLB that translates an address of a context. -/
def tlbHit (l : List TlbEnt) (ctx : Nat) (va : DWord) : Option TlbEnt :=
  l.find? fun e => e.ctx == ctx && va.toNat / 2 ^ e.bits == e.base / 2 ^ e.bits

/-- The translation that the TLBs of a core, of its quad and of its die hold, the nearest first (R207). -/
def tlbFind (s : State) (core ctx : Nat) (va : DWord) : Option TlbEnt :=
  ((tlbHit (s.core core).tlb ctx va).or (tlbHit (s.quad (quadOfCore core)).tlb ctx va)).or (tlbHit (s.die (dieOfCore core)).tlb ctx va)

/-- A translation for a core and its engines: a TLB entry, else the tables (R206, R207; log 14). -/
def translate (s : State) (core ctx : Nat) (va : DWord) : Option (Nat × DWord) :=
  let r := match tlbFind s core ctx va with
    | some e => some (e.leaf, e.bits)
    | none => (walk s ctx va).map fun w => (w.1, w.2.2)
  match r with
  | none => none
  | some (leaf, bits) =>
    let pa := s.forwarded (underLeaf s (dieOfCore core) leaf bits va)
    if canonical va && isMemory pa then some (pa, leaf) else none

/-- A TLB of n entries with an entry more, the oldest giving way in a full one. -/
def tlbAdd (n : Nat) (e : TlbEnt) (l : List TlbEnt) : List TlbEnt :=
  if l.contains e then l else (if n ≤ l.length then l.drop 1 else l) ++ [e]

/-- An entry comes into the TLBs of a core and of its quad (R207). -/
def tlbNear (s : State) (core : Nat) (e : TlbEnt) : State :=
  let c := s.core core
  let q := s.quad (quadOfCore core)
  let s := if c.tlb.contains e then s else s.setCore core { c with tlb := tlbAdd 64 e c.tlb }
  if q.tlb.contains e then s else s.setQuad (quadOfCore core) { q with tlb := tlbAdd 512 e q.tlb }

/-- The translations that an invalidation names go from every TLB of some dies (R207). -/
def tlbDrop (s : State) (die : Nat → Bool) (out : TlbEnt → Bool) : State :=
  let keep (l : List TlbEnt) : List TlbEnt := l.filter fun e => !out e
  { s with
    dies := (s.dies.map fun e => if die e.1 then (e.1, { e.2 with tlb := keep e.2.tlb }) else e).filter (·.2 != {}),
    quads := (s.quads.map fun e => if die (e.1 / 32) then (e.1, { e.2 with tlb := keep e.2.tlb }) else e).filter (·.2 != {}),
    cores := (s.cores.map fun e => if die (dieOfCore e.1) then (e.1, { e.2 with tlb := keep e.2.tlb }) else e).filter (·.2 != {}) }

/-- A core joins the misses of a page of a context (R207). -/
def missAdd (core ctx page : Nat) (l : List Miss) : List Miss :=
  if l.any fun m => m.ctx == ctx && m.page == page then
    l.map fun m => if m.ctx == ctx && m.page == page && !m.cores.contains core then { m with cores := m.cores ++ [core] } else m
  else l ++ [{ ctx := ctx, page := page, cores := [core] }]

/-- The use of a translation: an entry found in an outer TLB comes into the nearer ones; where none holds one, the miss waits for its walk in the
die's miss-merge table, or for a place in it (R207). -/
def noteMiss (s : State) (core ctx : Nat) (va : DWord) : State :=
  match tlbFind s core ctx va with
  | some e => tlbNear s core e
  | none =>
    let x := s.die (dieOfCore core)
    s.setDie (dieOfCore core) { x with misses := missAdd core ctx (va.toNat % 2 ^ 56 / 2 ^ 12) x.misses }

/-! ## Checked accesses (R131, R340, R456) -/

/-- What an access needs of its leaf. -/
structure Need where
  kind : Nat
  r    : Bool := false
  w    : Bool := false
  x    : Bool := false
  /-- a write that a sealed page refuses -/
  seals : Bool := false
  deriving DecidableEq, Repr

def Trap.at (c : TrapCode) (va : DWord) (aux : Nat) : Trap := { code := c, faddr := va, aux := aux }

/-- TRANSLATION, PROTECTION and SEALED_STORE of a global access. -/
def checkVa (s : State) (core ctx : Nat) (va : DWord) (n : Need) : Except Trap (Nat × DWord) :=
  match translate s core ctx va with
  | none => .error (.at .translation va n.kind)
  | some (pa, leaf) =>
    if (n.r && !leafR leaf) || (n.w && !leafW leaf) || (n.x && !leafX leaf) then .error (.at .protection va n.kind)
    else if n.seals && leafSealed leaf then .error (.at .sealedStore va n.kind)
    else .ok (pa, leaf)

/-- One 8-byte word of code (R15, R124). -/
def fetchWord (s : State) (core ctx : Nat) (va : DWord) (kind : Nat) : Except Trap Nat := do
  let r ← checkVa s core ctx va { kind := kind, x := true }
  pure (s.dword r.1)

/-! ## The combining buffers and L1 (R196 to R199, R219) -/

def Core.entry (c : Core) (line : Nat) : Option Wcb := c.wcb.find? (·.line == line)

/-- The home forgets a core's claim. -/
def unclaim (s : State) (core line : Nat) : State :=
  let d := s.die (dieOfLine line)
  let cs := (getD [] line d.claims).filter (· != core)
  s.setDie (dieOfLine line) { d with claims := setD [] line cs d.claims }

/-- What a core holds of a line may be older than what its home has just answered or applied: its L1 copy goes, and so does its die's remote copy of
another module's line, which no push keeps current (R211, R222). -/
def freshen (s : State) (core line : Nat) : State :=
  let c := s.core core
  let s := s.setCore core { c with l1 := del line c.l1 }
  if s.ownLine line then s
  else
    let d := s.die (dieOfCore core)
    s.setDie (dieOfCore core) { d with rdc := del line d.rdc }

/-- One combining entry drains as one write to the home, which releases the claim; the home's acknowledgement is to come (R198, R217). The die's remote
copy of another module's line, which does not learn of the write, goes (R211). -/
def drainEntry (s : State) (core : Nat) (e : Wcb) : State :=
  let c := s.core core
  let s := s.setCore core { c with wcb := c.wcb.filter (·.line != e.line), acks := c.acks ++ [{ id := s.nextId, who := e.who }] }
  let s := { s with nextId := s.nextId + 1 }
  let s := reachHome s (dieOfCore core) e.line
  let s := homeWrite s e.line e.mask e.data
  let s := unclaim s core e.line
  let s := reachBack s (dieOfCore core) e.line
  if s.ownLine e.line then s
  else
    let d := s.die (dieOfCore core)
    s.setDie (dieOfCore core) { d with rdc := del e.line d.rdc }

/-- The 8 places of the claim table that a line can take: its slice's set of them. -/
def claimSet (line : Nat) : Nat := line / 160 % 64

/-- Whether the home's claim table has a place for a line (R197). -/
def claimRoom (s : State) (line : Nat) : Bool :=
  let same := (s.die (dieOfLine line)).claims.filter fun e => s.ownLine e.1 && sliceOf e.1 == sliceOf line && claimSet e.1 == claimSet line
  !s.ownLine line || decide ((same.map fun e => e.2.length).sum < 8)

/-- Whether a line lies in a near-memory layer that is in retention mode or changing mode (R450; log 18). -/
def State.layerOff (s : State) (line : Nat) : Bool :=
  let d := s.die (dieOfLine line)
  s.ownLine line && !farLine line && (d.ret ||| d.busy ||| d.enc).getLsbD (line / 2 ^ 23 % 4)

/-- Whether an access to a line waits for an answer: its layer gives none (R450), or its module lies outside the membership (R440; log 67). -/
def State.asleep (s : State) (line : Nat) : Bool := s.layerOff line || s.outcast line

/-- What holds back atomics and first transactional reads of a line: a foreign commit's reservation (R229, R232), or that it gives no answer. -/
def State.reserved (s : State) (line : Nat) : Bool := (s.line line).resv.isSome || s.asleep line

/-- What holds back the drain of a line's entry: a foreign commit's reservation (R232), or its layer (R450). -/
def State.blocked (s : State) (line : Nat) : Bool := (s.line line).resv.isSome || s.layerOff line

/-- Whether an access must wait for its own table walk, which an entry in such a line does not answer (R207, R450). -/
def State.walkWaits (s : State) (core ctx : Nat) (va : DWord) : Bool :=
  (tlbFind s core ctx va).isNone && (walkLines s ctx va).any s.asleep

/-- A claim reaches the home: it is recorded there; a refused one has its store written through, and the entry goes, unless the line is held back
(R197). -/
def claimEntry (s : State) (core : Nat) (e : Wcb) : State :=
  if e.claimed then s
  else if claimRoom s e.line then
    let s := visitHome s (dieOfCore core) e.line
    let d := s.die (dieOfLine e.line)
    let s := s.setDie (dieOfLine e.line) { d with claims := put e.line (getD [] e.line d.claims ++ [core]) d.claims }
    let c := s.core core
    s.setCore core { c with wcb := c.wcb.map fun x => if x.line == e.line then { e with claimed := true } else x }
  else if s.blocked e.line then s
  else drainEntry s core e

/-- Whether two lines have one home slice. -/
def sameSlice (a b : Nat) : Bool :=
  moduleOfLine a == moduleOfLine b && dieOfLine a == dieOfLine b && sliceOf a == sliceOf b

/-- The claims that a core has sent to a line's home slice arrive there before what it sends to that slice now (R212). -/
def sendAhead (s : State) (core line : Nat) : State :=
  ((s.core core).wcb.filter fun e => !e.claimed && sameSlice e.line line).foldl (fun s e => claimEntry s core e) s

/-- The combining entry of a line drains, after the claims sent before (R198, R212). -/
def drainLine (s : State) (core line : Nat) : State :=
  match (s.core core).entry line with
  | none => s
  | some _ =>
    let s := sendAhead s core line
    match (s.core core).entry line with
    | none => s
    | some e => drainEntry s core e

def drainAll (s : State) (core : Nat) : State :=
  ((s.core core).wcb.map (·.line)).foldl (fun s l => drainLine s core l) s

/-- Every claimed entry of a line is recalled and drains (R199). -/
def recallLine (s : State) (line : Nat) : State :=
  (getD [] line (s.die (dieOfLine line)).claims).foldl (fun s c => drainLine s c line) s

/-- Whether a load of a line must wait: only its home can serve it, and its layer answers no access. -/
def loadWaits (s : State) (core line : Nat) : Bool :=
  s.asleep line && (look line (s.core core).l1).isNone && (look line (s.die (dieOfCore core)).rdc).isNone

/-- A plain store of one issue: it updates the core's L1 copy, of which a granule that the stores merged in the line's entry cover is whole again, and enters
the combining buffer, draining the entry allocated earliest when all 8 are in use (R196 to R198, R204). -/
def storeLine (s : State) (core who : Nat) (pa : Nat) (bs : List Byte) : State :=
  let line := lineOf pa
  let o := pa % 128
  let m := maskOf o bs.length
  let s :=
    let c := s.core core
    let all := m ||| (match c.entry line with | some e => e.mask | none => 0)
    match look line c.l1 with
    | none => s
    | some x => s.setCore core { c with l1 := put line { x with img := imgPut x.img o bs, poison := x.poison &&& ~~~(coveredGranules all) } c.l1 }
  match (s.core core).entry line with
  | some _ =>
    let c := s.core core
    s.setCore core { c with wcb := c.wcb.map fun e =>
      if e.line == line then
        { e with mask := e.mask ||| m, data := imgPut e.data o bs, merged := s.clock, who := if e.who.contains who then e.who else e.who ++ [who] }
      else e }
  | none =>
    let s := if 8 ≤ (s.core core).wcb.length then
        match minBy (·.alloc) (s.core core).wcb with
        | some e => drainLine s core e.line
        | none => s
      else s
    let c := s.core core
    s.setCore core { c with wcb := c.wcb ++
      [{ line := line, mask := m, data := imgPut 0 o bs, alloc := s.clock, merged := s.clock, who := [who] }] }

/-- Whether a store can go on: the entry it must drain is not held back by a reservation. -/
def storeHeld (s : State) (core line : Nat) : Bool :=
  let c := s.core core
  (c.entry line).isNone && decide (8 ≤ c.wcb.length) &&
    (match minBy (·.alloc) c.wcb with | some e => s.blocked e.line | none => false)

/-- The clocks to the answer of a line's home: those of near memory where an L2 slice of the home holds the line (R155, R195). -/
def latHome (s : State) (line : Nat) : Nat :=
  if farLine line && !(s.ownLine line && (s.die (dieOfLine line)).l2.contains line) then Config.latFar else Config.latNear

/-- A far-memory line comes into its home's L2 slice, of 8,192 lines; the line that came first gives way in a full slice (R2, R195; log 13). -/
def l2Fill (s : State) (line : Nat) : State :=
  let d := s.die (dieOfLine line)
  if !farLine line || !s.ownLine line || d.l2.contains line then s
  else
    let same := d.l2.filter fun x => sliceOf x == sliceOf line
    let l := if 8192 ≤ same.length then d.l2.erase (same.headD 0) else d.l2
    s.setDie (dieOfLine line) { d with l2 := l ++ [line] }

/-- A request that a core sends to a line's home, which serves it after the claims that the core sent there before (R212). -/
def coreAsk (s : State) (core line : Nat) : State := visitHome (sendAhead s core line) (dieOfCore core) line

/-- The copy of a line beyond L1, with its version and the clocks it takes: the RDC of the core's die for a remote line, else the home (R195, R200). -/
def outerCopy (s : State) (core line : Nat) : BitVec 1024 × BitVec 4 × Nat × Nat :=
  match look line (s.die (dieOfCore core)).rdc with
  | some x => (x.img, x.poison, x.ver, Config.latNear)
  | none => (s.image line, (s.line line).poison, (s.line line).ver, latHome s line)

/-- The copy of a line that serves a load of a core, and the clocks it takes: L1, else what lies beyond (R155, R196, R200). -/
def copyFor (s : State) (core line : Nat) : BitVec 1024 × BitVec 4 × Nat :=
  match look line (s.core core).l1 with
  | some x => (x.img, x.poison, Config.latL1)
  | none => let x := outerCopy s core line; (x.1, x.2.1, x.2.2.2)

def granuleHit (o n : Nat) (g : Nat) : Bool := decide (o < 32 * (g + 1) ∧ 32 * g < o + n)
/-- The first poisoned granule among those that n bytes from offset o on touch. -/
def badGranule (p : BitVec 4) (o n : Nat) : Option Nat := (List.range 4).find? fun g => granuleHit o n g && p.getLsbD g

/-- The bytes that a plain load of a core returns: those of its own combining entry, the others from the copy that serves it; with the
first poisoned granule and the latency (R197, R204). -/
def loadLine (s : State) (core pa n : Nat) : List Byte × Option Nat × Nat :=
  let line := lineOf pa
  let o := pa % 128
  let (img, pz, lat) := copyFor s core line
  match (s.core core).entry line with
  | none => (imgBytes img o n, badGranule pz o n, lat)
  | some e =>
    let pz := pz &&& ~~~(coveredGranules e.mask)
    (imgBytes (imgMerge img e.mask e.data) o n, badGranule pz o n, lat)

/-- A line is asked for: a remote line's answer is delivered, and the fill is to come (R196, R200, R402). Bit 0 of the note says that L1 allocates
the line, bit 1 that the copy is of a sealed or contribution page. -/
def askFill (s : State) (core line note : Nat) : State :=
  let s := if (look line (s.die (dieOfCore core)).rdc).isSome then s else coreAsk s core line
  let c := s.core core
  s.setCore core { c with fills := put line (getD 0 line c.fills ||| note) c.fills }

/-- A load asks for a line that L1 does not hold (R196). -/
def noteFill (s : State) (core line note : Nat) : State :=
  if (look line (s.core core).l1).isSome then s else askFill s core line note

/-- An acquire at .quad or wider: every entry drains, every L1 copy but those of sealed and contribution pages is dropped; at .pod also
the RDC copies of other modules' lines (R217, R222). -/
def acquireAt (s : State) (core : Nat) (sc : Scope) : State :=
  match sc with
  | .lane | .core => s
  | _ =>
    let s := drainAll s core
    let c := s.core core
    let s := s.setCore core { c with l1 := c.l1.filter (·.2.exempt) }
    if sc = .pod then
      let d := s.die (dieOfCore core)
      s.setDie (dieOfCore core) { d with rdc := d.rdc.filter fun e => s.ownLine e.1 }
    else s

/-- A release at .quad or wider: every entry of the core drains (R217). -/
def releaseAt (s : State) (core : Nat) (sc : Scope) : State :=
  match sc with
  | .lane | .core => s
  | _ => drainAll s core

def drainHeld (s : State) (core : Nat) : Bool := (s.core core).wcb.any fun e => s.blocked e.line

/-! ## The unified store (R186, R189, R204) -/

def Core.byte (c : Core) (a : Nat) : Byte := getD 0 a c.store
def Core.bytes (c : Core) (a n : Nat) : List Byte := (List.range n).map fun i => c.byte (a + i)
def Core.setByte (c : Core) (a : Nat) (b : Byte) : Core := { c with store := setD 0 a b c.store }
/-- A write to the store; a granule that it covers loses its poison. -/
def Core.putBytes (c : Core) (a : Nat) (bs : List Byte) : Core :=
  let c := bs.zipIdx.foldl (fun c e => c.setByte (a + e.2) e.1) c
  { c with scrPoison := c.scrPoison.filter fun e => !decide (a ≤ 32 * e.1 ∧ 32 * e.1 + 32 ≤ a + bs.length) }
/-- The first poisoned granule that n bytes from a on touch. -/
def Core.badAt (c : Core) (a n : Nat) : Option Nat :=
  (c.scrPoison.find? fun e => decide (a < 32 * e.1 + 32 ∧ 32 * e.1 < a + n)).map (·.1)
def Core.markBad (c : Core) (g : Nat) : Core := { c with scrPoison := put g true c.scrPoison }

/-! ## Transactions: the abort that every non-retry cause shares (R233, R238) -/

/-- The status word (R233). -/
def statusWord (code depth rset acode : Nat) : Word := BitVec.ofNat 32 (code + 16 * depth + 256 * rset + 65536 * acode)
/-- The fibre after a non-retry abort: both sets discarded, the status written, going on at Lfail. -/
def abortTxn (f : Fibre) (code acode : Nat) : Fibre :=
  match f.txn with
  | none => f
  | some x => { f with txn := none, pc := x.lfail, status := statusWord code x.depth x.rset.length acode }

/-! ## Taking a trap (R341 to R352) and the return from one (R348) -/

def TrapCode.num : TrapCode → Nat
  | .illegal => 1 | .illegalTree => 2 | .formatMismatch => 3 | .crewPartial => 4 | .frameOverflow => 5 | .translation => 6
  | .protection => 7 | .sealedStore => 8 | .poison => 9 | .align => 10 | .breakpoint => 11 | .software => 12 | .slotWatchdog => 13
  | .feature => 14 | .nonuniform => 15 | .tileState => 16 | .nestedFault => 17 | .engineFault => 18

/-- A fibre at run position 0 (R72). -/
def Fibre.newRun (f : Fibre) : Fibre := { f with runPos := 0, runPc := f.pc, latches := [], lAvail := [], runVs := [], runSs := [], runPs := [] }

/-- Whether a fibre stands within a run (R72, R75, R342). -/
def Fibre.midRun (f : Fibre) : Bool := decide (1 ≤ f.runPos ∧ f.runPos ≤ 3)

/-- The addresses a trap fixes: RPC and IPC (R341). The RPC of a run is its first instruction, that of an attempt its origin. FLAGS [16] says that the
RPC was moved back to the run's first instruction (R346). -/
def trapRec (f : Fibre) (t : Trap) (ipc rpc : DWord) (inTree : Bool) (shim : Option DWord) : TrapRec :=
  match f.txn with
  | some x => { trap := t, rpc := x.origin, ipc := ipc, inRun := false, inTree := inTree, closed := true, shim := shim,
                event := 0, order := 0 }
  | none => { trap := t, rpc := rpc, ipc := ipc, inRun := !inTree && decide (1 ≤ f.runPos ∧ f.runPos ≤ 3 ∧ rpc = f.runPc), inTree := inTree,
              closed := false, shim := shim, event := 0, order := 0 }

/-- A fibre that raises a trap: nothing of the instruction is written; an open transaction closes with FAULT and is to be run again from
its origin; the fibre leaves its gang and waits trapped (R26, R238, R341). -/
def raiseTrap (f : Fibre) (r : TrapRec) : Fibre :=
  let f := match f.txn with
    | some x => { f with txn := none, restart := ⟨x.origin, x.deadline⟩ :: f.restart,
                         status := statusWord 6 x.depth x.rset.length 0 }
    | none => f
  { f.newRun with st := .trapped, trap := some r,
                  lastBrk := if r.trap.code = .breakpoint ∧ r.trap.aux = 0 then some (r.rpc, r.ipc) else none }

/-- The words of a trap frame (R346); `shim` says that the fibre enters a shim with it. -/
def frameWords (f : Fibre) (r : TrapRec) (shim : Bool) : List Reg :=
  let fl := bit r.inRun + 2 * bit r.inTree + 4 * bit r.closed + 8 * bit shim
  let w (x : Nat) : Reg := ⟨BitVec.ofNat 32 x, .n32⟩
  let lo (x : DWord) : Reg := ⟨x.setWidth 32, .p64l⟩
  let hi (x : DWord) : Reg := ⟨(x >>> 32).setWidth 32, .p64h⟩
  [w (r.trap.code.num + 256 * r.trap.detail + 65536 * fl), w (r.order + 65536 * r.event),
   w (f.depth + 2 ^ 21 * (f.fs / 8) + 2 ^ 27 * (f.fb / 8)), w f.preds.toNat,
   lo r.rpc, hi r.rpc, lo r.ipc, hi r.ipc, lo r.trap.faddr, hi r.trap.faddr, w r.trap.aux, w 0]

/-- Entry to a handler or a shim at h with frame size fh (R345): the frame in the entries above the interrupted frame, the window
shifted, the PC at h; the return stack, depth and predicates unchanged. The fibre becomes loose. -/
def enterHandler (f : Fibre) (r : TrapRec) (h : DWord) (fh clk : Nat) (hand : Hand) : Fibre :=
  let b := f.fb + f.fs
  let regs := (frameWords f r (hand == .shim)).zipIdx.foldl (fun m e => setD Reg.zero (b + e.2) e.1 m) f.regs
  { f with regs := regs, badRegs := f.badRegs.filter fun n => n < b || b + 12 ≤ n, fb := b, fs := fh, pc := h, runPos := 0, runPc := h,
           trap := none, st := .loose clk 0, hand := hand, skipBrk := none,
           avail := f.avail.filter fun e => decide (e.1 < b ∨ b + 12 ≤ e.1) }

/-- The frame size that the frame word below an entry declares, or the trap that its reading raises (R350). -/
def handlerFrame (s : State) (core ctx : Nat) (h : DWord) : Except Trap Nat :=
  if h.toNat % 8 ≠ 0 then .error (.at .align h 6)
  else
    match fetchWord s core ctx (h - 8) 6 with
    | .error t => .error t
    | .ok w =>
      match decodeWords [w] with
      | .ok (.frameWord imm) => .ok imm.toNat
      | _ => .error (.illegalAt 0)

/-- The return from a trap (R348): the checks, and the fibre as the frame in its v0 to v11 leaves it, out of the handler crew and
exempt once from a breakpoint at its RPC (R354, R379). A word of the frame that it reads and that holds a reserved tag raises ILLEGAL (R13). -/
def returnTrap (f : Fibre) (w : Nat) : Except Trap Fibre :=
  let x (i : Nat) : Nat := (f.reg i).val.toNat
  let fs8 := x 2 / 2 ^ 21 % 64
  let fb8 := x 2 / 2 ^ 27
  let rpc : DWord := BitVec.ofNat 64 (x 4 + 2 ^ 32 * x 5)
  if [2, 3, 4, 5].any fun i => reservedTag (f.reg i).tag then .error (.badSel ((([2, 3, 4, 5].find? fun i => reservedTag (f.reg i).tag)).getD 0))
  else if x 2 % 2 ^ 16 ≠ f.depth || fs8 = 0 || 32 < fs8 || w < 8 * fb8 + 8 * fs8 || rpc.toNat % 8 ≠ 0 then .error (.illegalAt 0)
  else .ok { f with preds := (BitVec.ofNat 16 (x 3)) ||| 1, fb := 8 * fb8, fs := 8 * fs8, pc := rpc, hand := .none,
                    restart := f.restart.filter (·.origin == rpc), skipBrk := some rpc }

end Sys2Proof.Machine
end

