-- ==== Sys2Proof/Machine/Teams.lean ====
section
/-! DEFINITION. Shared operations on fibres, crews, trap events and the budget barrier of a team (R142, R145, R164, R168, R177 to R179,
R342 to R344, R354). -/

namespace Sys2Proof.Machine

/-! ## Breakpoint registers (R353, R354) -/

def brkMatches (r : DWord) (slot : Nat) (pc : DWord) : Bool :=
  r.getLsbD 63 && (r.getLsbD 62 || r.toNat / 2 ^ 58 % 16 == slot) && r.toNat / 8 % 2 ^ 53 == pc.toNat / 8 % 2 ^ 53

/-- Whether a breakpoint register of the team's core matches a fibre at an address (R354). -/
def brkAt (s : State) (t : Team) (f : Fibre) (pc : DWord) : Bool :=
  f.hand == .none && f.skipBrk != some pc && ((s.core t.core).brk.any fun r => brkMatches r.2 t.slot pc)

/-- NONUNIFORM at an s-register (R160, R340). -/
def Trap.nonuniformAt (n : Nat) : Trap := { code := .nonuniform, aux := 0x100 + n }

def Trap.brkpt (va : DWord) (reg : Bool) : Trap := { code := .breakpoint, faddr := va, aux := bit reg }

/-! ## Trap events (R344, R356) -/

/-- Whether a trap is a breakpoint of a team in fibre-stop mode (R356). -/
def stopsOnly (s : State) (t : Team) (r : TrapRec) : Bool :=
  r.trap.code == .breakpoint && (s.core t.core).fstop.getLsbD t.slot

/-- The fibre as its trap leaves it: waiting for the handler, or stopped at its resume address in fibre-stop mode (R341, R356). -/
def strike (s : State) (t : Team) (f : Fibre) (r : TrapRec) : Fibre :=
  if stopsOnly s t r then
    let g := raiseTrap f r
    { g with trap := none, st := .stopped, pc := r.rpc, skipBrk := some r.rpc }
  else raiseTrap f r

/-- Takes fibres out of every gang; a gang left empty is gone. -/
def ungang (s : State) (team : Nat) (fidx : List Nat) : State :=
  { s with gangs := (s.gangs.map fun g =>
      if g.team == team then { g with members := g.members.filter fun m => !fidx.contains m.2 } else g).filter (·.members != []) }

/-- A gang that loses some of its fibres to a trap that halts is the remainder of a trapping gang (R343). -/
def markRest (s : State) (team : Nat) (fidx : List Nat) : State :=
  { s with gangs := s.gangs.map fun (g : Gang) =>
      if g.team == team && g.members.any fun m => fidx.contains m.2 then { g with remainder := true } else g }

/-- One trap event of fibres that trap together: they leave their gangs, take their places in ascending global fibre index, and the event
waits for its halt (R342, R344). -/
def trapEvent (s : State) (team : Nat) (issue : Option (Nat × Nat)) (l : List (Fibre × TrapRec)) : State :=
  match s.team team with
  | none => s
  | some t =>
    let l := sortBy (fun e => e.1.fidx) l
    let stopped := l.filter fun e => stopsOnly s t e.2
    let live := l.filter fun e => !stopsOnly s t e.2
    let s := stopped.foldl (fun s e => s.setFibre e.1.key (strike s t e.1 e.2)) s
    let s := live.zipIdx.foldl (fun s e => s.setFibre e.1.1.key (raiseTrap e.1.1 { e.1.2 with order := e.2 })) s
    let s := ungang (markRest s team (live.map (·.1.fidx))) team (l.map (·.1.fidx))
    match live with
    | [] => s
    | _ :: _ =>
      match s.team team with
      | none => s
      | some t => s.setTeam team { t with pendEv := t.pendEv ++
          [{ num := none, clk := s.clock, fibres := live.map (·.1.fidx), issue := issue }] }

/-- The place of each fibre of an event in its trap frame (R344, R346). -/
def orderEvent (s : State) (team : Nat) (fibres : List Nat) : State :=
  fibres.zipIdx.foldl (fun s e => match s.fibre (team * 1024 + e.1) with
    | some f => s.setFibre f.key { f with trap := f.trap.map fun r => { r with order := e.2 } }
    | none => s) s

/-- Fibres of an issue that trap after the others of that issue have had their event made in this clock join that event: the fibres that trap in one
issue form one event (R344). -/
def trapLater (s : State) (team : Nat) (issue : Nat × Nat) (l : List (Fibre × TrapRec)) : State :=
  let s := trapEvent s team (some issue) l
  match s.team team with
  | none => s
  | some t =>
    let same (e : TrapEvent) : Bool := e.issue == some issue && e.num.isNone && e.clk == s.clock
    match t.pendEv.filter same with
    | e :: e' :: es =>
      let fs := sortBy id ((e :: e' :: es).flatMap (·.fibres))
      let evs := t.pendEv.filter fun x => !same x || x == e
      orderEvent (s.setTeam team { t with pendEv := evs.map fun x => if x == e then { e with fibres := fs } else x }) team fs
    | _ => s

/-- A fibre that a wait leaves at a new address: loose, unless a breakpoint register matches (R147, R354). -/
def loosen (s : State) (f : Fibre) (issue : Option (Nat × Nat)) (ipc : DWord) (rank : Nat) : State :=
  match s.team f.team with
  | none => s
  | some t =>
    let f := { f with st := .loose s.clock rank }.newRun
    let hit := [(f, trapRec f (.brkpt f.pc true) ipc f.pc false none)]
    if brkAt s t f f.pc then (match issue with | some i => trapLater s f.team i hit | none => trapEvent s f.team none hit)
    else s.setFibre f.key f

/-! ## Crews (R145, R164, R168, R347) -/

def clearBit (m : BitVec 32) (r : Nat) : BitVec 32 := m &&& ~~~(1#32 <<< r)
def setBit (m : BitVec 32) (r : Nat) : BitVec 32 := m ||| (1#32 <<< r)

/-- A crew without a member that has ended: live, expected and arrived bits cleared (R164). -/
def Crew.drop (c : Crew) (fidx : Nat) : Crew :=
  match rankIn c fidx with
  | none => c
  | some r => { c with version := c.version + 1, live := clearBit c.live r, masks := c.masks.map fun k =>
      { k with expected := clearBit k.expected r, arrived := clearBit k.arrived r } }

/-- The team without a fibre in its crews. A crew with no live member leaves its register empty; the end of a handler crew returns the q7
that was kept (R164, R347). -/
def Team.dropMember (t : Team) (fidx : Nat) : Team :=
  let crews := (t.crews.map fun e => (e.1, e.2.drop fidx)).filter fun e => e.2.live != 0
  let gone := (look 7 t.crews).isSome && (look 7 crews).isNone
  match t.kept with
  | some q7 =>
    let q7 := q7.bind fun c => if (c.drop fidx).live = 0 then none else some (c.drop fidx)
    if gone then { t with kept := none, crews := match q7 with | some c => put 7 c crews | none => crews }
    else { t with crews := crews, kept := some q7 }
  | none => { t with crews := crews }

/-- A fibre leaves the handler crew by rti (R348). -/
def Team.leaveHandler (t : Team) (fidx : Nat) : Team :=
  match look 7 t.crews with
  | none => t
  | some c =>
    let c := c.drop fidx
    if c.live = 0 then
      { t with kept := none, crews := match t.kept.join with | some k => put 7 k t.crews | none => del 7 t.crews }
    else { t with crews := put 7 c t.crews }

/-! ## The budget barrier (R156 to R158, R177 to R179) -/

/-- A fibre at the barrier goes on at the next instruction with its predicate and status (R178, R179). -/
def budgetRelease (s : State) (f : Fibre) (ok : Bool) (code : Nat) : State :=
  match f.st with
  | .budget _ _ _ _ pd _ c =>
    let f := { f with preds := (match pd with | some p => setPred f.preds p.val ok | none => f.preds),
                      status := statusWord code 0 0 0 }
    loosen s { f with pc := f.pc + 8 } (some (f.fidx % 4, c)) f.pc 0
  | _ => s

/-- Every fibre of the team at the barrier goes on. -/
def budgetDone (s : State) (team : Nat) (ok : Bool) (code : Nat) : State :=
  (s.teamFibres team).foldl (fun s f => budgetRelease s f ok code) s

/-- The window of a fibre cut to w entries (R158). -/
def Fibre.cut (f : Fibre) (w : Nat) : Fibre :=
  { f with regs := f.regs.filter fun e => e.1 < w, badRegs := f.badRegs.filter (· < w) }

/-- The barrier's trap at every fibre that has arrived, with the selector of its source b (log 105): an event for each issue (R177, R344). -/
def budgetTrap (s : State) (team : Nat) (fs : List Fibre) : State :=
  fs.foldl (fun s f => match f.st with
    | .budget _ _ sel _ _ _ c =>
      trapLater s team (f.fidx % 4, c) [(f, trapRec f { code := .nonuniform, aux := sel } f.pc (if f.runPos = 0 then f.pc else f.runPc) false none)]
    | _ => s) s

/-- What the last arrival at the budget barrier brings about; nothing while a live fibre has not arrived (R177 to R179). -/
def budgetSettle (s : State) (team : Nat) : State :=
  match s.team team with
  | none => s
  | some t =>
    let fs := s.teamFibres team
    let keys := fs.map fun f => match f.st with
      | .budget g w _ dl _ false _ => some (g, w, dl)
      | _ => none
    match dedupe keys with
    | [some (grow, w, dl)] =>
      if grow then
        if w = t.w then budgetDone s team true 0
        else
          let s := fs.foldl (fun s f => match f.st with
            | .budget g w sel dl pd _ c => s.setFibre f.key { f with st := .budget g w sel dl pd true c }
            | _ => s) s
          let c := s.core t.core
          s.setCore t.core { c with allot := c.allot ++
            [{ team := team, bytes := t.n * (w - t.w) * 4, w := w, deadline := dl.map (s.clock + ·) }] }
      else if fs.any fun f => decide (w < f.fb + f.fs) then budgetDone s team false 4
      else
        let c := s.core t.core
        let s := s.setCore t.core
          (let was (x : Nat) : Nat := if c.freedAt = s.clock then x else 0
           let b := t.n * (t.w - w) * 4
           let x := (s.teamLaunch t).express
           { c with freed := was c.freed + (if x then 0 else b), freedX := was c.freedX + (if x then b else 0), freedAt := s.clock })
        let s := s.setTeam team { t with w := w, regBytes := t.n * w * 4 }
        let s := fs.foldl (fun s f => s.setFibre f.key (f.cut w)) s
        budgetDone s team true 0
    | ks =>
      if ks = [] || ks.contains none then s else budgetTrap s team fs

/-! ## The end of a fibre (R163, R164, R268) -/

/-- A fibre ends: it leaves its gang and its crews, its place is free from the next clock, and a budget barrier may complete. -/
def endFibre (s : State) (f : Fibre) : State :=
  let s := ungang { s with fibres := del f.key s.fibres } f.team [f.fidx]
  match s.team f.team with
  | none => s
  | some t =>
    let t := t.dropMember f.fidx
    budgetSettle (s.setTeam t.id { t with ended := put f.fidx s.clock t.ended }) t.id

/-! ## The statuses of a fibre that a wait reaches (R236, R240) -/

/-- A sleeping fibre wakes: loose at its origin, to run its transaction again with its deadline (R236). -/
def wakeFibre (s : State) (f : Fibre) : State :=
  match f.st with
  | .sleeping o _ dl _ _ =>
    let s := loosen s { f with pc := o, restart := ⟨o, dl⟩ :: f.restart } none f.pc 0
    s.later (.watchCancel (.fibre f.key))
  | _ => s

end Sys2Proof.Machine
end

