-- ==== Sys2Proof/Machine/Issue.lean ====
section
/-! DEFINITION. The issue of one instruction by a gang: checks before the predicate, the bodies at the executing fibres, s-register
uniformity, commits, trap events, splits (R26, R72 to R75, R140, R150, R160, R161, R228, R341 to R344, R354). -/

namespace Sys2Proof.Machine

/-! ## What an instruction names -/

/-- The length of an instruction in words (R16). -/
def words : Instr → Nat
  | .movw _ _ _ => 2
  | .tree t => 1 + t.nodes.length + t.arcs.length + t.targets.length
  | _ => 1

/-- The crew an instruction names: crew-wide and crew-issued instructions, crew, join and leave (R159, R161, R314). -/
def crewOf : Instr → Option Nat
  | .crew _ _ _ q | .join _ _ _ _ q | .leave _ _ q | .vote _ _ _ q | .shfl _ _ _ _ _ q | .cbcast _ _ _ _ q | .credi _ _ _ _ _ q
  | .credf _ _ _ _ q | .cscan _ _ _ _ _ _ q => some q.val
  | .talloc _ _ q _ _ | .tfree _ _ q | .xcopy _ q _ _ | .xchain _ q _ _ | .tmove _ q _ _ | .mlds _ _ q | .mma _ _ _ _ q _ _
  | .mmas _ _ _ _ _ _ q _ _ | .acsnap _ _ q _ _ _ | .acdrain _ q _ _ | .acclr _ _ _ q _ | .adload _ q _ _ | .adinv _ q _
  | .vprune _ _ _ _ _ _ q _ _ | .sieveget _ _ q _ | .sieveset _ _ q _ | .fwalk _ q _ _ => some q.val
  | _ => none

/-- The crew that an instruction names, be it for a system value (R347, R382). -/
def namedCrew : Instr → Option Nat
  | .rdsys _ _ code q => if code.val == 3 || code.val == 4 then some q.val else none
  | i => crewOf i

/-- Instructions that need every live member of the crew they name (R161, R314). -/
def needsCrew : Instr → Bool
  | .crew _ _ _ _ | .join _ _ _ _ _ | .leave _ _ _ => false
  | i => (crewOf i).isSome

/-- Instructions that an attempt refuses, whatever their predicate (R228). -/
def refusedInAttempt : Instr → Bool
  | .atom _ _ _ _ _ _ _ _ _ | .acas _ _ _ _ _ _ _ _ | .eacc _ _ _ _ _ _ _ | .earead _ _ _ _ _ _ | .stv _ _ _ _ _ _ | .ldsum _ _ _ _ _
  | .seal _ _ _ _ | .unseal _ _ _ _ | .bar _ _ _ _ | .fence _ _ _ => true
  | .fork _ _ _ | .spawn _ _ _ | .endF _ | .yield _ | .crew _ _ _ _ | .join _ _ _ _ _ | .leave _ _ _ | .vote _ _ _ _ | .shfl _ _ _ _ _ _
  | .cbcast _ _ _ _ _ | .credi _ _ _ _ _ _ | .credf _ _ _ _ _ | .cscan _ _ _ _ _ _ _ | .regrow _ _ _ _ | .regshrink _ _ _ => true
  | .talloc _ _ _ _ _ | .tfree _ _ _ | .tinfo _ _ _ | .tinfoGetexp _ _ _ | .tinfoSetexp _ _ _ | .xcopy _ _ _ _ | .xchain _ _ _ _
  | .tmove _ _ _ _ | .mlds _ _ _ | .mma _ _ _ _ _ _ _ | .mmas _ _ _ _ _ _ _ _ _ | .acsnap _ _ _ _ _ _ | .acdrain _ _ _ _
  | .acclr _ _ _ _ _ | .adload _ _ _ _ | .adinv _ _ _ | .vprune _ _ _ _ _ _ _ _ _ | .sift _ _ _ _ | .sieveget _ _ _ _
  | .sieveset _ _ _ _ | .fwalk _ _ _ _ => true
  | .trap _ _ | .brk _ => true
  | _ => false

def isTree : Instr → Bool
  | .tree _ => true
  | _ => false

/-- The RPC of a trap outside an attempt: the first instruction of the run the fibre is in (R75, R341; that of a brk at run position 1 to 3 too,
log 82). -/
def restartPc (f : Fibre) : DWord := if f.runPos = 0 then f.pc else f.runPc

/-! ## Latencies (R155) -/

/-- The clocks after which a result of the instruction is available, where its body gives none of its own. -/
def latency : Instr → Nat
  | .fdiv _ _ _ _ _ | .fsqrt _ _ _ _ | .frcp _ _ _ _ | .fexp2 _ _ _ _ | .flog2 _ _ _ _ => 16
  | .vote _ _ _ _ | .shfl _ _ _ _ _ _ | .cbcast _ _ _ _ _ | .credi _ _ _ _ _ _ | .credf _ _ _ _ _ | .cscan _ _ _ _ _ _ _ => 8
  | _ => 4

/-! ## The checks of step 1 that depend on the fibre (R12, R13, R72 to R74, R162, R228) -/

def firstSome {α β : Type} (f : α → Option β) : List α → Option β
  | [] => none
  | x :: t => match f x with
    | some y => some y
    | none => firstSome f t

/-- An operand outside the frame, a latch not yet written in its run. -/
def opndCheck (f : Fibre) (o : Opnd) : Option Trap :=
  if o.sel < 0x100 then
    if f.fs < o.sel + o.n then some (.badSel o.sel) else none
  else if 0x120 ≤ o.sel ∧ o.sel < 0x124 ∧ f.runPos ≤ o.sel - 0x120 then some (.badSel o.sel)
  else none

/-- A register with a reserved tag among the sources of an executing instruction: its first use raises ILLEGAL (R13). DESIGN CHOICE (log 84): a
register named only as a destination is not used. -/
def tagCheck (f : Fibre) (o : Opnd) : Option Trap :=
  if o.sel < 0x100 && o.r && (List.range o.n).any (fun i => reservedTag (f.reg (o.sel + i)).tag) then some (.badSel o.sel) else none

/-- Breaches of R74 at run position 1 to 3. DESIGN CHOICE (log 86): a predicate destination p0, whose write is discarded (R11), breaches nothing. -/
def runBreach (i : Instr) (f : Fibre) : Bool :=
  let u := uses i
  decide (0 < f.runPos) && (isTree i || u.writeV.any f.runVs.contains || u.writeS.any f.runSs.contains ||
    u.wp.any fun p => p != 0 && f.runPs.contains p)

/-- Instructions whose crew a handler may not name (R162, R347, R382). -/
def handlerBreach (i : Instr) (f : Fibre) : Bool :=
  f.hand != .none && (match namedCrew i with
    | some q => q != 7
    | none => false)

/-- A call's shift beyond the frame (R124). -/
def shiftBreach (i : Instr) (f : Fibre) : Option Trap :=
  match i with
  | .call _ _ sh => if f.fs < 8 * sh.val then some (.badSel (0x180 + sh.val)) else none
  | .calli _ _ sh => if f.fs < 8 * sh.val then some (.badSel (0x180 + sh.val)) else none
  | _ => none

/-- The trap that a fibre raises before its predicate is evaluated. -/
def precheck (i : Instr) (f : Fibre) : Option Trap :=
  if f.runPos = 4 then some (.illegalAt 0)
  else
    match (firstSome (opndCheck f) (uses i).ops).or (shiftBreach i f) with
    | some t => some t
    | none =>
      if runBreach i f || (f.txn.isSome && refusedInAttempt i) || handlerBreach i f then some (.illegalAt 0) else none

/-! ## One issue -/

/-- A fibre of the issuing gang: its lane, what its operands read, the trap that comes before any fetch, that trap or the one of its checks, and
whether a breakpoint at this address is passed over once (R354, R379). -/
structure Ex where
  lane : Nat
  env  : Env
  f    : Fibre
  first : Option Trap := none
  pre  : Option Trap := none
  skip : Bool := false
  deriving DecidableEq, Repr

/-- What a fibre does: its state without the writes, the writes, the next PC of a transfer, the exit rank (R150), and a latency of its own. -/
structure Out where
  f    : Fibre
  w    : Wr := {}
  next : Option DWord := none
  rank : Nat := 0
  lat  : Option Nat := none
  deriving DecidableEq, Repr

/-- The fate of a fibre in an issue: it goes on; it waits at this PC within its gang until the clock's evaluation; it leaves its gang;
it ends; it traps. -/
inductive Act where
  | go (o : Out)
  | stay (f : Fibre)
  | leave (f : Fibre)
  | over
  | trap (t : Trap)
  deriving DecidableEq, Repr

/-- How exit ranks are given (R150): by the body, 1 for a transfer, by the order of the targets, or by the lowest leaf of the group. -/
inductive RankMode where
  | none | taken | addr | leaf
  deriving DecidableEq, Repr

/-- What a new fibre raises before its first instruction: a breakpoint match, or ALIGN for a pool record's PC that is not a multiple of 8
(R15, R354, R422). -/
def firstTrap (s : State) (t : Team) (f : Fibre) : Option Trap :=
  match f.entry with
  | some pc => some (.at .align pc 1)
  | none => if f.fresh && brkAt s t f f.pc then some (.brkpt f.pc true) else none

/-- Whether a fibre is in the run that it resumed in at the address of its last brk's trap (R75, R379). -/
def Fibre.rerun (f : Fibre) : Bool :=
  match f.lastBrk with
  | some (r, _) => if f.runPos = 0 then f.skipBrk == some f.pc && r == f.pc else f.runPc == r
  | none => false

/-- Whether a fibre passes over the brk at which it stands, once: it has resumed at the brk that stopped it (R379). -/
def Fibre.passesBrk (f : Fibre) : Bool := f.rerun && f.lastBrk.map (·.2) == some f.pc

/-- A fibre as it issues: at run position 0 its run begins here, and its exemptions are used up, that of a brk once the run in which it stands has been
left or it has been passed over (R72, R75, R354, R379). -/
def Fibre.issuing (f : Fibre) : Fibre :=
  { f with runPc := if f.runPos = 0 then f.pc else f.runPc, skipBrk := none,
           lastBrk := if f.hand = .none ∧ (!f.rerun || f.passesBrk) then none else f.lastBrk, fresh := false, entry := none }

/-- Whether an instruction's predicate lets a fibre execute it (R26 step 2). -/
def guardLets (i : Instr) (f : Fibre) : Bool :=
  match guardOf i with
  | some g => guardOk g f.preds
  | none => true

/-- The checks of step 1 at a fibre; those of reserved tags only where it executes (R13, R26). -/
def stepOne (i : Instr) (f : Fibre) : Option Trap :=
  (precheck i f).or (if guardLets i f then firstSome (tagCheck f) (uses i).ops else none)

/-- A member of the issuing gang, with its checks made. -/
def exOf (s : State) (t : Team) (i : Instr) (lane : Nat) (f : Fibre) : Ex :=
  { lane := lane, env := envOf s t lane f.fidx, f := f.issuing, first := firstTrap s t f, pre := (firstTrap s t f).or (stepOne i f),
    skip := f.passesBrk }

/-- The members of the issuing gang in ascending fidx. -/
def gather (s : State) (t : Team) (g : Gang) (i : Instr) : List Ex :=
  (sortBy (·.2) g.members).filterMap fun m => (s.fibre (t.key m.2)).map (exOf s t i m.1)

/-- Whether the predicate lets a fibre execute (R26 step 2). -/
def runs (i : Instr) (e : Ex) : Bool := guardLets i e.f

/-- A predicated-off instruction: the fibre passes it (R26). -/
def skipAct (e : Ex) : Act := match e.pre with | some t => .trap t | none => .go { f := e.f }

/-- The fates of all members, those of the executing ones taken in turn from the bodies' answers. -/
def weave (i : Instr) : List Ex → List Act → List (Ex × Act)
  | [], _ => []
  | e :: es, as =>
    if runs i e then
      match as with
      | a :: as => (e, a) :: weave i es as
      | [] => (e, skipAct e) :: weave i es []
    else (e, skipAct e) :: weave i es as

/-- Results become available (R151, R155): window entries and predicates of the fibre; an answer from memory is awaited by the fibre's later releases
(R217). -/
def markAvail (i : Instr) (clk : Nat) (f : Fibre) (o : Out) : Fibre :=
  let c := clk + o.lat.getD (latency i)
  let av := f.avail.filter (clk < ·.2)
  let pv := f.pAvail.filter (clk < ·.2)
  { f with avail := o.w.regs.foldl (fun m r => put (o.f.fb + r.1) c m) av,
           pAvail := o.w.preds.foldl (fun m p => put p.1 c m) pv,
           doneAt := match o.lat with | some l => if l < 2 ^ 39 then max f.doneAt (clk + l) else f.doneAt | none => f.doneAt }

/-- The clocks to the latch of a run: a dependent instruction may issue in the next clock, whatever wrote the latch (R181); the result of a gather is
owed (R151, R155; log 81). -/
def latchLat (o : Out) : Nat := match o.lat with | some l => if l < 2 ^ 39 then 1 else l | none => 1

/-- A fibre after the instruction: its writes, its PC and its run position; the latch of its position with the clock at which it is available (R16, R72
to R74, R151). -/
def advance (i : Instr) (clk : Nat) (e : Ex) (o : Out) : Fibre :=
  let f := (markAvail i clk o.f o).write o.w
  match o.next with
  | some pc => { f with pc := pc }.newRun
  | none =>
    let pc := e.f.pc + BitVec.ofNat 64 (8 * words i)
    if runBit i then
      let u := uses i
      let gp := match guardOf i with | some g => [g.pred.val] | none => []
      { f with pc := pc, runPos := e.f.runPos + 1, latches := f.latches ++ [o.w.latch.getD Reg.zero], lAvail := f.lAvail ++ [clk + latchLat o],
               runVs := dedupe (f.runVs ++ u.readV), runSs := dedupe (f.runSs ++ u.readS), runPs := dedupe (f.runPs ++ gp ++ u.rp) }
    else { f with pc := pc }.newRun

/-- The clock of the issue that a gang carries out: that of the instruction whose access is being served, or this one (R4). -/
def Gang.issuedAt (g : Gang) (clk : Nat) : Nat := match g.pend with | some p => p.1 | none => clk

/-- The clock of the issue that is being carried out. -/
def State.issuedAt (s : State) : Nat :=
  match s.issue.bind s.gang with
  | some g => g.issuedAt s.clock
  | none => s.clock

/-- The s-register writes of the executing fibres, by register (R160). -/
def sregWrites (l : List (Ex × Act)) : List (Nat × List DWord) :=
  l.foldl (fun m e => match e.2 with
    | .go o => o.w.sregs.foldl (fun m w => put w.1 (getD [] w.1 m ++ [w.2]) m) m
    | _ => m) []

def writesSreg (n : Nat) : Act → Bool
  | .go o => o.w.sregs.any (·.1 == n)
  | _ => false

/-- The tile of a snapshot that a team has posted in a clock with its count for s-register n. -/
def MReq.snapTile (r : MReq) (tid clk n : Nat) : Option Nat :=
  match r.kind with
  | .snap tc _ _ _ (some m) => if r.team = tid ∧ r.posted = clk ∧ m = n then some tc else none
  | _ => none

/-- The snapshots of this clock whose count goes to s-register n leave their table, and their tiles are READY as before (R26, R160). -/
def dropSnaps (s : State) (core tid n : Nat) : State :=
  let q := s.quad (quadOfCore core)
  match q.parts.flatMap fun p => p.2.reqs.filterMap (·.snapTile tid s.clock n) with
  | [] => s
  | ts =>
    let c := s.core core
    let s := s.setQuad (quadOfCore core) { q with parts := q.parts.map fun p =>
      (p.1, { p.2 with reqs := p.2.reqs.filter fun r => (r.snapTile tid s.clock n).isNone }) }
    s.setCore core { c with tiles := ts.foldl (fun m ix => upd ix (fun t => { t with st := .ready }) m) c.tiles }

/-- One issue's writes of an s-register, by the fibres as they stood before it (R160): equal values of this clock take effect, end an uncorrectable error
of the register (R204) and are logged; values that differ make every writer of the clock raise NONUNIFORM, those of each earlier issue in an event of
their own (R344), an earlier acsnap posts nothing (R26), and the register keeps its value. The answer says whether the writers go on. -/
def sregPut (s : State) (tid lat : Nat) (mine : (Nat × Nat) × List Fibre) (n : Nat) (vs : List DWord) : State × Bool :=
  match s.team tid with
  | none => (s, true)
  | some t =>
    let log := if t.swClk = s.clock then t.swlog else []
    let v := vs.headD 0
    let prev := log.find? (·.sreg == n)
    let old := match prev with | some w => w.old | none => getD 0 n t.sregs
    let was := match prev with | some w => w.was | none => getD 0 n t.sAvail
    let early := match prev with | some w => w.before | none => []
    if vs.all (· == v) && (match prev with | some w => !w.clash && w.val == v | none => true) then
      let w : SWrite := { sreg := n, val := v, old := old, was := was, before := early ++ [mine] }
      (s.setTeam tid { t with sregs := setD 0 n v t.sregs, swClk := s.clock, swlog := log.filter (·.sreg != n) ++ [w],
                              badS := t.badS.filter (· != n),
                              sAvail := put n (s.clock + lat) (t.sAvail.filter (s.clock < ·.2)) }, true)
    else
      let w : SWrite := { sreg := n, val := v, old := old, was := was, before := [], clash := true }
      let s := s.setTeam tid { t with sregs := setD 0 n old t.sregs, swClk := s.clock, swlog := log.filter (·.sreg != n) ++ [w],
                                      sAvail := put n was t.sAvail }
      let s := dropSnaps s t.core tid n
      (early.foldl (fun s e => trapLater s tid e.1 (e.2.map fun f => (f, trapRec f (.nonuniformAt n) f.pc (restartPc f) false none))) s, false)

/-- The clocks to a fibre's result in an s-register (R155). -/
def actLat (i : Instr) : Act → Nat
  | .go o => o.lat.getD (latency i)
  | _ => 0

/-- R160 for one s-register that the issue writes. -/
def uniformOne (i : Instr) (s : State) (tid : Nat) (iss : Nat × Nat) (l : List (Ex × Act)) (n : Nat) (vs : List DWord) : State × List (Ex × Act) :=
  let mine := l.filter fun e => writesSreg n e.2
  let (s, ok) := sregPut s tid ((mine.map fun e => actLat i e.2).foldl max 0) (iss, mine.map (·.1.f)) n vs
  (s, if ok then l else l.map fun e => if writesSreg n e.2 then (e.1, .trap (.nonuniformAt n)) else e)

def uniform (i : Instr) (s : State) (tid : Nat) (iss : Nat × Nat) (l : List (Ex × Act)) : State × List (Ex × Act) :=
  (sregWrites l).foldl (fun sl w => uniformOne i sl.1 tid iss sl.2 w.1 w.2) (s, l)

/-- The exit ranks of the fibres that go on, with their next PCs (R150). -/
def exitRank (m : RankMode) (outs : List (Out × DWord)) (o : Out) (pc : DWord) : Nat :=
  match m with
  | .none => 0
  | .taken => bit o.next.isSome
  | .leaf => ((outs.filter fun e => e.2 == pc).map (·.1.rank)).foldl min 7
  | .addr =>
    let ts := dedupe ((outs.filter fun e => e.1.next.isSome).map fun e => e.2.toNat)
    let pos := (ts.filter (· < pc.toNat)).length
    if o.next.isNone then 0 else if outs.any (fun e => e.1.next.isNone) then 1 + pos else pos

/-- Whether a fibre ends or begins a wait (R140). -/
def parts (l : List (Ex × Act)) : Bool := l.any fun e => match e.2 with | .over => true | .leave _ => true | _ => false

/-- What an issue does to its gang: it stays together at one next PC while none of its fibres waits, stops or ends; else those that go on become loose
(R140, R150), but for those within a run, which nothing regroups (R75; log 87). An issue after the clock of the team's halt is one of its skid (R342);
`trapped` says that fibres of it raise a trap that halts (R343). -/
def regang (s : State) (gid : Nat) (kept : List (Nat × Fibre × Nat)) (hold apart yielded trapped : Bool) : State :=
  match s.gang gid with
  | none => s
  | some g =>
    let pcs := dedupe (kept.map fun e => e.2.1.pc)
    let one := (decide (pcs.length ≤ 1) && !apart) || hold
    let stays (e : Nat × Fibre × Nat) : Bool := one || decide (1 ≤ e.2.1.runPos)
    let s := (kept.filter fun e => !stays e).foldl (fun s e => s.setFibre e.2.1.key { e.2.1 with st := .loose (g.issuedAt s.clock) e.2.2 }) s
    let members := g.members.filter fun m => kept.any fun e => stays e && e.2.1.fidx == m.2
    let rem := if trapped then true else g.remainder
    let halted := match (s.team g.team).bind (·.halt) with | some h => decide (h.clk < g.issuedAt s.clock) | none => false
    let g' := { g with members := members, waited := 0, remainder := rem, skid := if halted then g.skid + 1 else g.skid,
                       pend := none, served := if g.pend.isSome then some s.clock else g.served }
    if members = [] then { s with gangs := s.gangs.filter (·.gid != gid) }
    else if yielded then { s with gangs := s.gangs.filter (·.gid != gid) ++ [g'] }
    else s.setGang g'

/-- The slot notes that the gang it issued last has passed a yield point (R152, R153). -/
def noteYield (s : State) (core slot gid : Nat) : State :=
  let c := s.core core
  s.setCore core { c with last := upd slot (fun l => if l.gid = gid then { l with yielded := true } else l) c.last }

/-- Whether an issue passes a yield point (R153, R164, R166, R235). -/
def yields (i : Instr) (l : List (Ex × Act)) : Bool :=
  (l.any fun e => e.2 == .over) ||
  (match i with
  | .yield _ => l.any fun e => runs i e.1 && e.1.pre.isNone
  | .retry _ => l.any fun e => runs i e.1 && e.1.f.txn.isSome
  | _ => false)

/-- An entry of a context's feature table that assigns a major and function: its feature bit and shim (R431). -/
def featureOf (s : State) (ctx mj fn : Nat) : Option (Nat × DWord) :=
  let c := s.ctx ctx
  firstSome (fun i =>
    let w := s.dword (c.featBase + 16 * i)
    if fld w 0 7 = mj ∧ fld w 8 6 ≤ fn ∧ fn ≤ fld w 16 6 then some (fld w 32 9, BitVec.ofNat 64 (s.dword (c.featBase + 16 * i + 8)))
    else none) (List.range (min c.featCount 64))

/-- The shim that a FEATURE trap of this instruction enters (R352, R431). -/
def shimOf (s : State) (ctx : Nat) (i : Instr) (t : Trap) : Option DWord :=
  match i with
  | .unassignedMajor w =>
    if t.code = .feature then (featureOf s ctx (fld w.toNat 57 7) (fld w.toNat 51 6)).map (·.2) else none
  | _ => none

/-- The settlement of an issue: commits, ends, waits, traps and breakpoint matches, and what becomes of the gang. -/
def settle (i : Instr) (mode : RankMode) (s : State) (t : Team) (g : Gang) (l : List (Ex × Act)) : State :=
  let iss := (g.slot, g.issuedAt s.clock)
  let (s, l) := uniform i s t.id iss l
  let outs := l.filterMap fun e => match e.2 with | .go o => some (e.1, o, advance i s.clock e.1 o) | _ => none
  let ranked := outs.map fun e => (e.2.1, e.2.2.pc)
  let hit (f : Fibre) : Bool := match s.team t.id with | some t => brkAt s t f f.pc | none => false
  let kept := (outs.filter fun e => !hit e.2.2).map fun e => (e.1.lane, e.2.2, exitRank mode ranked e.2.1 e.2.2.pc)
  let s := kept.foldl (fun s e => s.setFibre e.2.1.key e.2.1) s
  let stays := l.filterMap fun e => match e.2 with | .stay f => some (e.1.lane, f, 0) | _ => none
  let s := stays.foldl (fun s e => s.setFibre e.2.1.key e.2.1) s
  let s := l.foldl (fun s e => match e.2 with | .leave f => s.setFibre f.key f | _ => s) s
  let brks := (outs.filter fun e => hit e.2.2).map fun e =>
    (e.2.2, trapRec e.2.2 (.brkpt e.2.2.pc true) e.1.f.pc e.2.2.pc false none)
  let traps := l.filterMap fun e => match e.2 with
    | .trap x => some (e.1.f, trapRec e.1.f x e.1.f.pc (restartPc e.1.f) (isTree i && e.1.first.isNone)
        (shimOf s (s.teamLaunch t).ctx i x))
    | _ => none
  let y := yields i l
  let stops := (traps ++ brks).any fun e => stopsOnly s t e.2
  let s := regang s g.gid (kept ++ stays) (stays != []) (parts l || stops) y ((traps ++ brks).any fun e => !stopsOnly s t e.2)
  let s := if y then noteYield s g.core g.slot g.gid else s
  let s := trapEvent s t.id (some iss) (traps ++ brks)
  (l.foldl (fun s e => match e.2 with | .over => endFibre s e.1.f | _ => s) s).unissue

/-- The bodies of an instruction at its executing fibres; none where a home cannot serve one of their accesses yet. -/
abbrev Body := List Ex → State → Option (State × List Act)

/-! ## Releases (R214, R217) -/

/-- Whether some of the writes or gathers with these identifiers are not answered yet. -/
def State.owes (s : State) (core : Nat) (ids : List Nat) : Bool :=
  ids.any fun n => (s.core core).acks.any (·.id == n) || s.gathers.any (·.id == n)

/-- The entries of a core that were allocated by a clock drain, in order; none while one of them lies on a line that is held back. -/
def drainSince (s : State) (core clk : Nat) : Option State :=
  let es := (s.core core).wcb.filter fun e => decide (e.alloc ≤ clk)
  if es.any fun e => s.blocked e.line then none else some (es.foldl (fun s e => drainLine s core e.line) s)

/-- Whether a gather is an earlier load of a fibre: its own, or one that its parent made before the fork (R163). -/
def Gather.isOf (g : Gather) (key : Nat) : Bool := g.fibre == key || g.heirs.contains key

/-- The answers that a release of a fibre awaits: the acknowledgements of its earlier writes, of those it awaits already and of what has drained since a
number was the next, and its gathers. -/
def awaited (s : State) (core : Nat) (f : Fibre) (since : Nat) : List Nat :=
  ((s.core core).acks.filter fun a => a.who.contains f.key || f.await.contains a.id || decide (since ≤ a.id)).map (·.id) ++
    (s.gathers.filter fun g => g.isOf f.key).map (·.id)

/-- Whether an earlier load of a fibre has not returned yet (R217). -/
def loadsOut (s : State) (f : Fibre) : Bool := decide (s.clock < f.doneAt) || s.gathers.any fun g => g.isOf f.key

/-- The scope of the release that an instruction performs before its own access (R165, R214, R217, R244, R246). -/
def releaseOf : Instr → Option Scope
  | .atom _ _ o sc _ _ _ _ _ | .acas _ o sc _ _ _ _ _ | .eacc _ _ o sc _ _ _ => if o = .rel ∨ o = .ar then some sc else none
  | .bar _ sc _ _ => some sc
  | .spawn _ _ _ | .tcommit _ => some .pkg
  | _ => none

/-- An attempt whose instruction issues 2^23 clocks after its tbegin, or later (R231). -/
def overrun (s : State) (x : Txn) : Bool := decide (x.opened + 2 ^ 23 ≤ s.issuedAt)

/-- Whether a trap is that of poison which an access finds at its home, after the release, and none of the checks that come before (R253, R264). -/
def atHomeTrap (e : Ex) (t : Trap) : Bool :=
  t.code == .poison && (t.faddr != 0 || !(e.f.badRegs.contains (e.f.fb + t.aux) || e.env.badS.contains (t.aux - 0x100)))

/-- Whether a fibre performs the release, by what it is about to do: an instruction whose checks fail performs none (R253, R264), nor does a commit that
comes too late (R231). -/
def releases (s : State) (i : Instr) (e : Ex) (a : Act) : Bool :=
  (match a with | .trap t => e.pre.isNone && atHomeTrap e t | _ => true) &&
  (match i with | .tcommit _ => e.f.txn.any fun x => !overrun s x | _ => true)

/-- The fibres that perform the release: what they are about to do is what the bodies give, where nothing holds them back. -/
def releasing (i : Instr) (body : Body) (s : State) (es : List Ex) : List Ex :=
  if (releaseOf i).isNone then []
  else
    match body es s with
    | some (_, acts) => ((es.zip acts).filter fun e => releases s i e.1 e.2).map (·.1)
    | none => []

/-- The wait of a release (R217), for the fibres that perform it: at .core their earlier loads have returned; at a wider scope the core's
entries drain too, and every home of an earlier write acknowledges it. None where there is nothing to wait for. -/
def releaseWait (i : Instr) (s : State) (g : Gang) (es : List Ex) : Option State :=
  match releaseOf i with
  | none | some .lane => none
  | some sc =>
    let late := es.any fun e => loadsOut s e.f
    if es = [] then none
    else if sc = .core then (if late then some s else none)
    else
      match drainSince s g.core (g.issuedAt s.clock) with
      | none => some s
      | some s' =>
        let ids (e : Ex) : List Nat := awaited s' g.core e.f s.nextId
        if late || es.any fun e => ids e != [] then
          some (es.foldl (fun s e => match s.fibre e.f.key with
            | some f => s.setFibre f.key { f with await := ids e }
            | none => s) s')
        else none

/-- An issue whose access is not served yet: its gang stands where it is until it is, and its slot goes on with other gangs (R4). -/
def holdIssue (s : State) (g : Gang) : State := (s.setGang { g with waited := 0, pend := some (g.issuedAt s.clock, s.clock) }).unissue

/-- One issue of the gang that its slot selected; nothing where no gang is selected. -/
def issueWith (i : Instr) (mode : RankMode) (body : Body) (s : State) : Host.Outcome State Fault Refusal :=
  match s.issue with
  | none => .next s
  | some gid =>
    match s.gang gid with
    | none => .next s.unissue
    | some g =>
      match s.team g.team with
      | none => .next s.unissue
      | some t =>
        let all := gather s t g i
        match releaseWait i s g (releasing i body s (all.filter (runs i))) with
        | some s' => .next (holdIssue s' g)
        | none =>
          match body (all.filter (runs i)) s with
          | none => .next (holdIssue s g)
          | some (s', acts) => .next (settle i mode s' t g (weave i all acts))

/-- A body that acts fibre by fibre, in ascending global fibre index (R251). -/
def each (b : Ex → State → Option (State × Act)) : Body
  | [], s => some (s, [])
  | e :: es, s =>
    match (match e.pre with | some t => some (s, Act.trap t) | none => b e s) with
    | none => none
    | some (s, a) =>
      match each b es s with
      | none => none
      | some (s, as) => some (s, a :: as)

/-- The fate of a fibre whose instruction only reads and writes registers. -/
def actOf (f : Fibre) (r : Except Trap Wr) : Act :=
  match r with
  | .error t => .trap t
  | .ok w => .go { f := f, w := w }

/-- A register-only instruction: what it writes is a function of what the fibre's operands read. -/
abbrev Alu := Env → Fibre → Except Trap Wr

/-- One issue of a register-only instruction. -/
def issueAlu (i : Instr) (ev : Alu) (s : State) : Host.Outcome State Fault Refusal :=
  issueWith i .none (each fun e s => some (s, actOf e.f (ev e.env e.f))) s

/-- An issue in which every fibre traps: a fetch that fails, an encoding that decodes to nothing (R15, R56). -/
def issueTrap (t : Trap) (s : State) : Host.Outcome State Fault Refusal :=
  issueWith (.nop ⟨0, false⟩) .none (fun es s => some (s, es.map fun e => .trap (e.first.getD t))) s

/-! ## Crew-wide issue (R161, R314) -/

/-- The executing fibres with a fate each, where the crew is wholly there and no member traps; else CREW_PARTIAL at every fibre that does
not trap by itself. `reads` makes each member's own checks. -/
def crewBody (q : Nat) (reads : Ex → Except Trap Unit) (b : Crew → Body) : Body := fun es s =>
  let own (e : Ex) : Option Trap := match e.pre with
    | some t => some t
    | none => match reads e with | .error t => some t | .ok _ => none
  let partialAt := es.map fun e => Act.trap ((own e).getD { code := .crewPartial, aux := q })
  match es with
  | [] => some (s, [])
  | e :: _ =>
    match (s.team e.f.team).bind (·.crew q) with
    | none => some (s, partialAt)
    | some c =>
      if es.map (·.f.fidx) = liveOf c ∧ es.all (fun e => (own e).isNone) then b c es s else some (s, partialAt)

end Sys2Proof.Machine
end

