-- ==== Sys2Proof/Machine/Bits.lean ====
section
/-! DEFINITION. Bitwise, shift and bit-field instructions, major 0x01 (R90 to R92). -/

namespace Sys2Proof.Machine

/-- Bitwise instructions: any tags; the result takes the tag of source a and the bits that the operation gives, also where that tag is T6X5: R44's zero in
bits [31:30] binds results that a rule computes as T6X5 values (R90; DESIGN CHOICE, log 85). -/
def evb1 (op : Word → Word) (d : Dst) (a : Src) : Alu := fun e f => do
  let x ← readSrc e f a
  pure (Wr.one d (op x.val) x.tag)
def evb2 (op : Word → Word → Word) (d : Dst) (a b : Src) : Alu := fun e f => do
  let x ← readSrc e f a
  let y ← readSrc e f b
  pure (Wr.one d (op x.val y.val) x.tag)
/-- Bit counts are tagged N32. -/
def evCount (op : Word → Nat) (d : Dst) (a : Src) : Alu := fun e f => do
  let x ← readSrc e f a
  pure (Wr.one d (BitVec.ofNat 32 (op x.val)) .n32)

def onesIn (x : Word) : Nat := ((List.range 32).filter fun i => x.getLsbD i).length
def leadZeros (x : Word) : Nat := ((List.range 32).takeWhile fun i => !x.getLsbD (31 - i)).length
def trailZeros (x : Word) : Nat := ((List.range 32).takeWhile fun i => !x.getLsbD i).length
def reversed (x : Word) : Word := BitVec.ofNat 32 (((List.range 32).map fun i => bit (x.getLsbD i) * 2 ^ (31 - i)).sum)

/-- Position and width of a control word (R92). -/
def fieldPos (ctl : Word) : Nat := ctl.toNat % 32
def fieldWidth (ctl : Word) : Nat := min (ctl.toNat / 256 % 64) (32 - fieldPos ctl)
def bfxVal (t : Sgn) (x ctl : Word) : Word :=
  let w := fieldWidth ctl
  let v := x.toNat / 2 ^ fieldPos ctl % 2 ^ w
  match t with
  | .n => BitVec.ofNat 32 v
  | .s => BitVec.ofInt 32 (if w = 0 then 0 else intOf true w v)
def bfiVal (x y ctl : Word) : Word :=
  let m : Word := BitVec.ofNat 32 ((2 ^ fieldWidth ctl - 1) * 2 ^ fieldPos ctl)
  (x &&& ~~~m) ||| ((y <<< fieldPos ctl) &&& m)

def evAnd (d : Dst) (a b : Src) : Alu := evb2 (· &&& ·) d a b
def evOr (d : Dst) (a b : Src) : Alu := evb2 (· ||| ·) d a b
def evXor (d : Dst) (a b : Src) : Alu := evb2 (· ^^^ ·) d a b
def evAndn (d : Dst) (a b : Src) : Alu := evb2 (fun x y => x &&& ~~~y) d a b
def evNot (d : Dst) (a : Src) : Alu := evb1 (fun x => ~~~x) d a
/-- Shifts by the whole 32-bit count (R91). -/
def evShl (d : Dst) (a b : Src) : Alu := evb2 (fun x y => if y.toNat < 32 then x <<< y.toNat else 0) d a b
def evShr (d : Dst) (a b : Src) : Alu := evb2 (fun x y => if y.toNat < 32 then x >>> y.toNat else 0) d a b
def evSha (d : Dst) (a b : Src) : Alu := evb2 (fun x y => x.sshiftRight (min y.toNat 32)) d a b
def evRot (d : Dst) (a b : Src) : Alu := evb2 (fun x y => x.rotateLeft (y.toNat % 32)) d a b
def evPopc (d : Dst) (a : Src) : Alu := evCount onesIn d a
def evClz (d : Dst) (a : Src) : Alu := evCount leadZeros d a
def evCtz (d : Dst) (a : Src) : Alu := evCount trailZeros d a
def evBrev (d : Dst) (a : Src) : Alu := evb1 reversed d a
def evBfx (t : Sgn) (d : Dst) (a b : Src) : Alu := fun e f => do
  let x ← readSrc e f a
  let y ← readSrc e f b
  pure (Wr.one d (bfxVal t x.val y.val) (match t with | .s => .i32 | .n => .n32))
def evBfi (d : Dst) (a b x : Src) : Alu := fun e f => do
  let p ← readSrc e f a
  let q ← readSrc e f b
  let r ← readSrc e f x
  pure (Wr.one d (bfiVal p.val q.val r.val) p.tag)

/-- and (R90). -/
def execAnd (c : Ctl) (d : Dst) (a b : Src) (s : State) : Host.Outcome State Fault Refusal :=
  issueAlu (.and c d a b) (evAnd d a b) s

/-- or (R90). -/
def execOr (c : Ctl) (d : Dst) (a b : Src) (s : State) : Host.Outcome State Fault Refusal :=
  issueAlu (.or c d a b) (evOr d a b) s

/-- xor (R90). -/
def execXor (c : Ctl) (d : Dst) (a b : Src) (s : State) : Host.Outcome State Fault Refusal :=
  issueAlu (.xor c d a b) (evXor d a b) s

/-- andn (R90). -/
def execAndn (c : Ctl) (d : Dst) (a b : Src) (s : State) : Host.Outcome State Fault Refusal :=
  issueAlu (.andn c d a b) (evAndn d a b) s

/-- not (R90). -/
def execNot (c : Ctl) (d : Dst) (a : Src) (s : State) : Host.Outcome State Fault Refusal :=
  issueAlu (.not c d a) (evNot d a) s

/-- shl (R91). -/
def execShl (c : Ctl) (d : Dst) (a b : Src) (s : State) : Host.Outcome State Fault Refusal :=
  issueAlu (.shl c d a b) (evShl d a b) s

/-- shr (R91). -/
def execShr (c : Ctl) (d : Dst) (a b : Src) (s : State) : Host.Outcome State Fault Refusal :=
  issueAlu (.shr c d a b) (evShr d a b) s

/-- sha (R91). -/
def execSha (c : Ctl) (d : Dst) (a b : Src) (s : State) : Host.Outcome State Fault Refusal :=
  issueAlu (.sha c d a b) (evSha d a b) s

/-- rot (R91). -/
def execRot (c : Ctl) (d : Dst) (a b : Src) (s : State) : Host.Outcome State Fault Refusal :=
  issueAlu (.rot c d a b) (evRot d a b) s

/-- popc (R90). -/
def execPopc (c : Ctl) (d : Dst) (a : Src) (s : State) : Host.Outcome State Fault Refusal :=
  issueAlu (.popc c d a) (evPopc d a) s

/-- clz (R90). -/
def execClz (c : Ctl) (d : Dst) (a : Src) (s : State) : Host.Outcome State Fault Refusal :=
  issueAlu (.clz c d a) (evClz d a) s

/-- ctz (R90). -/
def execCtz (c : Ctl) (d : Dst) (a : Src) (s : State) : Host.Outcome State Fault Refusal :=
  issueAlu (.ctz c d a) (evCtz d a) s

/-- brev (R90). -/
def execBrev (c : Ctl) (d : Dst) (a : Src) (s : State) : Host.Outcome State Fault Refusal :=
  issueAlu (.brev c d a) (evBrev d a) s

/-- bfx (R92). -/
def execBfx (c : Ctl) (t : Sgn) (d : Dst) (a b : Src) (s : State) : Host.Outcome State Fault Refusal :=
  issueAlu (.bfx c t d a b) (evBfx t d a b) s

/-- bfi (R92). -/
def execBfi (c : Ctl) (d : Dst) (a b x : Src) (s : State) : Host.Outcome State Fault Refusal :=
  issueAlu (.bfi c d a b x) (evBfi d a b x) s


end Sys2Proof.Machine
end

