-- ==== Sys2Proof/Machine/MemOps.lean ====
section
/-! DEFINITION. A fibre's accesses to memory: effective addresses, the three spaces, plain and transactional loads and stores, accesses
at a line's home (R69, R129 to R132, R189, R190, R210, R227 to R232, R248 to R256). -/

namespace Sys2Proof.Machine

/-- Where a fibre stands: its team and launch, core, die, context and global index. -/
structure Site where
  team : Team
  lau  : Launch
  core : Nat
  die  : Nat
  ctx  : Nat
  gfid : Nat
  deriving DecidableEq, Repr

def siteOf (s : State) (f : Fibre) : Option Site :=
  (s.team f.team).map fun t =>
    let l := s.teamLaunch t
    { team := t, lau := l, core := t.core, die := dieOfCore t.core, ctx := l.ctx, gfid := gfidOf l t f.fidx }

/-- The effective address of a Format M access (R69). -/
def effAddr (e : Env) (f : Fibre) (scale : Nat) (ad : Addr) : Except Trap DWord := do
  let o ← match ad.off with
    | none => pure 0
    | some n => readExt e f (.v n)
  pure ((← readS e ad.base.val) + o * BitVec.ofNat 64 scale + ad.imm.signExtend 64)

/-- The effective address of a split access (R249). -/
def splitEff (f : Fibre) (p : Fin 128) (imm : BitVec 12) : Except Trap DWord := do
  let x ← readPair f p.val
  pure (x + imm.signExtend 64)

/-- A place: a global virtual address, or an offset in the team's scratchpad. -/
inductive Place where
  | glob (va : DWord)
  | scr (o : Nat)
  deriving DecidableEq, Repr

/-- The address of a fibre-local offset (R190). -/
def localVa (k : Site) (o : DWord) : DWord := k.lau.locB + BitVec.ofNat 64 (k.gfid * k.lau.locF) + o

/-- The checks of a space before translation: ALIGN, and PROTECTION of the carve-out or of F (R189, R190, R248). -/
def place (k : Site) (sp : Space) (ea : DWord) (n align kind : Nat) : Except Trap Place :=
  match sp with
  | .g => if ea.toNat % align ≠ 0 then .error (.at .align ea kind) else .ok (.glob ea)
  | .x =>
    if ea.toNat % align ≠ 0 then .error (.at .align ea kind)
    else if k.team.scrSize < ea.toNat + n then .error (.at .protection ea kind)
    else .ok (.scr ea.toNat)
  | .f =>
    if ea.toNat % align ≠ 0 || (localVa k ea).toNat % align ≠ 0 then .error (.at .align (localVa k ea) kind)
    else if k.lau.locF < ea.toNat + n then .error (.at .protection (localVa k ea) kind)
    else .ok (.glob (localVa k ea))

/-- The answer of an access: the machine and the fibre after it with a value; a trap; the fibre after a non-retry abort; or a resource that
holds the issue back. -/
inductive MemR (α : Type) where
  | ok (s : State) (f : Fibre) (a : α)
  | trap (t : Trap)
  | abort (s : State) (f : Fibre)
  | held

/-- The fate of a fibre after an access. -/
def memAct {α : Type} (s : State) (r : MemR α) (k : State → Fibre → α → State × Act) : Option (State × Act) :=
  match r with
  | .ok s f a => some (k s f a)
  | .trap t => some (s, .trap t)
  | .abort s g => some (s, .go { f := g, next := some g.pc })
  | .held => none

/-! ## Transactional reads and writes (R228 to R231) -/

/-- Every recorded version still stands at its home (R229). -/
def validates (s : State) (x : Txn) : Bool := x.rset.all fun r => (s.line r.line).ver == r.ver
/-- Whether an attempt's access comes too late (R231). -/
def lateTxn (s : State) (f : Fibre) : Bool := match f.txn with | some x => overrun s x | none => false

/-- The machine with a fibre's attempt as an access leaves it, so that the later accesses of the issue count its lines (R231, R251). -/
def putTxn (s : State) (f : Fibre) : State :=
  match s.fibre f.key with
  | some g => s.setFibre f.key { g with txn := f.txn }
  | none => s

/-- A non-retry abort by an access (R238). -/
def abortAt {α : Type} (s : State) (f : Fibre) (code : Nat) : MemR α := .abort (putTxn s (abortTxn f code 0)) (abortTxn f code 0)

/-- Lines that the open attempts of a core hold, and half of its L1's lines (R231). -/
def txnLines (s : State) (core : Nat) : Nat :=
  (s.fibres.map fun e => match e.2.txn with
    | some x => if (match s.team e.2.team with | some t => t.core == core | none => false) then x.rset.length + x.wset.length else 0
    | none => 0).sum
def txnRoom (s : State) (core : Nat) : Nat := 16 * (256 - (s.core core).ubL1)

/-- The home is visited for every line of a read set, with its answer (R229, R402). -/
def visitSet (s : State) (core : Nat) (x : Txn) : State := x.rset.foldl (fun s r => coreAsk s core r.line) s

/-- A line's bytes as an attempt reads them: buffered bytes over the image kept (R229). -/
def txnImage (x : Txn) (line : Nat) (img : BitVec 1024) : BitVec 1024 :=
  match x.wset.find? (·.line == line) with
  | some w => imgMerge img w.mask w.data
  | none => img
def txnBad (x : Txn) (line : Nat) (pz : BitVec 4) : BitVec 4 :=
  match x.wset.find? (·.line == line) with
  | some w => pz &&& ~~~(coveredGranules w.mask)
  | none => pz

def poisonAt (va : DWord) (pa g : Nat) : Trap :=
  { code := .poison, faddr := BitVec.ofNat 64 (va.toNat - pa % 128 + 32 * g) }

/-- A transactional read of a line: its image and version, with the read set it leaves (R229, R231). `poisons` says whether the bytes are
consumed. A first read waits while the line or one of the read set is held back: a commit that reserves it may be writing its lines (R232, R246). What the
core holds of the line, which may be older, goes (R211). -/
def txnRead (s : State) (k : Site) (f : Fibre) (x : Txn) (va : DWord) (pa n : Nat) (leaf : DWord) (poisons : Bool) :
    MemR (BitVec 1024 × Nat) :=
  let line := lineOf pa
  let lat := latHome s line
  let check (s : State) (f : Fibre) (img : BitVec 1024) (pz : BitVec 4) (ver : Nat) : MemR (BitVec 1024 × Nat) :=
    match (if poisons then badGranule (txnBad x line pz) (pa % 128) n else none) with
    | some g => .trap (poisonAt va pa g)
    | none => .ok s f (txnImage x line img, if poisons then lat else ver)
  match x.rset.find? (·.line == line) with
  | some r => check s f r.img r.poison r.ver
  | none =>
    if s.reserved line || x.rset.any fun r => s.reserved r.line then .held
    else
      let s := freshen (coreAsk (drainLine s k.core line) k.core line) k.core line
      if leafSealed leaf then check s f (s.image line) (s.line line).poison (s.line line).ver
      else
        let s := visitSet s k.core x
        if !validates s x then abortAt s f 1
        else if 32 ≤ x.rset.length then abortAt s f 2
        else if txnRoom s k.core < txnLines s k.core + 1 then abortAt s f 4
        else
          let r : RLine := { line := line, ver := (s.line line).ver, img := s.image line, poison := (s.line line).poison }
          let f := { f with txn := some { x with rset := x.rset ++ [r] } }
          check (putTxn s f) f r.img r.poison r.ver

/-- A transactional store: its bytes join the write set (R230, R231). -/
def txnWrite (s : State) (k : Site) (f : Fibre) (x : Txn) (pa : Nat) (bs : List Byte) : MemR Unit :=
  let line := lineOf pa
  let m := maskOf (pa % 128) bs.length
  match x.wset.find? (·.line == line) with
  | some _ =>
    .ok s { f with txn := some { x with wset := x.wset.map fun w =>
      if w.line == line then { w with mask := w.mask ||| m, data := imgPut w.data (pa % 128) bs } else w } } ()
  | none =>
    if 16 ≤ x.wset.length then abortAt s f 2
    else if txnRoom s k.core < txnLines s k.core + 1 then abortAt s f 4
    else
      let f := { f with txn := some { x with wset := x.wset ++ [{ line := line, mask := m, data := imgPut 0 (pa % 128) bs }] } }
      .ok (putTxn s f) f ()

/-! ## Loads and stores of a fibre (R129 to R132, R248) -/

/-- A load of n bytes, with the clocks to its result. -/
def loadAt (s : State) (k : Site) (f : Fibre) (p : Place) (n : Nat) (h : Hint) : MemR (List Byte × Nat) :=
  match p with
  | .scr o =>
    let c := s.core k.core
    match c.badAt (k.team.scrBase + o) n with
    | some g => .trap { code := .poison, faddr := BitVec.ofNat 64 (32 * g - k.team.scrBase) }
    | none => .ok s f (c.bytes (k.team.scrBase + o) n, 10)
  | .glob va =>
    if s.walkWaits k.core k.ctx va then .held
    else
    match f.txn with
    | some x =>
      if overrun s x then abortAt s f 3
      else
        match checkVa s k.core k.ctx va { kind := 2, r := true } with
        | .error t => .trap t
        | .ok (pa, leaf) =>
          let s := noteMiss s k.core k.ctx va
          match txnRead s k f x va pa n leaf true with
          | .ok s f (img, lat) => .ok s f (imgBytes img (pa % 128) n, lat)
          | .trap t => .trap t
          | .abort s f => .abort s f
          | .held => .held
    | none =>
      match checkVa s k.core k.ctx va { kind := 2, r := true } with
      | .error t => .trap t
      | .ok (pa, leaf) =>
        let s := noteMiss s k.core k.ctx va
        let (bs, bad, lat) := loadLine s k.core pa n
        match loadWaits s k.core (lineOf pa), bad with
        | true, _ => .held
        | _, some g => .trap (poisonAt va pa g)
        | _, none =>
          let note := (if h = .stream then 0 else 1) + (if leafSealed leaf || leafContrib leaf then 2 else 0)
          .ok (noteFill s k.core (lineOf pa) note) f (bs, lat)

/-- A store of bytes. -/
def storeAt (s : State) (k : Site) (f : Fibre) (p : Place) (bs : List Byte) : MemR Unit :=
  match p with
  | .scr o => .ok (s.setCore k.core ((s.core k.core).putBytes (k.team.scrBase + o) bs)) f ()
  | .glob va =>
    if s.walkWaits k.core k.ctx va then .held
    else
    match f.txn with
    | some x =>
      if overrun s x then abortAt s f 3
      else
        match checkVa s k.core k.ctx va { kind := 3, w := true, seals := true } with
        | .error t => .trap t
        | .ok (pa, _) => txnWrite (noteMiss s k.core k.ctx va) k f x pa bs
    | none =>
      match checkVa s k.core k.ctx va { kind := 3, w := true, seals := true } with
      | .error t => .trap t
      | .ok (pa, _) =>
        if storeHeld s k.core (lineOf pa) then .held
        else .ok (storeLine (noteMiss s k.core k.ctx va) k.core f.key pa bs) f ()

/-! ## Accesses at a line's home (R199, R212, R253 to R259) -/

/-- An access of a core at a line's home: the claims it sent before arrive, its own entry and every claimed entry drain, the home is reached; `act` reads
and writes in one instant; the answer comes back, and what the core and its die hold of the line goes, since the home alone holds the new value (R199,
R211, R212). -/
def atHome {α : Type} (s : State) (k : Site) (line : Nat) (act : State → State × α) : Option (State × α) :=
  if s.reserved line then none
  else
    let s := reachHome (recallLine (drainLine (sendAhead s k.core line) k.core line) line) k.die line
    let (s, a) := act s
    some (freshen (reachBack s k.die line) k.core line, a)

/-- A read and write of n bytes in one instant at the home, or at the core for scratch (R253): the old value, and the new one where the
operation gives one that differs. -/
def rmwAt (s : State) (k : Site) (f : Fibre) (p : Place) (n : Nat) (need : Need) (op : Nat → Nat) : MemR (Nat × Nat) :=
  match p with
  | .scr o =>
    let c := s.core k.core
    match c.badAt (k.team.scrBase + o) n with
    | some g => .trap { code := .poison, faddr := BitVec.ofNat 64 (32 * g - k.team.scrBase) }
    | none =>
      let old := leWord (c.bytes (k.team.scrBase + o) n)
      let s := if op old = old then s else s.setCore k.core (c.putBytes (k.team.scrBase + o) (leBytes (op old) n))
      .ok s f (old, 10)
  | .glob va =>
    match checkVa s k.core k.ctx va need with
    | .error t => .trap t
    | .ok (pa, _) =>
      if s.walkWaits k.core k.ctx va then .held
      else
      let lat := latHome s (lineOf pa)
      let r := atHome (noteMiss s k.core k.ctx va) k (lineOf pa) fun s =>
        match badGranule (s.line (lineOf pa)).poison (pa % 128) n with
        | some g => (s, Except.error (poisonAt va pa g))
        | none =>
          let old := leWord (s.bytes pa n)
          ((if op old = old then s else homePut s pa (leBytes (op old) n)), Except.ok old)
      match r with
      | none => .held
      | some (_, .error t) => .trap t
      | some (s, .ok old) => .ok s f (old, lat)

def acquires (o : Ord) : Bool := o == .acq || o == .ar
def wideScope : Scope → Bool
  | .lane | .core => false
  | _ => true

/-- Whether an acquire cannot drain the core's entries yet: one lies on a line that is held back. -/
def acqHeld (s : State) (k : Site) (o : Ord) (sc : Scope) : Bool := acquires o && wideScope sc && drainHeld s k.core

/-- The acquire part of an ordering, whose read returns at a clock: the fibre's later accesses wait for it and for the acknowledgements of what drains
(R214, R217). -/
def afterOrd (s : State) (k : Site) (f : Fibre) (o : Ord) (sc : Scope) (back : Nat) : State × Fibre :=
  if !acquires o || sc == .lane then (s, f)
  else
    let s' := acquireAt s k.core sc
    (s', { f with accAt := max f.accAt back, await := if wideScope sc then awaited s' k.core f s.nextId else f.await })

/-- The old values of registers as a result with the tags they had. -/
def keepTags (f : Fibre) (d : Nat) (vals : List Word) : Wr :=
  let rs := vals.zipIdx.map fun v => (d + v.2, (⟨v.1, (f.reg (d + v.2)).tag⟩ : Reg))
  { regs := rs, latch := (rs.head?).map (·.2) }
def wordsOfNat (x n : Nat) : List Word := (List.range (n / 4)).map fun i => BitVec.ofNat 32 (x / 2 ^ (32 * i))
/-- The value of n bytes of registers from d on. -/
def regsVal (f : Fibre) (d n : Nat) : Except Trap Nat :=
  (List.range (n / 4)).foldl (fun acc i => do
    let a ← acc
    let r ← readV f (d + i)
    pure (a + r.val.toNat * 2 ^ (32 * i))) (.ok 0)

end Sys2Proof.Machine
end

