-- ==== Sys2Proof/Machine/EngineOps.lean ====
section
/-! DEFINITION. Shared operations of the engines: tiles in the unified store, crew-issued instructions, the posting of requests, completion
records (R191 to R194, R274, R304, R314 to R316). -/

namespace Sys2Proof.Machine

/-! ## Tiles (R191 to R194) -/

/-- Bytes of an element of a format code (R193). -/
def fmtBytes (fmt : Nat) : Nat := if fmt = 7 then 4 else if fmt = 4 ∨ fmt = 5 ∨ fmt = 6 ∨ fmt = 8 then 2 else 1

/-- The pitch and the extent of a tile (R193). -/
def Tile.pitch (t : Tile) : Nat := ((t.cols + 1) * fmtBytes t.fmt + 15) / 16 * 16
def Tile.extent (t : Tile) : Nat := ((t.rows + 1) * t.pitch + 127) / 128 * 128
/-- The descriptor (R191). -/
def TileSt.code : TileSt → Nat
  | .empty => 0 | .filling => 1 | .ready => 2 | .draining => 3
def Tile.desc (t : Tile) : Nat :=
  t.owner * 2 ^ 42 + t.off * 2 ^ 29 + t.cols * 2 ^ 22 + t.rows * 2 ^ 15 + t.fmt * 2 ^ 11 + t.st.code

/-- The element format of a format code; identifiers and metadata are unsigned integers (R193). -/
def fmtElem (fmt : Nat) : Elem :=
  match fmt with
  | 0 => .tap .t6
  | 1 => .tap .t8
  | 2 => .int true 8
  | 3 => .int false 8
  | 4 => .tap .t16
  | 5 => .ieee .bf16
  | 6 => .ieee .h16
  | 7 => .ieee .f32
  | 8 => .int false 16
  | _ => .int false 8

def Core.tile (c : Core) (ix : Nat) : Tile := getD {} ix c.tiles
def Core.setTile (c : Core) (ix : Nat) (t : Tile) : Core := { c with tiles := setD {} ix t c.tiles }
def Tile.elemAddr (t : Tile) (i j : Nat) : Nat := t.addr + i * t.pitch + j * fmtBytes t.fmt
/-- Element (i, j), zero beyond the tile's rows and columns (R322, R323, R329). -/
def Core.elem (c : Core) (t : Tile) (i j : Nat) : Nat :=
  if i ≤ t.rows ∧ j ≤ t.cols then leWord (c.bytes (t.elemAddr i j) (fmtBytes t.fmt)) % 2 ^ (fmtElem t.fmt).width else 0
/-- Whether the element lies in a poisoned granule. -/
def Core.elemBad (c : Core) (t : Tile) (i j : Nat) : Bool :=
  decide (i ≤ t.rows ∧ j ≤ t.cols) && (c.badAt (t.elemAddr i j) (fmtBytes t.fmt)).isSome
def Core.putElem (c : Core) (t : Tile) (i j v : Nat) : Core := c.putBytes (t.elemAddr i j) (leBytes v (fmtBytes t.fmt))
/-- Writes the first columns of a row in one piece. -/
def Core.putRow (c : Core) (t : Tile) (i : Nat) (vs : List Nat) : Core :=
  c.putBytes (t.elemAddr i 0) (vs.flatMap fun v => leBytes v (fmtBytes t.fmt))
/-- An exponent, two's complement of 5 bits (R42). -/
def expOf (m : List (Nat × BitVec 5)) (i : Nat) : Int := (getD 0 i m).toInt

def setTileSt (s : State) (core ix : Nat) (st : TileSt) : State :=
  let c := s.core core
  if (c.tile ix).st = .empty then s else s.setCore core (c.setTile ix { c.tile ix with st := st })

/-- The table entry that a team's handle names (R192). -/
def tileIx (t : Team) (h : Nat) : Option Nat := if h < t.tblCount then some (t.tblBase + h) else none

/-- Whether a named tile holds an instruction back: it is neither READY nor EMPTY (R151, R315). -/
def tileBusy (s : State) (t : Team) (h : Nat) : Bool :=
  match tileIx t h with
  | none => false
  | some ix => let st := ((s.core t.core).tile ix).st; st == .filling || st == .draining

def Trap.tile (h : Nat) : Trap := { code := .tileState, aux := h }
def Trap.tileFmt (h fmt : Nat) : Trap := { code := .formatMismatch, aux := h + 512 * fmt + 8192 }
def Trap.engine (cause : Nat) : Trap := { code := .engineFault, detail := cause }

/-- The tile of a handle, or TILE_STATE (R315). -/
def needTile (s : State) (t : Team) (h : Nat) : Except Trap (Nat × Tile) :=
  match tileIx t h with
  | none => .error (.tile h)
  | some ix =>
    let e := (s.core t.core).tile ix
    if e.st = .empty then .error (.tile h) else .ok (ix, e)

/-- A format or shape that the instruction does not accept (R315, R340). -/
def needShape (h : Nat) (t : Tile) (ok : Bool) : Except Trap Unit := if ok then .ok () else .error (.tileFmt h t.fmt)

/-! ## Crew-issued instructions (R314) -/

/-- The values of the operands that must be equal in all members, by selector; NONUNIFORM at the first that differs (step 3). -/
def agree (vals : List (List (Nat × Nat))) : Except Trap (List Nat) :=
  let first := vals.headD []
  match first.zipIdx.find? fun v => vals.any fun w => (w.getD v.2 v.1).2 != v.1.2 with
  | some v => .error { code := .nonuniform, aux := v.1.1 }
  | none => .ok (first.map (·.2))

/-- One operation of a crew, from its operand values: a trap at every member, or the machine after it with each member's fate; none where a
queue or reservation entry must free first. -/
abbrev CrewOp := Site → Crew → List Ex → List Nat → State → Except Trap (Option (State × (Ex → Act)))

/-- The body of a crew-issued instruction (R314, R315). -/
def crewOpBody (q : Nat) (tiles : List (Fin 64)) (reads : Ex → Except Trap (List (Nat × Nat))) (op : CrewOp) : Body := fun es s =>
  match es with
  | [] => some (s, [])
  | e :: _ =>
    match siteOf s e.f with
    | none => none
    | some k =>
      if tiles.any fun h => tileBusy s k.team h.val then none
      else
        crewBody q (fun e => (reads e).map fun _ => ()) (fun c es s =>
          let vals := es.map fun e => match reads e with | .ok v => v | .error _ => []
          match (do let vs ← agree vals; op k c es vs s) with
          | .error t => some (s, es.map fun _ => .trap t)
          | .ok none => none
          | .ok (some (s, act)) => some (s, es.map act)) es s

def crewIssue (i : Instr) (q : Nat) (tiles : List (Fin 64)) (reads : Ex → Except Trap (List (Nat × Nat))) (op : CrewOp) (s : State) :
    Host.Outcome State Fault Refusal :=
  issueWith i .none (crewOpBody q tiles reads op) s

def passOn : Ex → Act := fun e => .go { f := e.f }

/-- A 32-bit operand with its selector. -/
def rd32 (x : Src) (e : Ex) : Except Trap (Nat × Nat) := (readInt e.env e.f x).map fun v => (x.code, v.toNat)
/-- A 64-bit operand with its selector. -/
def rd64 (x : Op64) (e : Ex) : Except Trap (Nat × Nat) := (readOp64 e.env e.f x).map fun v => (x.code, v.toNat)
def rdNone : Ex → Except Trap (List (Nat × Nat)) := fun _ => .ok []

/-- Nat operand i of a crew operation. -/
def opnd (vs : List Nat) (i : Nat) : Nat := nth 0 vs i

/-! ## Posting (R223, R274, R297, R304, R316) -/

/-- The checks of a completion cell (R316). -/
def cellCheck (s : State) (k : Site) (cell : DWord) : Except Trap Unit :=
  if cell.toNat % 16 ≠ 0 then .error (.at .align cell 5)
  else (checkVa s k.core k.ctx cell { kind := 5, w := true, seals := true }).map fun _ => ()

/-- The release row of R217 at .pkg for a command that some fibres issue, with the answers that the engine's first access awaits (R223); none while an
entry lies on a line that is held back. -/
def forkEdge (s : State) (core : Nat) (es : List Ex) : Option (State × List Nat) :=
  if drainHeld s core then none
  else
    let s' := drainAll s core
    some (s', dedupe (es.flatMap fun e => awaited s' core e.f s.nextId))

/-- A command's completion record is to be written (R304). -/
def postRecord (s : State) (r : Record) : State := { s with nextId := s.nextId + 1, records := s.records ++ [{ r with id := s.nextId }] }

/-- The class of a launch's requests; only an express launch has class 0 (R275, R358). -/
def Launch.reqClass (l : Launch) : Nat := if l.express then 0 else max 1 l.cls

def Quad.part (q : Quad) (p : Nat) : Part := getD {} p q.parts
def Quad.setPart (q : Quad) (p : Nat) (x : Part) : Quad := { q with parts := setD {} p x q.parts }
def State.part (s : State) (q p : Nat) : Part := (s.quad q).part p
def State.setPart (s : State) (q p : Nat) (x : Part) : State := s.setQuad q ((s.quad q).setPart p x)

/-- A request enters its partition's table in posting order: by clock, core and crew (R274). -/
def MReq.order (r : MReq) : Nat := r.posted * 32 + r.core % 4 * 8 + r.crew
def Part.post (p : Part) (r : MReq) : Part := { p with reqs := insertBy MReq.order r p.reqs }

/-- Posts a matrix request of a crew: the partition has a free entry, the fork edge is drawn, the tiles change state (R274, R315, R321). -/
def postReq (s : State) (core teamId crewNo cls pn : Nat) (es : List Ex) (kind : ReqKind) (writes reads : List Nat) (f : Part → Part) :
    Option State :=
  let q := quadOfCore core
  if 8 ≤ (s.part q pn).reqs.length then none
  else
    match forkEdge s core es with
    | none => none
    | some (s, acks) =>
      let s := writes.foldl (fun s ix => setTileSt s core ix .filling) s
      let s := reads.foldl (fun s ix => setTileSt s core ix .draining) s
      let p := f (s.part q pn)
      let r : MReq := { id := s.nextId, team := teamId, core := core, crew := crewNo, cls := cls, posted := s.clock, kind := kind, acks := acks }
      some ({ s with nextId := s.nextId + 1 }.setPart q pn (p.post r))

/-- The partition of a team's cluster, or ENGINE_FAULT with NO_CONTEXT (R293). -/
def needPart (t : Team) : Except Trap Nat :=
  match t.part with
  | some p => .ok p
  | none => .error (.engine 1)

/-! ## Engine accesses (R199, R203, R304, R402) -/

/-- Bytes that an engine reads through a context's translation, each line at its home: the bytes with whether each lies in a poisoned
granule. -/
def engineRead (s : State) (core ctx : Nat) (va : DWord) (n : Nat) : Except Trap (List (Byte × Bool)) :=
  (List.range n).foldr (fun i acc => do
    let r ← checkVa s core ctx (va + BitVec.ofNat 64 i) { kind := 5, r := true }
    let rest ← acc
    pure ((s.byte r.1, s.poisoned r.1 1) :: rest)) (.ok [])

/-- The other dies' writes reach the die of an engine that is about to read (R402; log 17). -/
def syncDie (s : State) (die : Nat) : State :=
  (List.range 8).foldl (fun s d => if d = die then s else deliverTo s die (stampOf s d)) s

/-- Writes of bytes at homes from a die, each line as one write that recalls the line's claims (R199, R203, R402). -/
def homeEngineWrite (s : State) (die pa : Nat) (bs : List Byte) (bad : BitVec 4 := 0) : State :=
  if bs = [] then s
  else (lineParts pa bs).foldl (fun s p =>
    reachBack (homePut (recallLine (reachHome s die (lineOf p.1)) (lineOf p.1)) p.1 p.2 bad) die (lineOf p.1)) s

/-- Writes of an engine for a core: what the core holds of the lines, which may be older, goes, so that an instruction after the operation's completion
reads them (R216, R223). -/
def engineWrite (s : State) (core pa : Nat) (bs : List Byte) (bad : BitVec 4 := 0) : State :=
  (if bs = [] then [] else (lineParts pa bs).map fun p => lineOf p.1).foldl (fun s l => freshen s core l)
    (homeEngineWrite s (dieOfCore core) pa bs bad)

/-- The table entries of a leaf: all 16 of a page that X16 marks (R205). -/
def leafEntries (leaf : DWord) (ea : Nat) : List Nat :=
  if leaf.getLsbD 7 then (List.range 16).map fun i => ea / 128 * 128 + 8 * i else [ea]

/-- Whether a line that an engine would write or read at its home is held back (R232, R450). -/
def linesHeld (s : State) (pa n : Nat) (write : Bool) : Bool :=
  n != 0 && (List.range ((pa + n - 1) / 128 - pa / 128 + 1)).any fun i =>
    if write then s.reserved (pa / 128 + i) else s.asleep (pa / 128 + i)

/-- The status of a record that a failed access gives (R304). -/
def statusOf (t : Trap) : Nat := match t.code with | .translation => 3 | .protection => 4 | .sealedStore => 5 | _ => 2

/-! ## The team's scratchpad (R189, R320) -/

/-- The checks of an offset that a crew names: ALIGN, then PROTECTION of a range that passes the carve-out. -/
def scratchCheck (t : Team) (o n align kind : Nat) : Except Trap Unit :=
  if o % align ≠ 0 then .error (.at .align (BitVec.ofNat 64 o) kind)
  else if t.scrSize < o + n then .error (.at .protection (BitVec.ofNat 64 o) kind)
  else .ok ()

/-- Word i of the entry at an offset of a team's scratchpad. -/
def scrWord (s : State) (t : Team) (o i : Nat) : Nat := leWord ((s.core t.core).bytes (t.scrBase + o + 8 * i) 8)

end Sys2Proof.Machine
end

