-- ==== Sys2Proof/Machine/Engines.lean ====
section
/-! DEFINITION. Copy engine, sieve and index engine instructions, majors 0x71, 0x75 and 0x76 (R320, R330 to R333). -/

namespace Sys2Proof.Machine

/-! ## Copy engine commands (R297, R320) -/

/-- Posts a command to the core's copy engine, which holds 16 (R297, R314, R320). -/
def postCopy (kind : CopyKind) (k : Site) (q x y : Nat) (es : List Ex) (s : State) : Except Trap (Option (State × (Ex → Act))) := do
  scratchCheck k.team x 32 32 5
  cellCheck s k (BitVec.ofNat 64 y)
  if 16 ≤ (s.core k.core).copyQ.length then pure none
  else
    match forkEdge s k.core es with
    | none => pure none
    | some (s, acks) =>
      let c := s.core k.core
      let cmd : CopyCmd := { id := s.nextId, team := k.team.id, crew := q, kind := kind, base := x, cell := BitVec.ofNat 64 y, acks := acks }
      pure (some ({ s with nextId := s.nextId + 1 }.setCore k.core { c with copyQ := c.copyQ ++ [cmd] }, passOn))

def copyIssue (i : Instr) (kind : CopyKind) (q : Fin 8) (x : Src) (y : Op64) (s : State) : Host.Outcome State Fault Refusal :=
  crewIssue i q.val [] (fun e => do pure [← rd32 x e, ← rd64 y e]) (fun k _ es vs s => postCopy kind k q.val (opnd vs 0) (opnd vs 1) es s) s

/-- xcopy (R320). -/
def execXcopy (g : Guard) (q : Fin 8) (x : Src) (y : Op64) (s : State) : Host.Outcome State Fault Refusal :=
  copyIssue (.xcopy g q x y) .xcopy q x y s
/-- xchain (R320). -/
def execXchain (g : Guard) (q : Fin 8) (x : Src) (y : Op64) (s : State) : Host.Outcome State Fault Refusal :=
  copyIssue (.xchain g q x y) .xchain q x y s
/-- tmove (R320). -/
def execTmove (g : Guard) (q : Fin 8) (x : Src) (y : Op64) (s : State) : Host.Outcome State Fault Refusal :=
  copyIssue (.tmove g q x y) .tmove q x y s

/-! ## The sieve (R305 to R307, R330 to R332) -/

/-- Whether score a is better than b: NaN after every number, the smaller first under ascending order, the larger under descending (R306). -/
def betterScore (key order : Bool) (a b : Word) : Bool :=
  if key then (if order then decide (b.toNat < a.toNat) else decide (a.toNat < b.toNat))
  else
    let x := Fmt.f32.val a.toNat
    let y := Fmt.f32.val b.toNat
    if x.isNan then false
    else if y.isNan then true
    else if order then y.lt false x else x.lt false y

/-- Whether pair a ranks before pair b (R306). -/
def ranksBefore (v : Sieve) (a b : Word × Word) : Bool :=
  betterScore v.key v.order a.1 b.1 || (!betterScore v.key v.order b.1 a.1 && decide (a.2.toNat < b.2.toNat))

/-- Inserts a pair in rank order; pairs of equal rank whose scores differ in their bits alone (zeros, NaNs) stand by those bits, so that the list does
not depend on the order of pushes (R306; DESIGN CHOICE, log 112). -/
def insertPair (v : Sieve) (x : Word × Word) : List (Word × Word) → List (Word × Word)
  | [] => [x]
  | y :: t => if ranksBefore v x y || (!ranksBefore v y x && decide (x.1.toNat < y.1.toNat)) then x :: y :: t else y :: insertPair v x t

/-- The first K pairs of those held and some pushed (R306). -/
def mergePairs (v : Sieve) (ps : List (Word × Word)) : List (Word × Word) := (ps.foldl (fun l p => insertPair v p l) v.held).take v.k

/-- The list that a sieveget of a clock sees: every sift issued before it (R307). -/
def Sieve.seen (v : Sieve) (clk : Nat) : List (Word × Word) := if v.newClk < clk then mergePairs v v.new else v.held

/-- The stream after pushes of a clock. -/
def Sieve.push (v : Sieve) (clk : Nat) (ps : List (Word × Word)) : Sieve :=
  if v.newClk = clk then { v with new := v.new ++ ps } else { v with held := v.seen clk, new := ps, newClk := clk }

def Core.sieve (c : Core) (n : Nat) : Sieve := getD {} n c.sieves
def Core.setSieve (c : Core) (n : Nat) (v : Sieve) : Core := { c with sieves := setD {} n v c.sieves }
/-- A stream that a team may use: on, and its own (R331, R332). -/
def Sieve.usable (v : Sieve) (t : Team) : Bool := v.k != 0 && v.team == t.id

/-- sieveset (R330). -/
def execSieveset (g : Guard) (strm : Fin 8) (q : Fin 8) (x : Src) (s : State) : Host.Outcome State Fault Refusal :=
  crewIssue (.sieveset g strm q x) q.val [] (fun e => do pure [← rd32 x e]) (fun k _ _ vs s =>
    let d := opnd vs 0
    let c := s.core k.core
    let v := c.sieve strm.val
    let kk := fld d 0 9
    if 256 < kk then .error (.illegalAt 0)
    else if v.k ≠ 0 ∧ v.team ≠ k.team.id then .error (.engine 6)
    else
      let v' : Sieve := { key := fld d 10 1 == 1, order := fld d 9 1 == 1, k := kk, owner := k.team.slot, team := k.team.id }
      .ok (some (s.setCore k.core (c.setSieve strm.val v'), passOn))) s

/-- The score that a stream takes (R331). -/
def readScore (e : Env) (f : Fibre) (key : Bool) (x : Src) : Except Trap Word := do
  let o ← readSrc e f x
  let o ← o.need (if key then intTag o.tag else o.tag == .f32)
  pure o.val

/-- sift (R307, R331): each executing fibre pushes its pair; a second sift of a clock is held back one clock. -/
def siftBody (strm : Fin 8) (x y : Src) : Body := fun es s =>
  match es with
  | [] => some (s, [])
  | e :: _ =>
    match siteOf s e.f with
    | none => none
    | some k =>
      let c := s.core k.core
      let v := c.sieve strm.val
      if c.siftAt = some s.clock then none
      else if !v.usable k.team then some (s, es.map fun e => .trap (e.pre.getD (.engine 6)))
      else
        let rs := es.map fun e => (e, (match e.pre with
          | some t => Except.error t
          | none => do pure (← readScore e.env e.f v.key x, ← readInt e.env e.f y) : Except Trap (Word × Word)))
        let ps := rs.filterMap fun r => match r.2 with | .ok p => some p | .error _ => none
        let c := { c.setSieve strm.val (v.push s.clock ps) with siftAt := some s.clock }
        some (s.setCore k.core c, rs.map fun r => match r.2 with | .ok _ => .go { f := r.1.f } | .error t => .trap t)

def execSift (g : Guard) (strm : Fin 8) (x y : Src) (s : State) : Host.Outcome State Fault Refusal :=
  issueWith (.sift g strm x y) .none (siftBody strm x y) s

/-- The bytes of a stream's K places (R307). -/
def pairBytes (v : Sieve) (ps : List (Word × Word)) : List Byte :=
  (List.range v.k).flatMap fun i =>
    let p : Word × Word := nth (if v.key then 0xFFFFFFFF else 0x7FC00000, 0xFFFFFFFF) ps i
    leBytes p.1.toNat 4 ++ leBytes p.2.toNat 4

/-- sieveget (R307, R332): at 32 bytes a clock, the first in its issue clock; the crew's next instruction waits for the last byte. -/
def execSieveget (g : Guard) (strm : Fin 8) (q : Fin 8) (x : Src) (s : State) : Host.Outcome State Fault Refusal :=
  crewIssue (.sieveget g strm q x) q.val [] (fun e => do pure [← rd32 x e]) (fun k _ _ vs s =>
    let c := s.core k.core
    let v := c.sieve strm.val
    if !v.usable k.team then .error (.engine 6)
    else do
      scratchCheck k.team (opnd vs 0) (8 * v.k) 8 5
      let a := k.team.scrBase + opnd vs 0
      let bs := pairBytes v (v.seen s.clock)
      let c := c.putBytes a (bs.take 32)
      let busy : SieveBusy := { team := k.team.id, crew := q.val, clk := s.clock + (v.k + 3) / 4, at_ := a + 32, rest := bs.drop 32 }
      pure (some (s.setCore k.core { c with sieveBusy := c.sieveBusy ++ [busy] }, passOn))) s

/-- SIEVEGET_DONE (R332): the next 32 bytes of the team's lists are written; one of which every byte is written has ended. -/
def execSievegetDone (core team : Nat) (s : State) : Host.Outcome State Fault Refusal :=
  let c := s.core core
  let due (b : SieveBusy) : Bool := b.team == team && decide (b.clk ≤ s.clock)
  let mine := c.sieveBusy.filter (·.team == team)
  let c := mine.foldl (fun c b => c.putBytes b.at_ (b.rest.take (if due b then b.rest.length else 32))) c
  .next (s.setCore core { c with sieveBusy := (c.sieveBusy.filter fun b => !due b).map fun b =>
    if b.team == team then { b with at_ := b.at_ + 32, rest := b.rest.drop 32 } else b })

/-! ## Forest walks (R333) -/

/-- fwalk (R333): the quad's index engine queues 16 walks. -/
def execFwalk (g : Guard) (q : Fin 8) (x : Src) (y : Op64) (s : State) : Host.Outcome State Fault Refusal :=
  crewIssue (.fwalk g q x y) q.val [] (fun e => do pure [← rd32 x e, ← rd64 y e]) (fun k _ es vs s => do
    cellCheck s k (BitVec.ofNat 64 (opnd vs 1))
    let qn := quadOfCore k.core
    if 16 ≤ (s.quad qn).walks.length then pure none
    else
      match forkEdge s k.core es with
      | none => pure none
      | some (s, acks) =>
        let w : Walk := { id := s.nextId, team := k.team.id, core := k.core, off := opnd vs 0, cell := BitVec.ofNat 64 (opnd vs 1), acks := acks }
        let quad := s.quad qn
        pure (some ({ s with nextId := s.nextId + 1 }.setQuad qn { quad with walks := quad.walks ++ [w] }, passOn))) s

end Sys2Proof.Machine
end

