-- ==== Sys2Proof/Machine/Matrix.lean ====
section
/-! DEFINITION. Matrix requests, majors 0x72 to 0x74 (R274, R314 to R316, R321 to R329). -/

namespace Sys2Proof.Machine

/-- The format pairs of a pass (R276). -/
def fmtPair (a w : Nat) : Bool :=
  if a = 2 ∨ a = 3 then w == 2 || w == 3 else a == w

/-- What a posting does to the formats of the active and the shadow plane (R321). -/
def PlaneStep.run (x : Option Nat × Option Nat) : PlaneStep → Option Nat × Option Nat
  | .load fmt => (x.1, some fmt)
  | .swap => (x.2, x.1)

/-- The formats that the planes will hold before the request of a place in this clock's posting order: core, then crew (R274, R321). -/
def Part.fmtsAt (p : Part) (clk place : Nat) : Option Nat × Option Nat :=
  if p.fmtClk = clk then ((p.fmtLog.filter (·.1 < place)).map (·.2)).foldl PlaneStep.run p.fmtOld else (p.fmtA, p.fmtS)

/-- The formats after one more posting of a clock, the postings of one clock taken in their order (R274, R321). -/
def Part.postStep (clk place : Nat) (x : PlaneStep) (p : Part) : Part :=
  let again := p.fmtClk = clk
  let old := if again then p.fmtOld else (p.fmtA, p.fmtS)
  let log := insertBy (·.1) (place, x) (if again then p.fmtLog else [])
  let now := (log.map (·.2)).foldl PlaneStep.run old
  { p with fmtA := now.1, fmtS := now.2, fmtOld := old, fmtClk := clk, fmtLog := log }

/-- The place of a core's crew among the requests that enter in one clock (R274). -/
def postPlace (core crew : Nat) : Nat := core % 4 * 8 + crew

/-- The format that the plane of a pass will hold when the pass starts (R321). -/
def Part.passFmt (p : Part) (clk place : Nat) (swap : Bool) : Option Nat :=
  if swap then (p.fmtsAt clk place).2 else (p.fmtsAt clk place).1
def Part.postSwap (clk place : Nat) (swap : Bool) (p : Part) : Part := if swap then p.postStep clk place .swap else p

/-- FORMAT_MISMATCH of a pass whose activation format is not paired with the plane's (R321). -/
def needPair (s : State) (k : Site) (q : Nat) (swap : Bool) (h : Nat) (t : Tile) : Except Trap Unit :=
  match k.team.part with
  | none => .ok ()
  | some p =>
    match (s.part (quadOfCore k.core) p).passFmt s.clock (postPlace k.core q) swap with
    | none => .ok ()
    | some w => needShape h t (fmtPair t.fmt w)

/-- Posts a request for the crew's partition (step 6 of R314). -/
def postFor (k : Site) (q : Nat) (es : List Ex) (kind : ReqKind) (writes reads : List Nat) (f : Part → Part) (s : State) :
    Except Trap (Option (State × (Ex → Act))) := do
  let p ← needPart k.team
  pure ((postReq s k.core k.team.id q k.lau.reqClass p es kind writes reads f).map fun s => (s, passOn))

/-- mlds (R322). -/
def execMlds (g : Guard) (t : Fin 64) (q : Fin 8) (s : State) : Host.Outcome State Fault Refusal :=
  crewIssue (.mlds g t q) q.val [t] rdNone (fun k _ es _ s => do
    let (ix, tl) ← needTile s k.team t.val
    needShape t.val tl (tl.fmt ≤ 4)
    postFor k q.val es (.mlds ix) [] [ix] (Part.postStep s.clock (postPlace k.core q.val) (.load tl.fmt)) s) s

/-- The checks of an mma and its posting, at issue or from a COPYMMA entry (R301, R323). -/
def mmaOp (swap : Bool) (ad : Option (Fin 64)) (t : Fin 64) (q : Fin 8) (acc : Bool) (word : Nat) (k : Site) (es : List Ex) (s : State) :
    Except Trap (Option (State × (Ex → Act))) := do
  let (ia, ta) ← needTile s k.team t.val
  let ids ← match ad with
    | none => pure none
    | some c => (needTile s k.team c.val).map some
  needShape t.val ta (ta.fmt ≤ 4)
  match ad, ids with
  | some c, some (_, tc) => needShape c.val tc (tc.fmt == 8 && tc.rows == 0 && tc.cols == 127)
  | _, _ => pure ()
  needPair s k q.val swap t.val ta
  let ids := ids.map (·.1)
  postFor k q.val es (.pass swap ids ia none acc word) [] (ia :: ids.toList) (Part.postSwap s.clock (postPlace k.core q.val) swap) s

/-- mma (R323). -/
def execMma (g : Guard) (swap : Bool) (ad : Option (Fin 64)) (t : Fin 64) (q : Fin 8) (acc : Bool) (x : Src) (s : State) :
    Host.Outcome State Fault Refusal :=
  crewIssue (.mma g swap ad t q acc x) q.val (t :: ad.toList) (fun e => do pure [← rd32 x e])
    (fun k _ es vs s => mmaOp swap ad t q acc (opnd vs 0) k es s) s

/-- The checks of an mmas and its posting (R301, R324). -/
def mmasOp (swap : Bool) (pat : Pattern) (ta tb tc : Fin 64) (q : Fin 8) (acc : Bool) (word : Nat) (k : Site) (es : List Ex) (s : State) :
    Except Trap (Option (State × (Ex → Act))) := do
  let (ia, a) ← needTile s k.team ta.val
  let (ib, b) ← needTile s k.team tb.val
  let (ic, c) ← needTile s k.team tc.val
  needShape ta.val a (a.fmt ≤ 4)
  needShape tb.val b (b.fmt == a.fmt && b.rows == a.rows)
  needShape tc.val c (c.fmt == 9 && c.rows == 127 && c.cols == 127)
  needPair s k q.val swap ta.val a
  postFor k q.val es (.pass swap none ia (some (pat, ib, ic)) acc word) [] [ia, ib, ic] (Part.postSwap s.clock (postPlace k.core q.val) swap) s

/-- mmas (R324). -/
def execMmas (g : Guard) (swap : Bool) (pat : Pattern) (ta tb tc : Fin 64) (q : Fin 8) (acc : Bool) (x : Src) (s : State) :
    Host.Outcome State Fault Refusal :=
  crewIssue (.mmas g swap pat ta tb tc q acc x) q.val [ta, tb, tc] (fun e => do pure [← rd32 x e])
    (fun k _ es vs s => mmasOp swap pat ta tb tc q acc (opnd vs 0) k es s) s

/-- The clock that stands for a result still outstanding (R151). -/
def farOff (clk : Nat) : Nat := clk + 2 ^ 40

/-- acsnap's write of an s-register, judged with the other writes of its issue clock by the count that its row has then (R160; log 22); the register keeps
its value until the count is written, and is outstanding. The answer says whether the writers go on. -/
def snapSreg (s : State) (k : Site) (es : List Ex) (n cnt : Nat) : State × Bool :=
  let slot := match es with | e :: _ => e.f.fidx % 4 | [] => 0
  let (s', ok) := sregPut s k.team.id 0 ((slot, s.issuedAt), es.map (·.f)) n [BitVec.ofNat 64 cnt]
  match s.team k.team.id, s'.team k.team.id with
  | some t, some t' =>
    if ok then (s'.setTeam k.team.id { t' with sregs := t.sregs, badS := t.badS, sAvail := put n (farOff s.clock) t.sAvail }, true)
    else (s', false)
  | _, _ => (s', ok)

/-- acsnap (R325): the count is outstanding in every member until the snapshot is written. -/
def execAcsnap (g : Guard) (tc : Fin 64) (q : Fin 8) (acc : Bool) (d : Dst) (y : Src) (s : State) : Host.Outcome State Fault Refusal :=
  crewIssue (.acsnap g tc q acc d y) q.val [tc] (fun e => do pure [← rd32 y e]) (fun k _ es vs s => do
    let (ix, t) ← needTile s k.team tc.val
    let row := opnd vs 0 % 128
    needShape tc.val t (t.fmt == 7 && t.cols == 127 && row ≤ t.rows)
    let p ← needPart k.team
    let dsts := match d with | .v n => es.map fun e => (e.f.key, e.f.fb + n.val) | _ => []
    let sd := match d with | .s n => some n.val | _ => none
    let late (e : Ex) : Act := match d with
      | .v n => .go { f := { e.f with avail := put (e.f.fb + n.val) (farOff s.clock) e.f.avail } }
      | _ => .go { f := e.f }
    match postReq s k.core k.team.id q.val k.lau.reqClass p es (.snap ix acc row dsts sd) [ix] [] id with
    | none => pure none
    | some s' =>
      match sd with
      | none => pure (some (s', late))
      | some n =>
        let cnt := getD 0 (bit acc * 128 + row) (s.part (quadOfCore k.core) p).steps
        match snapSreg s' k es n cnt with
        | (s', true) => pure (some (s', late))
        | (_, false) => pure (some ((snapSreg s k es n cnt).1, fun _ => .trap (.nonuniformAt n)))) s

/-- The destination address checks of acdrain, then its completion cell (R316, R326). -/
def drainCheck (s : State) (k : Site) (x y : Nat) (align : Nat) : Except Trap Unit :=
  if x % align ≠ 0 then .error (.at .align (BitVec.ofNat 64 x) 5) else cellCheck s k (BitVec.ofNat 64 y)

/-- acdrain (R326). -/
def execAcdrain (g : Guard) (q : Fin 8) (acc : Bool) (dk : DrainKind) (s : State) : Host.Outcome State Fault Refusal :=
  let mem (x y : Op64) (kind align : Nat) (m : Rm) :=
    crewIssue (.acdrain g q acc dk) q.val [] (fun e => do pure [← rd64 x e, ← rd64 y e]) (fun k _ es vs s => do
      drainCheck s k (opnd vs 0) (opnd vs 1) align
      postFor k q.val es (.drainMem acc kind m (BitVec.ofNat 64 (opnd vs 0)) (BitVec.ofNat 64 (opnd vs 1))) [] [] id s) s
  match dk with
  | .tile t m =>
    crewIssue (.acdrain g q acc dk) q.val [t] rdNone (fun k _ es _ s => do
      let (ix, tl) ← needTile s k.team t.val
      needShape t.val tl (tl.fmt ≤ 7)
      if (tl.fmt = 0 ∨ tl.fmt = 1 ∨ tl.fmt = 4) ∧ m ≠ .rne then .error (.illegalAt 0)
      else postFor k q.val es (.drainTile ix acc m) [ix] [] id s) s
  | .f32 x y m => mem x y 1 128 m
  | .add160 x y => mem x y 2 32 .rne
  | .add320 x y => mem x y 3 64 .rne

/-- acclr (R327). -/
def execAcclr (g : Guard) (all : Bool) (k : EaKind) (q : Fin 8) (acc : Bool) (s : State) : Host.Outcome State Fault Refusal :=
  crewIssue (.acclr g all k q acc) q.val [] rdNone (fun st _ es _ s => postFor st q.val es (.clr all k acc) [] [] id s) s

/-- adload (R328). -/
def execAdload (g : Guard) (q : Fin 8) (x y : Src) (s : State) : Host.Outcome State Fault Refusal :=
  crewIssue (.adload g q x y) q.val [] (fun e => do pure [← rd32 x e, ← rd32 y e])
    (fun k _ es vs s => postFor k q.val es (.adload (opnd vs 0) (opnd vs 1)) [] [] id s) s

/-- adinv (R328). -/
def execAdinv (g : Guard) (q : Fin 8) (x : Option Src) (s : State) : Host.Outcome State Fault Refusal :=
  crewIssue (.adinv g q x) q.val []
    (fun e => match x with | some x => do pure [← rd32 x e] | none => .ok [])
    (fun k _ es vs s => postFor k q.val es (.adinv (if x.isSome then some (opnd vs 0) else none)) [] [] id s) s

/-- The seed of the crew's rank-0 member; a free value where that member has ended (log 9). -/
def rankZeroSeed (s : State) (k : Site) (c : Crew) : DWord × State :=
  match (if c.live.getLsbD 0 then c.members.head?.bind fun m => s.fibre (k.team.key m) else none) with
  | some f => (f.seed, s)
  | none => (Config.freeWord s.free, { s with free := s.free + 1 })

/-- A threshold that vprune accepts: positive and finite (R329). -/
def thetaOk (x : Nat) : Bool :=
  match Fmt.f32.val x with
  | .fin false n _ => n != 0
  | _ => false

/-- vprune (R329). -/
def execVprune (g : Guard) (pat : Pattern) (hi : Bool) (ta tb tc : Fin 64) (q : Fin 8) (x y : Src) (s : State) :
    Host.Outcome State Fault Refusal :=
  crewIssue (.vprune g pat hi ta tb tc q x y) q.val [ta, tb, tc]
    (fun e => do
      let b ← rd32 x e
      let th ← readTag e.env e.f .f32 y
      pure [b, (y.code, th.toNat)])
    (fun k c es vs s => do
      if thetaOk (opnd vs 1) then pure () else .error (.illegalAt 0)
      let (ia, a) ← needTile s k.team ta.val
      let (ib, b) ← needTile s k.team tb.val
      let (ic, m) ← needTile s k.team tc.val
      needShape ta.val a (a.fmt ≤ 4)
      needShape tb.val b (b.fmt == a.fmt && b.cols == a.cols && b.rows == 127)
      needShape tc.val m (m.fmt == 9 && m.cols == b.cols && m.rows == b.rows)
      if ta = tb ∨ ta = tc ∨ tb = tc then .error (.illegalAt 0)
      else
        let (seed, s) := rankZeroSeed s k c
        postFor k q.val es (.vprune pat hi ia ib ic (BitVec.ofNat 32 (opnd vs 0)) (BitVec.ofNat 32 (opnd vs 1)) (keyOf seed)) [ib, ic] [ia] id s) s

end Sys2Proof.Machine
end

