-- ==== Sys2Proof/Machine/Memory.lean ====
section
/-! DEFINITION. Memory instructions, majors 0x60 to 0x6A, 0x6D and 0x6E (R129, R130, R248 to R261, R264, R265). -/

namespace Sys2Proof.Machine

/-! ## ld and st (R129, R130, R248, R249) -/

/-- The registers that a load writes, by size, destination and tag (R44, R129). -/
def ldWr (sz : Size) (t : Tag) (d : Dst) (bs : List Byte) : Wr :=
  let x := leWord bs
  let fix (v : Nat) : Word := if t = .t6x5 then BitVec.ofNat 32 (v % 2 ^ 30) else BitVec.ofNat 32 v
  match sz with
  | .b8 => Wr.one d (if t = .i32 then (BitVec.ofNat 8 x).signExtend 32 else BitVec.ofNat 32 x) t
  | .b16 => Wr.one d (if t = .i32 then (BitVec.ofNat 16 x).signExtend 32 else BitVec.ofNat 32 x) t
  | .b32 => Wr.one d (fix x) t
  | _ =>
    match d with
    | .s n => Wr.wide (.s n) (BitVec.ofNat 64 x) .p64l .p64h
    | _ =>
      let n := sz.bytes / 4
      let tag (i : Nat) : Tag := if t = .p64l then (if i % 2 = 0 then .p64l else .p64h) else t
      let rs := (List.range n).map fun i => (⟨fix (x / 2 ^ (32 * i) % 2 ^ 32), tag i⟩ : Reg)
      match d with
      | .v v => { regs := rs.zipIdx.map fun r => (v.val + r.2, r.1), latch := rs.head? }
      | _ => { latch := rs.head? }

/-- A load at a place. -/
def ldOne (sz : Size) (sp : Space) (h : Hint) (t : Tag) (d : Dst) (ea : Except Trap DWord) (e : Ex) (s : State) :
    Option (State × Act) :=
  match siteOf s e.f, ea with
  | none, _ => none
  | _, .error x => some (s, .trap x)
  | some k, .ok a =>
    if sp != .x && lateTxn s e.f then memAct s (abortAt s e.f 3 : MemR Unit) fun s f _ => (s, .go { f := f })
    else
    match place k sp a sz.bytes sz.bytes 2 with
    | .error x => some (s, .trap x)
    | .ok p =>
      memAct s (loadAt s k e.f p sz.bytes h) fun s f r => (s, .go { f := f, w := ldWr sz t d r.1, lat := some r.2 })

/-- ld (R129, R248). -/
def execLd (c : Ctl) (sz : Size) (sp : Space) (h : Hint) (t : Tag) (d : Dst) (ad : Addr) (s : State) :
    Host.Outcome State Fault Refusal :=
  issueWith (.ld c sz sp h t d ad) .none (each fun e s => ldOne sz sp h t d (effAddr e.env e.f sz.bytes ad) e s) s

/-- ld.split (R249). -/
def execLdSplit (c : Ctl) (sz : Size) (h : Hint) (t : Tag) (d : Dst) (p : Fin 128) (imm : BitVec 12) (s : State) :
    Host.Outcome State Fault Refusal :=
  issueWith (.ldSplit c sz h t d p imm) .none (each fun e s => ldOne sz .g h t d (splitEff e.f p imm) e s) s

/-- The bytes that a store takes from its source; tags are not checked (R130). -/
def stBytes (sz : Size) (x : StSrc) (e : Env) (f : Fibre) : Except Trap (List Byte) :=
  match x with
  | .one a => (readSrc e f a).map fun o => leBytes o.val.toNat sz.bytes
  | .wide n => (regsVal f n.val sz.bytes).map fun v => leBytes v sz.bytes
  | .sreg n => (readS e n.val).map fun v => leBytes v.toNat 8

/-- A store at a place. DESIGN CHOICE (log 109): an uncorrectable error of a source register is met before the address is translated, in a
tree's arc too. -/
def stOne (sz : Size) (sp : Space) (x : StSrc) (ea : Except Trap DWord) (e : Ex) (s : State) : Option (State × Act) :=
  match siteOf s e.f, ea with
  | none, _ => none
  | _, .error t => some (s, .trap t)
  | some k, .ok a =>
    if sp != .x && lateTxn s e.f then memAct s (abortAt s e.f 3 : MemR Unit) fun s f _ => (s, .go { f := f })
    else
    match place k sp a sz.bytes sz.bytes 3 with
    | .error t => some (s, .trap t)
    | .ok p =>
      match stBytes sz x e.env e.f with
      | .error t => some (s, .trap t)
      | .ok bs => memAct s (storeAt s k e.f p bs) fun s f _ => (s, .go { f := f })

/-- st (R130, R248). -/
def execSt (g : Guard) (sz : Size) (sp : Space) (h : Hint) (x : StSrc) (ad : Addr) (s : State) : Host.Outcome State Fault Refusal :=
  issueWith (.st g sz sp h x ad) .none (each fun e s => stOne sz sp x (effAddr e.env e.f sz.bytes ad) e s) s

/-- st.split (R249). -/
def execStSplit (g : Guard) (sz : Size) (h : Hint) (x : StSrc) (p : Fin 128) (imm : BitVec 12) (s : State) :
    Host.Outcome State Fault Refusal :=
  issueWith (.stSplit g sz h x p imm) .none (each fun e s => stOne sz .g x (splitEff e.f p imm) e s) s

/-! ## Atomics (R252 to R255) -/

/-- The new value of an atomic operation on n bytes (R252). -/
def atomOp (op : AOp) (n : Nat) (o x : Nat) : Nat :=
  let sg (v : Nat) : Int := intOf true (8 * n) v
  match op with
  | .add => (o + x) % 2 ^ (8 * n)
  | .minS => if sg o ≤ sg x then o else x
  | .maxS => if sg o ≤ sg x then x else o
  | .minN => min o x
  | .maxN => max o x
  | .and => o &&& x
  | .or => o ||| x
  | .exch => x

/-- Whether the data tags are among those an operation accepts (R252). -/
def atomTagOk (op : AOp) (sz : Size) (f : Fibre) (d : Nat) : Bool :=
  let ts := (List.range (sz.bytes / 4)).map fun i => (f.reg (d + i)).tag
  match op with
  | .and | .or | .exch => true
  | .add => ts.all (· == .i32) || ts.all (· == .n32) || (sz == .b64 && ts == [.p64l, .p64h])
  | _ => ts.all (· == .i32) || ts.all (· == .n32)

/-- An access in one instant at the home or the core, with its ordering (R253). -/
def rmwOne (o : Ord) (sc : Scope) (sp : Space) (n : Nat) (need : Need) (ea : Except Trap DWord) (op : Fibre → Except Trap (Nat → Nat))
    (res : Fibre → Nat → Wr) (e : Ex) (s : State) : Option (State × Act) :=
  match siteOf s e.f, ea, op e.f with
  | none, _, _ => none
  | _, .error t, _ => some (s, .trap t)
  | _, _, .error t => some (s, .trap t)
  | some k, .ok a, .ok f2 =>
    match place k sp a n n need.kind with
    | .error t => some (s, .trap t)
    | .ok p =>
      match (match p with | .glob va => (checkVa s k.core k.ctx va need).map (fun _ => ()) | .scr _ => .ok ()) with
      | .error t => some (s, .trap t)
      | .ok _ =>
        if acqHeld s k o sc then none
        else
          match rmwAt s k e.f p n need f2 with
          | .ok s f r =>
            let (s, f) := afterOrd s k f o sc (s.clock + r.2)
            some (s, .go { f := f, w := res f r.1, lat := some r.2 })
          | .trap t => some (s, .trap t)
          | .abort s f => some (s, .go { f := f, next := some f.pc })
          | .held => none

def atomNeed : Need := { kind := 4, r := true, w := true, seals := true }

/-- atom (R252, R253). -/
def execAtom (g : Guard) (op : AOp) (o : Ord) (sc : Scope) (sz : Size) (sp : Space) (d : Fin 256) (nw : Bool) (ad : Addr) (s : State) :
    Host.Outcome State Fault Refusal :=
  issueWith (.atom g op o sc sz sp d nw ad) .none (each fun e s =>
    rmwOne o sc sp sz.bytes atomNeed (effAddr e.env e.f sz.bytes ad)
      (fun f => do
        let x ← regsVal f d.val sz.bytes
        if atomTagOk op sz f d.val then pure (fun old => atomOp op sz.bytes old x) else .error (.mismatch d.val (f.reg d.val).tag))
      (fun f old => if nw then {} else keepTags f d.val (wordsOfNat old sz.bytes)) e s) s

/-- acas (R254). -/
def execAcas (g : Guard) (o : Ord) (sc : Scope) (sz : Size) (sp : Space) (d : Fin 256) (nw : Bool) (ad : Addr) (s : State) :
    Host.Outcome State Fault Refusal :=
  issueWith (.acas g o sc sz sp d nw ad) .none (each fun e s =>
    rmwOne o sc sp sz.bytes atomNeed (effAddr e.env e.f sz.bytes ad)
      (fun f => do
        let x ← regsVal f d.val sz.bytes
        let y ← regsVal f (d.val + sz.bytes / 4) sz.bytes
        pure (fun old => if old = x then y else old))
      (fun f old => if nw then {} else keepTags f d.val (wordsOfNat old sz.bytes)) e s) s

/-- eacc (R255). -/
def execEacc (g : Guard) (k : EaKind) (o : Ord) (sc : Scope) (sp : Space) (d : Fin 256) (ad : Addr) (s : State) :
    Host.Outcome State Fault Refusal :=
  issueWith (.eacc g k o sc sp d ad) .none (each fun e s =>
    rmwOne o sc sp (eaBytes k) atomNeed (effAddr e.env e.f 4 ad)
      (fun f => do
        let x ← readTag e.env f .f32 (.v d)
        pure (fun old => eaToNat k (eaAdd k (eaOfNat k old) (eaFrom k (Fmt.f32.val x.toNat)))))
      (fun _ _ => {}) e s) s

/-! ## Reads at the home (R256, R258) -/

/-- A read of a line at its home for a core, after the core's own entry for it has drained; what the core and its die hold of the line, which may be
older than what the home answers, goes (R198, R211, R212). -/
def readHome (s : State) (core line : Nat) : Option State :=
  if s.asleep line || (((s.core core).entry line).isSome && s.blocked line) then none
  else some (freshen (coreAsk (drainLine s core line) core line) core line)

/-- A global address of space g or f with its checks. -/
def globAt (s : State) (k : Site) (sp : Space) (a : DWord) (n align : Nat) (need : Need) : Except Trap (DWord × Nat × DWord) := do
  match ← place k sp a n align need.kind with
  | .scr _ => .error (.illegalAt 0)
  | .glob va =>
    let r ← checkVa s k.core k.ctx va need
    pure (va, r.1, r.2)

def latOf (s : State) (pa : Nat) : Nat := latHome s (lineOf pa)

/-- earead (R256). -/
def execEaread (c : Ctl) (k : EaKind) (m : Rm) (sp : Space) (d : Option (Fin 256)) (ad : Addr) (s : State) :
    Host.Outcome State Fault Refusal :=
  issueWith (.earead c k m sp d ad) .none (each fun e s =>
    match siteOf s e.f, effAddr e.env e.f 4 ad with
    | none, _ => none
    | _, .error t => some (s, .trap t)
    | some site, .ok a =>
      match globAt s site sp a (eaBytes k) (eaBytes k) { kind := 2, r := true } with
      | .error t => some (s, .trap t)
      | .ok (va, pa, _) =>
        if s.walkWaits site.core site.ctx va then none
        else
        match readHome (noteMiss s site.core site.ctx va) site.core (lineOf pa) with
        | none => none
        | some s =>
          match badGranule (s.line (lineOf pa)).poison (pa % 128) (eaBytes k) with
          | some g => some (s, .trap (poisonAt va pa g))
          | none =>
            let v := eaRead k (.ieee .f32) m (eaOfNat k (leWord (s.bytes pa (eaBytes k))))
            some (s, .go { f := e.f, w := Wr.opt d (BitVec.ofNat 32 v) .f32, lat := some (latOf s pa) })) s

/-- ldver (R258): at the home, or a transactional read inside an attempt. -/
def execLdver (c : Ctl) (sp : Space) (d : Option (Fin 256)) (ad : Addr) (s : State) : Host.Outcome State Fault Refusal :=
  issueWith (.ldver c sp d ad) .none (each fun e s =>
    match siteOf s e.f, effAddr e.env e.f 4 ad with
    | none, _ => none
    | _, .error t => some (s, .trap t)
    | some site, .ok a =>
      if lateTxn s e.f then memAct s (abortAt s e.f 3 : MemR Unit) fun s f _ => (s, .go { f := f })
      else
        match globAt s site sp a 4 4 { kind := 4, r := true } with
        | .error t => some (s, .trap t)
        | .ok (va, pa, leaf) =>
          if s.walkWaits site.core site.ctx va then none
          else
          let s := noteMiss s site.core site.ctx va
          match e.f.txn with
          | some x =>
            memAct s (txnRead s site e.f x va pa 4 leaf false) fun s f r =>
              (s, .go { f := f, w := Wr.opt d (BitVec.ofNat 32 r.2) .n32, lat := some (latOf s pa) })
          | none =>
            match readHome s site.core (lineOf pa) with
            | none => none
            | some s => some (s, .go { f := e.f, w := Wr.opt d (BitVec.ofNat 32 (s.line (lineOf pa)).ver) .n32, lat := some (latOf s pa) })) s

/-- stv (R259): the comparison and the write at the home in one instant. -/
def execStv (g : Guard) (sz : Size) (sp : Space) (d : Fin 256) (nw : Bool) (ad : Addr) (s : State) : Host.Outcome State Fault Refusal :=
  issueWith (.stv g sz sp d nw ad) .none (each fun e s =>
    let n := sz.bytes / 4
    match siteOf s e.f, effAddr e.env e.f sz.bytes ad, regsVal e.f d.val sz.bytes, readV e.f (d.val + n) with
    | none, _, _, _ => none
    | _, .error t, _, _ => some (s, .trap t)
    | _, _, .error t, _ => some (s, .trap t)
    | _, _, _, .error t => some (s, .trap t)
    | some site, .ok a, .ok x, .ok ev =>
      match globAt s site sp a sz.bytes sz.bytes { kind := 4, w := true, seals := true } with
      | .error t => some (s, .trap t)
      | .ok (va, pa, _) =>
        if s.walkWaits site.core site.ctx va then none
        else
        let r := atHome (noteMiss s site.core site.ctx va) site (lineOf pa) fun s =>
          let ok := (s.line (lineOf pa)).ver == ev.val.toNat % 2 ^ 24
          let s := if ok then homePut s pa (leBytes x sz.bytes) 0 false else s
          (s, (s.line (lineOf pa)).ver + (if ok then 0 else 2 ^ 31))
        match r with
        | none => none
        | some (s, v) =>
          some (s, .go { f := e.f, w := if nw then {} else { regs := [(d.val + n, ⟨BitVec.ofNat 32 v, .n32⟩)] },
                         lat := some (latOf s pa) })) s

/-! ## Replica sums (R225, R257, R409) -/

def sumBytes : SumKind → Nat
  | .int => 4 | .ea160 => 32 | .ea320 => 64

/-- The modules that a .pod gather of a page also asks: the members that map it, which only they know (R257, R409; log 99). -/
def gatherAsks (s : State) (pod : Bool) (pa : Nat) : List Nat :=
  if pod then (List.range 64).filter fun m => m != s.hub.modid && s.hub.podmemb.getLsbD m && Config.podMaps m (pa % 2 ^ 49 / 4096) else []

/-- The replica of a contribution cell on a die of this module. -/
def replicaOf (s : State) (pa die : Nat) : Nat := pa % 2 ^ 49 + die * 2 ^ 49 + s.hub.modid * 2 ^ 52

/-- The first poisoned granule of a cell of n bytes over the replicas of this module. -/
def badReplica (s : State) (pa n : Nat) : Option Nat :=
  ((List.range 8).filterMap fun d => badGranule (s.line (lineOf (replicaOf s pa d))).poison (pa % 128) n).min?

/-- ldsum (R257): the core's own entry of the cell drains (R225, R226), the gather is posted, and its result, a register or the latch of the run, is owed
until LDSUM_GATHER (R151). -/
def execLdsum (c : Ctl) (k : SumKind) (pod : Bool) (d : Option (Fin 256)) (ad : Addr) (s : State) : Host.Outcome State Fault Refusal :=
  issueWith (.ldsum c k pod d ad) .none (each fun e s =>
    match siteOf s e.f, effAddr e.env e.f 4 ad with
    | none, _ => none
    | _, .error t => some (s, .trap t)
    | some site, .ok a =>
      match globAt s site .g a (sumBytes k) (sumBytes k) { kind := 2, r := true } with
      | .error t => some (s, .trap t)
      | .ok (va, pa, leaf) =>
        if !leafContrib leaf then some (s, .trap (.at .protection va 2))
        else if s.walkWaits site.core site.ctx va || ((s.core site.core).entry (lineOf pa)).isSome && s.blocked (lineOf pa) then none
        else
          let asks := gatherAsks s pod pa
          let s' := drainLine (noteMiss s site.core site.ctx va) site.core (lineOf pa)
          match badReplica s' pa (sumBytes k) with
          | some g => some (s, .trap (poisonAt va pa g))
          | none =>
            if !asks.all (podRoom s) then none
            else
              let s := s'
              let ga : Gather := { id := s.nextId, fibre := e.f.key, before := e.f, issued := s.issuedAt, pos := e.f.runPos, c := c.c, d := d, kind := k,
                                   pod := pod, pa := pa, va := va, await := s.hub.modid :: asks }
              let s := asks.foldl podSend s
              let f := match d with | some n => { e.f with avail := put (e.f.fb + n.val) (s.clock + 2 ^ 40) e.f.avail } | none => e.f
              some ({ s with nextId := s.nextId + 1, gathers := s.gathers ++ [ga] }, .go { f := f, lat := some (2 ^ 40) })) s

/-! ## Prefetch, fence (R260, R261) -/

/-- The prefetch of a line (R202, R260): a far line of the die comes into its L2 slice, a remote line into the RDC; with hint keep also into L1. DESIGN
CHOICE (log 108): the poison that makes it do nothing is that of the addressed byte's granule at the home. -/
def pflAt (s : State) (k : Site) (va : DWord) (pa : Nat) (leaf : DWord) (h : Hint) : State :=
  let s := noteMiss s k.core k.ctx va
  let line := lineOf pa
  let home := dieOfLine line == k.die && s.ownLine line
  if home && !farLine line || s.poisoned pa 1 then s
  else askFill s k.core line ((if h = .keep then 1 else 0) + (if leafSealed leaf || leafContrib leaf then 2 else 0))

/-- pfl (R260): nothing but a prefetch; an address that fails does nothing. -/
def pflOne (sp : Space) (h : Hint) (ea : Except Trap DWord) (e : Ex) (s : State) : Option (State × Act) :=
  match siteOf s e.f, ea with
  | none, _ => none
  | _, .error t => some (s, .trap t)
  | some k, .ok a =>
    match globAt s k sp a 1 1 { kind := 2, r := true } with
    | .error _ => some (s, .go { f := e.f })
    | .ok (va, pa, leaf) =>
      some (pflAt s k va pa leaf h, .go { f := e.f })

def execPfl (g : Guard) (sp : Space) (h : Hint) (ad : Addr) (s : State) : Host.Outcome State Fault Refusal :=
  issueWith (.pfl g sp h ad) .none (each fun e s => pflOne sp h (effAddr e.env e.f 1 ad) e s) s

/-- The gathers that are earlier loads of a fibre and have not returned (R163, R217). -/
def gathersOf (s : State) (f : Fibre) : List Nat := (s.gathers.filter fun g => g.isOf f.key).map (·.id)

/-- fence (R217, R218, R261): a relaxed fence performs the release row at .quad or wider; the fibre's later accesses wait until its earlier loads have
returned and, at .quad or wider, the homes have acknowledged its earlier writes and what drains here. -/
def execFence (g : Guard) (o : Ord) (sc : Scope) (s : State) : Host.Outcome State Fault Refusal :=
  issueWith (.fence g o sc) .none (each fun e s =>
    match siteOf s e.f with
    | none => none
    | some k =>
      if wideScope sc && drainHeld s k.core then none
      else
        let n := s.nextId
        let s := if o = .acq then s else releaseAt s k.core sc
        let s := if acquires o then acquireAt s k.core sc else s
        if sc = .lane ∨ (sc = .core ∧ o = .rlx) then some (s, .go { f := e.f })
        else
          some (s, .go { f := { e.f with accAt := max e.f.accAt e.f.doneAt,
                                         await := if wideScope sc then awaited s k.core e.f n else e.f.await ++ gathersOf s e.f } })) s

/-! ## Barriers (R243, R244, R264) -/

def barNeed : Need := { kind := 4, r := true, w := true, seals := true }

/-- One arrival at a barrier cell, applied at its home in one step: the phase that it arrived in (R244). -/
def barArrive (s : State) (pa : Nat) : State × Nat :=
  let ex := leWord (s.bytes pa 4)
  let ar := leWord (s.bytes (pa + 4) 4)
  let ph := leWord (s.bytes (pa + 8) 4)
  if ex ≤ ar + 1 then (homePut s (pa + 4) (leBytes 0 4 ++ leBytes ((ph + 1) % 2 ^ 32) 4), ph)
  else (homePut s (pa + 4) (leBytes (ar + 1) 4), ph)

/-- The unit of a barrier network whose arrivals of one clock make one message (R244). -/
def barUnit (sc : Scope) (core : Nat) : Nat :=
  match sc with
  | .core | .lane => core
  | .quad => core / 4
  | _ => core / 128

/-- An arrival joins the message of its clock. -/
def barJoin (ms : List BarMsg) (pa sc unit clk : Nat) (a : Arrival) : List BarMsg :=
  if ms.any fun m => m.pa == pa && m.scope == sc && m.unit == unit && m.clk == clk then
    ms.map fun m => if m.pa == pa && m.scope == sc && m.unit == unit && m.clk == clk
      then { m with arrivals := insertBy (·.gfid) a m.arrivals } else m
  else ms ++ [{ pa := pa, scope := sc, unit := unit, clk := clk, arrivals := [a] }]

/-- A barrier cell with its checks before the home (R264). -/
def barCell (s : State) (k : Site) (va : DWord) : Except Trap Nat :=
  if va.toNat % 128 ≠ 0 then .error (.at .align va 4)
  else
    match translate s k.core k.ctx va with
    | none => .error (.at .translation va 4)
    | some (pa, leaf) =>
      if !leafR leaf || !leafW leaf || leafContrib leaf then .error (.at .protection va 4)
      else if leafSealed leaf then .error (.at .sealedStore va 4)
      else .ok pa

/-- bar (R244, R264): the release at its scope is done (`releaseWait`); the arrival joins the message of its clock, which the cell's home applies once the
clock's issues are made (log 16). Its phase is owed to its window entry until then. An arrival at a line that is held back waits. -/
def barOne (sc : Scope) (d : Dst) (a : Op64) (e : Ex) (s : State) : Option (State × Act) :=
  match siteOf s e.f, readOp64 e.env e.f a with
  | none, _ => none
  | _, .error t => some (s, .trap t)
  | some k, .ok va =>
    match barCell s k va with
    | .error t => some (s, .trap t)
    | .ok pa =>
      if s.reserved (lineOf pa) then none
      else
        let s := sendAhead (noteMiss s k.core k.ctx va) k.core (lineOf pa)
        let a : Arrival := { gfid := k.gfid, core := k.core, dst := d, va := va, issued := s.issuedAt, before := e.f }
        let f := match d with | .v n => { e.f with avail := put (e.f.fb + n.val) (s.clock + 2 ^ 40) e.f.avail } | _ => e.f
        some ({ s with bars := barJoin s.bars pa sc.code (barUnit sc k.core) s.clock a }, .go { f := f, lat := some (latOf s pa) })

def execBar (g : Guard) (sc : Scope) (d : Dst) (a : Op64) (s : State) : Host.Outcome State Fault Refusal :=
  issueWith (.bar g sc d a) .none (each (barOne sc d a)) s

/-! ## Sealing (R208, R209, R265) -/

/-- The leaves of a range of pages, walked from its first page: address, entry address and size of each; none where a page is unmapped. -/
def leavesFrom (s : State) (ctx : Nat) (last : Nat) : Nat → Nat → List (Nat × Option (DWord × Nat × Nat))
  | 0, _ => []
  | fuel + 1, va =>
    if last ≤ va then []
    else
      match walk s ctx (BitVec.ofNat 64 va) with
      | none => (va, none) :: leavesFrom s ctx last fuel (va + 4096)
      | some (leaf, ea, bits) => (va, some (leaf, ea, bits)) :: leavesFrom s ctx last fuel ((va / 2 ^ bits + 1) * 2 ^ bits)

/-- The first failure of a range (R265). DESIGN CHOICE (log 107): each check is made over the whole range before the next. -/
def sealCheck (s : State) (ctx : Nat) (isSeal : Bool) (start : DWord) (pages : Nat) : Option Trap :=
  let last := start.toNat + 4096 * pages
  let ls := leavesFrom s ctx last pages start.toNat
  let cut (l : Nat × Option (DWord × Nat × Nat)) : Bool := match l.2 with
    | some (_, _, b) => decide (l.1 / 2 ^ b * 2 ^ b < start.toNat) || decide (last < (l.1 / 2 ^ b + 1) * 2 ^ b)
    | none => false
  let bad (l : Nat × Option (DWord × Nat × Nat)) : Bool := match l.2 with
    | some (e, _, _) => (isSeal && !leafW e) || leafContrib e
    | none => false
  if start.toNat % 4096 ≠ 0 then some (.at .align start 3)
  else
    match ls.find? cut with
    | some l => some (.at .align (BitVec.ofNat 64 l.1) 3)
    | none =>
      match ls.find? (·.2.isNone) with
      | some l => some (.at .translation (BitVec.ofNat 64 l.1) 3)
      | none => (ls.find? bad).map fun l => .at .protection (BitVec.ofNat 64 l.1) 3

/-- seal and unseal: the checks of every page, then the operation goes to the module's sealing unit (R265). -/
def sealOne (isSeal pod : Bool) (a : Op64) (b : Src) (e : Ex) (s : State) : Option (State × Act) :=
  match siteOf s e.f, readOp64 e.env e.f a, readInt e.env e.f b with
  | none, _, _ => none
  | _, .error t, _ => some (s, .trap t)
  | _, _, .error t => some (s, .trap t)
  | some k, .ok va, .ok n =>
    if n = 0 then some (s, .trap (.illegalAt 0))
    else
      match sealCheck s k.ctx isSeal va n.toNat with
      | some t => some (s, .trap t)
      | none =>
        some ({ s with sealQ := s.sealQ ++ [{ ctx := k.ctx, die := k.die, isSeal := isSeal, pod := pod, start := va.toNat, pages := n.toNat,
                                              fibre := e.f.key }] }, .go { f := e.f })

def execSeal (g : Guard) (pod : Bool) (a : Op64) (b : Src) (s : State) : Host.Outcome State Fault Refusal :=
  issueWith (.seal g pod a b) .none (each (sealOne true pod a b)) s

def execUnseal (g : Guard) (pod : Bool) (a : Op64) (b : Src) (s : State) : Host.Outcome State Fault Refusal :=
  issueWith (.unseal g pod a b) .none (each (sealOne false pod a b)) s

end Sys2Proof.Machine
end

