-- ==== Sys2Proof/Machine/CopyEngine.lean ====
section
/-! DEFINITION. The copy engine's own steps and the completion record (R202, R297 to R304). -/

namespace Sys2Proof.Machine

/-! ## Commands and entries (R297, R298) -/

/-- A team's place for the engines that act for it. -/
def siteOfTeam (s : State) (t : Team) : Site :=
  let l := s.teamLaunch t
  { team := t, lau := l, core := t.core, die := dieOfCore t.core, ctx := l.ctx, gfid := 0 }

def Core.cmd (c : Core) (id : Nat) : Option CopyCmd := c.copyQ.find? (·.id == id)
def Core.setCmd (c : Core) (x : CopyCmd) : Core := { c with copyQ := c.copyQ.map fun y => if y.id == x.id then x else y }

/-- The first four commands of the queue are in progress (R297). -/
def Core.active (c : Core) (id : Nat) : Bool := (c.copyQ.take 4).any (·.id == id)

/-- The four words of the entry at a chain position; none past the carve-out (R298, R320). -/
def entryAt (s : State) (t : Team) (c : CopyCmd) (pos : Nat) : Option (Nat × Nat × Nat × Nat) :=
  let o := c.base + 32 * pos
  if t.scrSize < o + 32 then none else some (scrWord s t o 0, scrWord s t o 1, scrWord s t o 2, scrWord s t o 3)

/-- The kinds of entries (R298). -/
inductive EntryOp where
  | endE | copy | copymma | tmove | prefetch | loop | skipif | signal | bad | beyond
  deriving DecidableEq, Repr

def opOf (w0 : Nat) : EntryOp :=
  match w0 % 256 with
  | 0 => .endE | 1 => .copy | 2 => .copymma | 3 => .tmove | 4 => .prefetch | 5 => .loop | 6 => .skipif | 7 => .signal | _ => .bad

/-- What the engine meets at the command's position; xcopy and tmove hold one entry of their own kind and behave as if END followed (R320). -/
def curOp (s : State) (t : Team) (c : CopyCmd) : EntryOp :=
  match c.work, c.kind with
  | some w, _ => opOf w.w0
  | none, .xchain => (match entryAt s t c c.pos with | none => .beyond | some e => opOf e.1)
  | none, .xcopy =>
    if c.pos = 1 then .endE
    else (match entryAt s t c 0 with | none => .beyond | some e => if opOf e.1 = .copy then .copy else .bad)
  | none, .tmove =>
    if c.pos = 1 then .endE
    else (match entryAt s t c 0 with | none => .beyond | some e => if opOf e.1 = .tmove then .tmove else .bad)

/-- How an entry ends: it goes on at a position with the refusals counted, stops with a status, address and detail, or waits. -/
inductive EntryEnd where
  | go (pos : Nat) (lp : Option CopyLoop) (refused : Nat)
  | stop (status : Nat) (faddr : DWord) (detail : Nat)
  | wait
  deriving DecidableEq, Repr

/-- The position after an entry of n places, at the end of a loop body the next iteration (R302). -/
def nextPos (c : CopyCmd) (n : Nat) : Nat × Option CopyLoop :=
  match c.lp with
  | none => (c.pos + n, none)
  | some l =>
    if c.pos + n < l.first + l.n then (c.pos + n, some l)
    else if l.j + 1 < l.k then (l.first, some { l with j := l.j + 1 })
    else (l.first + l.n, none)
def EntryEnd.next (c : CopyCmd) (n refused : Nat) : EntryEnd := .go (nextPos c n).1 (nextPos c n).2 refused

/-- A value of a record that the spec does not state: the address of a BAD_ENTRY or MMA_REFUSED (log 9). -/
def freeDWord (s : State) : DWord × State := (Config.freeWord s.free, { s with free := s.free + 1 })

/-- The tiles of the entry that a command has in progress are READY again (R194). -/
def freeTilesOf (s : State) (core cmd : Nat) : State :=
  match (s.core core).cmd cmd with
  | some { work := some w, .. } =>
    let give (s : State) (x : Option Nat) : State := match x with | some ix => setTileSt s core ix .ready | none => s
    give (give s w.out) w.inn
  | _ => s

/-- The command after an entry: further on, or ended with its record (R304); the entry's tiles are free. -/
def endEntry (s : State) (core : Nat) (t : Team) (c : CopyCmd) (r : EntryEnd) : State :=
  match r with
  | .wait => s
  | .go pos lp refused =>
    let s := freeTilesOf s core c.id
    s.setCore core ((s.core core).setCmd { c with pos := pos, lp := lp, skipped := (c.skipped + refused) % 65536, work := none })
  | .stop st fa dt =>
    let s := freeTilesOf s core c.id
    let x := s.core core
    let s := s.setCore core { x with copyQ := x.copyQ.filter (·.id != c.id) }
    let (fa, s) := if st = 2 ∨ st = 6 then freeDWord s else (fa, s)
    postRecord s { id := 0, ctx := (s.teamLaunch t).ctx, team := t.id, core := core, cell := c.cell, faddr := fa, skipped := c.skipped,
                   index := c.pos % 65536, detail := dt, status := st }

/-- One step of a command in progress whose entry is of one kind; the writes of the fibres that posted it have reached their homes before its first
access (R223). While its context is being reset it goes no further (R364). -/
def entryStep (core cmd : Nat) (op : List EntryOp) (act : Team → CopyCmd → Nat × Nat × Nat × Nat → State → State × EntryEnd) (s : State) :
    Host.Outcome State Fault Refusal :=
  match (s.core core).cmd cmd with
  | none => .next s
  | some c =>
    match s.team c.team with
    | none => .next s
    | some t =>
      if !(s.core core).active cmd || !op.contains (curOp s t c) || s.owes core c.acks || (s.ctx (s.teamLaunch t).ctx).resetting then .next s
      else
        let s := syncDie s (dieOfCore core)
        let (s, r) := act t c ((entryAt s t c c.pos).getD (0, 0, 0, 0)) s
        .next (endEntry s core t c r)

def badEntry : EntryEnd := .stop 2 0 0

/-! ## COPY (R298 to R300) -/

/-- One side of a COPY: its space, the address of its first row, and its pitch; none where the entry is bad. -/
structure CopySide where
  sp    : Nat
  addr  : Nat
  pitch : Nat
  tile  : Option Nat
  deriving DecidableEq, Repr

/-- A side's address as the loop's iteration moves it (R302). -/
def moved (c : CopyCmd) (src : Bool) (a : Nat) : Nat :=
  match c.lp with
  | none => a
  | some l => (BitVec.ofNat 64 a + BitVec.ofNat 64 l.j * (if src then l.srcStride else l.dstStride)).toNat

def copySide (s : State) (t : Team) (c : CopyCmd) (src : Bool) (sp a pitch len rows : Nat) : Option CopySide :=
  match sp with
  | 2 =>
    let h := fld a 0 6
    let r := fld a 8 7
    if a ≠ h + 256 * r then none
    else
      match tileIx t h with
      | none => none
      | some ix =>
        let e := (s.core t.core).tile ix
        if e.st = .empty || e.rows + 1 < r + rows || e.pitch < len then none
        else some ⟨2, e.addr + r * e.pitch, e.pitch, some ix⟩
  | 3 => none
  | _ => some ⟨sp, moved c src a, pitch, none⟩

/-- The chunks of a row: they end at line boundaries of the destination (R299). -/
def chunksOf (src dst : Nat) : Nat → Nat → List (Nat × Nat × Nat)
  | 0, _ => []
  | _, 0 => []
  | fuel + 1, n =>
    let k := min n (128 - dst % 128)
    (src, dst, k) :: chunksOf (src + k) (dst + k) fuel (n - k)

/-- A chunk read in full: bytes with their poison, or the failure (R299, R304). -/
def readChunk (s : State) (k : Site) (sp a n : Nat) : Except (Nat × DWord) (List (Byte × Bool)) :=
  let c := s.core k.core
  let local' (base : Nat) := (List.range n).map fun i => (c.byte (base + i), (c.badAt (base + i) 1).isSome)
  match sp with
  | 0 => (engineRead s k.core k.ctx (BitVec.ofNat 64 a) n).mapError fun t => (statusOf t, t.faddr)
  | 1 => if k.team.scrSize < a + n then .error (4, BitVec.ofNat 64 a) else .ok (local' (k.team.scrBase + a))
  | _ => .ok (local' a)

/-- The poison of the destination's granules that a chunk carries (R204, R299). -/
def badMask (o : Nat) (bs : List (Byte × Bool)) : BitVec 4 :=
  BitVec.ofNat 4 (((List.range 4).map fun g => if bs.zipIdx.any fun b => b.1.2 && (o + b.2) / 32 == g then 2 ^ g else 0).sum)

/-- A chunk written as one write (R203, R299). -/
def writeChunk (s : State) (k : Site) (sp a : Nat) (bs : List (Byte × Bool)) : Except (Nat × DWord) State :=
  let bytes := bs.map (·.1)
  let inStore (base : Nat) : State :=
    let c := (s.core k.core).putBytes base bytes
    s.setCore k.core (bs.zipIdx.foldl (fun c b => if b.1.2 then c.markBad ((base + b.2) / 32) else c) c)
  match sp with
  | 0 =>
    match checkVa s k.core k.ctx (BitVec.ofNat 64 a) { kind := 5, w := true, seals := true } with
    | .error t => .error (statusOf t, t.faddr)
    | .ok (pa, _) => .ok (engineWrite s k.core pa bytes (badMask (pa % 128) bs))
  | 1 => if k.team.scrSize < a + bs.length then .error (4, BitVec.ofNat 64 a) else .ok (inStore (k.team.scrBase + a))
  | _ => .ok (inStore a)

/-- What one chunk of a COPY comes to. -/
inductive CopyRes where
  | done (s : State)
  | refused (s : State) (va : Nat)
  | failed (s : State) (f : Nat × DWord)
  | held

/-- Whether a chunk waits: its destination line is reserved for another module's commit (R232), or its source line's layer answers no access (R450). -/
def chunkHeld (s : State) (k : Site) (ssp dsp a d : Nat) : Bool :=
  let away (va : Nat) (held : Nat → Bool) : Bool := s.walkWaits k.core k.ctx (BitVec.ofNat 64 va) ||
    match translate s k.core k.ctx (BitVec.ofNat 64 va) with
    | some (pa, _) => held (lineOf pa)
    | none => false
  (dsp == 0 && away d s.reserved) || (ssp == 0 && away a s.asleep)

/-- A versioned write's comparison at the home, after the claims of the line have been recalled; a refusal leaves what they drained (R199, R212, R300). -/
def versionAt (s : State) (k : Site) (line ver : Nat) : State × Bool :=
  let s := recallLine (reachHome s k.die line) line
  (s, (s.line line).ver == ver)

/-- One chunk: read in full, then written as one write; `chk` is the version that the line written must have (R299, R300). -/
def runChunk (s : State) (k : Site) (ssp dsp : Nat) (chk : Option Nat) (x : Nat × Nat × Nat) : CopyRes :=
  if chunkHeld s k ssp dsp x.1 x.2.1 then .held
  else
    match readChunk s k ssp x.1 x.2.2 with
    | .error f => .failed s f
    | .ok bs =>
      let (s, same) := match chk, checkVa s k.core k.ctx (BitVec.ofNat 64 x.2.1) { kind := 5, w := true, seals := true } with
        | some v, .ok (pa, _) => versionAt s k (lineOf pa) v
        | _, _ => (s, true)
      if !same then .refused s x.2.1
      else
        match writeChunk s k dsp x.2.1 bs with
        | .error f => .failed s f
        | .ok s => .done s

/-- The fields of a COPY or COPYMMA entry that must hold; none for BAD_ENTRY (R298). -/
def copySides (s : State) (t : Team) (c : CopyCmd) (w : Nat × Nat × Nat × Nat) (mma : Bool) : Option (CopySide × CopySide) :=
  let (w0, w1, w2, w3) := w
  let len := fld w3 0 16 + 1
  let rows := fld w3 16 16 + 1
  let dsp := fld w0 12 2
  if fld w0 14 2 ≠ 0 ∨ fld w3 56 8 ≠ 0 ∨ (fld w0 8 1 = 1 ∧ dsp ≠ 0) ∨ (mma ∧ dsp ≠ 2) then none
  else
    match copySide s t c true (fld w0 10 2) w1 (fld w0 40 24) len rows, copySide s t c false dsp w2 (fld w3 32 24) len rows with
    | some a, some b => some (a, b)
    | _, _ => none

/-- The chunks of a COPY, row by row (R299). -/
def copyChunks (src dst : CopySide) (w3 : Nat) : List (Nat × Nat × Nat) :=
  (List.range (fld w3 16 16 + 1)).flatMap fun i => chunksOf (src.addr + i * src.pitch) (dst.addr + i * dst.pitch) 515 (fld w3 0 16 + 1)

/-- A COPY entry begins: it waits for its tiles, which it makes FILLING and DRAINING (R194, R299); none for BAD_ENTRY. -/
def copyStart (t : Team) (c : CopyCmd) (w : Nat × Nat × Nat × Nat) (mma : Bool) (s : State) : Option (State × Option CopyWork) :=
  match copySides s t c w mma with
  | none => none
  | some (src, dst) =>
    let busy (x : CopySide) : Bool := match x.tile with
      | some ix => ((s.core t.core).tile ix).st != .ready
      | none => false
    if busy src || busy dst then some (s, none)
    else
      let mark (s : State) (x : CopySide) (st : TileSt) : State := match x.tile with | some ix => setTileSt s t.core ix st | none => s
      let wk : CopyWork := { w0 := w.1, todo := copyChunks src dst w.2.2.2, out := dst.tile, inn := src.tile }
      some (mark (mark s src .draining) dst .filling, some wk)

/-- A COPY entry in progress moves its next chunk (R297, R299, R300); `n` is the number of places it takes. -/
def copyGo (t : Team) (c : CopyCmd) (n : Nat) (wk : CopyWork) (s : State) : State × EntryEnd :=
  let store (s : State) (wk : CopyWork) : State := s.setCore t.core ((s.core t.core).setCmd { c with work := some wk })
  let w0 := wk.w0
  match wk.todo with
  | [] => (store s wk, .next c n 0)
  | x :: rest =>
    match runChunk s (siteOfTeam s t) (fld w0 10 2) (fld w0 12 2) (if wk.first && fld w0 8 1 == 1 then some (fld w0 16 24) else none) x with
    | .held => (store s wk, .wait)
    | .refused s va => (store s wk, if fld w0 9 1 = 1 then .next c n 1 else .stop 1 (BitVec.ofNat 64 va) 0)
    | .failed s f => (store s wk, .stop f.1 f.2 0)
    | .done s => (store s { wk with todo := rest, first := false }, if rest = [] then .next c n 0 else .wait)

/-- A COPY entry (R299, R300). -/
def copyEntry (t : Team) (c : CopyCmd) (w : Nat × Nat × Nat × Nat) (mma : Bool) (n : Nat) (s : State) : State × EntryEnd :=
  match c.work with
  | some wk => copyGo t c n wk s
  | none =>
    match copyStart t c w mma s with
    | none => (s, badEntry)
    | some (s, none) => (s, .wait)
    | some (s, some wk) => copyGo t c n wk s

/-- COPY_ENTRY_COPY (R299, R300). -/
def execCopyEntryCopy (core cmd : Nat) (s : State) : Host.Outcome State Fault Refusal :=
  entryStep core cmd [.copy] (fun t c w s => copyEntry t c w false 1 s) s

/-! ## COPYMMA (R301) -/

/-- The request that an extension entry holds: swap, adapter tile, tiles, crew, accumulator and word; none for BAD_ENTRY, and the trap
code of an encoding that the instruction does not have (R301). -/
def extension (w : Nat × Nat × Nat × Nat) : Option (Except Nat Instr) :=
  let (w0, w1, w2, w3) := w
  let zero := fld w0 57 7 == 0x72 && (fld w0 51 6 == 1 || fld w0 51 6 == 2) && fld w0 4 25 == 0 && w3 == 0 && w1 / 2 ^ 32 == 0 && w2 / 2 ^ 32 == 0
  if !zero then none else some ((decodeWords [w0]).mapError fun _ => 1)

/-- The tiles and the crew that an extension names. -/
def extNames : Instr → List (Fin 64) × Nat
  | .mma _ _ ad t q _ _ => (t :: ad.toList, q.val)
  | .mmas _ _ _ a b c q _ _ => ([a, b, c], q.val)
  | _ => ([], 0)

/-- The post of a COPYMMA: as if the crew had issued the instruction in this clock (R274, R301). -/
def postExt (s : State) (t : Team) (i : Instr) (word : Nat) : Except Trap (Option State) :=
  let k := siteOfTeam s t
  let (tiles, q) := extNames i
  match t.crew q with
  | none => .error { code := .crewPartial, aux := q }
  | some cr =>
    let es := (liveOf cr).filterMap fun x => (s.fibre (t.key x)).map (exOf s t i 0)
    if tiles.any fun h => tileBusy s t h.val then .ok none
    else
      match i with
      | .mma _ sw ad ta q acc _ => (mmaOp sw ad ta q acc word k es s).map fun r => r.map (·.1)
      | .mmas _ sw pat ta tb tc q acc _ => (mmasOp sw pat ta tb tc q acc word k es s).map fun r => r.map (·.1)
      | _ => .ok none

def causeOf (t : Trap) : Nat := if t.code = .engineFault then t.detail else t.code.num

/-- COPY_ENTRY_COPYMMA (R301): the copy, then the post; a full table delays the post. -/
def copymmaEntry (t : Team) (c : CopyCmd) (w : Nat × Nat × Nat × Nat) (s : State) : State × EntryEnd :=
  let copied (s : State) : State := s.setCore t.core ((s.core t.core).setCmd { c with work := some { w0 := w.1, todo := [] } })
  match entryAt s t c (c.pos + 1) with
  | none => (s, .stop 4 (BitVec.ofNat 64 (c.base + 32 * (c.pos + 1))) 0)
  | some e =>
    let inside := match c.lp with | some l => decide (c.pos + 1 < l.first + l.n) | none => true
    match extension e, inside with
    | none, _ => (s, badEntry)
    | _, false => (s, badEntry)
    | some x, true =>
      let (s, r) := copyEntry t c w true 2 s
      match r with
      | .go _ _ 0 =>
        let s := freeTilesOf s t.core c.id
        (match x with
        | .error code => (s, .stop 6 0 code)
        | .ok i =>
          match postExt s t i (e.2.1 % 2 ^ 32) with
          | .error tr => (s, .stop 6 0 (causeOf tr))
          | .ok (some s) => (copied s, r)
          | .ok none => (copied s, .wait))
      | _ => (s, r)

def execCopyEntryCopymma (core cmd : Nat) (s : State) : Host.Outcome State Fault Refusal :=
  entryStep core cmd [.copymma] copymmaEntry s

/-! ## TMOVE (R202, R303) -/

/-- log2 of the page size of a SIZE code; none where the code has none (R298). -/
def pageBits : Nat → Option Nat
  | 0 => some 12 | 1 => some 16 | 2 => some 21 | 3 => some 25 | 4 => some 30 | 5 => some 34 | _ => none

/-- Whether a physical range lies in a frame that the kernel granted the context (R303). -/
def granted (s : State) (ctx pa n : Nat) : Bool := (s.ctx ctx).frames.any fun f => decide (f.1 ≤ pa ∧ pa + n ≤ f.1 + f.2)

/-- A map's entries of one range copied onto an equal range, which loses its own. -/
def carry {α : Type} (m : List (Nat × α)) (src dst n : Nat) : List (Nat × α) :=
  (m.filter fun e => src ≤ e.1 && e.1 < src + n).foldl (fun m e => put (e.1 - src + dst) e.2 m)
    (m.filter fun e => !(dst ≤ e.1 && e.1 < dst + n))

/-- Every copy of a range of lines is dropped, in L1s, L2 slices and RDCs, and so are the fills on their way. -/
def dropCopies (s : State) (line n : Nat) : State :=
  let out (l : Nat) : Bool := !(line ≤ l && l < line + n)
  { s with cores := s.cores.map fun e => (e.1, { e.2 with l1 := e.2.l1.filter fun x => out x.1, fills := e.2.fills.filter fun x => out x.1 }),
           dies := s.dies.map fun e => (e.1, { e.2 with rdc := e.2.rdc.filter fun x => out x.1, l2 := e.2.l2.filter out,
                                                        sharers := e.2.sharers.filter fun x => out x.1 }) }

/-- An attempt whose lines have moved. -/
def Txn.move (x : Txn) (mv : Nat → Nat) : Txn :=
  { x with rset := x.rset.map fun r => { r with line := mv r.line }, wset := x.wset.map fun w => { w with line := mv w.line } }

/-- What is in flight for the old frame's addresses is for the new frame's: the old home forwards it (R202). `mv` maps a physical address. -/
def forwardAll (s : State) (mv : Nat → Nat) : State :=
  let line (l : Nat) : Nat := mv (l * 128) / 128
  let fib (f : Fibre) : Fibre := { f with txn := f.txn.map (Txn.move · line) }
  { s with
    fibres := s.fibres.map fun e => (e.1, fib e.2),
    gathers := s.gathers.map fun g => { g with pa := mv g.pa, before := fib g.before },
    bars := s.bars.map fun m => { m with pa := mv m.pa },
    quads := s.quads.map fun q => (q.1, { q.2 with parts := q.2.parts.map fun p => (p.1, { p.2 with
      adds := p.2.adds.map fun a => { a with cells := a.cells.map fun c => (mv c.1, c.2) } }) }) }

/-- The TLB entries of a page of a context are dropped in every die (R202, R207). -/
def dropTlb (s : State) (ctx : Nat) (va : DWord) : State :=
  tlbDrop s (fun _ => true) fun x => x.ctx == ctx && va.toNat / 2 ^ x.bits == x.base / 2 ^ x.bits

/-- The leaf entries of a page name another frame, each keeping its other bits (R202, R205). -/
def setFrame (s : State) (die : Nat) (leaf : DWord) (ea new : Nat) : State :=
  (leafEntries leaf ea).foldl (fun s a =>
    let old : DWord := BitVec.ofNat 64 (s.dword a)
    homeEngineWrite s die a (leBytes (new + (old &&& 0xFC00000000000FFF#64).toNat) 8)) s

/-- The next line of a page moves with its version and poison: what the cores hold of it reaches the old home first, its watchers wake, and what is on its
way to it is forwarded (R202). -/
def moveLine (s : State) (m : PageMove) : State :=
  let src := m.old + 128 * m.done
  let dst := m.new + 128 * m.done
  let on := { m with done := m.done + 1 }
  let s := { s with moves := s.moves.map fun x => if x = m then on else x }
  if m.old = m.new then s
  else
    let s := s.cores.foldl (fun s c => drainLine s c.1 (lineOf src)) s
    let s := wakeLine s (lineOf src)
    forwardAll (dropCopies (dropCopies
        { s with mem := carry s.mem src dst 128, lines := carry s.lines (lineOf src) (lineOf dst) 1 } (lineOf src) 1) (lineOf dst) 1)
      fun pa => if src ≤ pa ∧ pa < src + 128 then pa - src + dst else pa

/-- After the last line the table entries name the new frame, and the old translation is invalidated (R202, R207). -/
def endMove (s : State) (m : PageMove) : State :=
  let s := { s with moves := s.moves.filter fun x => !(x.core == m.core && x.cmd == m.cmd) }
  dropTlb (setFrame s (dieOfCore m.core) m.leaf m.ea m.new) m.ctx m.va

def PageMove.lines (m : PageMove) : Nat := 2 ^ m.bits / 128

/-- The page of a command that is being moved. -/
def State.moveOf (s : State) (core cmd : Nat) : Option PageMove := s.moves.find? fun m => m.core == core && m.cmd == cmd

/-- A move goes on with one line, which a commit's reservation holds back (R232). -/
def moveStep (s : State) (c : CopyCmd) (m : PageMove) : State × EntryEnd :=
  if (s.line (lineOf (m.old + 128 * m.done))).resv.isSome then (s, .wait)
  else
    let s := moveLine s m
    if m.lines ≤ m.done + 1 then (endMove s m, .next c 1 0) else (s, .wait)

/-- What is left of a move, line after line: a freeze or a reset lets it complete whole (R311, R364). -/
def moveRest (s : State) (core cmd : Nat) : Nat → State
  | 0 => s
  | n + 1 =>
    match s.moveOf core cmd with
    | none => s
    | some m =>
      let s := moveLine s m
      if m.lines ≤ m.done + 1 then endMove s m else moveRest s core cmd n

/-- The moves of a context that have begun complete, and their commands stand behind them (R311, R364). -/
def finishMoves (s : State) (ctx : Nat) : State :=
  (s.moves.filter (·.ctx == ctx)).foldl (fun s m =>
    let s := moveRest s m.core m.cmd m.lines
    match (s.core m.core).cmd m.cmd with
    | none => s
    | some c => match s.team c.team with
      | some t => endEntry s m.core t c (.next c 1 0)
      | none => s) s

/-- COPY_ENTRY_TMOVE (R202, R303): a line of the page at a time. -/
def tmoveEntry (t : Team) (c : CopyCmd) (w : Nat × Nat × Nat × Nat) (s : State) : State × EntryEnd :=
  let (w0, w1, w2, w3) := w
  match pageBits (fld w0 8 3) with
  | none => (s, badEntry)
  | some bits =>
    let va := moved c true w1
    if fld w0 11 53 ≠ 0 ∨ w3 ≠ 0 ∨ va % 2 ^ bits ≠ 0 ∨ w2 % 2 ^ bits ≠ 0 then (s, badEntry)
    else
      let k := siteOfTeam s t
      match s.moveOf t.core c.id with
      | some m => moveStep s c m
      | none =>
      let v : DWord := BitVec.ofNat 64 va
      match walk s k.ctx v with
      | none => (s, .stop 3 v 0)
      | some (leaf, ea, pb) =>
        if pb ≠ bits then (s, badEntry)
        else if leafContrib leaf || !granted s k.ctx w2 (2 ^ bits) then (s, .stop 4 v 0)
        else
          let m : PageMove := { core := t.core, cmd := c.id, ctx := k.ctx, va := v, leaf := leaf, ea := ea, bits := bits, old := leafAddr leaf, new := w2 }
          moveStep { s with moves := s.moves ++ [m] } c m

def execCopyEntryTmove (core cmd : Nat) (s : State) : Host.Outcome State Fault Refusal :=
  entryStep core cmd [.tmove] tmoveEntry s

/-! ## PREFETCH, LOOP, SKIPIF, SIGNAL, END (R302 to R304) -/

/-- PREFETCH: one pfl per line of its range, a line at a time; it never stops a chain (R297, R303). -/
def prefetchEntry (t : Team) (c : CopyCmd) (w : Nat × Nat × Nat × Nat) (s : State) : State × EntryEnd :=
  let (w0, w1, w2, w3) := w
  let h := fld w0 8 2
  if fld w0 10 54 ≠ 0 ∨ (h ≠ 0 ∧ h ≠ 2) ∨ w2 = 0 ∨ 2 ^ 32 < w2 ∨ w3 ≠ 0 then (s, badEntry)
  else
    let k := siteOfTeam s t
    let a := moved c true w1
    let n := (a % 128 + w2 + 127) / 128
    let todo := match c.work with
      | some wk => wk.todo
      | none => (List.range n).map fun i => (a / 128 * 128 + 128 * i, 0, 128)
    match todo with
    | [] => (s, .next c 1 0)
    | x :: rest =>
      let va := BitVec.ofNat 64 x.1
      let s := match checkVa s k.core k.ctx va { kind := 5, r := true } with
        | .ok (pa, leaf) => pflAt s k va pa leaf (if h = 2 then .keep else .normal)
        | .error _ => s
      if rest = [] then (s, .next c 1 0)
      else (s.setCore t.core ((s.core t.core).setCmd { c with work := some { w0 := w0, todo := rest } }), .wait)

def execCopyEntryPrefetch (core cmd : Nat) (s : State) : Host.Outcome State Fault Refusal :=
  entryStep core cmd [.prefetch] prefetchEntry s

/-- LOOP (R302); inside a loop body it is BAD_ENTRY. -/
def loopEntry (_ : Team) (c : CopyCmd) (w : Nat × Nat × Nat × Nat) (s : State) : State × EntryEnd :=
  let (w0, w1, w2, w3) := w
  if c.lp.isSome ∨ fld w0 8 8 = 0 ∨ fld w0 16 16 ≠ 0 ∨ fld w0 32 32 = 0 ∨ w3 ≠ 0 then (s, badEntry)
  else
    (s, .go (c.pos + 1) (some { first := c.pos + 1, n := fld w0 8 8, k := fld w0 32 32, j := 0, srcStride := BitVec.ofNat 64 w1,
                                 dstStride := BitVec.ofNat 64 w2 }) 0)

def execCopyEntryLoop (core cmd : Nat) (s : State) : Host.Outcome State Fault Refusal :=
  entryStep core cmd [.loop] loopEntry s

/-- Whether an END stands among the n entries from a position on, the extensions of COPYMMA entries apart. -/
def endAmong (s : State) (t : Team) (c : CopyCmd) : Nat → Nat → Bool
  | 0, _ => false
  | 1, pos => (match entryAt s t c pos with | some e => opOf e.1 == .endE | none => false)
  | n + 2, pos =>
    match (entryAt s t c pos).map fun e => opOf e.1 with
    | some .endE => true
    | some .copymma => endAmong s t c n (pos + 2)
    | _ => endAmong s t c (n + 1) (pos + 1)

/-- The n bytes of a cell that a chain reads at the home in one instant, as ldver reads, with its line (R258, R302). -/
def readCell (s : State) (k : Site) (va : DWord) (n : Nat) : Except Trap (Option (State × Nat × Nat)) := do
  let r ← checkVa s k.core k.ctx va { kind := 5, r := true }
  let z ← checkVa s k.core k.ctx (va + BitVec.ofNat 64 (n - 1)) { kind := 5, r := true }
  match (readHome s k.core (lineOf r.1)).bind fun s => if lineOf z.1 = lineOf r.1 then some s else readHome s k.core (lineOf z.1) with
  | none => pure none
  | some s =>
    let bs ← engineRead s k.core k.ctx va n
    pure (some (s, leWord (bs.map (·.1)), lineOf r.1))

/-- SKIPIF (R302): a cell is read at its home in one instant. A skip within a loop body that jumps over an END, past which the body then runs, is
BAD_ENTRY. -/
def skipifEntry (t : Team) (c : CopyCmd) (w : Nat × Nat × Nat × Nat) (s : State) : State × EntryEnd :=
  let (w0, w1, w2, w3) := w
  let n := fld w0 8 8
  let kind := fld w0 16 3
  let crosses := match c.lp with | some l => decide (l.first + l.n < c.pos + 1 + n) | none => false
  if n = 0 ∨ 5 < kind ∨ fld w0 19 45 ≠ 0 ∨ w2 / 2 ^ 32 ≠ 0 ∨ w3 ≠ 0 ∨ crosses = true then (s, badEntry)
  else
    let k := siteOfTeam s t
    let take (b : Bool) : EntryEnd :=
      if !b then .next c 1 0 else if c.lp.isSome && endAmong s t c n (c.pos + 1) then badEntry else .next c (1 + n) 0
    let ix := match c.lp with | some l => l.j | none => 0
    if kind = 4 then (s, take (ix = w2))
    else if kind = 5 then (s, take (ix ≠ w2))
    else
      let va := BitVec.ofNat 64 (moved c true w1)
      match readCell s k va 4 with
      | .error x => (s, .stop (statusOf x) x.faddr 0)
      | .ok none => (s, .wait)
      | .ok (some (s, v, line)) =>
        let ver := (s.line line).ver
        let b : Bool := match kind with
          | 0 => v == w2
          | 1 => v != w2
          | 2 => ver == w2 % 2 ^ 24
          | _ => ver != w2 % 2 ^ 24
        (s, take b)

def execCopyEntrySkipif (core cmd : Nat) (s : State) : Host.Outcome State Fault Refusal :=
  entryStep core cmd [.skipif] skipifEntry s

/-- SIGNAL (R300, R303): VALUE and the incremented COUNT in one write. -/
def signalEntry (t : Team) (c : CopyCmd) (w : Nat × Nat × Nat × Nat) (s : State) : State × EntryEnd :=
  let (w0, w1, w2, w3) := w
  let a := moved c false w1
  if fld w0 10 6 ≠ 0 ∨ fld w0 40 24 ≠ 0 ∨ w3 ≠ 0 ∨ a % 16 ≠ 0 then (s, badEntry)
  else
    let k := siteOfTeam s t
    let va : DWord := BitVec.ofNat 64 a
    match checkVa s k.core k.ctx va { kind := 5, w := true, seals := true } with
    | .error x => (s, .stop (statusOf x) x.faddr 0)
    | .ok (pa, _) =>
      if s.reserved (lineOf pa) then (s, .wait)
      else
        let (s, same) := versionAt s k (lineOf pa) (fld w0 16 24)
        if fld w0 8 1 = 1 ∧ same = false then
          (s, if fld w0 9 1 = 1 then .next c 1 1 else .stop 1 va 0)
        else
          let n := (s.dword (pa + 8) + 1) % 2 ^ 64
          (engineWrite s k.core pa (leBytes w2 8 ++ leBytes n 8), .next c 1 0)

def execCopyEntrySignal (core cmd : Nat) (s : State) : Host.Outcome State Fault Refusal :=
  entryStep core cmd [.signal] signalEntry s

/-- END, and the entries that stop a chain by themselves: an opcode that no entry has, an entry past the carve-out (R298, R302, R320). -/
def endOfChain (t : Team) (c : CopyCmd) (w : Nat × Nat × Nat × Nat) (s : State) : State × EntryEnd :=
  let (w0, w1, w2, w3) := w
  match curOp s t c with
  | .beyond => (s, .stop 4 (BitVec.ofNat 64 (c.base + 32 * c.pos)) 0)
  | .endE =>
    if c.kind = .xchain ∧ (c.lp.isSome ∨ w0 ≠ 0 ∨ w1 ≠ 0 ∨ w2 ≠ 0 ∨ w3 ≠ 0) then (s, badEntry) else (s, .stop 0 0 0)
  | _ => (s, badEntry)

/-- COPY_ENTRY_END (R298, R304). -/
def execCopyEntryEnd (core cmd : Nat) (s : State) : Host.Outcome State Fault Refusal :=
  entryStep core cmd [.endE, .bad, .beyond] endOfChain s

/-! ## COMPLETION_RECORD (R304) -/

/-- The 16 bytes of a record. -/
def recordBytes (r : Record) : List Byte :=
  leBytes (r.status + 2 ^ 8 * r.detail + 2 ^ 16 * r.index + 2 ^ 32 * r.skipped) 8 ++ leBytes r.faddr.toNat 8

/-- COMPLETION_RECORD: one write to the cell that the command named. A cell whose translation has gone since its checks is not written. -/
def execCompletionRecord (id : Nat) (s : State) : Host.Outcome State Fault Refusal :=
  match s.records.find? (·.id == id) with
  | none => .next s
  | some r =>
    match checkVa s r.core r.ctx r.cell { kind := 5, w := true, seals := true } with
    | .error _ => .next { s with records := s.records.filter (·.id != id) }
    | .ok (pa, _) =>
      if s.reserved (lineOf pa) || (s.ctx r.ctx).resetting then .next s
      else .next (engineWrite { s with records := s.records.filter (·.id != id) } r.core pa (recordBytes r))

end Sys2Proof.Machine
end

