-- ==== Sys2Proof/Machine/MatrixOps.lean ====
section
/-! DEFINITION. What the matrix engine computes: exact column sums, the adapter path, metadata checks, pruning, planes (R271, R276 to R295). -/

namespace Sys2Proof.Machine

/-! ## Operands and column sums (R276, R280 to R282) -/

/-- The weight of a chain operand's bit 0 is 2 ^ -opFrac. -/
def opFrac (fmt : Nat) : Nat := if fmt = 4 then 56 else 12

/-- An operand in units of 2 ^ -opFrac; none for NaR. -/
def operand (fmt code : Nat) : Option Int :=
  match (fmtElem fmt).val code with
  | .fin neg n d => some (signed neg (n * 2 ^ opFrac fmt / d))
  | _ => none

/-- The exact sum of products, and whether a NaR enters it: a NaR operand adds nothing to the chain (R280). -/
def dot : List (Option Int) → List (Option Int) → Int × Bool
  | x :: xs, w :: ws =>
    let t := dot xs ws
    match x, w with
    | some x, some w => (x * w + t.1, t.2)
    | _, _ => (t.1, true)
  | _, _ => (0, false)

/-- Row i of a tile's first 128 columns as operands; a poisoned element counts as NaR (R282). -/
def actRow (c : Core) (t : Tile) (i : Nat) : List (Option Int) :=
  (List.range 128).map fun k => if c.elemBad t i k then none else operand t.fmt (c.elem t i k)

/-- A weight of a plane as an operand; zero in a cleared plane (R272, R321). -/
def Plane.op (p : Plane) (k j : Nat) : Option Int :=
  match p.fmt with
  | none => some 0
  | some f => if p.bad.contains (128 * k + j) then none else operand f (getD 0 (128 * k + j) p.w)

/-- Slots and group size of a pattern (R294), and the elements kept (R295). -/
def patU : Pattern → Nat
  | .p24 | .p14 => 2
  | .p48 => 4
def patG : Pattern → Nat
  | .p24 | .p14 => 4
  | .p48 => 8
def patN : Pattern → Nat
  | .p24 => 2
  | .p14 => 1
  | .p48 => 4

/-- A metadata element; none where its granule is poisoned. -/
def metaAt (c : Core) (t : Tile) (i j : Nat) : Option Nat := if c.elemBad t i j then none else some (c.elem t i j)

/-- The check of a whole metadata tile (R294). -/
def metaBad (c : Core) (t : Tile) (pat : Pattern) : Bool :=
  let u := patU pat
  (List.range 128).any fun j => (List.range 128).any fun i =>
    match metaAt c t i j with
    | none => false
    | some m =>
      decide (8 ≤ m) || decide (patG pat ≤ m) ||
        (i % u != 0 && (match metaAt c t (i - 1) j with | some p => decide (m ≤ p) | none => false))

/-- The column sum of row `row` and column j of a pass, in units of 2 ^ -2·opFrac of the activation format (R280, R294). -/
def colSum (c : Core) (p : Plane) (sparse : Option (Pattern × Tile)) (x : List (Option Int)) (j : Nat) : Int × Bool :=
  match sparse with
  | none => dot x ((List.range 128).map fun k => p.op k j)
  | some (pat, mt) =>
    let xs := (List.range 128).map fun i => match metaAt c mt i j with
      | none => none
      | some m => nth (some 0) x (patG pat * (i / patU pat) + m)
    dot xs ((List.range 128).map fun i => p.op i j)

/-! ## Accumulators (R271, R281, R283) -/

def Part.kind (p : Part) : EaKind := if p.ea320 then .ea320 else .ea160
def accKey (acc : Bool) (i j : Nat) : Nat := bit acc * 16384 + i * 128 + j
def stepKey (acc : Bool) (i : Nat) : Nat := bit acc * 128 + i
def Part.elem (p : Part) (acc : Bool) (i j : Nat) : Acc := getD {} (accKey acc i j) p.acc
def Part.addElem (p : Part) (acc : Bool) (i j : Nat) (a : Acc) : Part :=
  { p with acc := setD {} (accKey acc i j) (eaAdd p.kind (p.elem acc i j) a) p.acc }
/-- One step more of a row, modulo 2 ^ 16. -/
def Part.countStep (p : Part) (acc : Bool) (i : Nat) : Part :=
  { p with steps := setD 0 (stepKey acc i) ((getD 0 (stepKey acc i) p.steps + 1) % 65536) p.steps }
def Part.nanRow (p : Part) (acc : Bool) (i : Nat) : Part :=
  (List.range 128).foldl (fun p j => p.addElem acc i j { nan := true }) p

/-- An exact integer in units of 2 ^ -f scaled by 2 ^ e. -/
def scaledXr (v : Int) (f : Nat) (e : Int) : Xr := .dyadic (v < 0) v.natAbs (e - f)

/-- The addend of a chain's sum: its value, and the NAN bit where a NaR entered it (R280, R281). -/
def chainAcc (k : EaKind) (v : Int × Bool) (f : Nat) (e : Int) : Acc :=
  let a := eaFrom k (scaledXr v.1 f e)
  { a with nan := a.nan || v.2 }

/-- The addend of an adapter term: a NaR makes the whole term NaR (R51, R289). -/
def termAcc (k : EaKind) (v : Int × Bool) (f : Nat) (e : Int) : Acc := if v.2 then { nan := true } else eaFrom k (scaledXr v.1 f e)

/-- The activations of a pass's row, each scaled by its own tile's row exponent, in units of the lower one's power of two, with that exponent: one tile, or
the two of a sparse pass (R42, R281, R294). -/
def rowOf (c : Core) (ta : Tile) (tb : Option Tile) (row : Nat) : List (Option Int) × Int :=
  let ra := expOf ta.rowExp row
  match tb with
  | none => (actRow c ta row, ra)
  | some tb =>
    let rb := expOf tb.rowExp row
    let low := min ra rb
    let up (r : Int) : List (Option Int) → List (Option Int) := List.map fun x => x.map (· * 2 ^ (r - low).toNat)
    (up ra (actRow c ta row) ++ up rb (actRow c tb row), low)

/-- The row's main sums, of activations scaled by 2 ^ rho, added into its accumulator row (R281). -/
def mainAdd (p : Part) (c : Core) (acc : Bool) (plane : Plane) (fmt : Nat) (x : List (Option Int) × Int) (sparse : Option (Pattern × Tile)) (row : Nat) :
    Part :=
  (List.range 128).foldl (fun p j =>
    p.addElem acc row j (chainAcc p.kind (colSum c plane sparse x.1 j) (2 * opFrac fmt) (x.2 + expOf plane.colExp j))) p

/-! ## The adapter path (R287 to R289) -/

/-- An adapter directory entry (R287). -/
structure DirEnt where
  nn    : Nat
  nk    : Nat
  nproj : Nat
  sigma : Int
  rank  : Nat
  bbase : DWord
  abase : DWord
  deriving DecidableEq, Repr

def dirEnt (bs : List Byte) : DirEnt :=
  let x := leWord bs
  { nn := fld x 160 8, nk := fld x 152 8, nproj := fld x 144 8, sigma := (BitVec.ofNat 5 (fld x 136 5)).toInt,
    rank := (match fld x 128 2 with | 0 => 0 | 1 => 8 | 2 => 16 | _ => 32), bbase := BitVec.ofNat 64 (fld x 64 64), abase := BitVec.ofNat 64 x }

/-- The pass word (R279). -/
def pwLast (w : Nat) : Bool := fld w 24 1 == 1
def pwProj (w : Nat) : Nat := fld w 16 8
def pwN (w : Nat) : Nat := fld w 8 8
def pwK (w : Nat) : Nat := fld w 0 8

/-- The tags of the slices that a row with an identifier needs at a step (R288, R289). -/
def tagA (part id w : Nat) : SliceTag := { part := part, id := id, proj := pwProj w, kstep := pwK w, nstep := 0xFF }
def tagB (part id w : Nat) : SliceTag := { part := part, id := id, proj := pwProj w, kstep := 0xFF, nstep := pwN w }
def tagsOf (part id w : Nat) : List SliceTag := if pwLast w then [tagA part id w, tagB part id w] else [tagA part id w]

def Slice.at (s : Slice) (i : Nat) : Option Int := operand 4 (nth 0 s.codes i)

/-- The side accumulator's row after one step's addition (R289). -/
def sideAdd (p : Part) (a : Slice) (x : List (Option Int)) (fa : Nat) (rho : Int) (row : Nat) : Part :=
  (List.range a.rank).foldl (fun p q =>
    let v := dot x ((List.range 128).map fun k => a.at (k * a.rank + q))
    let y := eaAdd .ea320 (getD {} (row * 32 + q) p.side) (termAcc .ea320 v (opFrac fa + 56) rho)
    { p with side := setD {} (row * 32 + q) y p.side }) p

/-- The last step: h is read out of the side accumulator, which is cleared, and the B term is added (R289). -/
def lastAdd (p : Part) (acc : Bool) (b : Slice) (row : Nat) : Part :=
  let h := (List.range b.rank).map fun q => operand 4 (eaRead .ea320 (.tap .t16) .rne (getD {} (row * 32 + q) p.side))
  let p := { p with side := p.side.filter fun e => e.1 / 32 != row }
  (List.range 128).foldl (fun p j =>
    let v := dot h ((List.range b.rank).map fun q => b.at (q * 128 + j))
    p.addElem acc row j (termAcc p.kind v 112 b.sigma)) p

/-! ## A pass's row (R278, R283, R289, R290) -/

/-- The parts of a pass request. -/
structure PassOf where
  swap   : Bool
  ids    : Option Nat
  ta     : Nat
  sparse : Option (Pattern × Nat × Nat)
  acc    : Bool
  word   : Nat
  deriving DecidableEq, Repr

def MReq.pass (r : MReq) : Option PassOf :=
  match r.kind with
  | .pass sw ids ta sp acc w => some ⟨sw, ids, ta, sp, acc, w⟩
  | _ => none
def MReq.isPass (r : MReq) : Bool := r.pass.isSome

/-- The identifier of a row; a poisoned one reads as 0, and marks the row (R282, R323). -/
def rowId (s : State) (r : MReq) (x : PassOf) (row : Nat) : Nat × Bool :=
  match x.ids with
  | none => (0, false)
  | some ix =>
    let c := s.core r.core
    let t := c.tile ix
    if c.elemBad t 0 row then (0, true) else (c.elem t 0 row, false)

def sliceIn (l : List Slice) (t : SliceTag) : Option Slice := l.find? (·.tag == t)

/-- The whole contribution of a row: main sums, and with its slices the adapter terms of the step; or, failed, the main sums and the NAN bit
(R281, R289, R291). -/
def addRow (s : State) (pn : Nat) (p : Part) (r : MReq) (x : PassOf) (row : Nat) (slices : List Slice) (failed : Bool) : Part :=
  let c := s.core r.core
  let ta := c.tile x.ta
  let xs := rowOf c ta (x.sparse.map fun e => c.tile e.2.1) row
  let sp := x.sparse.map fun e => (e.1, c.tile e.2.2)
  let p := mainAdd p c x.acc r.plane ta.fmt xs sp row
  let (id, bad) := rowId s r x row
  let p := if bad || failed then p.nanRow x.acc row else p
  let p := if id = 0 || failed then p
    else
      let p := match sliceIn slices (tagA pn id x.word) with
        | some a => sideAdd p a xs.1 ta.fmt xs.2 row
        | none => p
      if pwLast x.word then
        match sliceIn slices (tagB pn id x.word) with
        | some b => lastAdd p x.acc b row
        | none => p
      else p
  p.countStep x.acc row

/-! ## Planes and clearing (R271, R272, R277, R286, R322) -/

/-- The plane that an mlds writes from a tile; poisoned weights are marked (R282). -/
def planeOf (c : Core) (t : Tile) : Plane :=
  { fmt := some t.fmt,
    w := (List.range (t.rows + 1)).foldl (fun m k => (List.range (t.cols + 1)).foldl (fun m j => setD 0 (128 * k + j) (c.elem t k j) m) m) [],
    colExp := t.colExp.filter (·.1 ≤ t.cols),
    bad := (List.range (t.rows + 1)).flatMap fun k => ((List.range (t.cols + 1)).filter fun j => c.elemBad t k j).map (128 * k + ·) }

/-- acclr (R286, R327). -/
def Part.clr (p : Part) (all : Bool) (k : EaKind) (acc : Bool) : Part :=
  let wide := k == .ea320
  let whole := all || wide != p.ea320 || (wide && acc)
  if whole then { p with ea320 := wide, acc := [], steps := [], side := [] }
  else
    { p with acc := p.acc.filter (fun e => e.1 / 16384 != bit acc), steps := p.steps.filter (fun e => e.1 / 128 != bit acc), side := [] }

/-! ## Pruning (R295, R329) -/

/-- |w| ordered with NaR largest: none for NaR. -/
def absVal (fmt code : Nat) : Option Nat := (operand fmt code).map Int.natAbs

/-- Whether u·θ < |w|, compared exactly: u = (rnd >> 8)·2^-24 (R295). -/
def retained (fmt code : Nat) (theta rnd : Word) : Bool :=
  match operand fmt code with
  | none => true
  | some v =>
    match Fmt.f32.val theta.toNat with
    | .fin _ n d => decide ((rnd.toNat / 256) * n * 2 ^ opFrac fmt < v.natAbs * 2 ^ 24 * d)
    | _ => false

/-- The rank of an element among the kept: NaR first, then larger |w|, ties to the lower k (R295). -/
def keepBefore (fmt : Nat) (a b : Nat × Nat) : Bool :=
  match absVal fmt a.2, absVal fmt b.2 with
  | none, none => decide (a.1 < b.1)
  | none, some _ => true
  | some _, none => false
  | some x, some y => decide (y < x) || (x == y && decide (a.1 < b.1))

/-- One group of one column: the slots in ascending position with their codes (R295). -/
def pruneGroup (fmt : Nat) (pat : Pattern) (base theta key : Word) (g j : Nat) (codes : List Nat) : List (Nat × Nat) :=
  let es := codes.zipIdx.map fun e => (e.2, e.1)
  let ret := es.filter fun e =>
    retained fmt e.2 theta (mix32 (base + BitVec.ofNat 32 (128 * (g * patG pat + e.1) + j)) key)
  let kept := ret.filter fun e => (ret.filter fun x => keepBefore fmt x e).length < patN pat
  let free := (List.range (patG pat)).filter fun i => !kept.any (·.1 == i)
  sortBy (·.1) (kept ++ (free.take (patU pat - kept.length)).map fun i => (i, 0))

end Sys2Proof.Machine
end

