-- ==== Sys2Proof/Machine/MatrixEngine.lean ====
section
/-! DEFINITION. The matrix engine's own steps: starts, grants, row entries and additions, adapter slices, replays, completions
(R271 to R296, R321 to R329). -/

namespace Sys2Proof.Machine

/-! ## Requests of a partition -/

def Part.req (p : Part) (id : Nat) : Option MReq := p.reqs.find? (·.id == id)
def Part.setReq (p : Part) (r : MReq) : Part := { p with reqs := p.reqs.map fun x => if x.id == r.id then r else x }
def Part.dropReq (p : Part) (id : Nat) : Part := { p with reqs := p.reqs.filter (·.id != id) }

def MReq.isSnap (r : MReq) : Bool := match r.kind with | .snap _ _ _ _ _ => true | _ => false
/-- Whether a pass has sent its last row, or sends none (R275, R293). -/
def MReq.sent (r : MReq) : Bool := r.started.isSome && (r.failed || decide (r.m ≤ r.entered.length))
/-- The first request that has not started; snapshots wait for nothing (R275, R325). -/
def Part.head (p : Part) : Option MReq := p.reqs.find? fun r => r.started.isNone && !r.isSnap

def isMlds : ReqKind → Bool
  | .mlds _ => true
  | _ => false

/-- Whether the head of a partition is a pass that may start (R275, R323). -/
def Part.readyPass (p : Part) : Option MReq :=
  match p.head with
  | none => none
  | some r =>
    match r.pass with
    | none => none
    | some x =>
      let before := p.reqs.takeWhile (·.id != r.id)
      if before.all (fun y => !y.isPass || y.sent) && !(x.swap && before.any fun y => isMlds y.kind) then some r else none

/-- The class of a waiting pass, promoted (R275). -/
def MReq.effCls (r : MReq) : Nat := if r.cls = 0 then 0 else max 1 (r.cls - r.promo)

/-- The tiles of a request become READY (R194, R292, R293). -/
def reqTiles (k : ReqKind) : List Nat :=
  match k with
  | .mlds t => [t]
  | .pass _ ids ta sp _ _ => ta :: ids.toList ++ (match sp with | some (_, b, c) => [b, c] | none => [])
  | .snap t _ _ _ _ => [t]
  | .drainTile t _ _ => [t]
  | .vprune _ _ a b c _ _ _ => [a, b, c]
  | _ => []
def freeTiles (s : State) (r : MReq) : State := (reqTiles r.kind).foldl (fun s ix => setTileSt s r.core ix .ready) s

/-- ENGINE_FAULT on the posting team (R293). -/
def engineFault (s : State) (team cause : Nat) : State := s.later (.asyncEngineFault team cause)

/-- Clears a partition for its next cluster (R272). -/
def Part.cleared : Part := {}

/-! ## The adapter directory and slices (R287, R288) -/

/-- The context that a partition's cluster belongs to. -/
def partCtx (s : State) (p : Part) : Nat :=
  match p.owner.bind fun o => s.launch o.1 with
  | some l => l.ctx
  | none => 0

/-- A directory entry, or the cause of its failure (R287, R291). -/
def readDir (s : State) (qn pn ctx id : Nat) : Except Nat DirEnt :=
  let base : DWord := ((getD 0 pn (s.quad qn).mxdir).setWidth 56).signExtend 64
  match engineRead s (4 * qn) ctx (base + BitVec.ofNat 64 (32 * id)) 32 with
  | .error _ => .error 4
  | .ok bs =>
    if bs.any (·.2) then .error 4
    else
      let d := dirEnt (bs.map (·.1))
      if d.rank = 0 ∨ d.nproj = 0 ∨ d.nk = 0 ∨ d.nn = 0 then .error 4 else .ok d

/-- Whether a pass word's step lies within an identifier's counts (R287). -/
def DirEnt.has (d : DirEnt) (w : Nat) : Bool := decide (pwProj w < d.nproj ∧ pwK w < d.nk ∧ pwN w < d.nn)

/-- The address and size of a slice (R287): a B slice has no K step. -/
def sliceAt (d : DirEnt) (t : SliceTag) : DWord × Nat :=
  let sz := 256 * d.rank
  if t.kstep = 0xFF then (d.bbase + BitVec.ofNat 64 ((t.proj * d.nn + t.nstep) * sz), sz)
  else (d.abase + BitVec.ofNat 64 ((t.proj * d.nk + t.kstep) * sz), sz)

/-- The T16 codes of a slice's bytes, NaR where a byte is poisoned (R282, R287). -/
def sliceCodes : List (Byte × Bool) → List Nat
  | a :: b :: t => (if a.2 || b.2 then 0x8000 else a.1.toNat + 256 * b.1.toNat) :: sliceCodes t
  | _ => []

/-- What a fetch brings: the slice, or the cause of the failure (R291). -/
def fetchSlice (s : State) (qn ctx : Nat) (t : SliceTag) : Except Nat Slice := do
  let d ← readDir s qn t.part ctx t.id
  let (va, n) := sliceAt d t
  match engineRead s (4 * qn) ctx va n with
  | .error _ => .error 5
  | .ok bs => pure { tag := t, rank := d.rank, sigma := d.sigma, codes := sliceCodes bs, used := s.clock }

/-- The ways of a set that a slice takes (R288). -/
def waysIn (t : SliceTag) (rank set : Nat) : Nat :=
  ((List.range (rank / 8)).filter fun n => Config.adapterSet t.part t.id t.proj t.kstep t.nstep n % 64 == set).length

/-- The pass word of a replay entry's row. -/
def Replay.word (e : Replay) (p : Part) : Nat :=
  match (p.req e.req).bind (·.pass) with
  | some x => x.word
  | none => 0

/-- The accumulator tile that a replay entry's row goes into. -/
def Replay.accOf (e : Replay) (p : Part) : Bool :=
  match (p.req e.req).bind (·.pass) with
  | some x => x.acc
  | none => false

/-- The tags that a replay entry needs (R290): none where its row has no identifier. -/
def Replay.tags (e : Replay) (p : Part) : List SliceTag := if e.id = 0 then [] else tagsOf e.part e.id (e.word p)

/-- The slices that a pass in the array reads: those of its rows that are not marked for replay, whether they have entered or are still to come
(R288). -/
def passTags (s : State) (q : Quad) (pn : Nat) (r : MReq) : List SliceTag :=
  match r.pass with
  | none => []
  | some x =>
    if r.started.isNone || r.sent then []
    else (List.range r.m).flatMap fun i =>
      let id := (rowId s r x i).1
      if id = 0 || q.replay.any (fun e => e.part == pn && e.req == r.id && e.row == i) then [] else tagsOf pn id x.word

/-- The pinned slices: those that a pass in the array reads, those of an entry that has passed the side array (R288). -/
def pinned (s : State) (qn : Nat) : List SliceTag :=
  let q := s.quad qn
  (q.parts.flatMap fun e => e.2.reqs.flatMap fun r => passTags s q e.1 r) ++
  (q.replay.filter fun e => e.sidePass.isSome).flatMap fun e => e.tags (q.part e.part)

/-- Evicts least recently used unpinned slices until one set has room; none where it cannot (R288). -/
def makeRoom (pins : List SliceTag) (t : SliceTag) (rank set : Nat) : Nat → List Slice → Option (List Slice)
  | 0, _ => none
  | fuel + 1, cache =>
    if (cache.map fun x => waysIn x.tag x.rank set).sum + waysIn t rank set ≤ 16 then some cache
    else
      match minBy (·.used) (cache.filter fun x => waysIn x.tag x.rank set != 0 && !pins.contains x.tag) with
      | none => none
      | some v => makeRoom pins t rank set fuel (cache.filter (·.tag != v.tag))

/-- A slice enters the cache; none while a set has too few unpinned ways (R288). -/
def cacheSlice (pins : List SliceTag) (cache : List Slice) (x : Slice) : Option (List Slice) :=
  let sets := dedupe ((List.range (x.rank / 8)).map fun n => Config.adapterSet x.tag.part x.tag.id x.tag.proj x.tag.kstep x.tag.nstep n % 64)
  (sets.foldl (fun acc st => acc.bind (makeRoom pins x.tag x.rank st 1025)) (some (cache.filter (·.tag != x.tag)))).map (· ++ [x])

/-- A miss is fetched once, in the context of the request that meets it (R288). -/
def startFetch (q : Quad) (t : SliceTag) (ctx clk : Nat) : Quad :=
  if (sliceIn q.cache t).isSome || q.fetches.any (·.tag == t) then q
  else { q with fetches := q.fetches ++ [{ tag := t, ctx := ctx, clk := clk }] }

def touch (q : Quad) (ts : List SliceTag) (clk : Nat) : Quad :=
  { q with cache := q.cache.map fun x => if ts.contains x.tag then { x with used := clk } else x }

/-! ## REQUEST_START (R275, R284, R286, R322, R325 to R329) -/

/-- The sample of a snapshot: the tile row is written and the count goes to its registers, to be read from the clock after the
next (R155, R283, R325). -/
def snapSample (s : State) (qn pn : Nat) (r : MReq) (tc : Nat) (acc : Bool) (row : Nat) (dsts : List (Nat × Nat)) (sd : Option Nat) : State :=
  let p := s.part qn pn
  let c := s.core r.core
  let vals := (List.range 128).map fun j => eaRead p.kind (.ieee .f32) .rne (p.elem acc row j)
  let n := getD 0 (stepKey acc row) p.steps
  let s := s.setCore r.core (c.putRow (c.tile tc) row vals)
  let s := dsts.foldl (fun s d =>
    match s.fibre d.1 with
    | none => s
    | some f =>
      if getD 0 d.2 f.avail < s.clock + 2 ^ 39 then s
      else s.setFibre d.1 { f with regs := setD Reg.zero d.2 ⟨BitVec.ofNat 32 n, .n32⟩ f.regs, badRegs := f.badRegs.filter (· != d.2),
                                   avail := put d.2 (s.clock + 2) f.avail }) s
  match sd, s.team r.team with
  | some m, some t =>
    if getD 0 m t.sAvail < s.clock + 2 ^ 39 then s
    else s.setTeam t.id { t with sregs := setD 0 m (BitVec.ofNat 64 n) t.sregs, badS := t.badS.filter (· != m), sAvail := put m (s.clock + 2) t.sAvail }
  | _, _ => s

/-- A snapshot that names a1 of an EA320 partition faults; its results are as they were (R321, R327). -/
def snapStart (s : State) (qn pn : Nat) (r : MReq) : State :=
  match r.kind with
  | .snap tc acc row dsts sd =>
    let p := s.part qn pn
    let r' := { r with started := some s.clock, due := some (s.clock + 1) }
    let s := s.setPart qn pn (p.setReq r')
    if acc && p.ea320 then
      let s := engineFault s r.team 2
      let s := dsts.foldl (fun s d => match s.fibre d.1 with
        | some f => s.setFibre d.1 { f with avail := del d.2 f.avail }
        | none => s) s
      match sd, s.team r.team with
      | some m, some t => s.setTeam t.id { t with sAvail := del m t.sAvail }
      | _, _ => s
    else snapSample s qn pn r tc acc row dsts sd
  | _ => s

/-- Whether the release row of a request's fork edge is done: the engine makes no access before (R217, R223). -/
def MReq.mayAccess (s : State) (r : MReq) : Bool := !s.owes r.core r.acks

/-- A non-pass request at the head of its table starts. -/
def startReq (s : State) (qn pn : Nat) (r : MReq) : State :=
  let p := s.part qn pn
  let q := s.quad qn
  let go (n : Nat) (bad : Bool) : State :=
    let s := s.setPart qn pn (p.setReq { r with started := some s.clock, due := some (s.clock + n), failed := bad })
    if bad then engineFault s r.team 2 else s
  let gone (p : Part) : State := s.setPart qn pn (p.dropReq r.id)
  match r.kind with
  | .mlds _ => go 128 false
  | .drainTile tc acc _ => go (((s.core r.core).tile tc).rows + 1) (acc && p.ea320)
  | .drainMem acc kind _ _ _ => go 128 ((acc || kind == 2) && p.ea320)
  | .clr all k acc => gone (p.clr all k acc)
  | .adinv none => (gone p).setQuad qn { (gone p).quad qn with cache := q.cache.filter (·.tag.part != pn) }
  | .adinv (some id) => (gone p).setQuad qn { (gone p).quad qn with cache := q.cache.filter fun x => x.tag.part != pn || x.tag.id != id }
  | .adload id w =>
    if id = 0 then gone p
    else if 65536 ≤ id then engineFault (gone p) r.team 4
    else
      let ts := [tagA pn id w, tagB pn id w]
      let q := ts.foldl (fun q t => startFetch q t (partCtx s p) s.clock) (touch q ts s.clock)
      let here := (List.range 2).filter fun i => (sliceIn q.cache (nth (tagA pn id w) ts i)).isSome
      let s := s.setQuad qn q
      s.setPart qn pn (p.setReq { r with started := some s.clock, added := here, due := if here = [0, 1] then some (s.clock + 1) else none })
  | .vprune _ _ _ _ _ _ _ _ => s.setPart qn pn (p.setReq { r with started := some s.clock })
  | _ => s

/-- Starts requests of a partition while the head may start and completes in its clock. -/
def startHeads (qn pn : Nat) : Nat → State → State
  | 0, s => s
  | n + 1, s =>
    let p := s.part qn pn
    match p.head with
    | none => s
    | some r =>
      if r.isPass || (p.reqs.takeWhile (·.id != r.id)) != [] || !r.mayAccess s then s else startHeads qn pn n (startReq s qn pn r)

/-- REQUEST_START: due snapshots are sampled, and a non-pass request starts once every earlier request has completed (R275). -/
def execRequestStart (quad part : Nat) (s : State) : Host.Outcome State Fault Refusal :=
  let snaps := (s.part quad part).reqs.filter fun r => r.isSnap && r.started.isNone && decide (r.posted < s.clock)
  .next (startHeads quad part 8 (snaps.foldl (fun s r => snapStart s quad part r) s))

/-! ## PASS_PROMOTION and ARBITER_GRANT (R275, R277, R278, R290, R294) -/

/-- PASS_PROMOTION: a pass that has waited 4,096 clocks since it became next rises one class, not to express (R275). -/
def execPassPromotion (quad part : Nat) (s : State) : Host.Outcome State Fault Refusal :=
  let p := s.part quad part
  match p.head with
  | none => .next s
  | some r =>
    match r.next with
    | none => .next s
    | some c =>
      if r.isPass && decide (1 < r.effCls ∧ c + 4096 * (r.promo + 1) ≤ s.clock) then
        .next (s.setPart quad part (p.setReq { r with promo := r.promo + 1 }))
      else .next s

/-- A head pass that has just become next is marked with the clock (R275). -/
def markNext (s : State) (qn pn : Nat) : State :=
  let p := s.part qn pn
  match p.head with
  | some r => if r.isPass && r.next.isNone then s.setPart qn pn (p.setReq { r with next := some s.clock }) else s
  | none => s

/-- Rows that may enter in one clock: 2 of a T6 pass without identifiers, else 1; the clocks from one to the next (R276, R278). -/
def passRate (s : State) (r : MReq) (x : PassOf) : Nat × Nat :=
  let f := ((s.core r.core).tile x.ta).fmt
  if f = 4 then (1, 4)
  else if f = 0 ∧ (List.range r.m).all (fun i => (rowId s r x i).1 == 0) then (2, 1)
  else (1, 1)

/-- Whether the pass's next row may enter in this clock. -/
def mayEnter (s : State) (r : MReq) (x : PassOf) : Bool :=
  let (two, gap) := passRate s r x
  match r.started with
  | none => false
  | some g =>
    match r.entered.getLast? with
    | none => decide (g + r.swapClk ≤ s.clock)
    | some (_, c) => decide (c + gap ≤ s.clock) ||
        (two == 2 && decide ((r.entered.filter fun e => e.2 == s.clock).length < 2))

/-- Whether a replay entry is free for a partition: 16 of the 64 are partition 0's, which takes no others (R290, R358). -/
def replayRoom (q : Quad) (pn : Nat) : Bool :=
  if pn = 0 then decide ((q.replay.filter fun e => e.part == 0).length < 16) else decide ((q.replay.filter fun e => e.part != 0).length < 48)

/-- One row enters the array: unmarked with its slices at hand, or marked for replay; none where it must wait for an entry (R290). -/
def enterRow (s : State) (qn pn : Nat) (r : MReq) (x : PassOf) : Option State :=
  let p := s.part qn pn
  let q := s.quad qn
  let row := r.entered.length
  let (id, _) := rowId s r x row
  let plain (r : MReq) (q : Quad) : State :=
    (s.setQuad qn q).setPart qn pn (p.setReq { r with entered := r.entered ++ [(row, s.clock)] })
  let held := q.replay.any fun e => e.part == pn && e.row == row && e.accOf p == x.acc
  if id = 0 && !held then some (plain r q)
  else
    let ts := if id = 0 then [] else tagsOf pn id x.word
    let all := ts.all fun t => (sliceIn q.cache t).isSome
    let q := touch q ts s.clock
    if all && !held then
      let new := q.cache.filter fun c => ts.contains c.tag && (sliceIn r.slices c.tag).isNone
      some (plain { r with slices := r.slices ++ new } q)
    else if !replayRoom q pn then none
    else
      let q := ts.foldl (fun q t => startFetch q t (partCtx s p) s.clock) q
      let e : Replay := { part := pn, req := r.id, row := row, id := id, entry := s.clock, since := if all then some s.clock else none }
      some (plain r { q with replay := q.replay ++ [e] })

/-- A partition that was reset is cleared and freed once its last row has left the array (R296). -/
def clearWhenSent (s : State) (qn pn : Nat) : State :=
  let p := s.part qn pn
  if p.clearing && p.reqs.all fun r => r.sent then
    s.setPart qn pn Part.cleared
  else s

/-- The pass that holds the array sends the rows of this clock; after its last row the array is free in the next clock, or 4 clocks later for a
T16 pass (R275, R278). -/
def sendRows (qn : Nat) : Nat → State → State
  | 0, s => s
  | n + 1, s =>
    let cur := (List.range 4).filterMap fun pn =>
      ((s.part qn pn).reqs.find? fun r => r.isPass && r.started.isSome && !r.sent).map fun r => (pn, r)
    match cur.head? with
    | none => s
    | some (pn, r) =>
      match r.pass with
      | none => s
      | some x =>
        if !mayEnter s r x then s
        else
          match enterRow s qn pn r x with
          | none => s
          | some s =>
            let gap := (passRate s r x).2
            let s := s.setQuad qn { s.quad qn with arrayFree := s.clock + gap }
            sendRows qn n (clearWhenSent s qn pn)

/-- The causes that a pass meets at its grant (R293, R321). -/
def grantFault (s : State) (p : Part) (r : MReq) (x : PassOf) : Option Nat :=
  let c := s.core r.core
  let ta := c.tile x.ta
  if (x.acc && p.ea320) || (ta.fmt == 4 && !p.ea320) then some 2
  else
    match x.sparse with
    | some (pat, _, tc) => if metaBad c (c.tile tc) pat then some 3 else none
    | none => none

/-- A grant: the planes are exchanged where the pass swaps, the active plane is the pass's (R277, R278, R293). -/
def grantPass (s : State) (qn pn : Nat) (r : MReq) (x : PassOf) : State :=
  let p := s.part qn pn
  let p := if x.swap then { p with active := p.shadow, shadow := p.active } else p
  let sw := if x.swap then 2 else 0
  let m := ((s.core r.core).tile x.ta).rows + 1
  match grantFault s p r x with
  | some cause =>
    let s := s.setPart qn pn (p.setReq { r with started := some s.clock, swapClk := sw, m := m, failed := true, due := some (s.clock + 1) })
    let s := s.setQuad qn { s.quad qn with arrayFree := s.clock + sw }
    engineFault s r.team cause
  | none =>
    s.setPart qn pn (p.setReq { r with started := some s.clock, swapClk := sw, m := m, plane := p.active })

/-- Whether a partition's passes may be granted: not those of a frozen context (R367). -/
def mayGrant (s : State) (p : Part) : Bool :=
  let c := s.ctx (partCtx s p)
  c.st != .frozen && !c.resetting

/-- ARBITER_GRANT: the pass in the array sends its rows; where the array is free, the next pass is granted, by class, then posting clock (R275). DESIGN
CHOICE (log 110): requests that R274 leaves in one place, of one clock, core and crew of two partitions, go by partition. -/
def execArbiterGrant (quad : Nat) (s : State) : Host.Outcome State Fault Refusal :=
  let s := (List.range 4).foldl (fun s pn => markNext s quad pn) s
  let s := sendRows quad 2 s
  let busy := (List.range 4).any fun pn => (s.part quad pn).reqs.any fun r => r.isPass && r.started.isSome && !r.sent
  if busy || s.clock < (s.quad quad).arrayFree then .next s
  else
    let cands := (List.range 4).filterMap fun pn => if mayGrant s (s.part quad pn) then ((s.part quad pn).readyPass.filter (·.mayAccess s)).map fun r => (pn, r) else none
    match minBy (fun e => e.2.effCls * 2 ^ 64 + e.2.order) cands with
    | none => .next s
    | some (pn, r) =>
      match r.pass with
      | none => .next s
      | some x => .next (sendRows quad 2 (grantPass s quad pn r x))

/-! ## ROW_ADDITION, PASS_COMPLETE (R278, R281, R292) -/

/-- A row of a pass has been added; the pass completes in the clock after its last addition. -/
def Part.rowDone (p : Part) (r : MReq) (row clk : Nat) : Part :=
  let added := row :: r.added
  p.setReq { r with added := added, due := if r.m ≤ added.length then some (clk + 1) else none }

/-- ROW_ADDITION: a row that is not marked for replay is added 256 clocks after its entry (R278, R281, R289). -/
def execRowAddition (quad part req row : Nat) (s : State) : Host.Outcome State Fault Refusal :=
  let p := s.part quad part
  match p.req req with
  | none => .next s
  | some r =>
    match r.pass, look row r.entered with
    | some x, some c =>
      if s.clock < c + 256 || r.added.contains row || ((s.quad quad).replay.any fun e => e.req == req && e.row == row) then .next s
      else
        let p := addRow s part p r x row r.slices false
        .next (s.setPart quad part (p.rowDone r row s.clock))
    | _, _ => .next s

/-- PASS_COMPLETE (R278, R292): the pass's tiles are READY and its entry is free. -/
def execPassComplete (quad part req : Nat) (s : State) : Host.Outcome State Fault Refusal :=
  let p := s.part quad part
  match p.req req with
  | none => .next s
  | some r =>
    match r.due with
    | none => .next s
    | some d =>
      if !r.isPass || s.clock < d then .next s else .next (freeTiles (s.setPart quad part (p.dropReq req)) r)

/-! ## Adapter slices and replays (R288, R290, R291) -/

/-- Whether a replay entry waits for a slice (R290). -/
def Replay.waits (e : Replay) (p : Part) (t : SliceTag) : Bool := e.since.isNone && !e.failed && (e.tags p).contains t

/-- Whether a request is an adload that waits for a slice, and its pass word (R328). -/
def MReq.loads (r : MReq) (pn : Nat) (t : SliceTag) : Option Nat :=
  match r.kind with
  | .adload id w => if r.started.isSome && !r.failed && (tagA pn id w == t || tagB pn id w == t) then some w else none
  | _ => none

/-- The waiting entries of which a slice has been evicted fetch it again (R288). -/
def refetch (s : State) (q : Quad) : Quad :=
  q.replay.foldl (fun q e =>
    if e.since.isNone && !e.failed then
      (e.tags (q.part e.part)).foldl (fun q t => startFetch q t (partCtx s (q.part e.part)) s.clock) q
    else q) q

/-- The table after a slice has arrived: waiting entries whose slices are all present, and adloads. -/
def noteArrival (q : Quad) (t : SliceTag) (clk : Nat) : Quad :=
  let q := { q with replay := q.replay.map fun (e : Replay) =>
    if e.since.isNone && !e.failed && (e.tags (q.part e.part)).all (fun u => (sliceIn q.cache u).isSome) then { e with since := some clk } else e }
  { q with parts := q.parts.map fun (e : Nat × Part) => (e.1, { e.2 with reqs := e.2.reqs.map fun (r : MReq) =>
      match r.kind with
      | .adload id w =>
        if r.started.isNone || e.1 != t.part then r
        else
          let got := (if tagA e.1 id w = t then [0] else []) ++ (if tagB e.1 id w = t then [1] else [])
          let added := dedupe (r.added ++ got)
          { r with added := added, due := if added.length = 2 ∧ r.due.isNone then some (clk + 1) else r.due }
      | _ => r }) }

/-- The slices that arrive together: that of a fetch; where only adloads wait for it, also those that they still lack, since an adload of which one slice
fails adds nothing anywhere (R328). -/
def arriving (q : Quad) (t : SliceTag) : List SliceTag :=
  let p := q.part t.part
  let ws := p.reqs.filter fun r => (r.loads t.part t).isSome
  if ws = [] || q.replay.any (fun e => e.waits (q.part e.part) t) then [t]
  else dedupe (t :: (q.fetches.map (·.tag)).filter fun u => ws.any fun r => (r.loads t.part u).isSome)

/-- Whether a pass word that waits for a slice names a step that the identifier has (R287): of the entries that wait for it and of the adloads. -/
def wordsWaiting (q : Quad) (t : SliceTag) : List Nat :=
  ((q.replay.filter fun e => e.waits (q.part e.part) t).map fun e => e.word (q.part e.part)) ++
    (q.part t.part).reqs.filterMap fun r => r.loads t.part t

/-- The slices of a fetch, all of them readable and none waited for by a step that the identifier lacks. -/
def arrivals (s : State) (qn : Nat) (fe : Fetch) : Option (List Slice) :=
  let q := s.quad qn
  (arriving q fe.tag).foldr (fun u acc => acc.bind fun l =>
    match readDir s qn u.part fe.ctx u.id, fetchSlice s qn fe.ctx u with
    | .ok d, .ok x => if (wordsWaiting q u).all d.has && decide (u.proj < d.nproj) then some (x :: l) else none
    | _, _ => none) (some [])

/-- The replay entries of a row of an accumulator tile that came before an entry. -/
def earlierReplays (q : Quad) (e : Replay) : List Replay :=
  let p := q.part e.part
  (q.replay.takeWhile (· != e)).filter fun x => x.part == e.part && x.row == e.row && x.accOf p == e.accOf p

/-- The entry that passes the side array next: first by the arrival of its slices, then by row (R290). -/
def nextSide (q : Quad) : Option Replay :=
  minBy (fun e => (e.since.getD 0) * 128 + e.row)
    (q.replay.filter fun e => e.since.isSome && e.sidePass.isNone && !e.failed && (earlierReplays q e).all fun x => x.sidePass.isSome || x.failed)

/-- ADAPTER_SLICE_ARRIVAL (R287, R288): a fetched slice enters the cache as most recently used; an entry that it completes may pass through the side array
in this clock (R290). -/
def execAdapterSliceArrival (quad part id proj kstep nstep : Nat) (s : State) : Host.Outcome State Fault Refusal :=
  let t : SliceTag := { part := part, id := id, proj := proj, kstep := kstep, nstep := nstep }
  let q := s.quad quad
  match (q.fetches.find? (·.tag == t)).bind (arrivals s quad) with
  | none => .next s
  | some xs =>
    match xs.foldl (fun c x => c.bind fun c => cacheSlice (pinned s quad) c x) (some q.cache) with
    | none => .next s
    | some cache =>
      let q := { q with cache := cache, fetches := q.fetches.filter fun f => !xs.any fun x => x.tag == f.tag }
      let s := (syncDie s (quad / 32)).setQuad quad (refetch s (xs.foldl (fun q x => noteArrival q x.tag s.clock) q))
      .next (match nextSide (s.quad quad) with
        | some e => s.later (.replaySidePass quad e.part e.req e.row)
        | none => s)

/-- Why a row or an adload that waits for a slice fails: the directory entry or its step, or the slice (R291); none where it does not. -/
def waitFault (s : State) (qn : Nat) (fe : Fetch) (w : Nat) : Option Nat :=
  match readDir s qn fe.tag.part fe.ctx fe.tag.id with
  | .error c => some c
  | .ok d =>
    if !d.has w then some 4
    else match fetchSlice s qn fe.ctx fe.tag with | .error c => some c | .ok _ => none

/-- ADAPTER_FAULT (R291, R328): the rows that wait for the slice and cannot have it are completed with the NAN bit, an adload adds nothing, and their
teams fault. A fetch that nothing waits for any more has no other effect (R296). -/
def execAdapterFault (quad part id proj kstep nstep : Nat) (s : State) : Host.Outcome State Fault Refusal :=
  let t : SliceTag := { part := part, id := id, proj := proj, kstep := kstep, nstep := nstep }
  let q := s.quad quad
  match q.fetches.find? (·.tag == t) with
  | none => .next s
  | some fe =>
    let hit := q.replay.filterMap fun e =>
      if e.waits (q.part e.part) t then (waitFault s quad fe (e.word (q.part e.part))).map fun c => (e, c) else none
    let bad := (q.part part).reqs.filterMap fun r => (r.loads part t).bind fun w => (waitFault s quad fe w).map fun c => (r, c)
    let idle := wordsWaiting q t == [] && (match fetchSlice s quad fe.ctx t with | .ok _ => false | .error _ => true)
    if hit = [] ∧ bad = [] ∧ !idle then .next s
    else
      let q := { q with replay := q.replay.map fun e => if hit.any (·.1 == e) then { e with failed := true } else e }
      let q := q.setPart part (bad.foldl (fun p r => p.setReq { r.1 with failed := true, due := some (s.clock + 1) }) (q.part part))
      let gone := t :: (q.fetches.map (·.tag)).filter fun u => bad.any fun r => (r.1.loads part u).isSome
      let q := { q with fetches := q.fetches.filter fun f => !gone.contains f.tag || wordsWaiting q f.tag != [] }
      let faults := dedupe ((hit.filterMap fun e => ((q.part e.1.part).req e.1.req).map fun r => (r.team, e.2)) ++ bad.map fun r => (r.1.team, r.2))
      .next (faults.foldl (fun s f => engineFault s f.1 f.2) (s.setQuad quad q))

/-- REPLAY_SIDE_PASS (R290): one entry a clock. A slice evicted while the entry waited is fetched again. -/
def execReplaySidePass (quad part req row : Nat) (s : State) : Host.Outcome State Fault Refusal :=
  let q := s.quad quad
  match nextSide q with
  | none => .next s
  | some e =>
    if e.part ≠ part ∨ e.req ≠ req ∨ e.row ≠ row ∨ (q.replay.any fun x => x.sidePass == some s.clock) = true then .next s
    else
      let ts := e.tags (q.part part)
      let swap (x : Replay) (q : Quad) : Quad := { q with replay := q.replay.map fun y => if y == e then x else y }
      if ts.all fun t => (sliceIn q.cache t).isSome then
        .next (s.setQuad quad (swap { e with sidePass := some s.clock } (touch q ts s.clock)))
      else
        .next (s.setQuad quad (ts.foldl (fun q t => startFetch q t (partCtx s (q.part part)) s.clock) (swap { e with since := none } q)))

/-- REPLAY_ADDITION (R289 to R291): the later of entry + 256 and 64 clocks after the side pass; a failed entry at once, but not before
entry + 256. -/
def execReplayAddition (quad part req row : Nat) (s : State) : Host.Outcome State Fault Refusal :=
  let q := s.quad quad
  let p := q.part part
  match q.replay.find? fun e => e.part == part && e.req == req && e.row == row, p.req req with
  | some e, some r =>
    let ripe := decide (e.entry + 256 ≤ s.clock) &&
      (e.failed || (match e.sidePass with | some c => decide (c + 64 ≤ s.clock) | none => false)) && (earlierReplays q e).isEmpty
    match r.pass with
    | none => .next s
    | some x =>
      if !ripe then .next s
      else
        let p := addRow s part p r x row q.cache e.failed
        let s := s.setQuad quad { q with replay := q.replay.filter (· != e) }
        .next (s.setPart quad part (p.rowDone r row s.clock))
  | _, _ => .next s

/-! ## NONPASS_REQUEST_COMPLETE, ADD_ON_STORE, PRUNE_COMPLETE (R284, R285, R295, R322, R325, R326) -/

/-- The destination cells of an acdrain into memory, row by row: address and element (R326). -/
def drainCells (p : Part) (acc : Bool) (kind : Nat) (va : DWord) : List (DWord × Acc) :=
  let sz := if kind = 1 then 4 else if kind = 2 then 32 else 64
  (List.range 128).flatMap fun i => (List.range 128).map fun j => (va + BitVec.ofNat 64 (i * 128 * sz + j * sz), p.elem acc i j)

/-- Every cell's physical address, or the first failure. -/
def mapCells (s : State) (core ctx : Nat) (n : Need) (l : List (DWord × Acc)) : Except Trap (List (Nat × Acc)) :=
  l.foldr (fun c acc => match checkVa s core ctx c.1 n, acc with
    | .error t, _ => .error t
    | .ok _, .error t => .error t
    | .ok r, .ok rest => .ok ((r.1, c.2) :: rest)) (.ok [])

/-- The lines of F32 elements that an acdrain of kind 01 writes: the cells come in ascending address, 32 to a line. -/
def writeCells (s : State) (core : Nat) (k : EaKind) (m : Rm) : Nat → List (Nat × Acc) → State
  | 0, _ => s
  | n + 1, l =>
    match l with
    | [] => s
    | (pa, _) :: _ =>
      writeCells (engineWrite s core pa ((l.take 32).flatMap fun c => leBytes (eaRead k (.ieee .f32) m c.2) 4)) core k m n (l.drop 32)

def drainMemDone (s : State) (p : Part) (r : MReq) (acc : Bool) (kind : Nat) (m : Rm) (va cell : DWord) : State × Part :=
  let ctx := partCtx s p
  let rec0 (st : Nat) (fa : DWord) (ix : Nat) : Record :=
    { id := 0, ctx := ctx, team := r.team, core := r.core, cell := cell, faddr := fa, skipped := 0, index := ix, detail := 0, status := st }
  match mapCells s r.core ctx { kind := 5, r := decide (kind ≠ 1), w := true, seals := true } (drainCells p acc kind va) with
  | .error t => (postRecord s (rec0 (statusOf t) t.faddr 0), p)
  | .ok cells =>
    let widen := kind == 3 && !p.ea320
    let a : AddOn := { id := s.nextId, team := r.team, core := r.core, wide := kind == 3, f32 := if kind = 1 then some (p.kind, m) else none,
                       cells := cells.map fun c => (c.1, if widen then eaWiden c.2 else c.2), cell := cell }
    ({ s with nextId := s.nextId + 1 }, { p with adds := p.adds ++ [a] })

/-- The elements of a drained tile: the top-left rows and columns, exponents zero (R326). -/
def drainTileDone (s : State) (p : Part) (r : MReq) (tc : Nat) (acc : Bool) (m : Rm) : State :=
  let c := s.core r.core
  let t := { c.tile tc with rowExp := [], colExp := [] }
  let c := (List.range (t.rows + 1)).foldl (fun c i =>
    c.putRow t i ((List.range (t.cols + 1)).map fun j => eaRead p.kind (fmtElem t.fmt) m (p.elem acc i j))) (c.setTile tc t)
  s.setCore r.core c

/-- NONPASS_REQUEST_COMPLETE: mlds, acsnap, acdrain and adload in the clock that R322, R325, R326 and R328 give. -/
def execNonpassRequestComplete (quad part req : Nat) (s : State) : Host.Outcome State Fault Refusal :=
  let p := s.part quad part
  match p.req req with
  | none => .next s
  | some r =>
    match r.due with
    | none => .next s
    | some d =>
      if r.isPass || s.clock < d then .next s
      else
        let p' := p.dropReq req
        let s1 := s.setPart quad part p'
        match r.kind with
        | .mlds t =>
          let c := s.core r.core
          .next (freeTiles (s.setPart quad part { p' with shadow := planeOf c (c.tile t) }) r)
        | .drainTile tc acc m => .next (freeTiles (if r.failed then s1 else drainTileDone s1 p r tc acc m) r)
        | .drainMem acc kind m va cell =>
          if r.failed then .next s1
          else
            let (s2, p2) := drainMemDone s p' r acc kind m va cell
            .next (s2.setPart quad part p2)
        | _ => .next (freeTiles s1 r)

/-- Values added into the cells at their homes, each line in one step, its version as R203 says (R285). DESIGN CHOICE (log 100): a cell's reserved bits are
written as zero, as by an eacc (R53). -/
def addCells (s : State) (core : Nat) (k : EaKind) (lines : List Nat) (cells : List (Nat × Acc)) : State :=
  let die := dieOfCore core
  let s := lines.foldl (fun s l => recallLine (reachHome s die l) l) s
  lines.foldl (fun s l =>
    let cs := cells.filter fun c => lineOf c.1 == l
    let img := cs.foldl (fun img c =>
      imgPut img (c.1 % 128) (leBytes (eaToNat k (eaAdd k (eaOfNat k (leWord (imgBytes img (c.1 % 128) (eaBytes k)))) c.2)) (eaBytes k)))
      (s.image l)
    let mask := cs.foldl (fun m c => m ||| maskOf (c.1 % 128) (eaBytes k)) 0
    freshen (reachBack (homeWrite s l mask img 0 false) die l) core l) s

/-- ADD_ON_STORE (R285, R326): with every destination line free of reservations, one indivisible update of all cells, or the lines of F32 values in
ascending address; then the record is due. -/
def execAddOnStore (quad part : Nat) (s : State) : Host.Outcome State Fault Refusal :=
  let p := s.part quad part
  match p.adds with
  | [] => .next s
  | a :: rest =>
    let lines := dedupe (a.cells.map fun c => lineOf c.1)
    if lines.any s.reserved then .next s
    else
      let s := match a.f32 with
        | some (k, m) => writeCells s a.core k m 512 a.cells
        | none => addCells s a.core (if a.wide then .ea320 else .ea160) lines a.cells
      let s := s.setPart quad part { s.part quad part with adds := rest }
      .next (postRecord s { id := 0, ctx := partCtx s p, team := a.team, core := a.core, cell := a.cell, faddr := 0, skipped := 0,
                            index := 128, detail := 0, status := 0 })

/-- PRUNE_COMPLETE (R295, R329): rows 64h to 64h + 63 of the compressed and the metadata tile. -/
def execPruneComplete (quad part : Nat) (s : State) : Host.Outcome State Fault Refusal :=
  let p := s.part quad part
  match p.reqs.find? fun r => r.started.isSome && (match r.kind with | .vprune _ _ _ _ _ _ _ _ => true | _ => false) with
  | none => .next s
  | some r =>
    match r.kind with
    | .vprune pat hi ia ib ic base theta key =>
      let c := s.core r.core
      let a := c.tile ia
      let b := c.tile ib
      let m := c.tile ic
      let gs := 128 / patG pat
      let c := (List.range gs).foldl (fun c g => (List.range (a.cols + 1)).foldl (fun c j =>
        let codes := (List.range (patG pat)).map fun i => (s.core r.core).elem a (g * patG pat + i) j
        let slots := pruneGroup a.fmt pat base theta key g j codes
        slots.zipIdx.foldl (fun c e =>
          let row := 64 * bit hi + g * patU pat + e.2
          (c.putElem b row j e.1.2).putElem m row j e.1.1) c) c) c
      let exps (t : Tile) : Tile :=
        { t with colExp := a.colExp, rowExp := t.rowExp.filter fun e => e.1 / 64 != bit hi }
      let c := (c.setTile ib (exps b)).setTile ic (exps m)
      .next (freeTiles ((s.setCore r.core c).setPart quad part (p.dropReq r.id)) r)
    | _ => .next s

end Sys2Proof.Machine
end

