-- ==== Sys2Proof/Machine/Fp.lean ====
section
/-! DEFINITION. FP32 arithmetic, major 0x20 (R99 to R105). -/

namespace Sys2Proof.Machine

/-- FP32 sources: tag F32, the zero or ones special, an inline F32 constant (R99). -/
def readF (e : Env) (f : Fibre) (x : Src) : Except Trap Xr := do
  let v ← readTag e f .f32 x
  pure (Fmt.f32.val v.toNat)
def fRes (d : Dst) (m : Rm) (v : Xr) : Wr := Wr.one d (BitVec.ofNat 32 (roundF .f32 m v)) .f32
/-- The operation's exact result, rounded once (R100). -/
def evf1 (m : Rm) (op : Xr → Xr) (d : Dst) (a : Src) : Alu := fun e f => do
  let x ← readF e f a
  pure (fRes d m (op x))
def evf2 (m : Rm) (op : Xr → Xr → Xr) (d : Dst) (a b : Src) : Alu := fun e f => do
  let x ← readF e f a
  let y ← readF e f b
  pure (fRes d m (op x y))

/-- minimumNumber and maximumNumber of IEEE 754-2019 (R102). -/
def xrMin (x y : Xr) : Xr := if x.isNan then y else if y.isNan then x else if y.lt true x then y else x
def xrMax (x y : Xr) : Xr := if x.isNan then y else if y.isNan then x else if x.lt true y then y else x
def xrAbs : Xr → Xr
  | .fin _ a b => .fin false a b
  | .inf _ => .inf false
  | .nan => .nan
/-- Rounding to an integral value; a zero keeps the sign of the source (R104). -/
def xrIntegral (m : Rm) : Xr → Xr
  | .fin neg a b => .fin neg (roundInt m neg a b).natAbs 1
  | x => x

def evFadd (m : Rm) (d : Dst) (a b : Src) : Alu := evf2 m (Xr.add m) d a b
def evFsub (m : Rm) (d : Dst) (a b : Src) : Alu := evf2 m (fun x y => Xr.add m x y.neg) d a b
def evFmul (m : Rm) (d : Dst) (a b : Src) : Alu := evf2 m Xr.mul d a b
def evFfma (m : Rm) (d : Dst) (a b x : Src) : Alu := fun e f => do
  let p ← readF e f a
  let q ← readF e f b
  let r ← readF e f x
  pure (fRes d m (Xr.add m (p.mul q) r))
def evFmin (d : Dst) (a b : Src) : Alu := evf2 .rne xrMin d a b
def evFmax (d : Dst) (a b : Src) : Alu := evf2 .rne xrMax d a b
def evFabs (d : Dst) (a : Src) : Alu := evf1 .rne xrAbs d a
def evFneg (d : Dst) (a : Src) : Alu := evf1 .rne Xr.neg d a
/-- R103. -/
def evFcmp (cd : FCond) (pd : Option (Fin 16)) (a b : Src) : Alu := fun e f => do
  let x ← readF e f a
  let y ← readF e f b
  pure (Wr.pred pd (FCond.holds cd x y))
def evFdiv (m : Rm) (d : Dst) (a b : Src) : Alu := evf2 m Xr.div d a b
def evFsqrt (m : Rm) (d : Dst) (a : Src) : Alu := evf1 m Xr.sqrt d a
def evFrcp (m : Rm) (d : Dst) (a : Src) : Alu := evf1 m (Xr.div (.fin false 1 1)) d a
def evFexp2 (m : Rm) (d : Dst) (a : Src) : Alu := evf1 m Xr.exp2 d a
def evFlog2 (m : Rm) (d : Dst) (a : Src) : Alu := evf1 m Xr.log2 d a
def evFrnd (m : Rm) (d : Dst) (a : Src) : Alu := evf1 m (xrIntegral m) d a
/-- R105. -/
def evFcls (d : Dst) (a : Src) : Alu := fun e f => do
  let v ← readTag e f .f32 a
  pure (Wr.one d (BitVec.ofNat 32 (2 ^ fclsBit v.toNat)) .n32)

/-- fadd (R100). -/
def execFadd (c : Ctl) (m : Rm) (d : Dst) (a b : Src) (s : State) : Host.Outcome State Fault Refusal :=
  issueAlu (.fadd c m d a b) (evFadd m d a b) s

/-- fsub (R100). -/
def execFsub (c : Ctl) (m : Rm) (d : Dst) (a b : Src) (s : State) : Host.Outcome State Fault Refusal :=
  issueAlu (.fsub c m d a b) (evFsub m d a b) s

/-- fmul (R100). -/
def execFmul (c : Ctl) (m : Rm) (d : Dst) (a b : Src) (s : State) : Host.Outcome State Fault Refusal :=
  issueAlu (.fmul c m d a b) (evFmul m d a b) s

/-- ffma (R100). -/
def execFfma (c : Ctl) (m : Rm) (d : Dst) (a b x : Src) (s : State) : Host.Outcome State Fault Refusal :=
  issueAlu (.ffma c m d a b x) (evFfma m d a b x) s

/-- fmin (R102). -/
def execFmin (c : Ctl) (d : Dst) (a b : Src) (s : State) : Host.Outcome State Fault Refusal :=
  issueAlu (.fmin c d a b) (evFmin d a b) s

/-- fmax (R102). -/
def execFmax (c : Ctl) (d : Dst) (a b : Src) (s : State) : Host.Outcome State Fault Refusal :=
  issueAlu (.fmax c d a b) (evFmax d a b) s

/-- fabs (R102). -/
def execFabs (c : Ctl) (d : Dst) (a : Src) (s : State) : Host.Outcome State Fault Refusal :=
  issueAlu (.fabs c d a) (evFabs d a) s

/-- fneg (R102). -/
def execFneg (c : Ctl) (d : Dst) (a : Src) (s : State) : Host.Outcome State Fault Refusal :=
  issueAlu (.fneg c d a) (evFneg d a) s

/-- fcmp (R103). -/
def execFcmp (c : Ctl) (cd : FCond) (pd : Option (Fin 16)) (a b : Src) (s : State) : Host.Outcome State Fault Refusal :=
  issueAlu (.fcmp c cd pd a b) (evFcmp cd pd a b) s

/-- fdiv (R100, R101). -/
def execFdiv (c : Ctl) (m : Rm) (d : Dst) (a b : Src) (s : State) : Host.Outcome State Fault Refusal :=
  issueAlu (.fdiv c m d a b) (evFdiv m d a b) s

/-- fsqrt (R100, R101). -/
def execFsqrt (c : Ctl) (m : Rm) (d : Dst) (a : Src) (s : State) : Host.Outcome State Fault Refusal :=
  issueAlu (.fsqrt c m d a) (evFsqrt m d a) s

/-- frcp (R100, R101). -/
def execFrcp (c : Ctl) (m : Rm) (d : Dst) (a : Src) (s : State) : Host.Outcome State Fault Refusal :=
  issueAlu (.frcp c m d a) (evFrcp m d a) s

/-- fexp2 (R100, R101). -/
def execFexp2 (c : Ctl) (m : Rm) (d : Dst) (a : Src) (s : State) : Host.Outcome State Fault Refusal :=
  issueAlu (.fexp2 c m d a) (evFexp2 m d a) s

/-- flog2 (R100, R101). -/
def execFlog2 (c : Ctl) (m : Rm) (d : Dst) (a : Src) (s : State) : Host.Outcome State Fault Refusal :=
  issueAlu (.flog2 c m d a) (evFlog2 m d a) s

/-- frnd (R104). -/
def execFrnd (c : Ctl) (m : Rm) (d : Dst) (a : Src) (s : State) : Host.Outcome State Fault Refusal :=
  issueAlu (.frnd c m d a) (evFrnd m d a) s

/-- fcls (R105). -/
def execFcls (c : Ctl) (d : Dst) (a : Src) (s : State) : Host.Outcome State Fault Refusal :=
  issueAlu (.fcls c d a) (evFcls d a) s


end Sys2Proof.Machine
end

