-- ==== Sys2Proof/Machine/Parallel.lean ====
section
/-! DEFINITION. Fibres, crews, collectives and register budgets, majors 0x50 to 0x53 (R159 to R179). -/

namespace Sys2Proof.Machine

/-! ## Creating and ending fibres (R163 to R166) -/

/-- A fibre at its creation (R11, R142): everything at its reset value, loose and runnable. -/
def newFibre (l : Launch) (t : Team) (fidx : Nat) (pc : DWord) (clk : Nat) : Fibre :=
  { fidx := fidx, team := t.id, pc := pc, fs := l.regs, seed := l.seed + BitVec.ofNat 64 (gfidOf l t fidx), runPc := pc,
    st := .loose clk 0, fresh := true }

/-- The lowest fidx of a team that no fibre holds and that did not end in this clock (R163). -/
def freeFidx (s : State) (t : Team) : Option Nat :=
  (List.range t.n).find? fun i => (s.fibre (t.key i)).isNone && look i t.ended != some s.clock

/-- A child continues the program order of its parent: the parent's stores and gathers that are not answered yet are earlier accesses of the child too
(R163, R217). -/
def inherit (s : State) (core parent child : Nat) : State :=
  let add (l : List Nat) : List Nat := if l.contains parent && !l.contains child then l ++ [child] else l
  let c := s.core core
  let s := s.setCore core { c with wcb := c.wcb.map fun e => { e with who := add e.who }, acks := c.acks.map fun a => { a with who := add a.who } }
  { s with gathers := s.gathers.map fun g => if g.isOf parent then { g with heirs := g.heirs ++ [child] } else g }

/-- One fork: the child with its parent's window and predicates, and with the clocks and answers that the parent's later accesses wait for (R163). -/
def forkOne (off : BitVec 34) (vD : Fin 256) (e : Ex) (s : State) : Option (State × Act) :=
  match s.team e.f.team with
  | none => none
  | some t =>
    let f := e.f
    let ret (v : Nat) : Act := .go { f := f, w := { regs := [(vD.val, ⟨BitVec.ofNat 32 v, .n32⟩)] } }
    match freeFidx s t with
    | none => some (s, ret 0xFFFFFFFF)
    | some i =>
      let pc := f.pc + off.signExtend 64 * 8
      let c := { newFibre (s.teamLaunch t) t i pc s.clock with
        preds := f.preds, fb := f.fb, fs := f.fs, regs := f.regs, badRegs := f.badRegs, await := f.await, accAt := f.accAt, doneAt := f.doneAt }
      some ((inherit s t.core f.key c.key).setFibre c.key (c.setReg vD.val ⟨BitVec.ofNat 32 f.fidx, .n32⟩), ret i)

/-- fork (R163). -/
def execFork (g : Guard) (off : BitVec 34) (vD : Fin 256) (s : State) : Host.Outcome State Fault Refusal :=
  issueWith (.fork g off vD) .none (each (forkOne off vD)) s

/-- One record appended to the launch's pool, after the release at .pkg (`releaseWait`), stamped with the clock of the fibre's die (R165, R366, R402,
R422). -/
def spawnOne (off : BitVec 34) (vA : Fin 128) (e : Ex) (s : State) : Option (State × Act) :=
  match siteOf s e.f with
  | none => none
  | some k =>
    if !k.lau.pool then some (s, .trap (.illegalAt 0))
    else if k.lau.capacity ≤ k.lau.held then some (s, .trap { code := .engineFault, detail := 7 })
    else
      match readV e.f (2 * vA.val), readV e.f (2 * vA.val + 1) with
      | .error t, _ => some (s, .trap t)
      | _, .error t => some (s, .trap t)
      | .ok a, .ok b =>
        let r : PoolRec := { pc := e.f.pc + off.signExtend 64 * 8, lo := a, hi := b, born := s.clock, stamp := stampOf s k.die }
        some (s.setLaunch k.lau.id { k.lau with held := k.lau.held + 1, waiting := k.lau.waiting ++ [r] }, .go { f := e.f })

/-- spawn (R165). -/
def execSpawn (g : Guard) (off : BitVec 34) (vA : Fin 128) (s : State) : Host.Outcome State Fault Refusal :=
  issueWith (.spawn g off vA) .none (each (spawnOne off vA)) s

/-- end (R164). -/
def execEndF (g : Guard) (s : State) : Host.Outcome State Fault Refusal :=
  issueWith (.endF g) .none (each fun _ s => some (s, .over)) s

/-- yield (R166). -/
def execYield (g : Guard) (s : State) : Host.Outcome State Fault Refusal :=
  issueWith (.yield g) .none (each fun e s => some (s, .go { f := e.f })) s

/-! ## Crews (R146, R167 to R170) -/

def pdWr (pd : Option (Fin 16)) (b : Bool) : Wr := { preds := match pd with | some p => [(p.val, b)] | none => [] }

/-- The fibres linked to some of a set: one pass over the crews for each crew register (R146). -/
def linked (t : Team) (l : List Nat) : List Nat :=
  (List.range 8).foldl (fun l _ => (t.crews.map fun e => liveOf e.2).foldl
    (fun l m => if m.any l.contains then dedupe (l ++ m) else l) l) l

def crewSize : Nat → Nat
  | 1 => 4 | 2 => 8 | 3 => 16 | 4 => 32 | _ => 0

/-- crew (R167): I is the set of executing fibres; a refused crew changes nothing besides pd. -/
def crewForm (pd : Option (Fin 16)) (size : Fin 5) (q : Fin 8) : Body := fun es s =>
  let ok := es.filter fun e => e.pre.isNone
  let ids := ok.map (·.f.fidx)
  let acts (b : Bool) := es.map fun e => match e.pre with
    | some t => Act.trap t
    | none => Act.go { f := e.f, w := pdWr pd b }
  match ok with
  | [] => some (s, acts false)
  | e :: _ =>
    match s.team e.f.team with
    | none => none
    | some t =>
      if size.val = 0 then
        match t.crew q.val with
        | some c => if ids = liveOf c then some (s.setTeam t.id { t with crews := del q.val t.crews }, acts true) else some (s, acts false)
        | none => some (s, acts false)
      else
        let n := crewSize size.val
        if (t.crew q.val).isNone && ids.length == n && (linked t ids).length ≤ 32 then
          let all : BitVec 32 := BitVec.ofNat 32 (2 ^ n - 1)
          let c : Crew := { size := n, members := ids, live := all, masks := List.replicate 12 { expected := all }, version := 1 }
          some (s.setTeam t.id { t with crews := put q.val c t.crews }, acts true)
        else some (s, acts false)

def execCrew (g : Guard) (pd : Option (Fin 16)) (size : Fin 5) (q : Fin 8) (s : State) : Host.Outcome State Fault Refusal :=
  issueWith (.crew g pd size q) .none (crewForm pd size q) s

/-- The live rank of a fibre in a crew of its team. -/
def liveRank (s : State) (f : Fibre) (q : Nat) : Option (Team × Crew × Nat) :=
  match s.team f.team with
  | none => none
  | some t =>
    match t.crew q with
    | none => none
    | some c =>
      match rankIn c f.fidx with
      | none => none
      | some r => if c.live.getLsbD r then some (t, c, r) else none

def kmask (c : Crew) (k : Nat) : KMask := nth { expected := 0 } c.masks k
def setMask (c : Crew) (k : Nat) (m : KMask) : Crew := { c with masks := c.masks.set k m }

/-- A deadline operand in clocks (R168, R177). -/
def readDl (e : Env) (f : Fibre) (dl : Option Src) : Except Trap (Option Nat) :=
  match dl with
  | none => .ok none
  | some x => (readInt e f x).map fun v => some v.toNat

/-- One arrival by join: the arrived bit is set, and the clock's evaluation decides (R168). -/
def joinOne (pd : Option (Fin 16)) (k : Fin 12) (dl : Option Src) (q : Fin 8) (e : Ex) (s : State) : Option (State × Act) :=
  match readDl e.env e.f dl with
  | .error t => some (s, .trap t)
  | .ok d =>
    match liveRank s e.f q.val with
    | none => some (s, .trap { code := .crewPartial, aux := q.val })
    | some (t, c, r) =>
      let m := kmask c k.val
      if !m.expected.getLsbD r then
        some (s, .go { f := { e.f with status := statusWord 0 0 0 0 }, w := pdWr pd true })
      else
        let c := setMask c k.val { m with arrived := setBit m.arrived r }
        some (s.setTeam t.id { t with crews := put q.val { c with version := c.version + 1 } t.crews },
          .stay { e.f with st := .joining q.val k.val pd m.phase (d.map (s.clock + ·)) s.clock })

/-- join (R168). -/
def execJoin (g : Guard) (pd : Option (Fin 16)) (k : Fin 12) (dl : Option Src) (q : Fin 8) (s : State) : Host.Outcome State Fault Refusal :=
  issueWith (.join g pd k dl q) .none (each (joinOne pd k dl q)) s

/-- leave (R169). -/
def execLeave (g : Guard) (k : Fin 12) (q : Fin 8) (s : State) : Host.Outcome State Fault Refusal :=
  issueWith (.leave g k q) .none (each fun e s =>
    match liveRank s e.f q.val with
    | none => some (s, .trap { code := .crewPartial, aux := q.val })
    | some (t, c, r) =>
      let m := kmask c k.val
      if !m.expected.getLsbD r then some (s, .go { f := e.f })
      else
        let c := setMask c k.val { m with expected := clearBit m.expected r, arrived := clearBit m.arrived r }
        some (s.setTeam t.id { t with crews := put q.val { c with version := c.version + 1 } t.crews }, .go { f := e.f })) s

/-! ## Collectives (R171 to R176) -/

def rankOf (c : Crew) (e : Ex) : Nat := (rankIn c e.f.fidx).getD 0
def noReads : Ex → Except Trap Unit := fun _ => .ok ()
def goWr (e : Ex) (w : Wr) : Act := .go { f := e.f, w := w }

/-- vote (R171). -/
def execVote (g : Guard) (op : VoteOp) (ps : Fin 16) (q : Fin 8) (s : State) : Host.Outcome State Fault Refusal :=
  issueWith (.vote g op ps q) .none (crewBody q.val noReads fun c es s =>
    let bits := es.map fun e => (rankOf c e, predBit e.f.preds ps.val)
    let w := match op with
      | .any pd => pdWr pd (bits.any (·.2))
      | .all pd => pdWr pd (bits.all (·.2))
      | .ballot d => Wr.one d (BitVec.ofNat 32 ((bits.map fun b => bit b.2 * 2 ^ b.1).sum)) .n32
    some (s, es.map fun e => goWr e w)) s

/-- The partner's rank of shfl (R172). -/
def partner (m : ShflMode) (j u : Nat) : Int :=
  match m with
  | .idx => u
  | .xor => (j ^^^ u : Nat)
  | .up => (j : Int) - u
  | .down => (j : Int) + u

/-- shfl (R172). -/
def execShfl (g : Guard) (m : ShflMode) (d : Dst) (a b : Src) (q : Fin 8) (s : State) : Host.Outcome State Fault Refusal :=
  issueWith (.shfl g m d a b q) .none (crewBody q.val
    (fun e => do let _ ← readInt e.env e.f b; let _ ← readSrc e.env e.f a; pure ())
    fun c es s =>
      let val (e : Ex) : Reg := match readSrc e.env e.f a with | .ok o => ⟨o.val, o.tag⟩ | .error _ => Reg.zero
      let vals := es.map fun e => (rankOf c e, val e)
      some (s, es.map fun e =>
        let u := match readInt e.env e.f b with | .ok v => v.toNat | .error _ => 0
        let j := partner m (rankOf c e) u
        let r := if 0 ≤ j ∧ j < 32 then (look j.toNat vals).getD (val e) else val e
        goWr e (Wr.one d r.val r.tag))) s

/-- cbcast (R173). -/
def execCbcast (g : Guard) (d : Dst) (a b : Src) (q : Fin 8) (s : State) : Host.Outcome State Fault Refusal :=
  issueWith (.cbcast g d a b q) .none (crewBody q.val
    (fun e => do let _ ← readInt e.env e.f b; let _ ← readSrc e.env e.f a; pure ())
    fun c es s =>
      let rank (e : Ex) : Nat := match readInt e.env e.f b with | .ok v => v.toNat | .error _ => 0
      let ranks := dedupe (es.map rank)
      if 1 < ranks.length then some (s, es.map fun _ => .trap { code := .nonuniform, aux := b.code })
      else
        match es.find? fun e => rankOf c e == ranks.headD 0 with
        | none => some (s, es.map fun _ => .trap { code := .crewPartial, aux := q.val })
        | some x =>
          let r : Reg := match readSrc x.env x.f a with | .ok o => ⟨o.val, o.tag⟩ | .error _ => Reg.zero
          some (s, es.map fun e => goWr e (Wr.one d r.val r.tag))) s

/-- The integer operations of credi and cscan (R174). -/
def redOp (op : RedOp) (t : Sgn) (x y : Word) : Word :=
  match op with
  | .add => x + y
  | .min => if intVal t x ≤ intVal t y then x else y
  | .max => if intVal t x ≤ intVal t y then y else x
  | .and => x &&& y
  | .or => x ||| y
  | .xor => x ^^^ y

def intOpd (a : Src) (e : Ex) : Word := match readInt e.env e.f a with | .ok v => v | .error _ => 0
def fltOpd (a : Src) (e : Ex) : Xr := match readF e.env e.f a with | .ok v => v | .error _ => .nan
def checkInt (a : Src) : Ex → Except Trap Unit := fun e => do let _ ← readInt e.env e.f a; pure ()
def checkF (a : Src) : Ex → Except Trap Unit := fun e => do let _ ← readF e.env e.f a; pure ()
def sgnTag : Sgn → Tag
  | .s => .i32 | .n => .n32

/-- credi (R174). -/
def execCredi (g : Guard) (op : RedOp) (t : Sgn) (d : Dst) (a : Src) (q : Fin 8) (s : State) : Host.Outcome State Fault Refusal :=
  issueWith (.credi g op t d a q) .none (crewBody q.val (checkInt a) fun _ es s =>
    let vs := es.map (intOpd a)
    let r := vs.tail.foldl (redOp op t) (vs.headD 0)
    some (s, es.map fun e => goWr e (Wr.one d r (sgnTag t)))) s

/-- The reduction of credf and of cscan's .f type over a list of values (R175, R176). -/
def fltSum (m : Rm) (vs : List Xr) : Nat :=
  eaRead .ea320 (.ieee .f32) m (vs.foldl (fun a v => eaAdd .ea320 a (eaFrom .ea320 v)) Acc.zero)
def fltFold (op : Xr → Xr → Xr) (vs : List Xr) : Nat := roundF .f32 .rne (vs.foldl op .nan)

/-- credf (R175). -/
def execCredf (g : Guard) (op : FRedOp) (d : Dst) (a : Src) (q : Fin 8) (s : State) : Host.Outcome State Fault Refusal :=
  issueWith (.credf g op d a q) .none (crewBody q.val (checkF a) fun _ es s =>
    let vs := es.map (fltOpd a)
    let r := match op with
      | .sum m => fltSum m vs
      | .min => fltFold xrMin vs
      | .max => fltFold xrMax vs
    some (s, es.map fun e => goWr e (Wr.one d (BitVec.ofNat 32 r) .f32))) s

/-- The identity of an exclusive scan (R176). -/
def scanUnit (op : ScanOp) (t : ScanTy) : Nat :=
  match op, t with
  | .add, _ => 0
  | .min, .s => 0x7FFFFFFF
  | .min, .n => 0xFFFFFFFF
  | .min, .f => 0x7F800000
  | .max, .s => 0x80000000
  | .max, .n => 0
  | .max, .f => 0xFF800000

/-- The scan's value over the members of a range; an empty range gives the identity. -/
def scanVal (op : ScanOp) (t : ScanTy) (a : Src) (es : List Ex) : Nat :=
  if es = [] then scanUnit op t
  else
    match t with
    | .f =>
      let vs := es.map (fltOpd a)
      (match op with | .add => fltSum .rne vs | .min => fltFold xrMin vs | .max => fltFold xrMax vs)
    | t =>
      let sg : Sgn := if t = .s then .s else .n
      let o : RedOp := match op with | .add => .add | .min => .min | .max => .max
      let vs := es.map (intOpd a)
      (vs.tail.foldl (redOp o sg) (vs.headD 0)).toNat

/-- cscan (R176). -/
def execCscan (g : Guard) (op : ScanOp) (excl : Bool) (t : ScanTy) (d : Dst) (a : Src) (q : Fin 8) (s : State) :
    Host.Outcome State Fault Refusal :=
  issueWith (.cscan g op excl t d a q) .none (crewBody q.val (if t = .f then checkF a else checkInt a) fun c es s =>
    let tag : Tag := match t with | .s => .i32 | .n => .n32 | .f => .f32
    some (s, es.map fun e =>
      let j := rankOf c e
      let range := es.filter fun x => rankOf c x < j || (!excl && rankOf c x == j)
      goWr e (Wr.one d (BitVec.ofNat 32 (scanVal op t a range)) tag))) s

/-! ## Register budgets (R177 to R179) -/

/-- One arrival at the budget barrier (R177). -/
def budgetOne (grow : Bool) (pd : Option (Fin 16)) (b : Src) (dl : Option Src) (e : Ex) (s : State) : Option (State × Act) :=
  match s.team e.f.team with
  | none => none
  | some t =>
    match readInt e.env e.f b with
    | .error x => some (s, .trap x)
    | .ok v =>
      match readDl e.env e.f dl with
      | .error x => some (s, .trap x)
      | .ok d =>
        let w := v.toNat
        if w < 16 || 256 < w || w % 8 ≠ 0 || (if grow then w < t.w else t.w < w) then some (s, .trap (.illegalAt 0))
        else some (s, .leave { e.f with st := .budget grow w b.code d pd false s.clock })

/-- The barrier is evaluated once the issue's arrivals stand. -/
def thenSettle (s : State) (o : Host.Outcome State Fault Refusal) : Host.Outcome State Fault Refusal :=
  match o with
  | .next s' =>
    match s.issue.bind s.gang with
    | some g => .next (budgetSettle s' g.team)
    | none => .next s'
  | x => x

/-- regrow (R177, R178). -/
def execRegrow (g : Guard) (pd : Option (Fin 16)) (b : Src) (dl : Option Src) (s : State) : Host.Outcome State Fault Refusal :=
  thenSettle s (issueWith (.regrow g pd b dl) .none (each (budgetOne true pd b dl)) s)

/-- regshrink (R177, R179). -/
def execRegshrink (g : Guard) (pd : Option (Fin 16)) (b : Src) (s : State) : Host.Outcome State Fault Refusal :=
  thenSettle s (issueWith (.regshrink g pd b) .none (each (budgetOne false pd b none)) s)

end Sys2Proof.Machine
end

