-- ==== Sys2Proof/Machine/Txn.lean ====
section
/-! DEFINITION. Transaction instructions, majors 0x6B and 0x6C (R227 to R238, R262, R263). -/

namespace Sys2Proof.Machine

def branchTo (f : Fibre) (off : BitVec 34) : DWord := f.pc + off.signExtend 64 * 8

/-- The deadline operand, unsigned 32 bits (R227, R262). -/
def readDeadline (e : Env) (f : Fibre) (dl : DlSrc) : Except Trap Nat :=
  match dl with
  | .v n => (readInt e f (.v n)).map (·.toNat)
  | .s n => (readInt e f (.s n)).map (·.toNat)
  | .int n => (readInt e f (.int n)).map (·.toNat)
  | .zero => .ok 0

/-- tbegin (R227): inside an attempt it aborts the open transaction with EXPLICIT; else it opens one, with the deadline clock of the
transaction's first tbegin (R237). -/
def tbeginAct (off : BitVec 34) (dl : DlSrc) (clk : Nat) (e : Ex) : Act :=
  match readDeadline e.env e.f dl with
  | .error t => .trap t
  | .ok d =>
    let f := e.f
    match f.txn with
    | some x => .go { f := abortTxn f 5 0, next := some x.lfail }
    | none =>
      let deadline := match f.restart.find? (·.origin == f.pc) with
        | some r => r.deadline
        | none => if d = 0 then none else some (clk + d)
      .go { f := { f with restart := f.restart.filter (·.origin != f.pc),
                          txn := some { origin := f.pc, lfail := branchTo f off, deadline := deadline, opened := clk, depth := 1,
                                        succ := none, rset := [], wset := [] } } }

def execTbegin (g : Guard) (off : BitVec 34) (dl : DlSrc) (s : State) : Host.Outcome State Fault Refusal :=
  issueWith (.tbegin g off dl) .none (each fun e s => some (s, tbeginAct off dl s.clock e)) s

/-- otherwise (R234). -/
def execOtherwise (g : Guard) (off : BitVec 34) (s : State) : Host.Outcome State Fault Refusal :=
  issueWith (.otherwise g off) .none (each fun e s =>
    match e.f.txn with
    | some x =>
      if x.depth < 4 then some (s, .go { f := { e.f with txn := some { x with succ := some (branchTo e.f off) } } })
      else some (s, .go { f := e.f })
    | none => some (s, .go { f := e.f })) s

/-- The scope at which a commit orders: .pkg when every line of both sets is homed in this module, else .pod (R246). -/
def commitScope (s : State) (x : Txn) : Scope :=
  if (x.rset.map (·.line) ++ x.wset.map (·.line)).all s.ownLine then .pkg else .pod

/-- tcommit (R232), after its release (`releaseWait`): the core's entries of both sets drain, the write set's lines are reserved and their claims recalled, the
read set is checked at its homes, and the lines are written, in one step. It waits for a line of the write set that another commit reserves, and for a
layer that answers no access; a read-set line that another commit reserves is a conflict. Outside an attempt it raises ILLEGAL (R263). -/
def commitOne (e : Ex) (s : State) : Option (State × Act) :=
  match siteOf s e.f, e.f.txn with
  | none, _ => none
  | _, none => some (s, .trap (.illegalAt 0))
  | some k, some x =>
    let lines := x.rset.map (·.line) ++ x.wset.map (·.line)
    if overrun s x then some (s, .go { f := abortTxn e.f 3 0, next := some x.lfail })
    else if drainHeld s k.core || (x.wset.any fun w => s.reserved w.line) || lines.any s.asleep then none
    else
      let s := lines.foldl (fun s l => drainLine s k.core l) s
      let ws := sortBy (·.line) x.wset
      let s := ws.foldl (fun s w => recallLine (reachHome (sendAhead s k.core w.line) k.die w.line) w.line) s
      let s := visitSet s k.core x
      if !validates s x || x.rset.any fun r => (s.line r.line).resv.isSome then
        some (s, .go { f := abortTxn e.f 1 0, next := some x.lfail })
      else
        let s := ws.foldl (fun s w => freshen (reachBack (homeWrite s w.line w.mask w.data) k.die w.line) k.core w.line) s
        let lat := (lines.map (latHome s)).foldl max 0
        let f := { e.f with txn := none, status := statusWord 0 x.depth x.rset.length 0 }
        let (s, f) := afterOrd s k f .ar (commitScope s x) (s.clock + lat)
        some (s, .go { f := f, lat := some lat })

def execTcommit (g : Guard) (s : State) : Host.Outcome State Fault Refusal :=
  issueWith (.tcommit g) .none (each commitOne) s

/-- tabort (R238, R263). -/
def execTabort (g : Guard) (a : Src) (s : State) : Host.Outcome State Fault Refusal :=
  issueWith (.tabort g a) .none (each fun e s =>
    match readInt e.env e.f a with
    | .error t => some (s, .trap t)
    | .ok v =>
      match e.f.txn with
      | none => some (s, .go { f := e.f })
      | some x => some (s, .go { f := abortTxn e.f 5 (v.toNat % 256), next := some x.lfail })) s

/-- retry (R235, R236): the next alternative, a TIMEOUT, or sleep with a watch on every read-set line. -/
def retryOne (e : Ex) (s : State) : Option (State × Act) :=
  match e.f.txn with
  | none => some (s, .go { f := e.f })
  | some x =>
    if overrun s x then some (s, .go { f := abortTxn e.f 3 0, next := some x.lfail })
    else
      match (if x.depth < 4 then x.succ else none) with
      | some l =>
        some (s, .go { f := { e.f with txn := some { x with wset := [], depth := x.depth + 1, succ := none } }, next := some l })
      | none =>
        if (match x.deadline with | some d => decide (d ≤ s.clock) | none => false) then
          some (s, .go { f := abortTxn e.f 3 0, next := some x.lfail })
        else
          let s := x.rset.foldl (fun s r => s.later (.watch r.line r.ver (.fibre e.f.key))) s
          some (s, .leave { e.f with txn := none, pc := x.origin, st := .sleeping x.origin x.lfail x.deadline x.depth x.rset.length })

def execRetry (g : Guard) (s : State) : Host.Outcome State Fault Refusal :=
  issueWith (.retry g) .none (each retryOne) s

/-- tstat (R263). DESIGN CHOICE (log 111): pS is written with whether CODE is 0, so a CODE other than 0 clears it. -/
def execTstat (g : Guard) (d : Dst) (ps : Fin 16) (s : State) : Host.Outcome State Fault Refusal :=
  issueWith (.tstat g d ps) .none (each fun e s =>
    let w := Wr.one d e.f.status .n32
    some (s, .go { f := e.f, w := { w with preds := [(ps.val, e.f.status.toNat % 16 == 0)] } })) s

end Sys2Proof.Machine
end

