-- ==== Sys2Proof/Machine/CoreEvents.lean ====
section
/-! DEFINITION. Steps of a core and of the wake tables: joins, register budgets, sleeping transactions, watches, and the sealing unit (R157, R168,
R178, R209, R236 to R242, R265). -/

namespace Sys2Proof.Machine

/-! ## CREW_EVALUATE (R168) -/

/-- Step 2: the masks whose expected bits have all arrived complete. -/
def KMask.eval (live : BitVec 32) (m : KMask) : KMask :=
  if m.expected &&& ~~~m.arrived = 0 then { expected := live, arrived := 0, phase := m.phase + 1 } else m

def Crew.eval (c : Crew) : Crew :=
  let ms := c.masks.map (KMask.eval c.live)
  if ms = c.masks then c else { c with masks := ms, version := c.version + 1 }

/-- The crew that a fibre's join waits in: while a handler crew holds q7, a fibre outside it waits in the q7 that was kept (R347). -/
def joinCrew (t : Team) (f : Fibre) (q : Nat) : Option Crew :=
  if q = 7 ∧ f.hand = .none then (match t.kept with | some k => k | none => t.crew q) else t.crew q

def putJoinCrew (t : Team) (f : Fibre) (q : Nat) (c : Crew) : Team :=
  if q = 7 ∧ f.hand = .none ∧ t.kept.isSome then { t with kept := some (some c) } else { t with crews := put q c t.crews }

def setPd (f : Fibre) (pd : Option (Fin 16)) (b : Bool) : Fibre :=
  { f with preds := match pd with | some p => setPred f.preds p.val b | none => f.preds }

/-- The gang that holds a fibre. -/
def gangOf (s : State) (f : Fibre) : Option Gang := s.gangs.find? fun g => g.team == f.team && g.members.any (·.2 == f.fidx)

/-- A gang of which a fibre begins a wait passes a yield point and does not stay together: its fibres that go on become loose with the clock of
the issue (R140, R150, R153). -/
def leaveGang (s : State) (f : Fibre) : State :=
  match gangOf s f with
  | none => s
  | some g =>
    let s := g.members.foldl (fun s m => match s.fibre (f.team * 1024 + m.2) with
      | some x => if x.st = .ganged then s.setFibre x.key { x with st := .loose s.clock 0 } else s
      | none => s) s
    noteYield { s with gangs := s.gangs.filter (·.gid != g.gid) } g.core g.slot g.gid

/-- A join ends in the clock of its issue by the phase's completion: the fibre goes on at PC + 8, in its gang if that stays together (R150, R168). -/
def passJoin (s : State) (f : Fibre) (pd : Option (Fin 16)) : State :=
  let pc := f.pc + 8
  let g := { setPd f pd true with status := statusWord 0 0 0 0, pc := pc, st := if (gangOf s f).isSome then .ganged else .loose s.clock 0,
                                  pAvail := match pd with | some p => put p.val (s.clock + 4) f.pAvail | none => f.pAvail }.newRun
  s.setFibre g.key g

/-- Steps 3 and 4 for one joining fibre. -/
def evalJoin (s : State) (team fidx : Nat) : State :=
  match s.team team with
  | none => s
  | some t =>
    match s.fibre (t.key fidx) with
    | none => s
    | some f =>
      match f.st with
      | .joining q k pd phase deadline issued =>
        match joinCrew t f q with
        | none => s
        | some c =>
          let m := kmask c k
          if m.phase ≠ phase then
            if issued = s.clock then passJoin s f pd
            else s.setFibre f.key ({ setPd f pd true with status := statusWord 0 0 0 0, pc := f.pc + 8, st := .loose s.clock 0 }.newRun)
          else
            let s := if issued = s.clock then leaveGang s f else s
            match deadline with
            | none => s
            | some d =>
              if s.clock < d then s
              else
                let m := match rankIn c fidx with | some r => { m with arrived := clearBit m.arrived r } | none => m
                let s := s.setTeam team (putJoinCrew t f q { setMask c k m with version := c.version + 1 })
                s.setFibre f.key ({ setPd f pd false with status := statusWord 3 0 0 0, pc := f.pc + 8, st := .loose s.clock 0 }.newRun)
      | _ => s

/-- The joins of a team that have ended, as they stood: a fibre that a breakpoint register matches at its next address traps, with the others of its issue
that trap in this clock (R344, R354). -/
def joinBrks (s : State) (t : Team) (before : List Fibre) : State :=
  let hits := before.filterMap fun b => match b.st, s.fibre b.key with
    | .joining _ _ _ _ _ issued, some f =>
      if (match f.st with | .joining _ _ _ _ _ _ => false | _ => true) && brkAt s t f f.pc then
        some ((b.fidx % 4, issued), (f, trapRec f (.brkpt f.pc true) b.pc f.pc false none))
      else none
    | _, _ => none
  hits.foldl (fun s h => trapLater s t.id h.1 [h.2]) s

def evalTeam (s : State) (t : Team) : State :=
  let s := s.setTeam t.id { t with crews := t.crews.map fun e => (e.1, e.2.eval), kept := t.kept.map fun k => k.map Crew.eval }
  let before := s.teamFibres t.id
  joinBrks ((before.map (·.fidx)).foldl (fun s i => evalJoin s t.id i) s) t before

/-- The teams of a core. -/
def coreTeams (s : State) (core : Nat) : List Team := (s.teams.map (·.2)).filter fun t => t.core == core

/-- CREW_EVALUATE: the core's crews at the end of a clock (R168). -/
def execCrewEvaluate (core : Nat) (s : State) : Host.Outcome State Fault Refusal :=
  .next ((coreTeams s core).foldl evalTeam s)

/-! ## The allotment unit (R156, R157, R178, R358) -/

/-- The pool that a class of teams draws on, in bytes: the register region less the express reserve and the carve-outs of the other teams,
or what the express team's carve-outs leave of the reserve (R358). Registers that a regshrink freed in this clock come to their pool with the next
(R158). -/
def poolBytes (s : State) (core : Nat) (express : Bool) : Nat :=
  let c := s.core core
  let used := (((coreTeams s core).filter fun t => (s.teamLaunch t).express == express).map
    fun t => t.regBytes + if express then t.scrSize + t.tileSize else 0).sum
  let late := if c.freedAt = s.clock then (if express then c.freedX else c.freed) else 0
  (if express then 65536 else 4096 * c.ubScratch - 65536) - used - late

/-- The window base of a fibre in the register region (R142). -/
def Team.windowBase (t : Team) (fidx : Nat) : Nat := t.regBase + fidx * t.w * 4

/-- The teams of a core that draw on the free pool, by the place of their register carve-outs. -/
def poolTeamsOf (s : State) (core : Nat) : List Team :=
  sortBy (·.regBase) ((coreTeams s core).filter fun t => !(s.teamLaunch t).express)

/-- The register carve-outs of a core's teams move together, above the express reserve, in the order in which they lie (R157; log 61). -/
def repack (s : State) (core : Nat) : State :=
  ((poolTeamsOf s core).foldl (fun (acc : State × Nat) t => (acc.1.setTeam t.id { t with regBase := acc.2 }, acc.2 + t.regBytes)) (s, 65536)).1

/-- A team has windows of w entries; where its carve-out does not fit where it stands, the carve-outs move (R157). -/
def growTeam (s : State) (t : Team) (w : Nat) : State :=
  let n := t.n * w * 4
  let fits := (s.teamLaunch t).express || (decide (t.regBase + n ≤ 4096 * (s.core t.core).ubScratch) &&
    (poolTeamsOf s t.core).all fun x => x.id == t.id || decide (t.regBase + n ≤ x.regBase ∨ x.regBase + x.regBytes ≤ t.regBase))
  let s := s.setTeam t.id { t with w := w, regBytes := n, copying := true }
  if fits then s else repack s t.core

/-- The pending requests on a pool, in order of arrival. -/
def poolAsks (s : State) (core : Nat) (express : Bool) : List Allot :=
  (s.core core).allot.filter fun a => match s.team a.team with | some t => (s.teamLaunch t).express == express | none => false

def dropAllot (s : State) (core team : Nat) : State :=
  let c := s.core core
  s.setCore core { c with allot := c.allot.filter (·.team != team) }

/-- Step 2 for one request: a covered one is granted, its copy begins. -/
def grantAllot (s : State) (core : Nat) (express : Bool) (a : Allot) : State :=
  match s.team a.team with
  | none => s
  | some t =>
    if a.bytes ≤ poolBytes s core express then
      growTeam (dropAllot s core a.team) t a.w
    else s

/-- Step 3: every resident team on the pool asks, and no request is covered. -/
def stuckPool (s : State) (core : Nat) (express : Bool) : Bool :=
  let asks := poolAsks s core express
  let ts := (coreTeams s core).filter fun t => (s.teamLaunch t).express == express
  asks != [] && ts.all (fun t => asks.any (·.team == t.id)) && asks.all fun a => decide (poolBytes s core express < a.bytes)

def allotPool (s : State) (core : Nat) (express : Bool) : State :=
  let s := (poolAsks s core express).foldl (fun s a => grantAllot s core express a) s
  if stuckPool s core express then
    (poolAsks s core express).foldl (fun s a => budgetDone (dropAllot s core a.team) a.team false 4) s
  else s

/-- Step 1: what regshrinks of the last clock, retirements and moved boundaries have freed is in the pool; a free pool larger than at the last step changes
the version of the allotment cell (R157, R158). -/
def noteFreed (s : State) (core : Nat) : State :=
  let c := s.core core
  let n := poolBytes s core false
  if c.poolWas < n then s.setCore core { c with poolWas := n, allotVer := c.allotVer + 1 } else s

/-- What the free pool holds once the requests of the clock are served. -/
def notePool (s : State) (core : Nat) : State := s.setCore core { s.core core with poolWas := poolBytes s core false }

/-- ALLOTMENT_STEP (R157). -/
def execAllotmentStep (core : Nat) (s : State) : Host.Outcome State Fault Refusal :=
  .next (notePool (allotPool (allotPool (noteFreed s core) core false) core true) core)

/-- REGROW_DEADLINE (R178). -/
def execRegrowDeadline (team : Nat) (s : State) : Host.Outcome State Fault Refusal :=
  match s.team team with
  | none => .next s
  | some t =>
    match (s.core t.core).allot.find? (·.team == team) with
    | none => .next s
    | some a =>
      match a.deadline with
      | none => .next s
      | some d => if d ≤ s.clock then .next (budgetDone (dropAllot s t.core team) team false 3) else .next s

/-- REGROW_COPY_COMPLETE (R157, R178): the copy takes clocks that the spec does not state. -/
def execRegrowCopyComplete (team : Nat) (s : State) : Host.Outcome State Fault Refusal :=
  match s.team team with
  | none => .next s
  | some t =>
    if !t.copying then .next s
    else
      let (hold, s) := drawStall s
      if hold then .next s
      else .next (budgetDone (s.setTeam team { t with copying := false }) team true 0)

/-! ## Sleeping transactions and watches (R236, R239 to R242) -/

/-- TXN_DEADLINE (R236). -/
def execTxnDeadline (fibre : Nat) (s : State) : Host.Outcome State Fault Refusal :=
  match s.fibre fibre with
  | none => .next s
  | some f =>
    match f.st with
    | .sleeping _ l (some d) depth rset =>
      if d ≤ s.clock then
        .next ((loosen s { f with pc := l, status := statusWord 3 depth rset 0 } none f.pc 0).later (.watchCancel (.fibre fibre)))
      else .next s
    | _ => .next s

/-- A wake as it reaches a watcher, with what its stamp requires of the die that delivers it (R401, R402): the machine without it; none where none is on
its way. -/
def takeWake (s : State) (who : Watcher) (die : Option Nat) : Option State :=
  (s.wakes.find? (·.who == who)).map fun w =>
    let s := { s with wakes := s.wakes.erase w }
    if w.stamp = [] then s
    else
      match die with
      | some d => if d = w.die then s else deliverTo s d w.stamp
      | none => { s with hubVc := mergeVc s.hubVc w.stamp }

/-- WAKE (R236, R240): a fibre that does not sleep ignores it. -/
def execWake (fibre : Nat) (s : State) : Host.Outcome State Fault Refusal :=
  match s.fibre fibre with
  | none => .next { s with wakes := s.wakes.filter fun w => w.who != .fibre fibre }
  | some f =>
    match takeWake s (.fibre fibre) ((s.team f.team).map fun t => dieOfCore t.core) with
    | none => .next s
    | some s => .next (wakeFibre s f)

/-- Where a watcher is: its die, 8 for the hub die, and its module (R239). -/
def watcherAt (s : State) (who : Watcher) : Nat × Nat :=
  match who with
  | .fibre k => (match (s.fibre k).bind fun f => s.team f.team with | some t => dieOfCore t.core | none => 0, s.hub.modid)
  | .far m d _ => (d, m)
  | .thread _ | .port _ => (8, s.hub.modid)

/-- A watch that arrives at its line's home (R239, R241). -/
def putWatch (s : State) (line ver : Nat) (who : Watcher) : State :=
  let d := s.die (dieOfLine line)
  if (s.line line).ver ≠ ver then { s with wakes := s.wakes ++ [wakeOf s line who] }
  else if !s.ownLine line || (d.watches.filter fun w => s.ownLine w.line && sliceOf w.line == sliceOf line).length < 4096 then
    let a := watcherAt s who
    s.setDie (dieOfLine line) { d with watches := d.watches ++ [{ line := line, ver := ver, who := who, die := a.1, mod := a.2 }] }
  else
    let b := bucketOf line
    let ws := getD [] b d.buckets
    if ws.length < 16 then
      s.setDie (dieOfLine line) { d with buckets := put b (ws ++ [who]) d.buckets, bucketed := (d.bucketed + 1) % 65536 }
    else
      let s := s.setDie (dieOfLine line) { d with refused := (d.refused + 1) % 65536 }
      { s with wakes := s.wakes ++ [wakeOf s line who] }

/-- The watches of some watchers go, from every slice (R240). -/
def dropWatches (s : State) (gone : Watcher → Bool) : State :=
  { s with dies := (s.dies.map fun e => (e.1, { e.2 with
      watches := e.2.watches.filter fun w => !gone w.who,
      buckets := (e.2.buckets.map fun b => (b.1, b.2.filter fun w => !gone w)).filter (·.2 != []) })).filter (·.2 != {}) }

/-- A watcher's request reaches a line's home, with the answer: a fibre's by its core, a thread's or a port engine's with the hub's clock; no clock comes
from another module (R212, R222, R402, R404). -/
def watcherAsk (s : State) (who : Watcher) (line : Nat) : State :=
  match who with
  | .fibre k => (match (s.fibre k).bind fun f => s.team f.team with | some t => coreAsk s t.core line | none => s)
  | .far _ _ _ => s
  | .thread _ | .port _ => hubMerge (hubReach s line) line

/-- WATCH (R239 to R241): a watch of a fibre, a thread, a port engine, or a fibre of another module reaches its line's home. -/
def execWatch (line ver : Nat) (who : Watcher) (s : State) : Host.Outcome State Fault Refusal :=
  .next (putWatch (watcherAsk s who line) line ver who)

/-- WATCH_CANCEL (R240). -/
def execWatchCancel (who : Watcher) (s : State) : Host.Outcome State Fault Refusal :=
  .next (dropWatches s (· == who))

/-! ## The sealing unit (R209, R265) -/

/-- The mapped leaves of a range: address, leaf, entry address, log2 size. -/
def sealLeaves (s : State) (o : SealOp) : List (Nat × DWord × Nat × Nat) :=
  (leavesFrom s o.ctx (o.start + 4096 * o.pages) o.pages o.start).filterMap fun l => l.2.map fun x => (l.1, x.1, x.2.1, x.2.2)

/-- Whether a line lies under one of the leaves. -/
def underLeaves (ls : List (Nat × DWord × Nat × Nat)) (line : Nat) : Bool :=
  ls.any fun l => decide (leafAddr l.2.1 ≤ line * 128 ∧ line * 128 < leafAddr l.2.1 + 2 ^ l.2.2.2)

/-- Writes to the range that were translated under the old entries and have not been applied: those of a reserved line, those that an open attempt
buffers, barrier arrivals, and add-on-stores. -/
def sealWaits (s : State) (ls : List (Nat × DWord × Nat × Nat)) : Bool :=
  (s.lines.any fun e => e.2.resv.isSome && (underLeaves ls e.1 || ls.any fun l => lineOf l.2.2.1 == e.1)) ||
  (s.fibres.any fun e => match e.2.txn with | some x => x.wset.any fun w => underLeaves ls w.line | none => false) ||
  (s.bars.any fun m => underLeaves ls (lineOf m.pa)) ||
  (s.quads.any fun q => q.2.parts.any fun p => p.2.adds.any fun a => a.cells.any fun c => underLeaves ls (lineOf c.1))

/-- Every combining entry of the range drains. -/
def drainRange (s : State) (ls : List (Nat × DWord × Nat × Nat)) : State :=
  s.cores.foldl (fun s c => ((c.2.wcb.map (·.line)).filter (underLeaves ls)).foldl (fun s l => drainLine s c.1 l) s) s

/-- RDC copies of the range are dropped in every die, L1 copies of it age like any other, and the fills of its lines that are to come register like those of
any other line (R200, R208, R209). -/
def unshareRange (s : State) (ls : List (Nat × DWord × Nat × Nat)) : State :=
  { s with dies := s.dies.map fun e => (e.1, { e.2 with rdc := e.2.rdc.filter fun x => !underLeaves ls x.1,
                                                        sharers := e.2.sharers.filter fun x => !underLeaves ls x.1 }),
           cores := s.cores.map fun e => (e.1, { e.2 with
             l1 := e.2.l1.map (fun x => (x.1, { x.2 with exempt := x.2.exempt && !underLeaves ls x.1 })),
             fills := e.2.fills.map fun x => if underLeaves ls x.1 then (x.1, x.2 % 2) else x }) }

/-- The new entries of one leaf. -/
def setSealed (s : State) (die : Nat) (isSeal : Bool) (l : Nat × DWord × Nat × Nat) : State :=
  let mark : DWord := 1#64 <<< 58
  (leafEntries l.2.1 l.2.2.1).foldl (fun s ea =>
    let old : DWord := BitVec.ofNat 64 (s.dword ea)
    let e := if isSeal then old ||| mark else old &&& ~~~mark
    if e = old then s else homeEngineWrite s die ea (leBytes e.toNat 8)) s

/-- The translations of a range of a context are invalid in every die (R207). -/
def dropRange (s : State) (ctx start last : Nat) : State :=
  tlbDrop s (fun _ => true) fun x =>
    x.ctx == ctx && decide (x.base / 2 ^ x.bits * 2 ^ x.bits < last ∧ start < (x.base / 2 ^ x.bits + 1) * 2 ^ x.bits)

/-- SEALING_UNIT_APPLY: the operation that reached the unit first, to completion (R209, R265). -/
def execSealingUnitApply (s : State) : Host.Outcome State Fault Refusal :=
  match s.sealQ with
  | [] => .next s
  | o :: rest =>
    let ls := sealLeaves s o
    if sealWaits s ls then .next s
    else
      let s := drainRange s ls
      let s := if o.isSeal then s else unshareRange s ls
      let s := ls.foldl (fun s l => setSealed s o.die o.isSeal l) s
      let s := dropRange s o.ctx o.start (o.start + 4096 * o.pages)
      .next { s with sealQ := rest }

end Sys2Proof.Machine
end

