-- ==== Sys2Proof/Machine/FrontOps.lean ====
section
/-! DEFINITION. Shared operations of the front end: reads and writes of the hub, queue control blocks, placement, admission and retirement of
clusters (R141 to R143, R188, R272, R273, R334, R362, R404 to R408, R413, R414, R427). -/

namespace Sys2Proof.Machine

/-! ## Reads and writes by the hub (R404, R412) -/

/-- A translation by the front end: the tables alone. -/
def hubVa (s : State) (ctx : Nat) (va : DWord) : Option (Nat × DWord) :=
  (walk s ctx va).bind fun w =>
    let pa := s.forwarded (leafAddr w.1 / 2 ^ w.2.2 * 2 ^ w.2.2 + va.toNat % 2 ^ w.2.2)
    if isMemory pa then some (pa, w.1) else none

/-- Why a read of the hub fails: translation, protection (no RD; CONTRIB where the read refuses it), poison (R373, R414). -/
inductive HubFail where
  | translation | protection | poison
  deriving DecidableEq, Repr

/-- n bytes at a virtual address, or the failure with its address. -/
def hubBytes (s : State) (ctx : Nat) (va : DWord) (n : Nat) (contrib : Bool) : Except (HubFail × DWord) (List Byte) :=
  (List.range n).foldr (fun i acc => do
    let a := va + BitVec.ofNat 64 i
    match hubVa s ctx a with
    | none => .error (.translation, a)
    | some (pa, leaf) =>
      if !leafR leaf || (contrib && leafContrib leaf) then .error (.protection, a)
      else if s.poisoned pa 1 then .error (.poison, a)
      else do
        let rest ← acc
        pure (s.byte pa :: rest)) (.ok [])

/-- Eight-byte words of a list of bytes. -/
def dwords (bs : List Byte) : List DWord :=
  (List.range (bs.length / 8)).map fun i => BitVec.ofNat 64 (leWord ((bs.drop (8 * i)).take 8))

def hubWords (s : State) (ctx : Nat) (va : DWord) (n : Nat) : Except (HubFail × DWord) (List DWord) :=
  (hubBytes s ctx va (8 * n) false).map dwords

/-- The lines that n bytes at a virtual address lie in, as the tables place them. -/
def hubLines (s : State) (ctx : Nat) (va : DWord) (n : Nat) : List Nat :=
  dedupe ((List.range n).filterMap fun i => (hubVa s ctx (va + BitVec.ofNat 64 i)).map fun r => lineOf r.1)

/-- The hub's reads of a line: its request reaches the home, whose answer it merges into its clock (R404; log 17). -/
def hubVisit (s : State) (line : Nat) : State := hubMerge (hubReach s line) line

/-- The hub's reads of byte ranges of a context (R404). -/
def hubRead (s : State) (ctx : Nat) (rs : List (DWord × Nat)) : State :=
  (dedupe (rs.flatMap fun r => hubLines s ctx r.1 r.2)).foldl hubVisit s

/-- Whether a read of the hub waits: a line of its bytes, or of the table entries of their walks, lies in a layer that answers no access (R450). -/
def hubWaits (s : State) (ctx : Nat) (rs : List (DWord × Nat)) : Bool :=
  rs.any fun r => (List.range r.2).any fun i =>
    let va := r.1 + BitVec.ofNat 64 i
    (walkLines s ctx va).any s.asleep || (match hubVa s ctx va with | some (pa, _) => s.asleep (lineOf pa) | none => false)

/-- A 16-byte cell that the front end may write: its physical address (R410, R417, R424). -/
def signalCell (s : State) (ctx : Nat) (va : DWord) (rd : Bool) : Option Nat :=
  if va.toNat % 16 ≠ 0 then none
  else
    match hubVa s ctx va with
    | none => none
    | some (pa, leaf) =>
      if (rd && (!leafR leaf || leafContrib leaf)) || !leafW leaf || leafSealed leaf then none else some pa

/-- VALUE and the incremented COUNT in one write, which recalls the line's claims (R199, R303, R410). -/
def putSignal (s : State) (pa : Nat) (val : DWord) : State :=
  let s := recallLine (hubReach s (lineOf pa)) (lineOf pa)
  hubMerge (homePut s pa (leBytes val.toNat 8 ++ leBytes ((s.dword (pa + 8) + 1) % 2 ^ 64) 8)) (lineOf pa)

/-! ## Queue control blocks (R413, R414, R427) -/

def qcbWord (s : State) (base i : Nat) : DWord := BitVec.ofNat 64 (s.dword (base + 8 * i))
def noIndex : DWord := BitVec.allOnes 64

/-- A QCB update: SEQ odd, each changed field, the shadow, SEQ even. Fields are given by their word, 1 to 6 (R427). -/
def qcbUpdate (s : State) (base : Nat) (fields : List (Nat × DWord)) : State :=
  let seq := qcbWord s base 0
  let s := hubPut s base (leBytes ((seq + 1).toNat) 8)
  let s := fields.foldl (fun s f => if qcbWord s base f.1 = f.2 then s else hubPut s (base + 8 * f.1) (leBytes f.2.toNat 8)) s
  let s := hubPut s (base + 64) (s.bytes (base + 8) 56)
  hubPut s base (leBytes ((seq + 2).toNat) 8)

/-- The fields that a QCB gives the thread. -/
structure Qcb where
  base : Nat
  read : DWord
  ring : DWord
  size : Nat
  ctx  : Nat
  on   : Bool
  active : DWord
  step : DWord
  doneIdx : DWord
  deriving DecidableEq, Repr

/-- A reading of the QCB, or the error that stops the queue: 5 RING_FAULT, 2 BAD_QCB (R414). -/
def readQcb (s : State) (q : Nat) : Except Nat Qcb :=
  let base := (s.queue q).qcb
  let w := qcbWord s base
  let ring := w 2
  let ctx := (w 3).toNat % 256
  if !isMemory base || s.poisoned base 128 then .error 5
  else if ring.toNat % 64 < 4 || 20 < ring.toNat % 64 || !(s.ctx ctx).queues.getLsbD q then .error 2
  else .ok { base := base, read := w 1, ring := ((ring.setWidth 56).signExtend 64) &&& ~~~63#64, size := ring.toNat % 64, ctx := ctx,
             on := (w 3).getLsbD 8, active := w 4, step := w 5, doneIdx := w 6 }

/-- A queue stops with an error: STATE 11, the code in ERROR and in QCB_STEP [15:8]; what the dispatch unit has in work goes on (R414). -/
def queueError (s : State) (q code : Nat) : State :=
  let x := s.queue q
  let s := s.setQueue q { x with st := .error, error := code, hand := none }
  if isMemory x.qcb then qcbUpdate s x.qcb [(5, (qcbWord s x.qcb 5 &&& 3#64) ||| BitVec.ofNat 64 (256 * code))] else s

/-- A queue stops by the packet that the dispatch unit has in work; of one that it had accepted, the outcome stays known (R416). -/
def unitError (s : State) (q code : Nat) : State :=
  let x := s.queue q
  let failed := match x.unit with
    | some p => if p.index < x.accepted.toNat then put p.index code x.failed else x.failed
    | none => x.failed
  let s := s.setQueue q { x with unit := none, waitDl := none, watching := none, failed := failed }
  queueError (dropWatches s (· == .thread q)) q code

/-- The index below which every packet has completed, and what remains above it. -/
def advanceDone : Nat → Nat → List Nat → Nat × List Nat
  | 0, d, l => (d, l)
  | n + 1, d, l => if l.contains d then advanceDone n (d + 1) (l.filter (· != d)) else (d, l)

/-- A packet that the dispatch unit had in work has completed. -/
def unitDone (s : State) (q index : Nat) : State :=
  let x := s.queue q
  s.setQueue q { x with unit := none, finished := dedupe (x.finished ++ [index]), waitDl := none, watching := none }

/-- A LAUNCH or POOL completes, whose packet the thread left long ago. -/
def launchDone (s : State) (q index : Nat) : State :=
  let x := s.queue q
  s.setQueue q { x with finished := dedupe (x.finished ++ [index]) }

/-- The dispatch unit accepts a key (R416). -/
def acceptKey (s : State) (q index : Nat) : State :=
  s.setQueue q { s.queue q with accepted := BitVec.ofNat 64 (index + 1) }

/-! ## Placement (R405 to R407) -/

/-- h of R405: one level of the curve for each halving of s. -/
def curveH (n : Nat) : Nat → Nat → Nat → Nat → Nat → Nat
  | 0, _, _, _, d => d
  | fuel + 1, sz, x, y, d =>
    if sz = 0 then d
    else
      let rx := if x &&& sz = 0 then 0 else 1
      let ry := if y &&& sz = 0 then 0 else 1
      let d := d + sz * sz * ((3 * rx) ^^^ ry)
      let (x, y) := if ry = 0 then (if rx = 1 then (n - 1 - y, n - 1 - x) else (y, x)) else (x, y)
      curveH n fuel (sz / 2) x y d

/-- The smallest power of two that is at least m. -/
def powUp (m : Nat) : Nat := (((List.range 17).map (2 ^ ·)).find? (m ≤ ·)).getD 65536

/-- The cells of a layer in curve order. -/
def layerOrder (l : Launch) : List (Nat × Nat) :=
  let n := powUp (max l.gx l.gy)
  sortBy (fun c => curveH n 64 (n / 2) c.1 c.2 0) ((List.range l.gy).flatMap fun y => (List.range l.gx).map fun x => (x, y))

def Launch.clusters (l : Launch) : Nat := l.gx * l.gy * l.gz

/-- The cluster index at a curve position (R142, R405). -/
def clusterAt (l : Launch) (p : Nat) : Nat :=
  let c := (layerOrder l).getD (p % (l.gx * l.gy)) (0, 0)
  c.1 + l.gx * (c.2 + l.gy * (p / (l.gx * l.gy)))

/-- The die that CURVE gives a position. -/
def curveDie (l : Launch) (p : Nat) : Nat :=
  ((List.range 8).find? fun d => decide (d * l.clusters / 8 ≤ p ∧ p < (d + 1) * l.clusters / 8)).getD 0

/-- The die of a position (R406, R407). -/
def dieOfPos (s : State) (l : Launch) (p : Nat) : Nat :=
  match l.home with
  | none => curveDie l p
  | some k =>
    let va := getD 0 k l.args + BitVec.ofNat 64 (clusterAt l p) * l.stride
    match hubVa s l.ctx va with
    | none => curveDie l p
    | some (pa, leaf) => if leafContrib leaf || pa / 2 ^ 52 != s.hub.modid then curveDie l p else pa / 2 ^ 49 % 8

/-! ## Admission (R141, R188, R192, R272, R358, R406) -/

/-- The first place of a size in a range beside carve-outs in use. -/
def hole (lo hi size : Nat) (used : List (Nat × Nat)) : Option Nat :=
  (sortBy id (lo :: used.map fun u => u.1 + u.2)).find? fun b =>
    decide (lo ≤ b ∧ b + size ≤ hi) && (size == 0 || used.all fun u => u.2 == 0 || decide (b + size ≤ u.1 ∨ u.1 + u.2 ≤ b))

/-- The fibres that a team of a launch may have: 32 for a pool's team (R422). -/
def Launch.teamSize (l : Launch) : Nat := if l.pool then 32 else l.n

/-- Where a team can stand on a core: its slot, its register, scratch and tile carve-outs, its block of handles. -/
structure Room where
  slot : Nat
  reg  : Nat
  scr  : Nat
  tile : Nat
  tbl  : Nat
  deriving DecidableEq, Repr

/-- Whether a team of a launch fits a core, and where: each carve-out is contiguous (R188); an express team's lie in the reserve (R358). -/
def roomOn (s : State) (core : Nat) (l : Launch) : Option Room :=
  let ts := coreTeams s core
  let c := s.core core
  let ub := if ts = [] then l.ub else (c.ubScratch, c.ubTiles, c.ubL1)
  let slot := if l.express then [15].find? (fun x => ts.all (·.slot != x)) else (List.range 15).find? fun x => ts.all (·.slot != x)
  let regs := l.teamSize * l.w * 4
  let free := if ts = [] ∧ !l.express then 4096 * ub.1 - 65536 else poolBytes s core l.express
  let xs := ts.filter fun t => !(s.teamLaunch t).express
  let reg := if l.express then some 0 else hole 65536 (4096 * ub.1) regs (xs.map fun t => (t.regBase, t.regBytes))
  let scr := if l.express then some (65536 - l.tileBytes - l.scratch)
    else hole (4096 * ub.1) (4096 * ub.2.1) l.scratch (xs.map fun t => (t.scrBase, t.scrSize))
  let tile := if l.express then some (65536 - l.tileBytes)
    else hole (4096 * ub.2.1) (4096 * ub.2.2) l.tileBytes (xs.map fun t => (t.tileBase, t.tileSize))
  let tbl := hole 0 64 l.tiles (ts.map fun t => (t.tblBase, t.tblCount))
  match slot, reg, scr, tile, tbl with
  | some sl, some rg, some sc, some ti, some tb =>
    if (ts.map (·.n)).sum + l.teamSize ≤ 1024 ∧ regs ≤ free ∧ ub = l.ub ∧ (!l.express ∨ regs + l.scratch + l.tileBytes ≤ 65536) then
      some { slot := sl, reg := rg, scr := sc, tile := ti, tbl := tb }
    else none
  | _, _, _, _, _ => none

/-- The partition that a cluster of a matrix kernel would take: an express cluster 0, another the lowest free of 1 to 3 (R272). -/
def freePart (s : State) (quad : Nat) (express : Bool) : Option Nat :=
  (if express then [0] else [1, 2, 3]).find? fun pn =>
    let p := s.part quad pn
    p.owner.isNone && !p.clearing && p.reqs == []

/-- The ordered selections of n elements of a list. -/
def picks : Nat → List Nat → List (List Nat)
  | 0, _ => [[]]
  | n + 1, l => l.flatMap fun x => (picks n (l.filter (· != x))).map (x :: ·)

/-- The cores of each quad of a die on which a cluster of a launch can start, in every assignment of its teams to them, which the spec leaves open
(R141; log 3). -/
def fitsOn (s : State) (die : Nat) (l : Launch) : List (List Nat) :=
  (List.range 32).flatMap fun qi =>
    let quad := die * 32 + qi
    let ok := sortBy (fun c => (coreTeams s c).length) ((List.range 4).map (quad * 4 + ·) |>.filter fun c => (roomOn s c l).isSome)
    if ok.length < l.clusterSize || (l.isMatrix && (freePart s quad l.express).isNone) then [] else picks l.clusterSize ok

/-- What happens before a team's start on a core happens before its accesses: the die delivers what the clocks given require, and the core's copies,
which may be older, go (R165, R214, R216, R402, R404). -/
def startEdge (s : State) (core : Nat) (vs : List (List Nat)) : State :=
  let s := (vs.filter (· != [])).foldl (fun s v => deliverTo s (dieOfCore core) v) s
  let c := s.core core
  s.setCore core { c with l1 := c.l1.filter (·.2.exempt) }

/-- A team starts on a core (R141, R142, R188, R189). -/
def startTeam (s : State) (l : Launch) (core cluster index pos : Nat) (part : Option Nat) (r : Room) : State × Team :=
  let s := startEdge s core [(List.range 8).map fun k => getD 0 k s.hubVc]
  let c := s.core core
  let c := if (coreTeams s core) = [] ∧ (c.ubScratch, c.ubTiles, c.ubL1) ≠ l.ub then
    { c with ubScratch := l.ub.1, ubTiles := l.ub.2.1, ubL1 := l.ub.2.2, l1 := [] } else c
  let c := { c with store := c.store.filter fun e => !decide (r.scr ≤ e.1 ∧ e.1 < r.scr + l.scratch),
                    scrPoison := c.scrPoison.filter fun e => !decide (r.scr ≤ 32 * e.1 ∧ 32 * e.1 < r.scr + l.scratch) }
  let t : Team := { id := s.nextId, core := core, slot := r.slot, launch := l.id, cluster := cluster, index := index, pos := pos,
                    n := l.teamSize, w := l.w, regBytes := l.teamSize * l.w * 4, regBase := r.reg, scrBase := r.scr, scrSize := l.scratch, tileBase := r.tile,
                    tileSize := l.tileBytes, tblBase := r.tbl, tblCount := l.tiles, sregs := l.args, part := part }
  ({ s.setCore core c with nextId := s.nextId + 1 }.setTeam t.id t, t)

/-- A context with its first resident cluster runs (R362). -/
def noteAdmitted (s : State) (ctx : Nat) : State :=
  let c := s.ctx ctx
  if c.st = .idle then s.setCtx ctx { c with st := .running } else s

/-- A partition bound to a cluster, with the launch's adapter directory (R272, R273). -/
def bindPart (s : State) (quad pn : Nat) (l : Launch) (pos : Nat) : State :=
  let q := s.quad quad
  let q := q.setPart pn { q.part pn with owner := some (l.id, pos) }
  s.setQuad quad { q with mxdir := setD 0 pn (l.mxdir &&& 0x00FFFFFFFFFFFFE0#64) q.mxdir }

/-- All teams of a cluster of a grid launch start in one clock (R141); none where one of them does not fit. -/
def admitCluster (s : State) (l : Launch) (pos : Nat) (cores : List Nat) : Option State :=
  let quad := cores.headD 0 / 4
  let part := if l.isMatrix then freePart s quad l.express else none
  if cores.length ≠ l.clusterSize ∨ (dedupe cores).length ≠ cores.length ∨ cores.any (fun c => c / 4 != quad || decide (1024 ≤ c)) = true ∨
      (l.isMatrix && part.isNone) = true then none
  else
    let cluster := clusterAt l pos
    let s' := cores.zipIdx.foldl (fun (acc : Option State) e => acc.bind fun s =>
      (roomOn s e.1 l).map fun r =>
        let (s, t) := startTeam s l e.1 cluster e.2 pos part r
        (List.range l.n).foldl (fun s i =>
          let f := newFibre l t i l.entry s.clock
          s.setFibre f.key f) s) (some s)
    s'.map fun s =>
      let s := match part with | some pn => bindPart s quad pn l pos | none => s
      let die := cores.headD 0 / 128
      let s := s.setLaunch l.id { l with admitted := l.admitted ++ [pos], dies := if l.dies.contains die then l.dies else l.dies ++ [die] }
      noteAdmitted s l.ctx

/-- Whether clusters of a context may be admitted (R362, R367). -/
def admits (s : State) (ctx : Nat) : Bool :=
  let c := s.ctx ctx
  (c.st == .idle || c.st == .running) && !c.resetting

/-- The next position of a launch on a die, from a position on. -/
def posFrom (s : State) (l : Launch) (die : Nat) : Nat → Nat → Option Nat
  | 0, _ => none
  | fuel + 1, p => if !l.admitted.contains p && dieOfPos s l p == die then some p else posFrom s l die fuel (p + 1)

def nextOn (s : State) (l : Launch) (die : Nat) : Option Nat :=
  match l.home with
  | some _ => posFrom s l die (l.clusters - l.resume) l.resume
  | none =>
    let lo := max l.resume (die * l.clusters / 8)
    posFrom s l die ((die + 1) * l.clusters / 8 - lo) lo

/-! ## Retirement (R143, R192, R330, R362, R408) -/

/-- Whether every engine operation that a team issued has completed (R143). -/
def engineIdle (s : State) (t : Team) : Bool :=
  let c := s.core t.core
  let q := s.quad (quadOfCore t.core)
  c.copyQ.all (·.team != t.id) && c.sieveBusy.all (·.team != t.id) && q.walks.all (·.team != t.id) &&
  q.parts.all (fun p => p.2.reqs.all (·.team != t.id) && p.2.adds.all (·.team != t.id)) && s.records.all (·.team != t.id) &&
  (let ld := (s.ctx (s.teamLaunch t).ctx).ladle
   ld.copies.all (·.2.team != t.id) && ld.walks.all (·.2.team != t.id))

/-- A team's place on its core is free: slot, carve-outs, handles, sieve streams, pending request (R143, R192, R194, R330). -/
def freePlace (s : State) (t : Team) : State :=
  let c := s.core t.core
  let c := { c with
    tiles := c.tiles.filter fun e => !decide (t.tblBase ≤ e.1 ∧ e.1 < t.tblBase + t.tblCount),
    store := c.store.filter fun e => !decide ((t.scrBase ≤ e.1 ∧ e.1 < t.scrBase + t.scrSize) ∨ (t.tileBase ≤ e.1 ∧ e.1 < t.tileBase + t.tileSize)),
    scrPoison := c.scrPoison.filter fun e => !decide ((t.scrBase ≤ 32 * e.1 ∧ 32 * e.1 < t.scrBase + t.scrSize) ∨
      (t.tileBase ≤ 32 * e.1 ∧ 32 * e.1 < t.tileBase + t.tileSize)),
    sieves := c.sieves.filter fun e => e.2.team != t.id,
    allot := c.allot.filter (·.team != t.id),
    allotVer := if (s.teamLaunch t).express then c.allotVer else c.allotVer + 1 }
  { s.setCore t.core c with teams := del t.id s.teams }

/-- The partition of a cluster that has no team left is cleared and free (R272). -/
def freeCluster (s : State) (t : Team) : State :=
  if s.teams.any fun e => e.2.launch == t.launch && e.2.pos == t.pos then s
  else
    match t.part with
    | none => s
    | some pn => s.setPart (quadOfCore t.core) pn {}

/-- Whether a context has a resident team (R361, R362). -/
def resident (s : State) (ctx : Nat) : Bool := s.teams.any fun e => (s.teamLaunch e.2).ctx == ctx

/-! ## Pools (R366, R422) -/

/-- The bin of a PC takes a record: one of 256 bins, of at most 32 records. -/
def intoBin (bins : List Bin) (r : PoolRec) : Option (List Bin) :=
  match bins.find? fun b => b.pc == r.pc with
  | some b => if b.recs.length < 32 then some (bins.map fun x => if x.pc == r.pc then { b with recs := b.recs ++ [r] } else x) else none
  | none => if bins.length < 256 then some (bins ++ [{ pc := r.pc, recs := [r] }]) else none

/-- The records that wait in the store go to bins in order of arrival, each where it finds a place. -/
def Launch.fill (l : Launch) : Launch :=
  let r := l.waiting.foldl (fun (acc : List Bin × List PoolRec) x => match intoBin acc.1 x with
    | some b => (b, acc.2)
    | none => (acc.1, acc.2 ++ [x])) (l.bins, [])
  { l with bins := r.1, waiting := r.2 }

/-- A bin that forms a team: 32 records, or 2 microseconds after its oldest record's arrival. -/
def Bin.ripe (b : Bin) (clk : Nat) : Bool :=
  decide (32 ≤ b.recs.length) || (match b.recs with | r :: _ => decide (r.born + 2 * Config.clocksPerUs ≤ clk) | [] => false)

/-! ## The order of admission (R357, R406) -/

/-- Whether a launch goes before another: by class, then by the age of its acceptance. -/
def Launch.precedes (a b : Launch) : Bool := decide (a.reqClass < b.reqClass) || (a.reqClass == b.reqClass && decide (a.id < b.id))

/-- Whether a pool that goes before a launch has a ripe bin: its team is a cluster that goes first (R143, R357). -/
def poolWaits (s : State) (l : Launch) : Bool :=
  s.launches.any fun e => e.2.pool && e.2.express == l.express && e.2.flush.isNone && admits s e.2.ctx && e.2.precedes l &&
    e.2.fill.bins.any fun b => b.ripe s.clock

/-- The cluster that comes next in a die's order of admission, among the express ones or the others; none while a pool's team goes first (R357,
R406). -/
def nextCluster (s : State) (die : Nat) (express : Bool) : Option (Launch × Nat) :=
  let ls := (s.launches.map (·.2)).filter fun l => !l.pool && l.express == express && l.flush.isNone && !l.gridsync && admits s l.ctx
  (firstSome (fun l => (nextOn s l die).map fun p => (l, p)) (sortBy (·.reqClass) ls)).filter fun x => !poolWaits s x.1

/-- The tag of a code, reserved ones included (R13). -/
def tagOf (x : Nat) : Tag := (decTag (x % 16)).getD .raw

/-- A record's 32 bytes. -/
def recBytes (r : PoolRec) : List Byte :=
  leBytes r.pc.toNat 8 ++ leBytes r.lo.val.toNat 4 ++ leBytes r.hi.val.toNat 4 ++ leBytes (r.lo.tag.code + 16 * r.hi.tag.code) 16

/-- The records that hold a place, in the order in which they are written back: teams, bins, waiting (R366). -/
def heldRecs (s : State) (l : Launch) : List PoolRec :=
  let l := l.fill
  ((s.teams.map (·.2)).filter fun t => t.launch == l.id).flatMap (·.recs) ++ l.bins.flatMap (·.recs) ++ l.waiting

/-- The records of a stopped or reset pool go back to the start of its store. -/
def writeBack (s : State) (l : Launch) : State :=
  (heldRecs s l).zipIdx.foldl (fun s e => match hubVa s l.ctx (l.store + BitVec.ofNat 64 (32 * e.2)) with
    | some (pa, _) => hubPut s pa (recBytes e.1)
    | none => s) s

end Sys2Proof.Machine
end

