-- ==== Sys2Proof/Machine/Shake.lean ====
section
/-! DEFINITION. SHAKE256 with 512 bits of output, over Keccak-f[1600], which R372, R429, R437 and R442 name. PRESUMED (log 94): the function itself is
that of FIPS 202, which the spec does not repeat. -/

namespace Sys2Proof.Machine

/-- The state is 25 lanes of 64 bits; lane (x, y) stands at x + 5 y. -/
abbrev Lanes := List DWord

def laneAt (a : Lanes) (x y : Nat) : DWord := nth 0 a (x % 5 + 5 * (y % 5))
def lanesOf (f : Nat → Nat → DWord) : Lanes := (List.range 25).map fun i => f (i % 5) (i / 5)

/-- The rotation of each lane. -/
def rhoOff : List Nat := [0, 1, 62, 28, 27, 36, 44, 6, 55, 20, 3, 10, 43, 25, 39, 41, 45, 15, 21, 8, 18, 2, 61, 56, 14]

/-- The constants of the 24 rounds. -/
def roundConst : List DWord :=
  [0x0000000000000001, 0x0000000000008082, 0x800000000000808A, 0x8000000080008000, 0x000000000000808B, 0x0000000080000001,
   0x8000000080008081, 0x8000000000008009, 0x000000000000008A, 0x0000000000000088, 0x0000000080008009, 0x000000008000000A] ++
  [0x000000008000808B, 0x800000000000008B, 0x8000000000008089, 0x8000000000008003, 0x8000000000008002, 0x8000000000000080,
   0x000000000000800A, 0x800000008000000A, 0x8000000080008081, 0x8000000000008080, 0x0000000080000001, 0x8000000080008008]

def theta (a : Lanes) : Lanes :=
  let c := (List.range 5).map fun x => (List.range 5).foldl (fun v y => v ^^^ laneAt a x y) 0
  let d := (List.range 5).map fun x => nth 0 c ((x + 4) % 5) ^^^ (nth 0 c ((x + 1) % 5)).rotateLeft 1
  lanesOf fun x y => laneAt a x y ^^^ nth 0 d x

/-- The steps rho and pi: a lane of the result comes from lane (x + 3 y, x). -/
def rhoPi (a : Lanes) : Lanes :=
  lanesOf fun x y => (laneAt a (x + 3 * y) x).rotateLeft (nth 0 rhoOff ((x + 3 * y) % 5 + 5 * x))

def chi (a : Lanes) : Lanes := lanesOf fun x y => laneAt a x y ^^^ (~~~laneAt a (x + 1) y &&& laneAt a (x + 2) y)

def keccakRound (a : Lanes) (rc : DWord) : Lanes :=
  match chi (rhoPi (theta a)) with
  | [] => []
  | l :: t => (l ^^^ rc) :: t

def keccakF (a : Lanes) : Lanes := roundConst.foldl keccakRound a

/-- Eight bytes as a lane, lowest first. -/
def laneOf (bs : List Byte) : DWord := BitVec.ofNat 64 (bs.foldr (fun b n => b.toNat + 256 * n) 0)

/-- A block of 136 bytes enters the state. -/
def absorb (a : Lanes) (bs : List Byte) : Lanes :=
  keccakF (lanesOf fun x y => laneAt a x y ^^^ if x + 5 * y < 17 then laneOf ((bs.drop (8 * (x + 5 * y))).take 8) else 0)

/-- The message with SHAKE's suffix and padding, whole blocks of 136 bytes. -/
def padShake (bs : List Byte) : List Byte :=
  let n := 136 - bs.length % 136
  bs ++ (if n = 1 then [0x9F] else 0x1F :: (List.replicate (n - 2) 0 ++ [0x80]))

def shake256 (bs : List Byte) : BitVec 512 :=
  let m := padShake bs
  let a := (List.range (m.length / 136)).foldl (fun a i => absorb a ((m.drop (136 * i)).take 136)) (List.replicate 25 0)
  BitVec.ofNat 512 ((a.take 8).foldr (fun l n => l.toNat + 2 ^ 64 * n) 0)

end Sys2Proof.Machine
end

