-- ==== Sys2Proof/Machine/FrontEnd.lean ====
section
/-! DEFINITION. Queues, packets, launches and pools (R141, R143, R372, R373, R408, R410 to R428). -/

namespace Sys2Proof.Machine

/-! ## Submission (R411, R412) -/

/-- Whether a submission finds what R359 asks of it: no express team in the module, and no earlier packet of the queue unfinished. -/
def atRest (s : State) (q : Nat) : Bool :=
  let x := s.queue q
  x.accepted == x.wridx && x.hand.isNone && x.unit.isNone && !(s.launches.any fun e => e.2.queue == q) &&
    !(s.teams.any fun e => (s.teamLaunch e.2).express)

/-- QP_SUBMIT (R411). -/
def execQpSubmit (q : Nat) (val : DWord) (s : State) : Host.Outcome State Fault Refusal :=
  let x := s.queue q
  if 32 ≤ q then .next s
  else if x.wridx < val then
    .next (s.setQueue q { x with wridx := val, bound := if atRest s q then some (x.wridx.toNat, s.clock) else x.bound })
  else .next (s.setQueue q { x with stale := x.stale + 1 })

/-- A QCB whose update was interrupted takes its fields from the shadow (R428). -/
def repairQcb (s : State) (base : Nat) : State :=
  let seq := qcbWord s base 0
  if !isMemory base || !seq.getLsbD 0 then s
  else hubPut (hubPut s (base + 8) (s.bytes (base + 64) 56)) base (leBytes (seq + 1).toNat 8)

/-- A write of QP_QCB (R411, R414): ignored while the queue is serving; else it sets the base, clears an error, and the thread reads the QCB
anew as after a restart. -/
def execQpQcbWrite (q : Nat) (val : DWord) (s : State) : Host.Outcome State Fault Refusal :=
  let x := s.queue q
  if 32 ≤ q ∨ x.st = .serving then .next s
  else
    let base := (val &&& 0x03FFFFFFFFFFFF80#64).toNat
    let st : QSt := if x.st = .error then .idle else x.st
    .next (repairQcb (s.setQueue q { x with qcb := base, error := 0, st := st, hand := none, progress := s.clock }) base)

/-- A write of ones to STALE clears it (R411). -/
def execQpStatClear (q : Nat) (val : DWord) (s : State) : Host.Outcome State Fault Refusal :=
  let x := s.queue q
  .next (s.setQueue q { x with stale := x.stale &&& ~~~(val.extractLsb' 32 16) })

/-! ## PACKET_TAKE (R412 to R416, R427) -/

def Packet.word (p : Packet) (i : Nat) : Nat := (p.words.getD i 0).toNat
def Packet.type (p : Packet) : Nat := p.word 0 % 256

/-- The bits of each word that the tables name, by type; none where the type is not one (R415, R417, R422 to R424). -/
def packetMask (type : Nat) : Option (List DWord) :=
  let all := BitVec.allOnes 64
  match type with
  | 1 => some [0xFFFFFFFFFFFF0FFF#64, all, all, 0x0000FFFFFFFFFFFF#64, all, all, all, all]
  | 2 => some [0x0FFF#64, all, all, all, all, all, all, all]
  | 3 => some [0xFFFFFFFF000308FF#64, all, all, 0x00FFFFFF#64, 0, 0, 0, 0]
  | 4 => some [0x0CFF#64, all, all, 0, 0, 0, 0, 0]
  | 5 => some [0x04FF#64, all, 0, 0, 0, 0, 0, 0]
  | 6 => some [0x08FF#64, all, 0, 0, 0, 0, 0, 0]
  | _ => none

def packetOk (p : Packet) : Bool :=
  match packetMask p.type with
  | none => false
  | some ms => (p.words.zip ms).all fun e => e.1 &&& ~~~e.2 == 0

/-- Whether a thread runs: power, firmware and its enable bit, without which it ends the step it is in (R426, R452). -/
def threadRuns (s : State) (q : Nat) : Bool :=
  s.power && s.hub.fwRestart.isNone && (s.hub.qenable.getLsbD q || (s.queue q).hand.isSome)

/-- QCB_DONEIDX follows the completed packets (R413). -/
def noteDone (s : State) (q : Nat) (b : Qcb) : State × Nat :=
  let x := s.queue q
  let (d, rest) := advanceDone (x.finished.length + 1) b.doneIdx.toNat x.finished
  let rest := rest.filter (d ≤ ·)
  if d = b.doneIdx.toNat then (s, d)
  else (qcbUpdate (s.setQueue q { x with finished := rest, progress := s.clock }) b.base [(6, BitVec.ofNat 64 d)], d)

/-- Step 1: the thread takes the next packet (R412, R414, R416). -/
def takePacket (s : State) (q : Nat) (b : Qcb) (d : Nat) : State :=
  let x := s.queue q
  let i := if b.active = noIndex then b.read.toNat else b.active.toNat
  if !b.on ∨ x.wridx.toNat ≤ i then s.setQueue q { x with st := .idle, progress := s.clock }
  else if d + 2 ^ b.size < x.wridx.toNat then queueError s q 3
  else
    let va := b.ring + BitVec.ofNat 64 (64 * (i % 2 ^ b.size))
    if hubWaits s b.ctx [(va, 64)] then s
    else
    match hubWords s b.ctx va 8 with
    | .error _ => queueError s q 5
    | .ok ws =>
      let p : Packet := { index := i, ctx := b.ctx, words := ws }
      if packetOk p then
        let s := qcbUpdate (hubRead s b.ctx [(va, 64)]) b.base [(1, BitVec.ofNat 64 (i + 1)), (4, BitVec.ofNat 64 i), (5, 0)]
        s.setQueue q { s.queue q with st := .serving, hand := some p, progress := s.clock }
      else queueError s q 1

/-- Steps 2 and 3, and the end of a packet that the thread has handed over: one that the unit knows is answered with the outcome it had (R416). -/
def servePacket (s : State) (q : Nat) (b : Qcb) (d : Nat) (p : Packet) : State :=
  let x := s.queue q
  if !p.handed then
    if ((p.words.getD 0 0).getLsbD 11 || p.type == 5) && d < p.index then s.setQueue q { x with progress := s.clock }
    else
      let known := decide (p.index < x.accepted.toNat)
      s.setQueue q { x with hand := some { p with handed := true }, progress := s.clock,
                            unit := if known then x.unit else some p }
  else
    match x.unit with
    | some u =>
      if u.index = p.index then
        if p.index < x.accepted.toNat ∧ b.step.toNat % 4 = 0 then
          qcbUpdate (s.setQueue q { x with progress := s.clock }) b.base [(5, 1)]
        else s
      else qcbUpdate (s.setQueue q { x with hand := none, progress := s.clock }) b.base [(4, noIndex), (5, 2)]
    | none =>
      match look p.index x.failed with
      | some c => queueError s q c
      | none =>
      let fin := if p.type ≤ 2 then x.finished else dedupe (x.finished ++ [p.index])
      qcbUpdate (s.setQueue q { x with hand := none, progress := s.clock, finished := fin }) b.base [(4, noIndex), (5, if p.type ≤ 2 then 1 else 2)]

/-- PACKET_TAKE: one step of a shawm thread. A thread of a stopped queue, or of a context that is STOPPED or RESET, takes no new
packet (R362). -/
def execPacketTake (q : Nat) (s : State) : Host.Outcome State Fault Refusal :=
  let x := s.queue q
  if 32 ≤ q ∨ !threadRuns s q ∨ x.st = .error ∨ s.asleep (lineOf x.qcb) then .next s
  else
    match readQcb s q with
    | .error c => .next (if (x.hand.isSome ∨ 0 < x.wridx) ∧ x.st ≠ .stopped then queueError s q c else s)
    | .ok b =>
      let (s, d) := noteDone s q b
      match x.hand with
      | some p => .next (servePacket s q b d p)
      | none =>
        if x.st = .stopped then .next s
        else if (s.ctx b.ctx).st = .stopped ∨ (s.ctx b.ctx).st = .reset then .next (s.setQueue q { s.queue q with st := .stopped })
        else .next (takePacket s q b d)

/-! ## LAUNCH (R417 to R421) -/

/-- A kernel descriptor (R419) in the fields of a launch. -/
def withDesc (l : Launch) (ws : List DWord) : Launch :=
  let w (i : Nat) : Nat := (ws.getD i 0).toNat
  { l with entry := ws.getD 0 0, regs := fld (w 1) 0 9, w := fld (w 1) 9 9, tiles := fld (w 1) 18 7, cx := fld (w 1) 25 2 + 1,
           cy := fld (w 1) 27 2 + 1, cz := fld (w 1) 29 2 + 1, rr := fld (w 1) 31 1 == 1, gridsync := fld (w 1) 32 1 == 1,
           isMatrix := fld (w 1) 33 1 == 1, scratch := fld (w 2) 0 32, tileBytes := fld (w 2) 32 32,
           ub := (fld (w 3) 0 9, fld (w 3) 16 9, fld (w 3) 32 9) }

/-- What a descriptor must keep to (R11, R15, R24, R188, R419, R436; log 52). -/
def descOk (l : Launch) : Bool :=
  let size (lo n : Nat) : Bool := decide (lo ≤ n ∧ n ≤ 256 ∧ n % 8 = 0)
  decide (l.entry.toNat % 8 = 0) && decide (16 ≤ l.ub.1 ∧ l.ub.1 ≤ l.ub.2.1 ∧ l.ub.2.1 ≤ l.ub.2.2 ∧ l.ub.2.2 ≤ 252) && size 8 l.regs && size 16 l.w &&
  decide (l.regs ≤ l.w ∧ l.tiles ≤ 64 ∧ l.clusterSize ≤ 4 ∧ l.scratch % 128 = 0 ∧ l.tileBytes % 128 = 0 ∧ l.tileBytes ≤ 2 ^ 20)

/-- The 256-byte extension record in the fields of a launch (R418); none where it cannot be read or breaks its limits. -/
def withExt (s : State) (l : Launch) (va : DWord) : Option Launch :=
  if va = 0 then some l
  else if va.toNat % 128 ≠ 0 then none
  else
    match hubWords s l.ctx va 32 with
    | .error _ => none
    | .ok ws =>
      let w (i : Nat) : DWord := ws.getD i 0
      let n := (w 5).toNat
      if 8 < n ∨ (w 2).toNat % 128 ≠ 0 ∨ 2 ^ 20 < (w 2).toNat ∨ (w 4).toNat % 128 ≠ 0 ∨ ((ws.drop 6).take 10).any (· != 0) = true then none
      else
        some { l with h := w 0, locB := w 1, locF := (w 2).toNat, mxdir := w 3, digest := w 4,
                      ranges := (List.range n).map fun i => (w (16 + 2 * i), w (17 + 2 * i)) }

/-- The argument block: s0 to s31. -/
def withArgs (s : State) (l : Launch) (va : DWord) : Option Launch :=
  match hubWords s l.ctx va 32 with
  | .error _ => none
  | .ok ws => some { l with args := ws.zipIdx.foldl (fun m e => setD 0 e.2 e.1 m) [] }

/-- The class at which a launch runs: express only from queue 0 where a team fits the reserve; a launch that names express otherwise runs at high
(R357 to R359). -/
def withClass (l : Launch) (cls : Nat) : Launch :=
  let x := cls == 0 && l.queue == 0 && decide (l.teamSize * l.w * 4 + l.scratch + l.tileBytes ≤ 65536)
  { l with express := x, cls := if cls = 0 ∧ !x then 1 else cls }

/-- A launch with its descriptor, arguments and extension read; none gives BAD_ARGS (R417). -/
def readLaunch (s : State) (l : Launch) (p : Packet) (cls : Nat) : Option Launch :=
  match hubWords s l.ctx (p.words.getD 1 0) 4, withExt s l (p.words.getD 7 0) with
  | .ok ds, some x =>
    let y := withDesc x ds
    if descOk y then (withArgs s y (p.words.getD 2 0)).map fun z => withClass z cls else none
  | _, _ => none

/-- Whether an empty quad offers what a team needs (R420). -/
def tooLarge (l : Launch) : Bool :=
  !l.express && decide (4096 * l.ub.1 - 65536 < l.teamSize * l.w * 4 ∨ 4096 * (l.ub.2.1 - l.ub.1) < l.scratch ∨
    4096 * (l.ub.2.2 - l.ub.2.1) < l.tileBytes)

/-- An accepted launch enters; one with a status has nothing to run and completes (R420). -/
def enterLaunch (s : State) (l : Launch) : State :=
  let l := if l.status = 0 then l else { l with flush := some [] }
  ({ s with nextId := s.nextId + 1 }).setLaunch l.id l

/-- Every cluster of a .gridsync launch is admitted at once, each where a free choice puts it, or none is (R421; log 53). -/
def admitAll (s : State) (l : Launch) : Nat → Nat → Option State
  | 0, _ => some s
  | fuel + 1, p =>
    match s.launch l.id with
    | none => none
    | some x =>
      match fitsOn s (dieOfPos s x p) x with
      | [] => none
      | cs => let (i, s) := draw s cs.length; (admitCluster s x p (cs.getD i [])).bind fun s => admitAll s l fuel (p + 1)

/-- How many more teams of a launch a core can take. -/
def teamsFit (s : State) (core : Nat) (l : Launch) : Nat → Nat
  | 0 => 0
  | n + 1 =>
    match roomOn s core l with
    | none => 0
    | some r => teamsFit (startTeam s l core 0 0 0 none r).1 core l n + 1

/-- The cores of the first quad of a die that can take a cluster, those with most room first: so placed, clusters that can all be admitted are. -/
def roomiest (s : State) (die : Nat) (l : Launch) : Option (List Nat) :=
  firstSome (fun qi =>
    let quad := die * 32 + qi
    let ok := sortBy (fun c => 16 - teamsFit s c l 16) ((List.range 4).map (quad * 4 + ·) |>.filter fun c => (roomOn s c l).isSome)
    if ok.length < l.clusterSize || (l.isMatrix && (freePart s quad l.express).isNone) then none else some (ok.take l.clusterSize)) (List.range 32)

/-- Every cluster of a .gridsync launch is admitted at once where its cores have most room, or none is (R421; log 53). -/
def admitRoomiest (s : State) (l : Launch) : Nat → Nat → Option State
  | 0, _ => some s
  | fuel + 1, p =>
    (s.launch l.id).bind fun x => (roomiest s (dieOfPos s x p) x).bind fun cs =>
      (admitCluster s x p cs).bind fun s => admitRoomiest s l fuel (p + 1)

/-- A launch as its LAUNCH packet gives it, before the descriptor. -/
def launchOf (s : State) (q : Nat) (p : Packet) : Launch :=
  let w0 := p.word 0
  let w3 := p.word 3
  { id := s.nextId, queue := q, index := p.index, ctx := p.ctx, cls := 0, pod := fld w0 10 1 == 1, n := fld w0 22 10 + 1,
    gx := fld w3 0 16, gy := fld w3 16 16, gz := fld w3 32 16, resume := fld w0 32 32, entry := 0, regs := 16, w := 16,
    seed := p.words.getD 4 0, stride := p.words.getD 5 0, home := if fld w0 16 1 = 1 then some (fld w0 17 5) else none,
    sig := p.words.getD 6 0, accepted := s.clock, recorded := fld w0 32 32 }

/-- What the acceptance of a launch reads: descriptor, argument block, extension (R417). -/
def launchReads (p : Packet) : List (DWord × Nat) :=
  [(p.words.getD 1 0, 32), (p.words.getD 2 0, 256)] ++ if p.words.getD 7 0 = 0 then [] else [(p.words.getD 7 0, 256)]

/-- The next step of a LAUNCH in the dispatch unit. -/
def acceptLaunch (s : State) (q : Nat) (p : Packet) : State :=
  let l := launchOf s q p
  if l.clusters = 0 ∨ 2 ^ 24 < l.clusters ∨ l.clusters ≤ l.resume ∨ (signalCell s p.ctx l.sig true).isNone then unitError s q 1
  else if hubWaits s p.ctx (launchReads p) then s
  else
    let done (s : State) (l : Launch) : State :=
      let s := acceptKey (enterLaunch (hubRead s p.ctx (launchReads p)) l) q p.index
      s.setQueue q { s.queue q with unit := none }
    match readLaunch s l p (fld (p.word 0) 8 2) with
    | none => done s { l with status := 2 }
    | some l =>
      if l.gridsync then
        if !admits s l.ctx then s
        else
          match (admitAll (s.setLaunch l.id l) l (l.clusters - l.resume) l.resume).or
              (admitRoomiest (s.setLaunch l.id l) l (l.clusters - l.resume) l.resume) with
          | none => done s { l with status := 1 }
          | some s' => done s' ((s'.launch l.id).getD l)
      else done s (if tooLarge l then { l with status := 3 } else l)

/-- LAUNCH (R417). -/
def execLaunch (q : Nat) (s : State) : Host.Outcome State Fault Refusal :=
  match (s.queue q).unit with
  | none => .next s
  | some p => if p.type = 1 then .next (acceptLaunch s q p) else .next s

/-! ## POOL (R366, R422) -/

/-- A record of a store. -/
def recOf (bs : List Byte) (clk : Nat) : PoolRec :=
  let x := leWord bs
  { pc := BitVec.ofNat 64 x, lo := ⟨BitVec.ofNat 32 (fld x 64 32), tagOf (fld x 128 4)⟩, hi := ⟨BitVec.ofNat 32 (fld x 96 32), tagOf (fld x 132 4)⟩,
    born := clk }

def acceptPool (s : State) (q : Nat) (p : Packet) : State :=
  let w0 := p.word 0
  let cap := fld (p.word 5) 0 32
  let ninit := fld (p.word 5) 32 32
  let store := p.words.getD 3 0
  let l : Launch := { id := s.nextId, queue := q, index := p.index, ctx := p.ctx, cls := 0, pool := true, pod := fld w0 10 1 == 1, n := 32,
                      entry := 0, regs := 16, w := 16, seed := p.words.getD 4 0, sig := p.words.getD 6 0, store := store, capacity := cap,
                      accepted := s.clock }
  if cap = 0 ∨ 2 ^ 24 < cap ∨ cap < ninit ∨ store.toNat % 32 ≠ 0 ∨ (signalCell s p.ctx l.sig true).isNone then unitError s q 1
  else
    let reads := launchReads p ++ [(store, 32 * ninit)]
    let shaped := match hubWords s p.ctx (p.words.getD 1 0) 4 with
      | .ok ds => let y := withDesc l ds; y.clusterSize == 1 && !y.gridsync
      | .error _ => true
    if hubWaits s p.ctx reads then s
    else if !shaped then unitError s q 1
    else
    let done (s : State) (l : Launch) : State :=
      let s := acceptKey (enterLaunch (hubRead s p.ctx reads) l) q p.index
      s.setQueue q { s.queue q with unit := none }
    match readLaunch s l p (fld w0 8 2), hubBytes s p.ctx store (32 * ninit) false with
    | none, _ => done s { l with status := 2 }
    | some _, .error _ => done s { l with status := 2 }
    | some l, .ok bs =>
      if tooLarge l then done s { l with status := 3 }
      else done s { l with held := ninit, waiting := (List.range ninit).map fun i => recOf ((bs.drop (32 * i)).take 32) s.clock }

/-- POOL (R422). -/
def execPool (q : Nat) (s : State) : Host.Outcome State Fault Refusal :=
  match (s.queue q).unit with
  | none => .next s
  | some p => if p.type = 2 then .next (acceptPool s q p) else .next s

/-- The fibre of a record (R422). -/
def recFibre (l : Launch) (t : Team) (i : Nat) (r : PoolRec) (clk : Nat) : Fibre :=
  let f := newFibre l t i (r.pc &&& ~~~7#64) clk
  { f with regs := setD Reg.zero 1 r.hi (setD Reg.zero 0 r.lo []), entry := if r.pc.toNat % 8 = 0 then none else some r.pc }

/-- A bin's records start as a team (R422), after what each spawning fibre had written (R165). -/
def formTeam (s : State) (l : Launch) (b : Bin) (core : Nat) (part : Option Nat) (r : Room) : State :=
  let (s, t) := startTeam s l core l.formed 0 l.formed part r
  let s := startEdge s core (b.recs.map (·.stamp))
  let s := s.setTeam t.id { t with recs := b.recs }
  let s := b.recs.zipIdx.foldl (fun s e => let f := recFibre l t e.2 e.1 s.clock; s.setFibre f.key f) s
  let s := match part with | some pn => bindPart s (core / 4) pn l l.formed | none => s
  let dies := if l.dies.contains (core / 128) then l.dies else l.dies ++ [core / 128]
  noteAdmitted (s.setLaunch l.id { l with bins := l.bins.filter fun x => x.pc != b.pc, formed := l.formed + 1, dies := dies }) l.ctx

/-- Whether nothing that precedes a pool in the order of admission waits on a die (R357, R422). -/
def poolTurn (s : State) (l : Launch) (die : Nat) : Bool :=
  admits s l.ctx && l.flush.isNone && !poolWaits s l && !(match nextCluster s die l.express with
    | some (x, _) => x.precedes l
    | none => false)

/-- Where a team of a pool can stand on a core, with the partition that it takes if it has one (R272, R422). -/
def poolRoom (s : State) (l : Launch) (core : Nat) : Option (Room × Option Nat) :=
  let part := if l.isMatrix then freePart s (core / 4) l.express else none
  if 1024 ≤ core ∨ (l.isMatrix && part.isNone) = true then none else (roomOn s core l).map fun r => (r, part)

/-- POOL_BIN_FORM (R422): a ripe bin's records start as a team on a core that has room, behind what precedes its launch in the order of admission. -/
def execPoolBinForm (launch : Nat) (pc : DWord) (core : Nat) (s : State) : Host.Outcome State Fault Refusal :=
  match s.launch launch with
  | none => .next s
  | some l =>
    let l := l.fill
    match l.bins.find? fun b => b.pc == pc && b.ripe s.clock, poolRoom s l core with
    | some b, some (r, part) => .next (if l.pool && poolTurn s l (core / 128) then formTeam s l b core part r else s)
    | _, _ => .next s

/-- POOL_END (R422): no record holds a place and no team of the pool is resident; its flush goes out (R410). -/
def execPoolEnd (launch : Nat) (s : State) : Host.Outcome State Fault Refusal :=
  match s.launch launch with
  | none => .next s
  | some l =>
    if l.pool && l.held == 0 && l.flush.isNone && !(s.teams.any fun e => e.2.launch == launch) then
      .next (s.setLaunch launch { l with flush := some l.dies })
    else .next s

/-! ## CLUSTER_ADMIT, TEAM_RETIRE, CLUSTER_RETIRE_REPORT (R141, R143, R406, R408) -/

/-- CLUSTER_ADMIT: the cluster that comes next on the die, on cores of one quad that fit it (R141, R406). -/
def execClusterAdmit (launch : Nat) (cores : List Nat) (s : State) : Host.Outcome State Fault Refusal :=
  match s.launch launch with
  | none => .next s
  | some l =>
    match nextCluster s (cores.headD 0 / 128) l.express with
    | none => .next s
    | some (x, p) =>
      if x.id ≠ launch then .next s
      else
        match admitCluster s l p cores with
        | none => .next s
        | some s => .next s

/-- The queues of a context. -/
def queuesOf (s : State) (ctx : Nat) : List Nat := (List.range 32).filter fun q => (s.ctx ctx).queues.getLsbD q

/-- A queue stops with its context: it reads STATE 10 until START, a queue in ERROR too, whose code stays (R362, R425; log 58). -/
def stopQueue (s : State) (q : Nat) : State := s.setQueue q { s.queue q with st := .stopped }

/-- A queue of a context that starts again (R425); one whose error stands is in ERROR again (R414; log 58). -/
def startQueue (s : State) (q : Nat) : State :=
  let x := s.queue q
  if x.st = .stopped then s.setQueue q { x with st := if x.error = 0 then .idle else .error } else s

/-- The launches of a context that have not completed, in order of acceptance. -/
def unfinished (s : State) (ctx : Nat) : List Launch := (s.launches.map (·.2)).filter fun l => l.ctx == ctx

/-- R425 for one queue: a packet that the unit has in work is abandoned and its key freed; the thread's step ends with a complete update. -/
def endQueue (s : State) (q : Nat) : State :=
  let x := s.queue q
  let s := dropWatches s (· == .thread q)
  let back : Option Nat := match x.unit with
    | some u => some u.index
    | none => none
  let acc := match x.unit with
    | some u => if u.index < x.accepted.toNat then BitVec.ofNat 64 u.index else x.accepted
    | none => x.accepted
  let s := s.setQueue q { x with unit := none, hand := none, accepted := acc, waitDl := none, watching := none }
  let s := match readQcb s q with
    | .error _ => s
    | .ok b =>
      let (s, _) := noteDone s q b
      let untaken : List (Nat × DWord) := match x.hand with
        | some p => if p.handed then [] else [(1, BitVec.ofNat 64 p.index)]
        | none => []
      let act := match back with | some i => BitVec.ofNat 64 i | none => noIndex
      qcbUpdate s b.base (untaken ++ [(4, act), (5, 0)])
  stopQueue s q

/-- R425: the unfinished launches of a context count as completed and write no cell, pools write back their records, queues stop. -/
def endLaunches (s : State) (ctx : Nat) : State :=
  let ls := unfinished s ctx
  let s := (ls.filter (·.pool)).foldl writeBack s
  let s := ls.foldl (fun s l => { launchDone s l.queue l.index with launches := del l.id s.launches }) s
  (queuesOf s ctx).foldl endQueue s

/-- The resume index of a launch as a report gives it (R365). -/
def Launch.resumeIndex (l : Launch) : Nat := if l.pool then 0xFFFFFFFF else l.recorded

/-- The record of a retired cluster's position: the count of recorded clusters advances over the bits that follow it (R408). -/
def recordCluster (l : Launch) (pos : Nat) : Launch :=
  let r := advanceDone (l.bits.length + 2) l.recorded (dedupe (pos :: l.bits))
  { l with recorded := r.1, bits := r.2 }

/-- CLUSTER_RETIRE_REPORT (R408). -/
def execClusterRetireReport (launch pos : Nat) (s : State) : Host.Outcome State Fault Refusal :=
  match s.launch launch with
  | none => .next s
  | some l =>
    if l.pool || !l.admitted.contains pos || l.bits.contains pos || pos < l.recorded ||
        (s.teams.any fun e => e.2.launch == launch && e.2.pos == pos) then .next s
    else .next (s.setLaunch launch (recordCluster l pos))

/-! ## Digests and completion (R372, R373, R410, R420) -/

/-- The digest cell's 128 bytes over the ranges of a record (R372, R373). -/
def digestCell (s : State) (ctx : Nat) (ranges : List (DWord × DWord)) : List Byte :=
  let r := ranges.foldl (fun acc e => do
    let a ← acc
    let bs ← hubBytes s ctx e.1 e.2.toNat true
    pure (a ++ leBytes e.1.toNat 8 ++ leBytes e.2.toNat 8 ++ bs)) (.ok [] : Except (HubFail × DWord) (List Byte))
  match r with
  | .ok bs => leBytes (shake256 bs).toNat 64 ++ List.replicate 64 0
  | .error (c, va) =>
    let st : Nat := match c with | .translation => 1 | .protection => 2 | .poison => 3
    List.replicate 64 0 ++ leBytes st 8 ++ leBytes va.toNat 8 ++ List.replicate 48 0

/-- A digest is written to its cell in one write, where the cell can be written. -/
def putDigest (s : State) (ctx : Nat) (va : DWord) (ranges : List (DWord × DWord)) : State :=
  if va = 0 then s
  else
    match hubVa s ctx va with
    | none => s
    | some (pa, leaf) =>
      if !leafW leaf || leafSealed leaf || pa % 128 != 0 then s
      else
        let bs := digestCell s ctx ranges
        let s := hubRead s ctx (ranges.map fun r => (r.1, r.2.toNat))
        let s := recallLine (hubReach s (lineOf pa)) (lineOf pa)
        hubMerge (homePut s pa bs) (lineOf pa)

/-- Whether a digest waits: a line that it reads, or its cell's, answers no access now (R232, R450). -/
def digestWaits (s : State) (ctx : Nat) (va : DWord) (ranges : List (DWord × DWord)) : Bool :=
  va != 0 && (hubWaits s ctx ((va, 1) :: ranges.map fun r => (r.1, r.2.toNat)) ||
    (match hubVa s ctx va with | some (d, _) => s.reserved (lineOf d) | none => false))

/-- The teams that a launch is to run. -/
def Launch.teamCount (l : Launch) : Nat := if l.pool then l.formed else (l.clusters - l.resume) * l.clusterSize

/-- LAUNCH_FLUSH (R410): the counter of retired teams has reached the team count; each die that ran a team is to flush. -/
def execLaunchFlush (launch : Nat) (s : State) : Host.Outcome State Fault Refusal :=
  match s.launch launch with
  | none => .next s
  | some l =>
    if !l.pool && l.flush.isNone && l.teamCount ≤ l.retired then .next (s.setLaunch launch { l with flush := some l.dies }) else .next s

/-- FLUSH_ANSWER (R410): a die whose cores have drained answers, stamped. -/
def execFlushAnswer (launch die : Nat) (s : State) : Host.Outcome State Fault Refusal :=
  match s.launch launch with
  | none => .next s
  | some l =>
    match l.flush with
    | none => .next s
    | some ds =>
      if !ds.contains die || (s.cores.any fun e => e.1 / 128 == die && e.2.acks != []) then .next s
      else
        let s := { s with hubVc := mergeVc s.hubVc (stampOf s die) }
        .next (s.setLaunch launch { l with flush := some (ds.filter (· != die)) })

/-- LAUNCH_COMPLETE (R410, R420): the digest, then the signal cell; a cell that can no longer be written stops the queue. -/
def execLaunchComplete (launch : Nat) (s : State) : Host.Outcome State Fault Refusal :=
  match s.launch launch with
  | none => .next s
  | some l =>
    if l.flush ≠ some [] then .next s
    else
      let finish (s : State) : State := launchDone { s with launches := del launch s.launches } l.queue l.index
      match signalCell s l.ctx l.sig false with
      | none =>
        let s := if l.status = 0 then putDigest s l.ctx l.digest l.ranges else s
        .next (queueError (finish s) l.queue 5)
      | some pa =>
        if s.reserved (lineOf pa) || (l.status == 0 && digestWaits s l.ctx l.digest l.ranges) then .next s
        else
          let s := if l.status = 0 then putDigest s l.ctx l.digest l.ranges else s
          .next (finish (putSignal s pa (BitVec.ofNat 64 (l.index % 2 ^ 56 + 2 ^ 56 * l.status))))

/-! ## WAIT, SIGNAL, MARKER, DIGEST (R423, R424) -/

/-- The test of a WAIT's cell (R423). -/
def waitHolds (p : Packet) (val ver : Nat) : Bool :=
  match fld (p.word 0) 16 2 with
  | 0 => ver != fld (p.word 3) 0 24
  | 1 => val == p.word 2
  | 2 => decide (p.word 2 ≤ val)
  | _ => val != p.word 2

/-- The test: completion, or a watch on the cell's line with the version read (R245, R423). -/
def testWait (s : State) (q : Nat) (p : Packet) : State :=
  let va := p.words.getD 1 0
  match hubVa s p.ctx va with
  | none => unitError s q 1
  | some (pa, leaf) =>
    if !leafR leaf || va.toNat % 8 != 0 then unitError s q 1
    else
      let line := lineOf pa
      if s.asleep line then s
      else
      let s := acceptKey s q (max p.index ((s.queue q).accepted.toNat - 1))
      let s := hubVisit s line
      if waitHolds p (s.dword pa) (s.line line).ver then unitDone s q p.index
      else putWatch (s.setQueue q { s.queue q with watching := some line }) line (s.line line).ver (.thread q)

/-- WAIT (R423): the first test, and the deadline from it on. -/
def execWait (q : Nat) (s : State) : Host.Outcome State Fault Refusal :=
  let x := s.queue q
  match x.unit with
  | none => .next s
  | some p =>
    if p.type ≠ 3 ∨ x.watching.isSome then .next s
    else
      let us := fld (p.word 0) 32 32
      let dl := if us = 0 then none else some (s.clock + us * Config.clocksPerUs)
      .next (testWait (s.setQueue q { x with waitDl := x.waitDl.or dl }) q p)

/-- WAIT_PACKET_WAKE (R423): a wake for the watch of a WAIT; the cell is tested again. -/
def execWaitPacketWake (q : Nat) (s : State) : Host.Outcome State Fault Refusal :=
  match takeWake s (.thread q) none with
  | none => .next s
  | some s =>
    match (s.queue q).unit with
    | none => .next s
    | some p => if p.type = 3 ∧ (s.queue q).watching.isSome then .next (testWait s q p) else .next s

/-- WAIT_DEADLINE (R423). -/
def execWaitDeadline (q : Nat) (s : State) : Host.Outcome State Fault Refusal :=
  match (s.queue q).waitDl with
  | none => .next s
  | some d => if d ≤ s.clock then .next (unitError s q 4) else .next s

/-- A signal by a packet: VALUE and COUNT in one write (R424). -/
def signalPacket (s : State) (q : Nat) (p : Packet) (val : DWord) : State :=
  match signalCell s p.ctx (p.words.getD 1 0) true with
  | none => unitError s q 1
  | some pa =>
    if s.reserved (lineOf pa) then s
    else unitDone (putSignal (acceptKey s q p.index) pa val) q p.index

/-- SIGNAL (R424). -/
def execSignal (q : Nat) (s : State) : Host.Outcome State Fault Refusal :=
  match (s.queue q).unit with
  | none => .next s
  | some p => if p.type = 4 then .next (signalPacket s q p (p.words.getD 2 0)) else .next s

/-- MARKER (R424): its own write index. -/
def execMarker (q : Nat) (s : State) : Host.Outcome State Fault Refusal :=
  match (s.queue q).unit with
  | none => .next s
  | some p => if p.type = 5 then .next (signalPacket s q p (BitVec.ofNat 64 p.index)) else .next s

/-- DIGEST (R424): the ranges of its extension record. -/
def execDigest (q : Nat) (s : State) : Host.Outcome State Fault Refusal :=
  match (s.queue q).unit with
  | none => .next s
  | some p =>
    if p.type ≠ 6 then .next s
    else
      let l : Launch := { id := 0, queue := q, index := p.index, ctx := p.ctx, cls := 2, n := 1, entry := 0, regs := 16, w := 16 }
      if p.word 1 = 0 then .next (unitError s q 1)
      else if hubWaits s p.ctx [(p.words.getD 1 0, 256)] then .next s
      else
        match withExt s l (p.words.getD 1 0) with
        | none => .next (unitError s q 1)
        | some l =>
          if digestWaits s p.ctx l.digest l.ranges then .next s
          else .next (unitDone (putDigest (acceptKey s q p.index) p.ctx l.digest l.ranges) q p.index)

/-! ## Firmware restart (R426, R428) -/

/-- SHAWM_WATCHDOG (R426): 1 ms without progress while serving, on work that is not a WAIT. -/
def execShawmWatchdog (q : Nat) (s : State) : Host.Outcome State Fault Refusal :=
  let x := s.queue q
  let isWait := match x.hand with | some p => p.type == 3 | none => false
  if s.hub.fwRestart.isNone ∧ x.st = .serving ∧ !isWait ∧ x.progress + 1000 * Config.clocksPerUs ≤ s.clock then
    .next { s with hub := { s.hub with fwRestart := some s.clock } }
  else .next s

/-- FIRMWARE_RESTART (R428): at most 200 microseconds after the watchdog, every thread repairs its QCB and takes up its packets again. -/
def execFirmwareRestart (s : State) : Host.Outcome State Fault Refusal :=
  match s.hub.fwRestart with
  | none => .next s
  | some c =>
    let (hold, s) := drawStall s
    if hold ∧ s.clock < c + 200 * Config.clocksPerUs then .next s
    else
      let s := (List.range 32).foldl (fun s q =>
        let x := s.queue q
        let s := s.setQueue q { x with hand := none, progress := s.clock, st := if x.st = .serving then .idle else x.st }
        if x.qcb = 0 then s else repairQcb s x.qcb) s
      .next { s with hub := { s.hub with fwRestart := none } }

end Sys2Proof.Machine
end

