-- ==== Sys2Proof/Machine/Save.lean ====
section
/-! DEFINITION. The save area of a context: header, launch table, team blocks, ladle image (R311, R343, R365 to R370). -/

namespace Sys2Proof.Machine

def CtxSt.code : CtxSt → Nat
  | .idle => 0 | .running => 1 | .draining => 2 | .stopped => 3 | .frozen => 4 | .reset => 5 | .faulted => 6

def pad (n : Nat) (bs : List Byte) : List Byte := bs ++ List.replicate (n - bs.length) 0
def upTo (k n : Nat) : Nat := (n + k - 1) / k * k

/-! ## Team blocks (R343, R369) -/

/-- A halt record's 16 bytes (R343). -/
def haltBytes (r : HaltRec) : List Byte :=
  leBytes (r.pc.toNat * 2 ^ 64 + r.slot * 2 ^ 54 + r.skid * 2 ^ 52 + r.fidx0 * 2 ^ 42 + (r.count - 1) * 2 ^ 37 + r.kind * 2 ^ 35) 16

/-- The PC of a fibre's image. -/
def imagePc (f : Fibre) : DWord :=
  match f.trap, f.st with
  | some r, .trapped => r.rpc
  | _, .sleeping o _ _ _ _ => o
  | _, _ => f.pc

/-- Running, sleeping, halted, by its team's halt or its context's freeze (R367), or trapped; a fibre in a join or at the budget barrier counts as
sleeping. -/
def imageState (t : Team) (frozen : Bool) (f : Fibre) : Nat :=
  match f.st with
  | .trapped => 3
  | .sleeping _ _ _ _ _ | .joining _ _ _ _ _ _ | .budget _ _ _ _ _ _ _ => 1
  | _ => if t.halt.isSome || frozen then 2 else 0

def imageSize (w : Nat) : Nat := upTo 128 (128 + 4 * w + w / 2)

/-- A fibre's image (R369). -/
def imageBytes (t : Team) (frozen : Bool) (f : Fibre) : List Byte :=
  let regs := (List.range t.w).map fun i => getD Reg.zero i f.regs
  let tags := (List.range (t.w / 2)).map fun i =>
    BitVec.ofNat 8 ((getD Reg.zero (2 * i) f.regs).tag.code + 16 * (getD Reg.zero (2 * i + 1) f.regs).tag.code)
  pad (imageSize t.w)
    (leBytes (imagePc f).toNat 8 ++ leBytes f.seed.toNat 8 ++
     leBytes (f.preds.toNat + 2 ^ 16 * (f.fb / 8) + 2 ^ 21 * (f.fs / 8) + 2 ^ 32 * f.depth + 2 ^ 48 * imageState t frozen f) 8 ++
     leBytes f.status.toNat 8 ++ pad 64 (f.stack.reverse.flatMap fun e => leBytes e.toNat 8) ++ List.replicate 32 0 ++
     regs.flatMap (fun r => leBytes r.val.toNat 4) ++ tags)

/-- The launches of a context that have not completed, in order of acceptance. -/
def tableOf (s : State) (ctx : Nat) : List Launch := (unfinished s ctx).take 32

/-- The head of a team's block: header and halt records (R343, R369). -/
def blockHead (s : State) (t : Team) : List Byte :=
  let ix := ((tableOf s (s.teamLaunch t).ctx).findIdx? (·.id == t.launch)).getD 0
  pad 128 ([t.core / 128, t.core % 128, t.slot, t.n, t.w, t.haltRecs.length, t.events, ix].flatMap fun x => leBytes x 8) ++
    t.haltRecs.flatMap haltBytes

/-- The trap frames of a report: 48 bytes each (R346, R350; log 43). -/
def frameBytes (r : Report) : List Byte := r.frames.flatMap fun f => f.flatMap fun x => leBytes x.val.toNat 4

/-- A team's block: header, halt records, an image for each of its fibres, and the trap frames of its report (R350, R369; log 43). -/
def teamBlock (s : State) (t : Team) : List Byte :=
  blockHead s t ++ (s.teamFibres t.id).flatMap (imageBytes t ((s.ctx (s.teamLaunch t).ctx).st == .frozen)) ++
    (match t.report with | some r => frameBytes r | none => [])

/-- The blocks with their offsets, each aligned to 128. -/
def layBlocks (off : Nat) : List (List Byte) → List (Nat × List Byte)
  | [] => []
  | b :: bs => (off, b) :: layBlocks (upTo 128 (off + b.length)) bs

/-! ## The ladle image (R311, R370) -/

def ladleHead (kind die unit pos len : Nat) : List Byte := leBytes (kind + 2 ^ 8 * die + 2 ^ 16 * unit + 2 ^ 24 * pos + 2 ^ 32 * len) 8

def sieveBody (v : Sieve) (slot clk : Nat) : List Byte :=
  let ps := if v.newClk ≤ clk then mergePairs v v.new else v.held
  leBytes (v.k + 2 ^ 9 * bit v.order + 2 ^ 10 * bit v.key + 2 ^ 16 * slot) 4 ++ leBytes ps.length 4 ++
    ps.flatMap fun p => leBytes p.1.toNat 4 ++ leBytes p.2.toNat 4

def copyBody (c : CopyCmd) : List Byte :=
  leBytes c.base 8 ++ leBytes c.cell.toNat 8 ++ leBytes c.pos 4 ++ leBytes (match c.lp with | some l => l.j | none => 0) 4 ++
    leBytes c.skipped 4 ++ leBytes 0 4

/-- The command of a walk: as it was read at its start, or as it lies in the team's scratchpad (R333). -/
def walkCommand (s : State) (w : Walk) : List Byte :=
  if w.started then leBytes w.desc.toNat 8 ++ leBytes w.ents.toNat 8 ++ leBytes w.outs.toNat 8 ++ leBytes w.n 8
  else match s.team w.team with | some t => (s.core t.core).bytes (t.scrBase + w.off) 32 | none => List.replicate 32 0

/-- A sample in flight: index, tree, node, depth and its EA160 cell (R370). -/
def sampleBytes (x : Sample) : List Byte :=
  leBytes x.ix 4 ++ leBytes x.tree 4 ++ leBytes (BitVec.ofInt 32 (x.node.getD 0)).toNat 4 ++ leBytes x.depth 4 ++
    leBytes (eaToNat .ea160 x.acc) 32

/-- A walk's record: its command, the completed samples, and the samples in flight (R311, R370). -/
def walkBody (s : State) (w : Walk) : List Byte :=
  walkCommand s w ++ leBytes (w.next - w.flight.length) 8 ++ w.flight.flatMap sampleBytes

/-- The teams of a context. -/
def ctxTeams (s : State) (ctx : Nat) : List Team := (s.teams.map (·.2)).filter fun t => (s.teamLaunch t).ctx == ctx
def ofCtx (s : State) (ctx team : Nat) : Bool := (ctxTeams s ctx).any (·.id == team)

/-- The copy commands and walks of a context by core or quad, with the place of each in that unit's queue: those that its ladle holds, and those in the
engines' queues. -/
def ladlePlaces {α : Type} (l : List (Nat × α)) : List (Nat × Nat × α) :=
  l.zipIdx.map fun e => (e.1.1, ((l.take e.2).filter (·.1 == e.1.1)).length, e.1.2)
def ctxCopies (s : State) (ctx : Nat) : List (Nat × Nat × CopyCmd) :=
  ladlePlaces (s.ctx ctx).ladle.copies ++ s.cores.flatMap fun e =>
    (e.2.copyQ.zipIdx.filter fun c => ofCtx s ctx c.1.team).map fun c => (e.1, c.2, c.1)
def ctxWalks (s : State) (ctx : Nat) : List (Nat × Nat × Walk) :=
  ladlePlaces (s.ctx ctx).ladle.walks ++ s.quads.flatMap fun e =>
    (e.2.walks.zipIdx.filter fun w => ofCtx s ctx w.1.team).map fun w => (e.1, w.2, w.1)

/-- The image of the context's sieve streams, copy commands and index walks. -/
def ladleImage (s : State) (ctx : Nat) : List Byte :=
  let sv := s.cores.flatMap fun e => (e.2.sieves.filter fun v => v.2.k != 0 && ofCtx s ctx v.2.team).flatMap fun v =>
    let b := sieveBody v.2 v.2.owner s.clock
    ladleHead 1 (e.1 / 128) (e.1 % 128) v.1 b.length ++ b
  let cp := (ctxCopies s ctx).flatMap fun e => ladleHead 2 (e.1 / 128) (e.1 % 128) e.2.1 32 ++ copyBody e.2.2
  let wk := (ctxWalks s ctx).flatMap fun e => let b := walkBody s e.2.2; ladleHead 3 (e.1 / 32) (e.1 % 32) e.2.1 b.length ++ b
  sv ++ cp ++ wk

/-! ## The area (R368) -/

/-- The words of a launch's entry in the launch table. -/
def launchWords (s : State) (l : Launch) : DWord × DWord :=
  (BitVec.ofNat 64 (l.queue + 2 ^ 32 * (l.index % 2 ^ 32)),
   BitVec.ofNat 64 (l.resumeIndex + (if l.pool then 2 ^ 32 * (heldRecs s l).length else 0)))

/-- The launch table of a report: the unfinished launches; where a stop or a reset has ended them, those it ended (R368, R425). -/
def launchTable (s : State) (ctx : Nat) : List (DWord × DWord) :=
  match tableOf s ctx with
  | [] => (s.ctx ctx).ended
  | ls => ls.map (launchWords s)

/-- Pieces written into the save area of a context, each at its offset; what passes the area's end is not written (R368). -/
def putArea (s : State) (ctx : Nat) (l : List (Nat × List Byte)) : State :=
  let c := s.ctx ctx
  if c.saveSize < 12 ∨ 47 < c.saveSize then s
  else l.foldl (fun s p => hubPut s (c.saveBase + p.1) (p.2.take (2 ^ c.saveSize - p.1))) s

/-- Writes a report: the blocks of some teams, where it has blocks, and the ladle image, if there is one; a report without blocks, at a freeze, leaves
those of the last report and puts the image behind them (R368, R371). -/
def writeArea (s : State) (ctx : Nat) (st : CtxSt) (teams : Option (List Team)) (ladle : List Byte) : State :=
  let c := s.ctx ctx
  let tab := launchTable s ctx
  let (laid, blocks, stop) : List (Nat × List Byte) × List (Nat × Nat) × Nat := match teams with
    | none => ([], c.blocks, c.areaEnd)
    | some ts =>
      let l := layBlocks 0x300 (ts.map (teamBlock s))
      (l, (ts.map fun t : Team => t.id).zip (l.map fun b : Nat × List Byte => b.1), match l.getLast? with | some b => upTo 128 (b.1 + b.2.length) | none => 0x300)
  let lad := if ladle = [] then 0 else stop
  let trunc := decide (2 ^ c.saveSize < stop + ladle.length)
  let head := pad 0x100 ([st.code + 2 ^ 8 * c.reason + 2 ^ 16 * bit trunc, lad, blocks.length, tab.length].flatMap fun x => leBytes x 8) ++
    pad 0x200 (tab.flatMap fun e => leBytes e.1.toNat 8 ++ leBytes e.2.toNat 8)
  let s := s.setCtx ctx { c with resume := (match tab with | e :: _ => e.2.toNat % 2 ^ 32 | [] => 0), blocks := blocks, areaEnd := stop,
                                 ended := if st = .stopped ∨ st = .reset then tab else c.ended }
  putArea s ctx (((0, head) :: laid) ++ [(lad, ladle)])

/-- The halt records of a team, behind the header of its block, in the team's part of the save area (R343). A team that has no part yet takes the next
one (log 43). -/
def writeRecords (s : State) (t : Team) : State :=
  let n := (s.teamLaunch t).ctx
  let c := s.ctx n
  let off := (look t.id c.blocks).getD c.areaEnd
  let s := if (look t.id c.blocks).isSome then s
    else s.setCtx n { c with blocks := c.blocks ++ [(t.id, off)], areaEnd := upTo 128 (off + (teamBlock s t).length) }
  putArea s n [(off, blockHead s t)]

end Sys2Proof.Machine
end

