-- ==== Sys2Proof/Machine/System.lean ====
section
/-! DEFINITION. System and trap control, majors 0x7C and 0x7D, and the encodings that no instruction has (R83, R377 to R384). -/

namespace Sys2Proof.Machine

/-- trap (R378). -/
def execTrap (g : Guard) (a : Src) (s : State) : Host.Outcome State Fault Refusal :=
  issueWith (.trap g a) .none (each fun e s =>
    match readSrc e.env e.f a with
    | .error t => some (s, .trap t)
    | .ok o => some (s, .trap { code := .software, aux := o.val.toNat })) s

/-- rti (R348, R380): the fibre leaves the handler crew and is loose at the RPC of its frame. -/
def rtiOne (e : Ex) (s : State) : Option (State × Act) :=
  match s.team e.f.team with
  | none => none
  | some t =>
    if e.f.hand = .none || e.f.txn.isSome then some (s, .trap (.illegalAt 0))
    else
      match returnTrap e.f t.w with
      | .error x => some (s, .trap x)
      | .ok f =>
        some (s.setTeam t.id (t.leaveHandler f.fidx),
          .leave { f with st := .loose s.clock 0 }.newRun)

def execRti (g : Guard) (s : State) : Host.Outcome State Fault Refusal :=
  issueWith (.rti g) .none (each rtiOne) s

/-- brk (R379): executed once as a no-operation by a fibre that resumes at it. -/
def execBrk (g : Guard) (s : State) : Host.Outcome State Fault Refusal :=
  issueWith (.brk g) .none (each fun e s =>
    some (s, if e.skip then .go { f := e.f } else .trap (.brkpt e.f.pc false))) s

/-- The system values (R381). -/
def sysValue (s : State) (k : Site) (e : Ex) (code q : Nat) : Nat :=
  match code with
  | 0 => k.gfid
  | 1 => k.team.cluster * k.lau.clusterSize + k.team.index
  | 2 => k.team.cluster
  | 3 => nth 0xFFFFFFFF e.env.ranks q
  | 4 => match k.team.crew q with | some c => c.size | none => 0
  | 5 => k.lau.gx
  | 6 => k.lau.gy
  | 7 => k.lau.gz
  | 8 => k.die
  | 9 => k.core / 4 % 32
  | 10 => k.core % 4
  | 11 => e.f.fidx % 4
  | 12 => s.clock - s.epoch
  | 13 => e.f.seed.toNat
  | 14 => e.f.status.toNat
  | 15 => if k.lau.pool then 0xFFFFFFFF else k.lau.resume
  | 16 => (s.core k.core).mark.toNat
  | 17 => k.team.events
  | _ => k.ctx

/-- rdsys (R381, R382). -/
def execRdsys (g : Guard) (d : Dst) (code : Fin 19) (q : Fin 8) (s : State) : Host.Outcome State Fault Refusal :=
  issueWith (.rdsys g d code q) .none (each fun e s =>
    match siteOf s e.f with
    | none => none
    | some k =>
      let v := sysValue s k e code.val q.val
      let w : Wr :=
        if sysWide code.val then
          (match d with
          | .v n => { regs := [(n.val, ⟨BitVec.ofNat 32 v, .n32⟩), (n.val + 1, ⟨BitVec.ofNat 32 (v / 2 ^ 32), .n32⟩)] }
          | .s n => { sregs := [(n.val, BitVec.ofNat 64 v)] }
          | .none => {})
        else Wr.one d (BitVec.ofNat 32 v) .n32
      some (s, .go { f := e.f, w := w })) s

/-- The operand of wrsys (R383). -/
def readWr (e : Env) (f : Fibre) (b : WrSrc) : Except Trap DWord :=
  match b with
  | .pair n => do
    let lo ← readV f (2 * n.val)
    let hi ← readV f (2 * n.val + 1)
    pure (hi.val ++ lo.val)
  | .s n => readS e n.val
  | .zero => .ok 0
  | .int n => .ok (BitVec.ofInt 64 ((n.val : Int) - 64))

/-- A write of the core's mark: of the fibres of one clock, the highest global index remains (R383). -/
def writeMark (c : Core) (clk gfid : Nat) (v : DWord) : Core :=
  if c.markAt.1 = clk ∧ gfid + 1 < c.markAt.2 then c else { c with mark := v, markAt := (clk, gfid + 1) }

/-- wrsys (R383, R384). -/
def execWrsys (g : Guard) (mark : Bool) (b : WrSrc) (s : State) : Host.Outcome State Fault Refusal :=
  issueWith (.wrsys g mark b) .none (each fun e s =>
    match siteOf s e.f, readWr e.env e.f b with
    | none, _ => none
    | _, .error t => some (s, .trap t)
    | some k, .ok v =>
      if mark then some (s.setCore k.core (writeMark (s.core k.core) s.clock k.gfid v), .go { f := e.f })
      else some (s, .go { f := { e.f with seed := v } })) s

/-! ## Encodings that no instruction has (R83, R431) -/

/-- The trap of an encoding that fails at step 1 or 2 of R56: FEATURE where the context's table names it, else ILLEGAL. -/
def unlistedTrap (s : State) (ctx : Nat) (w : Nat) (st : Nat) : Trap × Option DWord :=
  match featureOf s ctx (fld w 57 7) (fld w 51 6) with
  | some (b, sh) => ({ code := .feature, aux := b }, some sh)
  | none => (.illegalAt st, none)

/-- Whether a major is assigned at all (R82): the step of R56 at which an unlisted word fails. -/
def majorStep (w : Nat) : Nat := if (List.range 64).any fun fn => fnListed (fld w 57 7) fn then 2 else 1

def ctxOfIssue (s : State) : Nat :=
  match s.issue.bind s.gang with
  | some g => match s.team g.team with | some t => (s.teamLaunch t).ctx | none => 0
  | none => 0

/-- An unassigned or reserved major, or an unlisted function of a listed one (R83). -/
def execUnassignedMajor (w : DWord) (s : State) : Host.Outcome State Fault Refusal :=
  issueWith (.unassignedMajor w) .none
    (each fun _ s => some (s, .trap (unlistedTrap s (ctxOfIssue s) w.toNat (majorStep w.toNat)).1)) s

end Sys2Proof.Machine
end

