-- ==== Sys2Proof/Machine/Dist.lean ====
section
/-! DEFINITION. Narrow dot products, distances and random numbers, major 0x38 (R112 to R118). -/

namespace Sys2Proof.Machine

def nTag : NFmt → Tag
  | .t8 => .t8x4 | .i8 => .i8x4 | .n8 => .n8x4
def nRm : NMod → Rm
  | .rm m => m | .sat _ => .rne
def nSat : NMod → Bool
  | .rm _ => false | .sat b => b
def term (sq : Bool) (x y : Xr) : Xr :=
  if sq then (Xr.add .rne x y.neg).mul (Xr.add .rne x y.neg) else x.mul y
def iterm (sq : Bool) (x y : Int) : Int := if sq then (x - y) * (x - y) else x * y

/-- Exact sums of products or squared differences with the accumulator, rounded once (R113). -/
def evDotF (t : Tag) (sq : Bool) (m : Rm) (d : Dst) (a b x : Src) : Alu := fun e f => do
  let u ← readTag e f t a
  let v ← readTag e f t b
  let w ← readTag e f .f32 x
  let el := tagElem t
  let ts := List.zipWith (fun p q => term sq (el.val p) (el.val q)) (elems t u) (elems t v)
  pure (Wr.one d (BitVec.ofNat 32 (roundF .f32 m (exactSum (Fmt.f32.val w.toNat :: ts)))) .f32)
/-- The integer forms (R113). -/
def evDotI (sg : Sgn) (sq sat : Bool) (d : Dst) (a b x : Src) : Alu := fun e f => do
  let t : Tag := (match sg with | .s => .i8x4 | .n => .n8x4)
  let u ← readTag e f t a
  let v ← readTag e f t b
  let w ← readInt e f x
  let iv := fun p => intOf (sg == .s) 8 p
  let ts := List.zipWith (fun p q => iterm sq (iv p) (iv q)) (elems t u) (elems t v)
  let r := intVal sg w + ts.sum
  let r := if sat then (match sg with
    | .s => min (max r (-2 ^ 31)) (2 ^ 31 - 1)
    | .n => min (max r 0) (2 ^ 32 - 1)) else r
  pure (Wr.one d (BitVec.ofInt 32 r) (match sg with | .s => .i32 | .n => .n32))
def evDot (sq : Bool) (p : NFmt) (m : NMod) (d : Dst) (a b x : Src) : Alu :=
  match p with
  | .t8 => evDotF .t8x4 sq (nRm m) d a b x
  | .i8 => evDotI .s sq (nSat m) d a b x
  | .n8 => evDotI .n sq (nSat m) d a b x
def evVdot8 (p : NFmt) (m : NMod) (d : Dst) (a b x : Src) : Alu := evDot false p m d a b x
def evVdot6 (m : Rm) (d : Dst) (a b x : Src) : Alu := evDotF .t6x5 false m d a b x
def evVl2d8 (p : NFmt) (m : NMod) (d : Dst) (a b x : Src) : Alu := evDot true p m d a b x
/-- R114. -/
def evVhamm (d : Dst) (a b x : Src) : Alu := fun e f => do
  let u ← readSrc e f a
  let v ← readSrc e f b
  let w ← readInt e f x
  let k := ((List.range 32).filter fun i => (u.val ^^^ v.val).getLsbD i).length
  pure (Wr.one d (w + BitVec.ofNat 32 k) .n32)
/-- R117, R118. -/
def evVrand (fl : Bool) (d : Dst) (a : Src) : Alu := fun e f => do
  let u ← readInt e f a
  let r := mix32 u (keyOf f.seed)
  pure (if fl then Wr.one d (BitVec.ofNat 32 (roundF .f32 .rne (Xr.dyadic false (r.toNat / 256) (-24)))) .f32 else Wr.one d r .n32)

/-- The scratch addresses E_i that vpqd reads, exact sums: one past 2 ^ 64 lies outside every carve-out (R115). -/
def pqAddrs (base : DWord) (grp : Nat) (codes : Word) : List Nat :=
  (List.range 4).map fun i => base.toNat + 1024 * (4 * grp + i) + 4 * elemAt .n8x4 codes i
/-- vpqd over a reader of scratch: its checks and its sum (R115, R116). DESIGN CHOICE (log 92): FADDR names the base at ALIGN, and the E_i of the lowest i
that fails at PROTECTION and POISON, modulo 2 ^ 64. -/
def pqEval (scr : Nat → Nat → Option (List Byte)) (bad : Nat → Nat → Option Nat) (e : Env) (f : Fibre) (grp : Fin 16) (d : Dst)
    (a : Src) (sB : Fin 32) (x : Src) : Except Trap Wr := do
  let u ← readTag e f .n8x4 a
  let w ← readTag e f .f32 x
  let base ← readS e sB.val
  let addrs := pqAddrs base grp.val u
  if base.toNat % 4 ≠ 0 then .error (.at .align base 2)
  else
    match addrs.find? fun p => (scr p 4).isNone with
    | some p => .error (.at .protection (BitVec.ofNat 64 p) 2)
    | none =>
      match firstSome (fun p => bad p 4) addrs with
      | some g => .error { code := .poison, faddr := BitVec.ofNat 64 g }
      | none =>
        let ts := addrs.map fun p => Fmt.f32.val (leWord ((scr p 4).getD []))
        pure (Wr.one d (BitVec.ofNat 32 (roundF .f32 .rne (exactSum (Fmt.f32.val w.toNat :: ts)))) .f32)

/-- A team's scratchpad: bytes inside its carve-out, and the scratch offset of a poisoned granule (R189, R456). -/
def scrBytes (s : State) (t : Team) (o n : Nat) : Option (List Byte) :=
  if o + n ≤ t.scrSize then some ((s.core t.core).bytes (t.scrBase + o) n) else none
def scrBad (s : State) (t : Team) (o n : Nat) : Option Nat :=
  ((s.core t.core).badAt (t.scrBase + o) n).map fun g => 32 * g - t.scrBase

/-- vdot8 (R113). -/
def execVdot8 (c : Ctl) (p : NFmt) (m : NMod) (d : Dst) (a b x : Src) (s : State) : Host.Outcome State Fault Refusal :=
  issueAlu (.vdot8 c p m d a b x) (evVdot8 p m d a b x) s

/-- vdot6 (R113). -/
def execVdot6 (c : Ctl) (m : Rm) (d : Dst) (a b x : Src) (s : State) : Host.Outcome State Fault Refusal :=
  issueAlu (.vdot6 c m d a b x) (evVdot6 m d a b x) s

/-- vl2d8 (R113). -/
def execVl2d8 (c : Ctl) (p : NFmt) (m : NMod) (d : Dst) (a b x : Src) (s : State) : Host.Outcome State Fault Refusal :=
  issueAlu (.vl2d8 c p m d a b x) (evVl2d8 p m d a b x) s

/-- vhamm (R114). -/
def execVhamm (c : Ctl) (d : Dst) (a b x : Src) (s : State) : Host.Outcome State Fault Refusal :=
  issueAlu (.vhamm c d a b x) (evVhamm d a b x) s

/-- The fate of a fibre whose instruction reads the scratchpad: its later releases wait for the read like for a scratch load's (R155, R217, R226). -/
def scrAct (f : Fibre) (r : Except Trap Wr) : Act :=
  match r with
  | .error t => .trap t
  | .ok w => .go { f := f, w := w, lat := some 10 }

/-- vpqd (R115, R116): its table lies in the scratchpad of the fibre's team. -/
def execVpqd (c : Ctl) (grp : Fin 16) (d : Dst) (a : Src) (sB : Fin 32) (x : Src) (s : State) : Host.Outcome State Fault Refusal :=
  issueWith (.vpqd c grp d a sB x) .none (each fun e s =>
    match s.team e.f.team with
    | none => none
    | some t => some (s, scrAct e.f (pqEval (scrBytes s t) (scrBad s t) e.env e.f grp d a sB x))) s

/-- vrand (R117, R118). -/
def execVrand (c : Ctl) (fl : Bool) (d : Dst) (a : Src) (s : State) : Host.Outcome State Fault Refusal :=
  issueAlu (.vrand c fl d a) (evVrand fl d a) s


end Sys2Proof.Machine
end

