-- ==== Sys2Proof/Machine/Int.lean ====
section
/-! DEFINITION. Integer arithmetic, major 0x00 (R86 to R89). -/

namespace Sys2Proof.Machine

/-- The tag of an integer result (R30). -/
def intTagOf (t : Sgn) : Tag := match t with | .s => .i32 | .n => .n32
def intLo (t : Sgn) : Int := match t with | .s => -2 ^ 31 | .n => 0
def intHi (t : Sgn) : Int := match t with | .s => 2 ^ 31 - 1 | .n => 2 ^ 32 - 1
/-- The exact result saturated if asked for, then modulo 2^32 (R87). -/
def intRes (t : Sgn) (sat : Bool) (d : Dst) (e : Int) : Wr :=
  Wr.one d (BitVec.ofInt 32 (if sat then min (max e (intLo t)) (intHi t) else e)) (intTagOf t)

/-- Integer instructions of one, two and three sources over exact integers (R86, R87). -/
def ev1 (t : Sgn) (sat : Bool) (op : Int → Int) (d : Dst) (a : Src) : Alu := fun e f => do
  let x ← readInt e f a
  pure (intRes t sat d (op (intVal t x)))
def ev2 (t : Sgn) (sat : Bool) (op : Int → Int → Int) (d : Dst) (a b : Src) : Alu := fun e f => do
  let x ← readInt e f a
  let y ← readInt e f b
  pure (intRes t sat d (op (intVal t x) (intVal t y)))
def ev3 (t : Sgn) (sat : Bool) (op : Int → Int → Int → Int) (d : Dst) (a b c : Src) : Alu := fun e f => do
  let x ← readInt e f a
  let y ← readInt e f b
  let z ← readInt e f c
  pure (intRes t sat d (op (intVal t x) (intVal t y) (intVal t z)))

/-- Quotient and remainder truncated toward zero; a zero divisor gives all ones and the dividend (R88). -/
def intQuot (x y : Int) : Int := if y = 0 then -1 else x.tdiv y
def intRem (x y : Int) : Int := x.tmod y

def evIadd (t : Sgn) (sat : Bool) (d : Dst) (a b : Src) : Alu := ev2 t sat (· + ·) d a b
def evIsub (t : Sgn) (sat : Bool) (d : Dst) (a b : Src) : Alu := ev2 t sat (· - ·) d a b
def evImul (t : Sgn) (sat : Bool) (d : Dst) (a b : Src) : Alu := ev2 t sat (· * ·) d a b
def evImulh (t : Sgn) (d : Dst) (a b : Src) : Alu := ev2 t false (fun x y => x * y / 2 ^ 32) d a b
def evImad (t : Sgn) (sat : Bool) (d : Dst) (a b x : Src) : Alu := ev3 t sat (fun p q r => p * q + r) d a b x
def evIdiv (t : Sgn) (d : Dst) (a b : Src) : Alu := ev2 t false intQuot d a b
def evIrem (t : Sgn) (d : Dst) (a b : Src) : Alu := ev2 t false intRem d a b
def evImin (t : Sgn) (d : Dst) (a b : Src) : Alu := ev2 t false min d a b
def evImax (t : Sgn) (d : Dst) (a b : Src) : Alu := ev2 t false max d a b
def evIabs (sat : Bool) (d : Dst) (a : Src) : Alu := ev1 .s sat (fun x => (x.natAbs : Int)) d a
def evIneg (sat : Bool) (d : Dst) (a : Src) : Alu := ev1 .s sat (fun x => -x) d a
/-- R89. -/
def evIcmp (t : Sgn) (cd : ICond) (pd : Option (Fin 16)) (a b : Src) : Alu := fun e f => do
  let x ← readInt e f a
  let y ← readInt e f b
  pure (Wr.pred pd (ICond.holds cd (intVal t x) (intVal t y)))

/-- iadd (R86, R87). -/
def execIadd (c : Ctl) (t : Sgn) (sat : Bool) (d : Dst) (a b : Src) (s : State) : Host.Outcome State Fault Refusal :=
  issueAlu (.iadd c t sat d a b) (evIadd t sat d a b) s

/-- isub (R86, R87). -/
def execIsub (c : Ctl) (t : Sgn) (sat : Bool) (d : Dst) (a b : Src) (s : State) : Host.Outcome State Fault Refusal :=
  issueAlu (.isub c t sat d a b) (evIsub t sat d a b) s

/-- imul (R86, R87). -/
def execImul (c : Ctl) (t : Sgn) (sat : Bool) (d : Dst) (a b : Src) (s : State) : Host.Outcome State Fault Refusal :=
  issueAlu (.imul c t sat d a b) (evImul t sat d a b) s

/-- imulh (R86, R87). -/
def execImulh (c : Ctl) (t : Sgn) (d : Dst) (a b : Src) (s : State) : Host.Outcome State Fault Refusal :=
  issueAlu (.imulh c t d a b) (evImulh t d a b) s

/-- imad (R86, R87). -/
def execImad (c : Ctl) (t : Sgn) (sat : Bool) (d : Dst) (a b x : Src) (s : State) : Host.Outcome State Fault Refusal :=
  issueAlu (.imad c t sat d a b x) (evImad t sat d a b x) s

/-- idiv (R88). -/
def execIdiv (c : Ctl) (t : Sgn) (d : Dst) (a b : Src) (s : State) : Host.Outcome State Fault Refusal :=
  issueAlu (.idiv c t d a b) (evIdiv t d a b) s

/-- irem (R88). -/
def execIrem (c : Ctl) (t : Sgn) (d : Dst) (a b : Src) (s : State) : Host.Outcome State Fault Refusal :=
  issueAlu (.irem c t d a b) (evIrem t d a b) s

/-- imin (R86, R87). -/
def execImin (c : Ctl) (t : Sgn) (d : Dst) (a b : Src) (s : State) : Host.Outcome State Fault Refusal :=
  issueAlu (.imin c t d a b) (evImin t d a b) s

/-- imax (R86, R87). -/
def execImax (c : Ctl) (t : Sgn) (d : Dst) (a b : Src) (s : State) : Host.Outcome State Fault Refusal :=
  issueAlu (.imax c t d a b) (evImax t d a b) s

/-- iabs (R86, R87). -/
def execIabs (c : Ctl) (sat : Bool) (d : Dst) (a : Src) (s : State) : Host.Outcome State Fault Refusal :=
  issueAlu (.iabs c sat d a) (evIabs sat d a) s

/-- ineg (R86, R87). -/
def execIneg (c : Ctl) (sat : Bool) (d : Dst) (a : Src) (s : State) : Host.Outcome State Fault Refusal :=
  issueAlu (.ineg c sat d a) (evIneg sat d a) s

/-- icmp (R89). -/
def execIcmp (c : Ctl) (t : Sgn) (cd : ICond) (pd : Option (Fin 16)) (a b : Src) (s : State) : Host.Outcome State Fault Refusal :=
  issueAlu (.icmp c t cd pd a b) (evIcmp t cd pd a b) s


end Sys2Proof.Machine
end

