-- ==== Sys2Proof/Machine/Move.lean ====
section
/-! DEFINITION. Address arithmetic, moves, selects, predicate logic and immediates, majors 0x02 to 0x04 (R93 to R98). -/

namespace Sys2Proof.Machine

/-- R93. -/
def evLea (sh : Fin 5) (d : Dst64) (a : Op64) (b : Src) : Alu := fun e f => do
  let x ← readOp64 e f a
  let y ← readExt e f b
  pure (Wr.wide d (x + (y <<< sh.val)) .p64l .p64h)
def evAddc (d : Dst64) (a b : Op64) : Alu := fun e f => do
  let x ← readOp64 e f a
  let y ← readOp64 e f b
  pure (Wr.wide d (x + y) .p64l .p64h)
/-- R94. -/
def evMov (d : Dst) (a : Src) : Alu := fun e f => do
  let x ← readSrc e f a
  pure (Wr.one d x.val x.tag)
/-- R95: only the source selected is written; both are read. -/
def evSel (d : Dst) (p : Fin 16) (b x : Src) : Alu := fun e f => do
  let y ← readSrc e f b
  let z ← readSrc e f x
  let r := if predBit f.preds p.val then y else z
  pure (Wr.one d r.val r.tag)
/-- R96. -/
def evPlog (tt : Fin 16) (pd : Option (Fin 16)) (pa pb : Fin 16) : Alu := fun _ f =>
  .ok (Wr.pred pd (plogBit tt.val (predBit f.preds pa.val) (predBit f.preds pb.val)))
/-- R97. -/
def evMovi (t : MoviTag) (d : Dst) (imm : Word) : Alu := fun _ _ =>
  .ok (Wr.one d imm (match t with | .i32 => .i32 | .n32 => .n32 | .f32 => .f32 | .raw => .raw))
/-- R98. -/
def evMovw (d : MovwDst) (imm : DWord) : Alu := fun _ _ =>
  .ok (match d with
    | .pair (some n) => Wr.wide (.pair n) imm .p64l .p64h
    | .sreg (some n) => Wr.wide (.s n) imm .p64l .p64h
    | _ => Wr.wide .none imm .p64l .p64h)

/-- lea (R93). -/
def execLea (c : Ctl) (sh : Fin 5) (d : Dst64) (a : Op64) (b : Src) (s : State) : Host.Outcome State Fault Refusal :=
  issueAlu (.lea c sh d a b) (evLea sh d a b) s

/-- addc (R93). -/
def execAddc (c : Ctl) (d : Dst64) (a b : Op64) (s : State) : Host.Outcome State Fault Refusal :=
  issueAlu (.addc c d a b) (evAddc d a b) s

/-- mov (R94). -/
def execMov (c : Ctl) (d : Dst) (a : Src) (s : State) : Host.Outcome State Fault Refusal :=
  issueAlu (.mov c d a) (evMov d a) s

/-- sel (R95). -/
def execSel (c : Ctl) (d : Dst) (p : Fin 16) (b x : Src) (s : State) : Host.Outcome State Fault Refusal :=
  issueAlu (.sel c d p b x) (evSel d p b x) s

/-- plog (R96). -/
def execPlog (c : Ctl) (tt : Fin 16) (pd : Option (Fin 16)) (pa pb : Fin 16) (s : State) : Host.Outcome State Fault Refusal :=
  issueAlu (.plog c tt pd pa pb) (evPlog tt pd pa pb) s

/-- movi (R97). -/
def execMovi (c : Ctl) (t : MoviTag) (d : Dst) (imm : Word) (s : State) : Host.Outcome State Fault Refusal :=
  issueAlu (.movi c t d imm) (evMovi t d imm) s

/-- movw (R98). -/
def execMovw (c : Ctl) (d : MovwDst) (imm : DWord) (s : State) : Host.Outcome State Fault Refusal :=
  issueAlu (.movw c d imm) (evMovw d imm) s


end Sys2Proof.Machine
end

