-- ==== Sys2Proof/Machine/Packed.lean ====
section
/-! DEFINITION. Packed 16-bit pairs, conversions and retagging, majors 0x30 to 0x34 (R106 to R111). -/

namespace Sys2Proof.Machine

def pTag : PFmt → Tag
  | .b16 => .b16x2 | .h16 => .h16x2 | .t16 => .t16x2

/-- Packed instructions work on each element by itself, rounding once into its format (R106, R107). -/
def evp2 (p : PFmt) (m : Rm) (op : Xr → Xr → Xr) (d : Dst) (a b : Src) : Alu := fun e f => do
  let x ← readTag e f (pTag p) a
  let y ← readTag e f (pTag p) b
  let el := tagElem (pTag p)
  pure (Wr.one d (ofElems (pTag p) (List.zipWith (fun u v => el.conv m (op (el.val u) (el.val v)))
    (elems (pTag p) x) (elems (pTag p) y))) (pTag p))

def evHadd (p : PFmt) (m : Rm) (d : Dst) (a b : Src) : Alu := evp2 p m (Xr.add m) d a b
def evHmul (p : PFmt) (m : Rm) (d : Dst) (a b : Src) : Alu := evp2 p m Xr.mul d a b
def evHfma (p : PFmt) (m : Rm) (d : Dst) (a b x : Src) : Alu := fun e f => do
  let u ← readTag e f (pTag p) a
  let v ← readTag e f (pTag p) b
  let w ← readTag e f (pTag p) x
  let el := tagElem (pTag p)
  pure (Wr.one d (ofElems (pTag p) ((List.range (pTag p).count).map fun i =>
    el.conv m (Xr.add m ((el.val (elemAt (pTag p) u i)).mul (el.val (elemAt (pTag p) v i))) (el.val (elemAt (pTag p) w i)))))
    (pTag p))
/-- maximumNumber; for .t16 a NaR element makes the result NaR (R106, R107). -/
def pMax (p : PFmt) (x y : Xr) : Xr :=
  match p with
  | .t16 => if x.isNan || y.isNan then .nan else if x.lt true y then y else x
  | _ => if x.isNan then y else if y.isNan then x else if x.lt true y then y else x
def evHmax (p : PFmt) (d : Dst) (a b : Src) : Alu := evp2 p .rne (pMax p) d a b

/-- Every element of the source converted into the target's format (R47, R108). -/
def evCvt (src dst : Tag) (m : Rm) (d : Dst) (a : Src) : Alu := fun e f => do
  let x ← readTag e f src a
  pure (Wr.one d (ofElems dst ((elems src x).map fun u => (tagElem dst).conv m ((tagElem src).val u))) dst)
/-- R109. -/
def evPack (src dst : Tag) (m : Rm) (d : Dst) (a : Src) (j : Fin 5) (x : Src) : Alu := fun e f => do
  let u ← readTag e f src a
  let v ← readTag e f dst x
  let r := (tagElem dst).conv m ((tagElem src).val (elemAt src u 0))
  pure (Wr.one d (ofElems dst ((elems dst v).set j.val r)) dst)
/-- R110. -/
def evUnpack (src dst : Tag) (m : Rm) (d : Dst) (a : Src) (j : Fin 5) : Alu := fun e f => do
  let u ← readTag e f src a
  pure (Wr.one d (ofElems dst [(tagElem dst).conv m ((tagElem src).val (elemAt src u j.val))]) dst)
/-- R46, R111. -/
def evRetag (t : Tag) (d : Option (Fin 256)) (a : Src) : Alu := fun e f => do
  let x ← readSrc e f a
  pure (Wr.opt d x.val t)

/-- hadd (R106, R107). -/
def execHadd (c : Ctl) (p : PFmt) (m : Rm) (d : Dst) (a b : Src) (s : State) : Host.Outcome State Fault Refusal :=
  issueAlu (.hadd c p m d a b) (evHadd p m d a b) s

/-- hmul (R106, R107). -/
def execHmul (c : Ctl) (p : PFmt) (m : Rm) (d : Dst) (a b : Src) (s : State) : Host.Outcome State Fault Refusal :=
  issueAlu (.hmul c p m d a b) (evHmul p m d a b) s

/-- hfma (R106, R107). -/
def execHfma (c : Ctl) (p : PFmt) (m : Rm) (d : Dst) (a b x : Src) (s : State) : Host.Outcome State Fault Refusal :=
  issueAlu (.hfma c p m d a b x) (evHfma p m d a b x) s

/-- hmax (R106, R107). -/
def execHmax (c : Ctl) (p : PFmt) (d : Dst) (a b : Src) (s : State) : Host.Outcome State Fault Refusal :=
  issueAlu (.hmax c p d a b) (evHmax p d a b) s

/-- cvt (R108). -/
def execCvt (c : Ctl) (src dst : Tag) (m : Rm) (d : Dst) (a : Src) (s : State) : Host.Outcome State Fault Refusal :=
  issueAlu (.cvt c src dst m d a) (evCvt src dst m d a) s

/-- pack (R109). -/
def execPack (c : Ctl) (src dst : Tag) (m : Rm) (d : Dst) (a : Src) (j : Fin 5) (x : Src) (s : State) : Host.Outcome State Fault Refusal :=
  issueAlu (.pack c src dst m d a j x) (evPack src dst m d a j x) s

/-- unpack (R110). -/
def execUnpack (c : Ctl) (src dst : Tag) (m : Rm) (d : Dst) (a : Src) (j : Fin 5) (s : State) : Host.Outcome State Fault Refusal :=
  issueAlu (.unpack c src dst m d a j) (evUnpack src dst m d a j) s

/-- retag (R111). -/
def execRetag (c : Ctl) (t : Tag) (d : Option (Fin 256)) (a : Src) (s : State) : Host.Outcome State Fault Refusal :=
  issueAlu (.retag c t d a) (evRetag t d a) s


end Sys2Proof.Machine
end

