-- ==== Sys2Proof/Machine/Tree.lean ====
section
/-! DEFINITION. The tree instruction: its legality and its walk at one fibre (R76 to R81, R133 to R137). -/

namespace Sys2Proof.Machine

/-! ## The header (R76, R77) -/

structure TreeHdr where
  depth : Nat
  pres  : Nat
  arcs  : Nat
  slots : Nat
  resv  : Nat
  word  : Nat
  deriving DecidableEq, Repr

def treeHdr (w : Nat) : TreeHdr :=
  { depth := fld w 55 2, pres := fld w 48 7, arcs := fld w 34 14, slots := fld w 8 2 + 1, resv := fld w 0 8, word := w }

def TreeHdr.has (h : TreeHdr) (i : Nat) : Bool := decide (i < 7) && h.pres / 2 ^ (6 - i) % 2 == 1
/-- Whether arc ni.t (b = true) or ni.f carries an operation. -/
def TreeHdr.arc (h : TreeHdr) (i : Nat) (b : Bool) : Bool := h.arcs / 2 ^ (13 - 2 * i - (if b then 0 else 1)) % 2 == 1
def TreeHdr.leafCode (h : TreeHdr) (j : Nat) : Nat := fld h.word (31 - 3 * j) 3
def levelOf (i : Nat) : Nat := if i = 0 then 0 else if i < 3 then 1 else if i < 7 then 2 else 3

/-- A path: the arcs taken, as node and branch, and the leaf reached. -/
abbrev TreePath := List (Nat × Bool) × Nat

/-- The paths that the header makes possible from a position on (R77). -/
def pathsFrom (h : TreeHdr) : Nat → Nat → Nat → List TreePath
  | 0, pos, lvl => [([], (pos + 1 - 2 ^ lvl) * 2 ^ (h.depth - lvl))]
  | fuel + 1, pos, lvl =>
    if lvl < h.depth && h.has pos then
      ((pathsFrom h fuel (2 * pos + 1) (lvl + 1)).map fun p => ((pos, true) :: p.1, p.2)) ++
        ((pathsFrom h fuel (2 * pos + 2) (lvl + 1)).map fun p => ((pos, false) :: p.1, p.2))
    else [([], (pos + 1 - 2 ^ lvl) * 2 ^ (h.depth - lvl))]
def treePaths (h : TreeHdr) : List TreePath := pathsFrom h h.depth 0 0

/-- The offset of a target slot, 1 to 4 (R79). -/
def slotOff (t : TreeWords) (slot : Nat) : BitVec 32 :=
  let w := t.targets.getD ((slot - 1) / 2) 0
  if slot % 2 = 1 then w.setWidth 32 else (w >>> 32).setWidth 32

/-- The clauses of R77 that rest on the depth: a node too deep, none at the deepest level, and what the leaves reached hold. -/
def depthIllegal (t : TreeWords) (h : TreeHdr) : Bool :=
  let leaves := (treePaths h).map (·.2)
  let ids := List.range 7
  ids.any (fun i => h.has i && decide (h.depth ≤ levelOf i)) ||
  !ids.any (fun i => h.has i && levelOf i + 1 == h.depth) ||
  (List.range 8).any (fun j =>
    let c := h.leafCode j
    if leaves.contains j then c == 7 || (decide (1 ≤ c ∧ c ≤ 4) && decide (h.slots < c)) else c != 7) ||
  (List.range 4).any fun i => decide (i < h.slots) && slotOff t (i + 1) != 0 && !leaves.any fun j => h.leafCode j == i + 1

/-- Breaches of R77, and nonzero unused halves (R78, R79). DESIGN CHOICE (log 95): depth 0, which R76 gives ILLEGAL, is judged without the clauses
that rest on a depth; every other breach still gives ILLEGAL_TREE (R133). -/
def hdrIllegal (t : TreeWords) (h : TreeHdr) : Bool :=
  let ids := List.range 7
  !h.has 0 ||
  ids.any (fun i => h.has i && i != 0 && !h.has ((i - 1) / 2)) ||
  ids.any (fun i => !h.has i && (h.arc i true || h.arc i false)) ||
  (h.depth != 0 && depthIllegal t h) ||
  (h.slots % 2 == 1 && ((t.targets.getLastD 0) >>> 32) != 0) ||
  (popcount7 h.pres % 2 == 1 && ((t.nodes.getLastD 0) >>> 32) != 0)

/-! ## Nodes (R78) -/

/-- The word of node ni: two to a word in ascending node number. -/
def nodeWord (t : TreeWords) (h : TreeHdr) (i : Nat) : Nat :=
  let k := ((List.range i).filter h.has).length
  let w := t.nodes.getD (k / 2) 0
  if k % 2 = 0 then w.toNat % 2 ^ 32 else w.toNat / 2 ^ 32

/-- The test of a node. -/
inductive Test where
  | int (t : Sgn) (c : ICond) (a : Src) (b : Src ⊕ Int)
  | flt (c : FCond) (a b : Src)
  | pred (p : Fin 16) (want : Bool)
  deriving DecidableEq

def decTest (w : Nat) : Dec Test := do
  let cond := fld w 27 5
  let ty := fld w 24 3
  let imm := fld w 23 1
  let a := fld w 14 9
  let b := fld w 5 9
  ck (decide (ty < 4)) 3
  ck (fld w 0 5 == 0) 4
  match ty with
  | 3 =>
    ck (imm == 0 && b == 0 && decide (cond < 2)) 4
    pure (.pred (← decP a) (cond == 0))
  | 2 =>
    ck (imm == 0) 4
    pure (.flt (← decFCond cond) (← decSrc a) (← decSrc b))
  | _ =>
    let t : Sgn := if ty = 0 then .s else .n
    let c ← decICond cond
    let x ← decSrc a
    if imm = 1 then pure (.int t c x (.inr (if t = .s then intOf true 9 b else (b : Int))))
    else pure (.int t c x (.inl (← decSrc b)))

def testSrcs : Test → List Src
  | .int _ _ a (.inl b) => [a, b]
  | .int _ _ a (.inr _) => [a]
  | .flt _ a b => [a, b]
  | .pred _ _ => []

/-- The registers and latches that a node's selectors name, whatever its other fields hold (R78). -/
def nodeOpnds (w : Nat) : List Opnd :=
  if fld w 24 3 = 3 then []
  else { sel := fld w 14 9, r := true } :: (if fld w 23 1 = 0 then [{ sel := fld w 5 9, r := true }] else [])

def Opnd.isLatch (o : Opnd) : Bool := decide (0x120 ≤ o.sel ∧ o.sel < 0x124)

/-! ## Arcs (R80) -/

/-- Arc operations as words, by node and branch. -/
def arcWord (t : TreeWords) (h : TreeHdr) (i : Nat) (b : Bool) : Nat :=
  let before := ((List.range (2 * i + (if b then 0 else 1))).filter fun k => h.arcs / 2 ^ (13 - k) % 2 == 1).length
  (t.arcs.getD before 0).toNat

/-- Whether a word may stand in an arc position at all (R80). -/
def arcAllowed (w : Nat) : Bool :=
  let mj := fld w 57 7
  if mj = 0x60 ∨ mj = 0x61 then
    let f := FM.split w
    f.pr == 0 && f.ng == 0 && f.w == 0 && f.cb == 0
  else if mj = 0x03 then
    let f := FI.split w
    f.pr == 0 && f.ng == 0 && f.w == 0 && f.cb == 0
  else if mj ∈ [0x00, 0x01, 0x02, 0x20, 0x30, 0x31, 0x32, 0x33, 0x34, 0x38] then
    let f := FA.split w
    f.pr == 0 && f.ng == 0 && f.w == 0 && f.cb == 0
  else false

/-- How many of the fields a, b and c of a Format A word are sources, by major and function. -/
def srcFields (mj fn : Nat) : Nat :=
  match mj with
  | 0x00 => if fn = 4 then 3 else if fn = 9 ∨ fn = 0xA then 1 else 2
  | 0x01 => if fn = 0xE then 3 else if fn = 4 ∨ (9 ≤ fn ∧ fn ≤ 0xC) then 1 else 2
  | 0x20 => if fn = 3 then 3 else if fn = 6 ∨ fn = 7 ∨ 0xA ≤ fn then 1 else 2
  | 0x30 => if fn = 2 then 3 else 2
  | 0x38 => if fn = 5 then 1 else 3
  | _ => 1

/-- The registers, latches and predicates that the fields of a Format A arc word name, whatever its other fields hold. DESIGN CHOICE (log 102): of a
function that the major does not list, no field counts as a selector, and the word raises ILLEGAL. -/
def armUses (mj : Nat) (f : FA) : Uses :=
  let d : Opnd := { sel := f.d, w := true }
  let src (x : Nat) : Opnd := { sel := x, r := true }
  let wide (o : Opnd) : Opnd := { o with n := 2 }
  if !fnListed mj f.fn then {}
  else if (mj = 0x00 ∧ f.fn = 0x0B) ∨ (mj = 0x20 ∧ f.fn = 8) then { ops := [src f.a, src f.b], wp := [f.d] }
  else if mj = 0x02 then
    match f.fn with
    | 0 => { ops := [wide d, wide (src f.a), src f.b] }
    | 1 => { ops := [wide d, wide (src f.a), wide (src f.b)] }
    | 2 => { ops := [d, src f.a] }
    | 3 => { ops := [d, src f.b, src f.c], rp := [f.a] }
    | _ => { rp := [f.a, f.b], wp := [f.d] }
  else if mj = 0x32 then { ops := [d, src f.a, { sel := f.b }, src f.c] }
  else if mj = 0x33 then { ops := [d, src f.a, { sel := f.b }] }
  else { ops := d :: ([src f.a, src f.b, src f.c].take (srcFields mj f.fn)) }

/-- What the fields of an arc word name, whatever its other fields hold (R80, R81). -/
def arcUses (w : Nat) : Uses :=
  let mj := fld w 57 7
  if mj = 0x60 ∨ mj = 0x61 then
    let f := FM.split w
    let n := if f.sz = 3 then 2 else if f.sz = 4 then 4 else 1
    let addr : List Opnd := if f.md = 1 then [{ sel := f.off, n := 2, r := true }]
      else [{ sel := 0x100 + f.base, r := true }, { sel := f.off, r := true }]
    { ops := { sel := f.dt, n := n, r := mj == 0x61, w := mj == 0x60 } :: addr }
  else if mj = 0x03 then { ops := [{ sel := (FI.split w).d, w := true }] }
  else armUses mj (FA.split w)

/-- What a word in an arc position is: an operation, a breach of R80 (none), or a field error. -/
def arcOp (w : Nat) : Dec (Option Instr) :=
  if !arcAllowed w || (arcUses w).ops.any Opnd.isLatch || (arcUses w).writeS != [] then .ok none
  else
    match decodeWords [w] with
    | .ok (.unassignedMajor _) => .error (.illegal 2 0)
    | .ok i => .ok (some i)
    | .error e => .error e

/-- Whether an arc word reads memory: its result is visible after the walk only (R81, R116, R134). -/
def readsLate (w : Nat) : Bool := fld w 57 7 == 0x60 || (fld w 57 7 == 0x38 && fld w 51 6 == 4)
def isStore (w : Nat) : Bool := fld w 57 7 == 0x61

/-! ## Legality (R77, R81, R133) -/

/-- The nodes of a path with the arc word taken from each. -/
def pathArcs (t : TreeWords) (h : TreeHdr) (p : TreePath) : List (Nat × Option Nat) :=
  p.1.map fun e => (e.1, if h.arc e.1 e.2 then some (arcWord t h e.1 e.2) else none)

def nodeReads (t : TreeWords) (h : TreeHdr) (i : Nat) : List Nat := ({ ops := nodeOpnds (nodeWord t h i) } : Uses).readV

/-- Whether a path breaks one of R81's rules; words with field errors count by what their fields name (R133). DESIGN CHOICE (log 90): two arcs that
both name p0 as destination, whose write is discarded (R11), count as a predicate written twice. -/
def pathIllegal (t : TreeWords) (h : TreeHdr) (p : TreePath) : Bool :=
  let as := pathArcs t h p
  let ops := as.filterMap (·.2)
  let wv := ops.flatMap fun w => (arcUses w).writeV
  let wp := ops.flatMap fun w => (arcUses w).wp
  let late := as.foldl (fun (acc : Bool × List Nat) e =>
    let rd := nodeReads t h e.1 ++ (match e.2 with | some w => (arcUses w).readV | none => [])
    (acc.1 || rd.any acc.2.contains, match e.2 with | some w => if readsLate w then acc.2 ++ (arcUses w).writeV else acc.2 | none => acc.2))
    (false, [])
  (dedupe wv).length != wv.length || (dedupe wp).length != wp.length || late.1 || decide (1 < (ops.filter isStore).length)

/-- The arc positions that carry an operation, and the present nodes. -/
def arcSlots (h : TreeHdr) : List (Nat × Bool) :=
  ((List.range 7).flatMap fun i => [(i, true), (i, false)]).filter fun e => h.arc e.1 e.2
def nodeSlots (h : TreeHdr) : List Nat := (List.range 7).filter h.has

/-- Breaches that raise ILLEGAL_TREE (R133). -/
def treeIllegal (t : TreeWords) : Bool :=
  let h := treeHdr t.header.toNat
  hdrIllegal t h ||
  (nodeSlots h).any (fun i => (nodeOpnds (nodeWord t h i)).any Opnd.isLatch) ||
  (arcSlots h).any (fun e => match arcOp (arcWord t h e.1 e.2) with | .ok none => true | _ => false) ||
  (treePaths h).any (pathIllegal t h)

def decTrap : DecErr → Trap
  | .truncated => .illegalAt 4
  | .illegal st x => { code := .illegal, aux := st + 8 * (if st = 5 then x else 0) }

/-- Field errors that raise ILLEGAL: the header's, the nodes', the arcs', and registers outside the frame (R76, R133). -/
def treeFields (t : TreeWords) (f : Fibre) : Option Trap :=
  let h := treeHdr t.header.toNat
  if h.depth = 0 || h.resv != 0 then some (.illegalAt 4)
  else
    (firstSome (fun i => match decTest (nodeWord t h i) with
      | .error e => some (decTrap e)
      | .ok x => firstSome (opndCheck f) ((testSrcs x).flatMap oSrc)) (nodeSlots h)).or
    (firstSome (fun e => match arcOp (arcWord t h e.1 e.2) with
      | .error e => some (decTrap e)
      | .ok (some i) => firstSome (opndCheck f) (uses i).ops
      | .ok none => none) (arcSlots h))

/-- The check of the whole tree at a fibre; ILLEGAL_TREE goes before ILLEGAL (R133). -/
def treeCheck (t : TreeWords) (f : Fibre) : Option Trap :=
  if treeIllegal t then some { code := .illegalTree } else treeFields t f

/-! ## The walk (R134 to R137) -/

/-- The register-only operations that may stand on an arc. -/
def aluOf : Instr → Option Alu
  | .iadd _ t sat d a b => some (evIadd t sat d a b)
  | .isub _ t sat d a b => some (evIsub t sat d a b)
  | .imul _ t sat d a b => some (evImul t sat d a b)
  | .imulh _ t d a b => some (evImulh t d a b)
  | .imad _ t sat d a b x => some (evImad t sat d a b x)
  | .idiv _ t d a b => some (evIdiv t d a b)
  | .irem _ t d a b => some (evIrem t d a b)
  | .imin _ t d a b => some (evImin t d a b)
  | .imax _ t d a b => some (evImax t d a b)
  | .iabs _ sat d a => some (evIabs sat d a)
  | .ineg _ sat d a => some (evIneg sat d a)
  | .icmp _ t cd pd a b => some (evIcmp t cd pd a b)
  | .and _ d a b => some (evAnd d a b)
  | .or _ d a b => some (evOr d a b)
  | .xor _ d a b => some (evXor d a b)
  | .andn _ d a b => some (evAndn d a b)
  | .not _ d a => some (evNot d a)
  | .shl _ d a b => some (evShl d a b)
  | .shr _ d a b => some (evShr d a b)
  | .sha _ d a b => some (evSha d a b)
  | .rot _ d a b => some (evRot d a b)
  | .popc _ d a => some (evPopc d a)
  | .clz _ d a => some (evClz d a)
  | .ctz _ d a => some (evCtz d a)
  | .brev _ d a => some (evBrev d a)
  | .bfx _ t d a b => some (evBfx t d a b)
  | .bfi _ d a b x => some (evBfi d a b x)
  | .lea _ sh d a b => some (evLea sh d a b)
  | .addc _ d a b => some (evAddc d a b)
  | .mov _ d a => some (evMov d a)
  | .sel _ d p b x => some (evSel d p b x)
  | .plog _ tt pd pa pb => some (evPlog tt pd pa pb)
  | .movi _ t d imm => some (evMovi t d imm)
  | .fadd _ m d a b => some (evFadd m d a b)
  | .fsub _ m d a b => some (evFsub m d a b)
  | .fmul _ m d a b => some (evFmul m d a b)
  | .ffma _ m d a b x => some (evFfma m d a b x)
  | .fmin _ d a b => some (evFmin d a b)
  | .fmax _ d a b => some (evFmax d a b)
  | .fabs _ d a => some (evFabs d a)
  | .fneg _ d a => some (evFneg d a)
  | .fcmp _ cd pd a b => some (evFcmp cd pd a b)
  | .fdiv _ m d a b => some (evFdiv m d a b)
  | .fsqrt _ m d a => some (evFsqrt m d a)
  | .frcp _ m d a => some (evFrcp m d a)
  | .fexp2 _ m d a => some (evFexp2 m d a)
  | .flog2 _ m d a => some (evFlog2 m d a)
  | .frnd _ m d a => some (evFrnd m d a)
  | .fcls _ d a => some (evFcls d a)
  | .hadd _ f m d a b => some (evHadd f m d a b)
  | .hmul _ f m d a b => some (evHmul f m d a b)
  | .hfma _ f m d a b x => some (evHfma f m d a b x)
  | .hmax _ f d a b => some (evHmax f d a b)
  | .cvt _ src dst m d a => some (evCvt src dst m d a)
  | .pack _ src dst m d a j x => some (evPack src dst m d a j x)
  | .unpack _ src dst m d a j => some (evUnpack src dst m d a j)
  | .retag _ t d a => some (evRetag t d a)
  | .vdot8 _ f m d a b x => some (evVdot8 f m d a b x)
  | .vdot6 _ m d a b x => some (evVdot6 m d a b x)
  | .vl2d8 _ f m d a b x => some (evVl2d8 f m d a b x)
  | .vhamm _ d a b x => some (evVhamm d a b x)
  | .vrand _ f d a => some (evVrand f d a)
  | _ => none

/-- A test on the private view (R134). -/
def testHolds (x : Test) (e : Env) (v : Fibre) : Except Trap Bool :=
  match x with
  | .pred p want => .ok (predBit v.preds p.val == want)
  | .flt c a b => do
    let p ← readF e v a
    let q ← readF e v b
    pure (FCond.holds c p q)
  | .int t c a b => do
    let p ← readInt e v a
    let q ← match b with
      | .inl s => (readInt e v s).map (intVal t)
      | .inr i => .ok i
    pure (ICond.holds c (intVal t p) q)

/-- What a walk has gathered: the machine, the private view, loads not yet visible, the store to come, the latest latency, the writes. -/
structure Walking where
  s      : State
  v      : Fibre
  loaded : Wr := {}
  store  : Option (Place × List Byte) := none
  lat    : Nat := 0
  done   : Wr := {}

/-- How a walk ends. -/
inductive WalkEnd where
  | leaf (j : Nat) (w : Walking)
  | trap (t : Trap)
  | abort (s : State) (f : Fibre)
  | held

def wrJoin (a b : Wr) : Wr := { regs := a.regs ++ b.regs, sregs := a.sregs ++ b.sregs, preds := a.preds ++ b.preds }

/-- One arc's operation (R134). -/
def arcStep (i : Instr) (k : Site) (e : Env) (w : Walking) : MemR Walking :=
  let load (sz : Size) (sp : Space) (h : Hint) (t : Tag) (d : Dst) (ea : Except Trap DWord) : MemR Walking :=
    match ea with
    | .error x => .trap x
    | .ok a =>
      if sp != .x && lateTxn w.s w.v then abortAt w.s w.v 3
      else
      match place k sp a sz.bytes sz.bytes 2 with
      | .error x => .trap x
      | .ok p =>
        match loadAt w.s k w.v p sz.bytes h with
        | .ok s f r => .ok s f { w with s := s, v := f, loaded := wrJoin w.loaded (ldWr sz t d r.1), lat := max w.lat r.2 }
        | .trap x => .trap x
        | .abort s f => .abort s f
        | .held => .held
  let store (sz : Size) (sp : Space) (x : StSrc) (ea : Except Trap DWord) : MemR Walking :=
    match ea with
    | .error t => .trap t
    | .ok a =>
      if sp != .x && lateTxn w.s w.v then abortAt w.s w.v 3
      else
      match place k sp a sz.bytes sz.bytes 3 with
      | .error t => .trap t
      | .ok p =>
        match stBytes sz x e w.v, (match p with
          | .glob va => (checkVa w.s k.core k.ctx va { kind := 3, w := true, seals := true }).map (fun _ => ())
          | .scr _ => .ok ()) with
        | .error t, _ => .trap t
        | _, .error t => .trap t
        | .ok bs, .ok _ => .ok w.s w.v { w with store := some (p, bs) }
  match i with
  | .ld _ sz sp h t d ad => load sz sp h t d (effAddr e w.v sz.bytes ad)
  | .ldSplit _ sz h t d p imm => load sz .g h t d (splitEff w.v p imm)
  | .st _ sz sp _ x ad => store sz sp x (effAddr e w.v sz.bytes ad)
  | .stSplit _ sz _ x p imm => store sz .g x (splitEff w.v p imm)
  | .vpqd _ grp d a sB x =>
    match pqEval (scrBytes w.s k.team) (scrBad w.s k.team) e w.v grp d a sB x with
    | .error t => .trap t
    | .ok r => .ok w.s w.v { w with loaded := wrJoin w.loaded r, lat := max w.lat 10 }
  | i =>
    match aluOf i with
    | none => .trap { code := .illegalTree }
    | some ev =>
      match ev e w.v with
      | .error t => .trap t
      | .ok r => .ok w.s (w.v.write r) { w with v := w.v.write r, done := wrJoin w.done r }

/-- The walk from a position on; a register with a reserved tag is used where a node or arc of the path reads it (R13, R135). -/
def walkTree (t : TreeWords) (h : TreeHdr) (k : Site) (e : Env) : Nat → Nat → Nat → Walking → WalkEnd
  | 0, pos, lvl, w => .leaf ((pos + 1 - 2 ^ lvl) * 2 ^ (h.depth - lvl)) w
  | fuel + 1, pos, lvl, w =>
    if lvl < h.depth && h.has pos then
      match decTest (nodeWord t h pos) with
      | .error x => .trap (decTrap x)
      | .ok x =>
        match firstSome (tagCheck w.v) ((testSrcs x).flatMap oSrc), testHolds x e w.v with
        | some tr, _ => .trap tr
        | none, .error tr => .trap tr
        | none, .ok b =>
          let nxt := if b then 2 * pos + 1 else 2 * pos + 2
          if h.arc pos b then
            match arcOp (arcWord t h pos b) with
            | .ok (some i) =>
              match firstSome (tagCheck w.v) (uses i).ops, arcStep i k e w with
              | some tr, _ => .trap tr
              | none, .ok _ _ w => walkTree t h k e fuel nxt (lvl + 1) w
              | none, .trap tr => .trap tr
              | none, .abort s f => .abort s f
              | none, .held => .held
            | _ => .trap { code := .illegalTree }
          else walkTree t h k e fuel nxt (lvl + 1) w
    else .leaf ((pos + 1 - 2 ^ lvl) * 2 ^ (h.depth - lvl)) w

/-- An attempt that a tree's access aborts: nothing of the tree is written (R135, R238). -/
def treeAbort (s : State) (f g : Fibre) : State × Act :=
  (s, .go { f := { f with txn := none, status := g.status }, next := some g.pc })

/-- The commit at a leaf: registers and predicates, then loads, then the store; and the successor (R134, R137). DESIGN CHOICE (log 93): an end leaf
inside an open attempt, where the end instruction may not stand (R228), commits the path, ends the fibre and drops the attempt. -/
def treeCommit (t : TreeWords) (h : TreeHdr) (k : Site) (e : Ex) (j : Nat) (w : Walking) : Option (State × Act) :=
  let f := { e.f with txn := w.v.txn }
  let r : MemR Unit := match w.store with
    | none => .ok w.s f ()
    | some (p, bs) => storeAt w.s k f p bs
  match r with
  | .held => none
  | .trap tr => some (w.s, .trap tr)
  | .abort s g => some (treeAbort s e.f g)
  | .ok s f _ =>
    let c := h.leafCode j
    let out (n : Option DWord) : Act := .go { f := f, w := wrJoin w.done w.loaded, next := n, rank := j, lat := some (max (4 + h.depth) w.lat) }
    let hdr := e.f.pc
    some (s, if c = 0 then out none
             else if c = 5 then .over
             else if c = 6 then out (some hdr)
             else out (some (hdr + (slotOff t c).signExtend 64 * 8)))

/-- tree at one fibre (R133 to R137). -/
def treeOne (t : TreeWords) (e : Ex) (s : State) : Option (State × Act) :=
  let h := treeHdr t.header.toNat
  match treeCheck t e.f with
  | some tr => some (s, .trap tr)
  | none =>
    match siteOf s e.f with
    | none => none
    | some k =>
      match walkTree t h k e.env h.depth 0 0 { s := s, v := e.f } with
      | .leaf j w => treeCommit t h k e j w
      | .trap tr => some (s, .trap tr)
      | .abort s g => some (treeAbort s e.f g)
      | .held => none

def execTree (t : TreeWords) (s : State) : Host.Outcome State Fault Refusal :=
  issueWith (.tree t) .leaf (each (treeOne t)) s

end Sys2Proof.Machine
end

