-- ==== Sys2Proof/Machine/Fetch.lean ====
section
/-! DEFINITION. The fetch of a gang's next instruction and the conditions under which the gang is ready (R15, R55, R56, R151, R161, R342, R347,
R356). -/

namespace Sys2Proof.Machine

/-! ## Fetch (R15, R55) -/

/-- What the fetch at an address gives: an instruction; a word whose encoding fails, with the step and selector of R56; or a trap. -/
inductive Fetched where
  | instr (i : Instr)
  | bad (w : Nat) (step sel : Nat)
  | trap (t : Trap)
  deriving DecidableEq, Repr

/-- The words of the instruction at an address, the first word read before the others. DESIGN CHOICE (log 89): where a further word cannot be fetched
the fetch's trap is raised, even if the first word alone fails R56. -/
def fetchWords (s : State) (core ctx : Nat) (pc : DWord) : Except Trap (List Nat) := do
  let w ← fetchWord s core ctx pc 1
  let rest ← (List.range (wordCount w - 1)).foldr (fun i acc => do
    let x ← fetchWord s core ctx (pc + BitVec.ofNat 64 (8 * (i + 1))) 1
    pure (x :: (← acc))) (.ok [])
  pure (w :: rest)

/-- The instruction at an address of a context, as a core fetches it. -/
def fetchAt (s : State) (core ctx : Nat) (pc : DWord) : Fetched :=
  match fetchWords s core ctx pc with
  | .error t => .trap t
  | .ok ws =>
    match decodeWords ws with
    | .ok i => .instr i
    | .error (.illegal st sel) => .bad (ws.headD 0) st sel
    | .error .truncated => .bad (ws.headD 0) 4 0

/-- The address at which a gang stands. -/
def gangPc (s : State) (g : Gang) : Option DWord :=
  match g.members with
  | [] => none
  | m :: _ => (s.fibre (g.team * 1024 + m.2)).map (·.pc)

/-- The fetch of a gang's next instruction. -/
def fetchGang (s : State) (g : Gang) : Option Fetched :=
  match s.team g.team, gangPc s g with
  | some t, some pc => some (fetchAt s t.core (s.teamLaunch t).ctx pc)
  | _, _ => none

/-! ## Readiness (R151) -/

/-- The operands of a tree: those of its tests and of its arcs. -/
def treeUses (t : TreeWords) : Uses :=
  let h := treeHdr t.header.toNat
  let tests := (nodeSlots h).filterMap fun i => match decTest (nodeWord t h i) with | .ok x => some x | .error _ => none
  let arcs := (arcSlots h).filterMap fun a => match arcOp (arcWord t h a.1 a.2) with | .ok (some i) => some i | _ => none
  { ops := tests.flatMap (fun x => (testSrcs x).flatMap oSrc) ++ arcs.flatMap fun i => (uses i).ops,
    rp := tests.filterMap (fun x => match x with | .pred p _ => some p.val | _ => none) ++ arcs.flatMap fun i => (uses i).rp,
    wp := arcs.flatMap fun i => (uses i).wp }

def allUses : Instr → Uses
  | .tree t => treeUses t
  | i => uses i

/-- The clock at which an s-register is available to an instruction that issues at a clock: what an earlier slot has written in that clock counts from the
next (R160). -/
def Team.sReady (t : Team) (clk n : Nat) : Nat :=
  match (if t.swClk = clk then t.swlog.find? (·.sreg == n) else none) with
  | some w => w.was
  | none => getD 0 n t.sAvail

/-- Whether an operand's register is available at a clock: a source by its latency; a destination unless a result that a home or an engine
still owes it is outstanding. -/
def opndReady (t : Team) (f : Fibre) (clk : Nat) (o : Opnd) : Bool :=
  let by_ (c : Nat) : Bool := (o.r && decide (c ≤ clk)) || (!o.r && decide (c < clk + 2 ^ 39))
  if o.sel < 0x100 then (List.range o.n).all fun j => by_ (getD 0 (f.fb + o.sel + j) f.avail)
  else if o.sel < 0x120 then by_ (t.sReady clk (o.sel - 0x100))
  else if o.sel < 0x124 then by_ (nth 0 f.lAvail (o.sel - 0x120))
  else true

/-- The sources of an instruction are available to a fibre (R151); fork copies the whole window and the predicates (R163), and rti reads fields of the trap
frame (R348). -/
def sourcesReady (t : Team) (f : Fibre) (clk : Nat) (i : Instr) : Bool :=
  let u := allUses i
  u.ops.all (opndReady t f clk) &&
    ((match guardOf i with | some g => [g.pred.val] | none => []) ++ u.rp).all (fun p => p == 0 || decide (getD 0 p f.pAvail ≤ clk)) &&
    (match i with
     | .fork _ _ _ => (f.avail ++ f.pAvail).all fun e => decide (e.2 ≤ clk)
     | .rti _ => [2, 3, 4, 5].all fun j => decide (getD 0 (f.fb + j) f.avail ≤ clk)
     | _ => true)

/-- The tiles that an instruction names (R315). -/
def tilesOf : Instr → List (Fin 64)
  | .tfree _ t _ | .tinfo _ t _ | .tinfoGetexp _ t _ | .tinfoSetexp _ t _ | .mlds _ t _ => [t]
  | .mma _ _ ad t _ _ _ => t :: ad.toList
  | .mmas _ _ _ a b c _ _ _ => [a, b, c]
  | .acsnap _ t _ _ _ _ => [t]
  | .acdrain _ _ _ (.tile t _) => [t]
  | .vprune _ _ _ a b c _ _ _ => [a, b, c]
  | _ => []

/-- Instructions that post to an engine: which of its queues must have room (R274, R297, R333). -/
inductive EngineQ where
  | none | copy | matrix | walk | sieve
  deriving DecidableEq, Repr

def engineOf : Instr → EngineQ
  | .xcopy _ _ _ _ | .xchain _ _ _ _ | .tmove _ _ _ _ => .copy
  | .mlds _ _ _ | .mma _ _ _ _ _ _ _ | .mmas _ _ _ _ _ _ _ _ _ | .acsnap _ _ _ _ _ _ | .acdrain _ _ _ _ | .acclr _ _ _ _ _
  | .adload _ _ _ _ | .adinv _ _ _ | .vprune _ _ _ _ _ _ _ _ _ => .matrix
  | .fwalk _ _ _ _ => .walk
  | .sift _ _ _ _ => .sieve
  | _ => .none

def engineRoom (s : State) (t : Team) (i : Instr) : Bool :=
  match engineOf i with
  | .none => true
  | .copy => decide ((s.core t.core).copyQ.length < 16)
  | .walk => decide ((s.quad (quadOfCore t.core)).walks.length < 16)
  | .sieve => (s.core t.core).siftAt != some s.clock
  | .matrix =>
    match t.part with
    | none => true
    | some p => decide ((s.part (quadOfCore t.core) p).reqs.length < 8)

/-- Accesses to memory, which wait until an earlier acquire or release of the fibre is done (R217). -/
def accesses : Instr → Bool
  | .ld _ _ _ _ _ _ _ | .ldSplit _ _ _ _ _ _ _ | .st _ _ _ _ _ _ | .stSplit _ _ _ _ _ _ | .atom _ _ _ _ _ _ _ _ _ | .acas _ _ _ _ _ _ _ _
  | .eacc _ _ _ _ _ _ _ | .earead _ _ _ _ _ _ | .ldsum _ _ _ _ _ | .ldver _ _ _ _ | .stv _ _ _ _ _ _ | .tcommit _ | .bar _ _ _ _
  | .seal _ _ _ _ | .unseal _ _ _ _ | .spawn _ _ _ | .tree _ | .vpqd _ _ _ _ _ _ => true
  | i => engineOf i != .none && engineOf i != .sieve

/-- Whether a call spills an entry of a fibre's return stack, or a return refills one: an access to memory (R126). -/
def spills (i : Instr) (f : Fibre) : Bool :=
  match i with
  | .call _ _ _ | .calli _ _ _ => decide (8 ≤ f.stack.length)
  | .ret _ => f.stack == [] && f.depth != 0
  | _ => false

/-- Arrivals that are a release at .core: a join's, a leave's and those at the budget barrier (R170, R179). -/
def arrives : Instr → Bool
  | .join _ _ _ _ _ | .leave _ _ _ | .regrow _ _ _ _ | .regshrink _ _ _ => true
  | _ => false

/-- Whether a halt holds a team: one of its own, or that of its frozen context, or a reset of its context that is being carried out (R342, R364,
R367). -/
def Team.held (t : Team) (s : State) : Bool :=
  (match t.halt with | some h => decide (h.clk < s.clock) | none => false) ||
  (let c := s.ctx (s.teamLaunch t).ctx
   c.resetting || (c.st == .frozen && decide (c.frozenAt < s.clock)))
def Team.frozen (t : Team) (s : State) : Bool := (s.ctx (s.teamLaunch t).ctx).st == .frozen

/-- Live members of a crew that stop an instruction from issuing: loose and runnable at its PC at run position 0 (R161), or stopped by a debugger
(R356). -/
def crewWaits (s : State) (t : Team) (q : Nat) (pc : DWord) : Bool :=
  match t.crew q with
  | none => false
  | some c => (liveOf c).any fun m => match s.fibre (t.key m) with
    | none => false
    | some f =>
      match f.st with
      | .loose _ _ => f.pc == pc && f.runPos == 0
      | .stopped => true
      | _ => false

/-- Whether a fibre waits for an operation of its own: a gather, whose poison raises POISON at the ldsum (R4, R257, R341, R409; log 81), a sealing, a
sieveget (R265, R332). -/
def opOutstanding (s : State) (f : Fibre) : Bool :=
  (s.gathers.any fun g => g.fibre == f.key) || (s.sealQ.any fun o => o.fibre == f.key) ||
  ((s.core ((s.team f.team).map (·.core) |>.getD 0)).sieveBusy.any fun b => b.team == f.team &&
    (match (s.team f.team).bind (·.crew b.crew) with | some c => (liveOf c).contains f.fidx | none => false))

/-- Whether the gang's next instruction may issue, for the members' own part (R151); an arrival that is a release at .core waits until the fibre's
earlier loads have returned (R217). An engine command that ends a run is held by a freeze like any other (R367), its gang within the run until the thaw
(R75; DESIGN CHOICE, log 98). -/
def instrReady (s : State) (t : Team) (g : Gang) (fs : List Fibre) (pc : DWord) (i : Instr) : Bool :=
  fs.all (fun f => sourcesReady t f s.clock i) &&
  !(fs.any fun f => (accesses i || spills i f) && (s.owes g.core f.await || decide (s.clock < f.accAt))) &&
  !(arrives i && fs.any fun f => guardLets i f && loadsOut s f) &&
  !((tilesOf i).any fun h => tileBusy s t h.val) && engineRoom s t i &&
  !(t.frozen s && engineOf i != .none) &&
  (match namedCrew i with
   | none => true
   | some q =>
     !(needsCrew i && crewWaits s t q pc) && !(q == 7 && t.kept.isSome && fs.any fun f => f.hand == .none))

/-- A gang that its slot may select (R151, R342): not while an access of its last issue is being served, nor in the clock in which it was, since what its
other instructions access comes after (R226; log 97). -/
def readyGang (s : State) (g : Gang) : Bool :=
  match s.team g.team, gangPc s g with
  | some t, some pc =>
    let fs := g.members.filterMap fun m => s.fibre (t.key m.2)
    g.pend.isNone && g.served != some s.clock &&
    fs.all (fun f => f.st == .ganged && !opOutstanding s f) &&
    (!t.held s || fs.all fun f => f.midRun) &&
    !s.walkWaits t.core (s.teamLaunch t).ctx pc &&
    (match translate s t.core (s.teamLaunch t).ctx pc with | some (pa, _) => !s.asleep (lineOf pa) | none => true) &&
    (match fetchAt s t.core (s.teamLaunch t).ctx pc with
     | .instr i => instrReady s t g fs pc i
     | _ => true)
  | _, _ => false

end Sys2Proof.Machine
end

