-- ==== Sys2Proof/Machine/Slots.lean ====
section
/-! DEFINITION. The steps of a slot: selection, the colander with handler and shim entry, the watchdog (R147 to R154, R345 to R349, R352). -/

namespace Sys2Proof.Machine

/-! ## ISSUE_SELECT (R151 to R154, R357) -/

def slotGangs (s : State) (core slot : Nat) : List Gang := s.gangs.filter fun g => g.core == core && g.slot == slot

def gangClass (s : State) (g : Gang) : Nat :=
  match s.team g.team with
  | some t => (s.teamLaunch t).reqClass
  | none => 4

/-- Whether a slot follows round-robin: the policy of the team whose gang issued last, else of the oldest ready gang's team (R152). -/
def slotPolicy (s : State) (last : Option LastIssue) (oldest : Gang) : Bool :=
  let of (t : Nat) : Option Bool := (s.team t).map fun x => (s.teamLaunch x).rr
  ((last.bind fun l => of l.team).orElse fun _ => of oldest.team).getD false

/-- The gang that a slot selects among the ready ones of the highest class (R152). Under round-robin the count goes on from where the last issued gang now
stands, be it the youngest place that a yield has moved it to, as R152 says and though R153 then fails (DEDUCED, log 103); from the index of the place that
it held, once it is gone, whichever gangs have left the order since (DESIGN CHOICE, log 106). -/
def choose (s : State) (last : Option LastIssue) (order ready : List Gang) : Option Gang :=
  match ready with
  | [] => none
  | oldest :: _ =>
    let cls := (ready.map (gangClass s)).foldl min 4
    let best := ready.filter fun g => gangClass s g == cls
    if slotPolicy s last oldest then
      match last with
      | none => best.head?
      | some l =>
        let start := match order.findIdx? (·.gid == l.gid) with | some i => i + 1 | none => l.place
        ((order.drop start ++ order.take start).find? fun g => best.any (·.gid == g.gid))
    else
      match last.bind fun l => if l.yielded then none else best.find? (·.gid == l.gid) with
      | some g => some g
      | none => best.head?

/-- The gang of a slot whose access is being served and that has not been tried in this clock. -/
def servedNext (s : State) (core slot : Nat) : Option Gang :=
  (slotGangs s core slot).find? fun g => match g.pend with | some p => decide (p.2 < s.clock) | none => false

/-- The slot's own choice (R151 to R154): it issues next; every other ready gang counts a clock of waiting, and a gang that is not ready begins its count
anew. -/
def selectReady (core slot : Nat) (s : State) : State :=
  let order := slotGangs s core slot
  let ready := order.filter (readyGang s)
  let c := s.core core
  let last := look slot c.last
  match choose s last order ready with
  | none => { s with gangs := s.gangs.map fun (g : Gang) => if g.core == core && g.slot == slot then { g with waited := 0 } else g }
  | some g =>
    let wait (x : Gang) : Nat := if x.gid = g.gid then 0 else if ready.any (·.gid == x.gid) then x.waited + 1 else 0
    let s := { s with gangs := s.gangs.map fun (x : Gang) => if x.core == core && x.slot == slot then { x with waited := wait x } else x }
    let place := (order.findIdx? (·.gid == g.gid)).getD 0
    let l : LastIssue := { gid := g.gid, team := g.team, launch := ((s.team g.team).map fun (t : Team) => t.launch).getD 0, place := place, yielded := false, clk := s.clock }
    let s := s.setCore core { c with last := put slot l c.last }
    { s with issue := some g.gid }

/-- ISSUE_SELECT: first the accesses of earlier issues that a home or a release has kept waiting are tried again, one by one (R4, R217); then the slot
selects. -/
def execIssueSelect (core slot : Nat) (s : State) : Host.Outcome State Fault Refusal :=
  match servedNext s core slot with
  | some g =>
    let s := s.setGang { g with pend := g.pend.map fun p => (p.1, s.clock) }
    .next { s with issue := some g.gid, agenda := .issueSelect core slot :: s.agenda }
  | none => .next (selectReady core slot s)

/-- The halt of a team from a clock on, if it has none: its gangs count their skid anew (R342). -/
def haltTeam (s : State) (team clk : Nat) : State :=
  match s.team team with
  | none => s
  | some t =>
    if t.halt.isSome then s
    else
      let s := s.setTeam team { t with halt := some { clk := clk } }
      { s with gangs := s.gangs.map fun (g : Gang) => if g.team == team then { g with skid := 0 } else g }

/-- SLOT_WATCHDOG (R154): a gang that has been ready for 2^22 clocks without issuing raises the trap on the team that issued. -/
def execSlotWatchdog (core slot : Nat) (s : State) : Host.Outcome State Fault Refusal :=
  let late := (slotGangs s core slot).filter fun g => decide (2 ^ 22 ≤ g.waited)
  match late, look slot (s.core core).last with
  | [], _ => .next s
  | _, none => .next s
  | _, some l =>
    let s := { s with gangs := s.gangs.map fun (g : Gang) => if late.any (·.gid == g.gid) then { g with waited := 0 } else g }
    match s.team l.team with
    | none => .next s
    | some t =>
      .next (haltTeam (s.setTeam t.id { t with asyncTrap := t.asyncTrap.or (some { code := .slotWatchdog, aux := slot }) }) t.id s.clock)

/-! ## Handler and shim entry (R345 to R349, R352) -/

/-- A handler crew's size: the member count rounded up (R347). -/
def roundCrew (n : Nat) : Nat := if n ≤ 4 then 4 else if n ≤ 8 then 8 else if n ≤ 16 then 16 else 32

/-- Where a fibre of an event enters: the shim of its FEATURE, else the launch's handler; none where there is no handler (R345, R350, R352). -/
def entryOf (s : State) (t : Team) (f : Fibre) : Option (DWord × Hand) :=
  match f.trap.bind (·.shim) with
  | some h => some (h, .shim)
  | none => if (s.teamLaunch t).h = 0 then none else some ((s.teamLaunch t).h, .handler)

/-- A nested fault: the nested trap's code in DETAIL, its FADDR (R340). -/
def Trap.nested (t : Trap) : Trap := { code := .nestedFault, faddr := t.faddr, detail := t.code.num }

/-- The frame size with which a fibre enters at an address, or the nested trap (R345, R350). A frame that does not fit is a FRAME_OVERFLOW, whose FADDR
is the address entered. -/
def entryFrame (s : State) (t : Team) (f : Fibre) (h : DWord) : Except Trap Nat := do
  let fh ← handlerFrame s t.core (s.teamLaunch t).ctx h
  if fh < 16 || t.w < f.fb + f.fs + fh then .error { code := .frameOverflow, faddr := h } else pure fh

/-- A fibre's entry: its address, what it is then inside, and its frame size. -/
abbrev Entry := Fibre × DWord × Hand × Nat

/-- Why an event cannot enter: no handler, with the trap that then is reported itself, or the failure of an entry (R350). -/
inductive NoEntry where
  | noHandler (t : Trap)
  | failed (t : Trap)
  deriving DecidableEq, Repr

/-- The entries of an event's fibres, in its order; the first that fails keeps the event out as a whole (R345, R349, R350). -/
def entriesOf (s : State) (t : Team) : List Fibre → Except NoEntry (List Entry)
  | [] => .ok []
  | f :: fs =>
    match entryOf s t f with
    | none => .error (.noHandler ((f.trap.map (·.trap)).getD (.illegalAt 0)))
    | some (h, hand) =>
      match entryFrame s t f h with
      | .error x => .error (.failed x)
      | .ok fh => (entriesOf s t fs).map ((f, h, hand, fh) :: ·)

def eventFibres (s : State) (t : Team) (e : TrapEvent) : List Fibre := e.fibres.filterMap fun i => s.fibre (t.key i)

/-- An event's fibres enter as the handler crew in q7, loose with the clock of their trap; the program's q7 is kept aside (R345, R347, R387). -/
def enterEvent (s : State) (t : Team) (e : TrapEvent) (es : List Entry) : State :=
  let s := es.foldl (fun s x => match x.1.trap with
    | some r => s.setFibre x.1.key (enterHandler x.1 r x.2.1 x.2.2.2 e.clk x.2.2.1)
    | none => s) s
  let live : BitVec 32 := BitVec.ofNat 32 (2 ^ es.length - 1)
  let c : Crew := { size := roundCrew es.length, members := es.map (·.1.fidx), live := live, masks := List.replicate 12 { expected := live } }
  s.setTeam t.id { t with kept := some (t.crew 7), crews := put 7 c t.crews, pendEv := t.pendEv.tail, halt := none }

/-- What a window does for a team's events: with the records of its halt written and no handler crew, the first event enters and the halt is
released; with a handler crew the halt is released and the events wait (R345, R349). A failing entry halts the team again (R349). -/
def enterEvents (s : State) (t : Team) : State :=
  let recorded := match t.halt with | some h => h.recorded && !h.debug | none => true
  if !recorded || t.report.isSome || t.asyncTrap.isSome || t.frozen s then s
  else if t.pendEv.any fun e => (eventFibres s t e).any fun f => f.hand != .none then s
  else if t.kept.isSome then s.setTeam t.id { t with halt := none }
  else
    match t.pendEv with
    | [] => s.setTeam t.id { t with halt := none }
    | e :: _ =>
      if e.num.isNone then s
      else
        match entriesOf s t (eventFibres s t e) with
        | .error _ => haltTeam s t.id s.clock
        | .ok es => enterEvent s t e es

/-! ## COLANDER_WINDOW (R147 to R149) -/

/-- A loose fibre's sort key as one number: clock, exit rank, fidx, team slot (R147). -/
def sortKey (t : Team) (f : Fibre) : Nat :=
  match f.st with
  | .loose clk rank => ((clk * 64 + rank) * 1024 + f.fidx) * 16 + t.slot
  | _ => 0

/-- The runnable loose fibres of a slot with their teams, by sort key (R147, R148). -/
def looseOf (s : State) (core slot : Nat) : List (Team × Fibre) :=
  let ts := (s.teams.map (·.2)).filter fun t => t.core == core && !t.held s
  let fs := ts.flatMap fun t => ((s.teamFibres t.id).filter fun f => decide (f.fidx % 4 = slot) && (match f.st with | .loose _ _ => true | _ => false)).map
    fun f => (t, f)
  sortBy (fun e => sortKey e.1 e.2) fs

/-- The crew group of a fibre, itself included (R146). -/
def groupOf (t : Team) (fidx : Nat) : List Nat := linked t [fidx]

/-- The fibres of a window: the first 64, and those whose crew group has a member among them (R148). -/
def windowOf (l : List (Team × Fibre)) : List (Team × Fibre) :=
  let first := l.take 64
  l.filter fun e => first.any fun x => x.1.id == e.1.id && (groupOf e.1 e.2.fidx).contains x.2.fidx

/-- A new gang of fibres, lanes in ascending fidx, as the slot's youngest (R148). -/
def formGang (s : State) (core slot : Nat) (t : Team) (fidx : List Nat) : State :=
  let ids := sortBy id fidx
  let s := ids.foldl (fun s i => match s.fibre (t.key i) with
    | some f => s.setFibre f.key { f with st := .ganged }
    | none => s) s
  let g : Gang := { gid := s.nextId, core := core, slot := slot, team := t.id, members := ids.zipIdx.map fun e => (e.2, e.1), formed := s.clock }
  { s with nextId := s.nextId + 1, gangs := s.gangs ++ [g] }

/-- The gangs at a PC at run position 0 that hold fellows of a crew group (R149). -/
def fellows (s : State) (core slot : Nat) (t : Team) (pc : DWord) (grp : List Nat) : List Gang :=
  (slotGangs s core slot).filter fun g => g.team == t.id && gangPc s g == some pc && g.pend.isNone && g.members.any (fun m => grp.contains m.2) &&
    g.members.all fun m => match s.fibre (t.key m.2) with | some f => f.runPos == 0 && f.st == .ganged | none => true

def topLane (g : Gang) : Nat := (g.members.map (·.1)).foldl max 0

/-- One unit of a set: it joins an existing gang with room, or brings its fellows out of theirs; none once it has joined (R149). DESIGN CHOICE (log 104):
fellows that lie in several gangs all come out. -/
def joinFellows (s : State) (core slot : Nat) (t : Team) (pc : DWord) (unit : List Nat) : State × Option (List Nat) :=
  let grp := groupOf t (unit.headD 0)
  match fellows s core slot t pc grp with
  | [] => (s, some unit)
  | [g] =>
    if topLane g + unit.length < 32 then
      let s := unit.foldl (fun s i => match s.fibre (t.key i) with
        | some f => s.setFibre f.key { f with st := .ganged }
        | none => s) s
      (s.setGang { g with members := g.members ++ (sortBy id unit).zipIdx.map fun e => (topLane g + 1 + e.2, e.1) }, none)
    else
      let out := (g.members.map (·.2)).filter grp.contains
      (ungang s t.id out, some (unit ++ out))
  | gs =>
    let out := (gs.flatMap fun g => g.members.map (·.2)).filter grp.contains
    (ungang s t.id out, some (unit ++ out))

/-- Members of one crew group that stand at one PC in several gangs come into one: the first takes the others in if it has room; else they form a gang of
their own with its members (R149). -/
def mergeGroup (s : State) (core slot : Nat) (t : Team) (pc : DWord) (grp : List Nat) : State :=
  match fellows s core slot t pc grp with
  | _ :: g :: gs =>
    let rest := ((g :: gs).flatMap fun x => x.members.map (·.2)).filter grp.contains
    match joinFellows (ungang s t.id rest) core slot t pc rest with
    | (s, none) => s
    | (s, some u) => formGang s core slot t u
  | _ => s

/-- Every crew group of the slot's gangs whose members lie in several gangs at one PC (R149). -/
def mergeGangs (s : State) (core slot : Nat) : State :=
  let gs := (slotGangs s core slot).filter fun g => g.pend.isNone
  let keys := dedupe (gs.flatMap fun g => match s.team g.team, gangPc s g with
    | some t, some pc => if t.held s then [] else g.members.map fun m => (t.id, pc, sortBy id (groupOf t m.2))
    | _, _ => [])
  (keys.filter fun k => decide (1 < k.2.2.length)).foldl (fun s k => match s.team k.1 with
    | some t => mergeGroup s core slot t k.2.1 k.2.2
    | none => s) s

/-- A unit's place: the first gang of this window's set with room, else a new one (R148). -/
def placeUnit (u : List Nat) : List (List Nat) → List (List Nat)
  | [] => [u]
  | g :: gs => if g.length + u.length ≤ 32 then (g ++ u) :: gs else g :: placeUnit u gs

/-- The units of a set, by least fidx (R148). -/
def unitsOf (t : Team) (fidx : List Nat) : List (List Nat) :=
  sortBy (fun u => u.headD 0) (dedupe (fidx.map fun i => sortBy id (fidx.filter (groupOf t i).contains)))

/-- The units of a set that join no gang, with the fellows that they bring out of theirs, by least fidx (R148, R149). -/
def looseUnits (s : State) (core slot : Nat) (t : Team) (pc : DWord) (fidx : List Nat) : State × List (List Nat) :=
  let (s, us) := (unitsOf t fidx).foldl (fun (acc : State × List (List Nat)) u =>
    match joinFellows acc.1 core slot t pc u with
    | (s, none) => (s, acc.2)
    | (s, some u) => (s, acc.2 ++ [sortBy id u])) (s, [])
  (s, sortBy (fun u => u.headD 0) us)

/-- One set: the fibres of a team at a PC (R148, R149). -/
def gatherSet (s : State) (core slot : Nat) (t : Team) (pc : DWord) (fidx : List Nat) : State :=
  let (s, us) := looseUnits s core slot t pc fidx
  (us.foldl (fun gs u => placeUnit u gs) []).foldl (fun s g => formGang s core slot t g) s

/-- COLANDER_WINDOW (R148): at every clock of the core's count, which begins at its reset, that is a multiple of 4. The core's trap events enter first
(R345). -/
def execColanderWindow (core slot : Nat) (s : State) : Host.Outcome State Fault Refusal :=
  if (s.clock - s.epoch) % 4 ≠ 0 then .next s
  else
    let s := ((s.teams.map (·.2)).filter fun t => t.core == core).foldl (fun s t => enterEvents s t) s
    let l := windowOf (looseOf s core slot)
    let sets := dedupe (l.map fun e => (e.1.id, e.2.pc))
    let s := sets.foldl (fun s k =>
      match s.team k.1 with
      | none => s
      | some t => gatherSet s core slot t k.2 ((l.filter fun e => e.1.id == k.1 && e.2.pc == k.2).map (·.2.fidx))) s
    .next (mergeGangs s core slot)

end Sys2Proof.Machine
end

