-- ==== Sys2Proof/Machine/Traps.lean ====
section
/-! DEFINITION. The halt of a team, its records, the faults that no handler takes, and debug control (R342 to R344, R349, R350, R353 to R356). -/

namespace Sys2Proof.Machine

/-! ## HALT and HALT_RECORDS (R342 to R344) -/

/-- Numbers the events that have no number yet, in order of clock and lowest fidx; the event count stands in each fibre's frame (R344, R346). -/
def numberEvents (s : State) (t : Team) : State :=
  let old := t.pendEv.filter (·.num.isSome)
  let new := sortBy (fun e => e.clk * 1024 + e.fibres.headD 0) (t.pendEv.filter (·.num.isNone))
  let new := new.zipIdx.map fun e => { e.1 with num := some ((t.events + e.2 + 1) % 65536) }
  let s := new.foldl (fun s e => e.fibres.foldl (fun s i => match s.fibre (t.key i) with
    | some f => s.setFibre f.key { f with trap := f.trap.map fun r => { r with event := e.num.getD 0 } }
    | none => s) s) s
  s.setTeam t.id { t with pendEv := old ++ new, events := (t.events + new.length) % 65536 }

/-- HALT (R342, R344): the clock after a trap the halt reaches every slot. -/
def execHalt (team : Nat) (s : State) : Host.Outcome State Fault Refusal :=
  match s.team team with
  | none => .next s
  | some t =>
    match t.pendEv.filter (·.num.isNone) with
    | [] => .next s
    | e :: _ => if s.clock ≤ e.clk then .next s else .next (haltTeam (numberEvents s t) team e.clk)

/-- Whether every gang of a team stands at an instruction that no run holds, at run position 0 or past the last position of one, and the access of its
last issue has been served (R342). -/
def gangsStopped (s : State) (t : Team) : Bool :=
  (s.gangs.filter fun g => g.team == t.id).all fun g => g.pend.isNone && g.members.all fun m => match s.fibre (t.key m.2) with
    | some f => !f.midRun
    | none => true

/-- The record of a gang. -/
def haltRecOf (s : State) (g : Gang) : HaltRec :=
  { pc := (gangPc s g).getD 0, slot := g.slot, skid := g.skid, fidx0 := (g.members.map (·.2)).foldl min 1023, count := g.members.length,
    kind := if g.remainder then 1 else 0 }

/-- HALT_RECORDS (R343): once every gang has stopped, a record for each goes into the team's part of the save area. -/
def execHaltRecords (team : Nat) (s : State) : Host.Outcome State Fault Refusal :=
  match s.team team with
  | none => .next s
  | some t =>
    match t.halt with
    | none => .next s
    | some h =>
      if h.recorded || decide (s.clock < h.clk + 2) || !gangsStopped s t || t.frozen s then .next s
      else
        let recs := (s.gangs.filter fun g => g.team == team).map (haltRecOf s)
        let t := { t with halt := some { h with recorded := true }, haltRecs := recs }
        let s := writeRecords (s.setTeam team t) t
        .next { s with gangs := s.gangs.map fun (g : Gang) => if g.team == team then { g with skid := 0, remainder := false } else g }

/-! ## NESTED_FAULT and asynchronous traps (R293, R350) -/

/-- The trap frames of fibres in the event's order, each with the trap that is reported of it (R346, R350). -/
def framesOf (fs : List Fibre) (tr : TrapRec → Trap) : List (List Reg) :=
  (sortBy (fun f => match f.trap with | some r => r.order | none => 0) fs).filterMap fun f => f.trap.map fun r => frameWords f { r with trap := tr r } false

/-- The report of an event. -/
def eventReport (s : State) (t : Team) (e : TrapEvent) (x : Trap) (tr : TrapRec → Trap) : Report :=
  { code := x.code, detail := x.detail, faddr := x.faddr, event := some e, frames := framesOf (eventFibres s t e) tr }

/-- What is reported of a halted team, if its case is one of R350. -/
def reportOf (s : State) (t : Team) : Option Report :=
  match t.asyncTrap with
  | some a => some { code := a.code, detail := a.detail, event := none }
  | none =>
    let nested := t.pendEv.findSome? fun e =>
      ((eventFibres s t e).find? fun f => f.hand != .none).bind fun f => f.trap.map fun r => eventReport s t e r.trap.nested fun r => r.trap.nested
    match nested with
    | some r => some r
    | none =>
      match t.pendEv, t.kept with
      | e :: _, none =>
        match entriesOf s t (eventFibres s t e) with
        | .error (.noHandler x) => some (eventReport s t e x fun r => r.trap)
        | .error (.failed x) => some (eventReport s t e x.nested fun _ => x.nested)
        | .ok _ => none
      | _, _ => none

/-- NESTED_FAULT: a fault that no handler takes; the team stays halted, the context is reported as faulted (R350, R362, R368). -/
def execNestedFault (team : Nat) (s : State) : Host.Outcome State Fault Refusal :=
  match s.team team with
  | none => .next s
  | some t =>
    match t.halt, t.report, reportOf s t with
    | some h, none, some r =>
      if !h.recorded || t.frozen s then .next s
      else
        let s := s.setTeam team { t with report := some r }
        let n := (s.teamLaunch t).ctx
        let c := s.ctx n
        let st := if c.st = .running then .faulted else c.st
        let s := s.setCtx n { c with st := st, reason := r.code.num }
        .next (writeArea s n st (some ((ctxTeams s n).filter fun t => t.report.isSome)) [])
    | _, _, _ => .next s

/-- ASYNC_ENGINE_FAULT (R293, R350): the posting team is halted with the clock of the detection, and enters no handler. -/
def execAsyncEngineFault (team cause : Nat) (s : State) : Host.Outcome State Fault Refusal :=
  match s.team team with
  | none => .next s
  | some t =>
    let t := { t with asyncTrap := t.asyncTrap.or (some (.engine cause)) }
    .next (haltTeam (s.setTeam team t) team s.clock)

/-! ## Debug control (R353, R356) -/

/-- The resident team of a slot. -/
def slotTeam (s : State) (core slot : Nat) : Option Team := (coreTeams s core).find? (·.slot == slot)
def slotTeams (s : State) (core : Nat) (slots : BitVec 16) : List Team := (coreTeams s core).filter fun t => slots.getLsbD t.slot

/-- A stopped or trapped fibre is loose at an address, and not matched there again before it issues (R354). -/
def resumeAt (s : State) (f : Fibre) (pc : DWord) : State :=
  s.setFibre f.key { f with st := .loose s.clock 0, trap := none, pc := pc, runPc := pc, runPos := 0, skipBrk := some pc }

/-- RELEASE of one team (R356). -/
def releaseTeam (s : State) (t : Team) : State :=
  let s := (s.teamFibres t.id).foldl (fun (s : State) (f : Fibre) => match f.st with | .stopped => resumeAt s f f.pc | _ => s) s
  let brk : Bool := match t.report with | some (r : Report) => r.code == TrapCode.breakpoint | none => false
  if brk then
    let fs : List Fibre := match t.report.bind (·.event) with | some e => eventFibres s t e | none => []
    let s := fs.foldl (fun (s : State) (f : Fibre) => match f.trap with | some r => resumeAt s f r.rpc | none => s) s
    let ev := t.pendEv.filter fun e => some e != t.report.bind (·.event)
    let on := ev != [] || t.asyncTrap.isSome
    s.setTeam t.id { t with report := none, pendEv := ev, halt := if on then t.halt.map fun h => { h with debug := false } else none }
  else
    match t.halt with
    | some h =>
      if !h.debug then s
      else
        let on := t.pendEv != [] || t.report.isSome || t.asyncTrap.isSome
        s.setTeam t.id { t with halt := if on then some { h with debug := false } else none }
    | none => s

/-- DBG_RELEASE (R356). -/
def execDbgRelease (core : Nat) (slots : BitVec 16) (s : State) : Host.Outcome State Fault Refusal :=
  .next ((slotTeams s core slots).foldl releaseTeam s)

/-- DBG_HALTREQ (R356): an event without fibres. -/
def execDbgHaltreq (core : Nat) (slots : BitVec 16) (s : State) : Host.Outcome State Fault Refusal :=
  .next ((slotTeams s core slots).foldl (fun s t =>
    let s := haltTeam (s.setTeam t.id { t with events := (t.events + 1) % 65536 }) t.id s.clock
    match s.team t.id with
    | some t => s.setTeam t.id { t with halt := t.halt.map fun h => { h with debug := true } }
    | none => s) s)

/-- DBG_FSTOP (R356). -/
def execDbgFstop (core : Nat) (slots : BitVec 16) (s : State) : Host.Outcome State Fault Refusal :=
  .next (s.setCore core { s.core core with fstop := slots })

end Sys2Proof.Machine
end

