-- ==== Sys2Proof/Machine/Contexts.lean ====
section
/-! DEFINITION. Contexts: retirement, pre-emption, reset, freezing, resuming (R143, R296, R311, R360 to R371, R374, R425). -/

namespace Sys2Proof.Machine

/-- The machine with an event to be executed before the others of this clock. -/
def State.sooner (s : State) (i : Instr) : State := { s with agenda := i :: s.agenda }

/-! ## TEAM_RETIRE and the end of a drain (R143, R362, R363) -/

/-- Whether a team may retire: its fibres have ended, its engine operations have completed, and no fault of its own is outstanding. -/
def mayRetire (s : State) (t : Team) : Bool :=
  s.teamFibres t.id == [] && engineIdle s t && !drainHeld s t.core && t.report.isNone && t.asyncTrap.isNone && t.pendEv == [] && !t.frozen s &&
  !(s.ctx (s.teamLaunch t).ctx).resetting

/-- TEAM_RETIRE (R143, R198): its entries drain and its place is free; the launch counts it; the last team of a context ends its running. -/
def execTeamRetire (team : Nat) (s : State) : Host.Outcome State Fault Refusal :=
  match s.team team with
  | none => .next s
  | some t =>
    if !mayRetire s t then .next s
    else
      let l := s.teamLaunch t
      let s := freeCluster (freePlace (drainAll s t.core) t) t
      let s := match s.launch t.launch with
        | some l => s.setLaunch l.id { l with retired := l.retired + 1, held := l.held - t.recs.length }
        | none => s
      let c := s.ctx l.ctx
      let last := !resident s l.ctx
      let s := if last && c.st == .running then s.setCtx l.ctx { c with st := .idle } else s
      let s := if last && c.st == .draining then s.sooner (.drainDeadline l.ctx) else s
      .next (if l.pool then s else s.sooner (.clusterRetireReport l.id t.pos))

/-- A drained context stops: its resume indices are valid; launches that are unfinished end by R425. -/
def stopCtx (s : State) (n : Nat) : State :=
  let s := s.setCtx n { s.ctx n with st := .stopped, drainAt := none }
  if unfinished s n = [] then (queuesOf s n).foldl stopQueue s
  else endLaunches (writeArea s n .stopped (some []) []) n

/-! ## Reset (R296, R364, R366, R425) -/

/-- What a reset leaves of a partition: a pass that is in the array sends its remaining rows (R296). -/
def resetPart (s : State) (qn pn : Nat) : State :=
  let p := s.part qn pn
  let q := s.quad qn
  let s := s.setQuad qn { q with replay := q.replay.filter (·.part != pn) }
  match p.reqs.filter fun r => r.isPass && r.started.isSome && !r.sent with
  | [] => s.setPart qn pn {}
  | rs => s.setPart qn pn { p with owner := none, reqs := rs, adds := [], clearing := true }

/-- A destroyed team: its fibres, gangs, watches and place go. -/
def destroyTeam (s : State) (t : Team) : State :=
  let mine (k : Nat) : Bool := k / 1024 == t.id
  let s := { s with fibres := s.fibres.filter fun e => !mine e.1, gangs := s.gangs.filter fun g => g.team != t.id,
                    gathers := s.gathers.filter fun g => !mine g.fibre,
                    issue := match s.issue.bind s.gang with | some g => if g.team = t.id then none else s.issue | none => s.issue }
  let s := dropWatches s fun w => match w with | .fibre k => mine k | _ => false
  let c := s.core t.core
  let s := s.setCore t.core { c with copyQ := c.copyQ.filter (·.team != t.id), sieveBusy := c.sieveBusy.filter (·.team != t.id) }
  let qn := quadOfCore t.core
  let q := s.quad qn
  let s := s.setQuad qn { q with walks := q.walks.filter (·.team != t.id) }
  let s := match t.part with
    | some pn => if (s.part qn pn).owner = some (t.launch, t.pos) then resetPart s qn pn else s
    | none => s
  freePlace { s with records := s.records.filter (·.team != t.id) } t

/-- Whether a request is a pass in the array: granted, with rows still to be sent, or a last row that the array has only just taken (R275, R278,
R296). -/
def inArray (s : State) (r : MReq) : Bool :=
  r.started.isSome && r.pass.any fun x => !r.sent || r.entered.getLast?.any fun e => decide (s.clock < e.2 + (passRate s r x).2)

/-- Whether a team's partition has a pass of its cluster in the array: the team's tiles are released only after it (R194, R296). -/
def passLeaving (s : State) (t : Team) : Bool :=
  match t.part with
  | some pn => (s.part (quadOfCore t.core) pn).reqs.any (inArray s)
  | none => false

/-- Whether a fibre of a context stands within a run, which no pre-emption cuts (R75). -/
def runsOn (s : State) (n : Nat) : Bool := (ctxTeams s n).any fun t => (s.teamFibres t.id).any fun f => f.st == .ganged && f.midRun

/-- Whether a reset must still wait: for a run to end (R75), for an operation at the sealing unit, a drain that a reservation holds back, or a pass in the
array (R296, R364). -/
def resetWaits (s : State) (n : Nat) : Bool :=
  runsOn s n || s.sealQ.any (·.ctx == n) || (ctxTeams s n).any fun t => drainHeld s t.core || passLeaving s t

/-- The open attempts of a context are discarded: their write sets are never applied (R364). -/
def dropAttempts (s : State) (n : Nat) : State :=
  (ctxTeams s n).foldl (fun s t => (s.teamFibres t.id).foldl (fun s f =>
    if f.txn.isSome && !f.midRun then s.setFibre f.key { f with txn := none } else s) s) s

/-- A reset begins: waiting requests leave the table and replay-buffer entries are freed at once (R296). -/
def dropRequests (s : State) (t : Team) : State :=
  match t.part with
  | none => s
  | some pn =>
    let qn := quadOfCore t.core
    let q := s.quad qn
    let p := q.part pn
    s.setQuad qn { q.setPart pn { p with reqs := p.reqs.filter (inArray s), adds := [] } with replay := q.replay.filter (·.part != pn) }

/-- The reset of a context whose teams are held: stores drain, the report is written, launches end, teams are destroyed (R364). -/
def resetNow (s : State) (n : Nat) : State :=
  let ts := ctxTeams s n
  let s := ts.foldl (fun s t => drainAll s t.core) s
  let s := writeArea s n .reset (some ts) (ladleImage s n)
  let s := endLaunches s n
  let s := ts.foldl destroyTeam s
  let c := s.ctx n
  s.setCtx n { c with st := .reset, drainAt := none, frozenFrom := none, ladle := {}, thawing := false, resetting := false }

def beginReset (s : State) (n : Nat) : State :=
  let s := dropAttempts ((ctxTeams s n).foldl dropRequests (finishMoves s n)) n
  let s := s.setCtx n { s.ctx n with thawing := false }
  if resetWaits s n then s.setCtx n { s.ctx n with resetting := true } else resetNow s n

/-- A command that the state table does not accept (R362). -/
def ignoreCmd (s : State) (n : Nat) : State := s.setCtx n { s.ctx n with ignored := ((s.ctx n).ignored + 1) % 256 }

/-- RESET (R362, R364). -/
def execResetCtx (ctx : Nat) (s : State) : Host.Outcome State Fault Refusal :=
  let c := s.ctx ctx
  if c.resetting then .next (beginReset s ctx)
  else
    match c.st with
    | .running | .draining | .frozen | .faulted => .next (beginReset s ctx)
    | _ => .next (ignoreCmd s ctx)

/-! ## PREEMPT and DRAIN_DEADLINE (R362, R363) -/

/-- PREEMPT: no cluster is admitted from this clock on; the deadline runs, of 2,000 microseconds where the command gives 0. -/
def execPreempt (ctx us : Nat) (s : State) : Host.Outcome State Fault Refusal :=
  let c := s.ctx ctx
  if c.st = .running ∨ c.st = .faulted then
    .next (s.setCtx ctx { c with st := .draining, drainAt := some (s.clock + (if us = 0 then 2000 else us) * Config.clocksPerUs) })
  else .next (ignoreCmd s ctx)

/-- DRAIN_DEADLINE: a draining context with no team left stops; one with teams left at its deadline is reset. -/
def execDrainDeadline (ctx : Nat) (s : State) : Host.Outcome State Fault Refusal :=
  let c := s.ctx ctx
  if c.st ≠ .draining ∨ c.resetting then .next s
  else if !resident s ctx then .next (stopCtx s ctx)
  else
    match c.drainAt with
    | some d => if d ≤ s.clock then .next (beginReset s ctx) else .next s
    | none => .next s

/-! ## FREEZE and THAW (R311, R367) -/

/-- The ladle takes the copy commands and index walks of a context out of the engines' queues, and its image is written. -/
def freezeCtx (s : State) (n : Nat) : State :=
  let s := finishMoves s n
  let c := s.ctx n
  let ld : Ladle := { copies := (ctxCopies s n).map fun e => (e.1, e.2.2), walks := (ctxWalks s n).map fun e => (e.1, e.2.2) }
  let img := ladleImage s n
  let out (team : Nat) : Bool := !ofCtx s n team
  let cores := s.cores.map fun e => (e.1, { e.2 with copyQ := e.2.copyQ.filter fun x => out x.team })
  let quads := s.quads.map fun e => (e.1, { e.2 with walks := e.2.walks.filter fun x => out x.team })
  let s := { s with cores := cores, quads := quads }
  let s := s.setCtx n { c with st := .frozen, frozenFrom := some c.st, frozenAt := s.clock, thawing := false, ladle := ld }
  writeArea s n .frozen none img

/-- FREEZE: accepted in every state but FROZEN; a reset that is being carried out goes on in the frozen context (R362, R364; log 101). -/
def execFreeze (ctx : Nat) (s : State) : Host.Outcome State Fault Refusal :=
  let c := s.ctx ctx
  if c.st = .frozen then .next (ignoreCmd s ctx) else .next (freezeCtx s ctx)

/-- Whether a queue of 16 places of each unit that a ladle's entries name has room for them (R297, R333). -/
def ladleFits {α : Type} (l : List (Nat × α)) (held : Nat → Nat) : Bool :=
  l.all fun e => decide (held e.1 + (l.filter (·.1 == e.1)).length ≤ 16)

/-- A command or walk that comes back takes its place behind the n of the queue that are in progress, and in the order of posting among the others
(R297, R311). -/
def comeBack {α : Type} (n : Nat) (ord : α → Nat) (x : α) (l : List α) : List α := l.take n ++ insertBy ord x (l.drop n)

/-- THAW: the ladle gives back what it holds, when the engines' queues have the places, and the halt is released; the drain deadline has stood still. -/
def execThaw (ctx : Nat) (s : State) : Host.Outcome State Fault Refusal :=
  let c := s.ctx ctx
  if c.st ≠ .frozen then .next (ignoreCmd s ctx)
  else if !ladleFits c.ladle.copies (fun n => (s.core n).copyQ.length) || !ladleFits c.ladle.walks (fun n => (s.quad n).walks.length) then
    .next (s.setCtx ctx { c with thawing := true })
  else
    let s := c.ladle.copies.foldl (fun s e =>
      let x := s.core e.1
      s.setCore e.1 { x with copyQ := comeBack 4 (·.id) e.2 x.copyQ }) s
    let s := c.ladle.walks.foldl (fun s e =>
      let q := s.quad e.1
      s.setQuad e.1 { q with walks := comeBack (q.walks.takeWhile (·.started)).length (·.id) e.2 q.walks }) s
    .next (s.setCtx ctx { c with st := c.frozenFrom.getD .idle, frozenFrom := none, ladle := {}, thawing := false,
                                 drainAt := c.drainAt.map fun d => d + (s.clock - c.frozenAt) })

/-! ## START and RESUME (R362, R371, R425) -/

/-- START: a stopped or reset context is idle, and its queues resume. -/
def execStart (ctx : Nat) (s : State) : Host.Outcome State Fault Refusal :=
  let c := s.ctx ctx
  if c.st = .stopped ∨ c.st = .reset then
    let s := s.setCtx ctx { c with st := .idle, ended := [] }
    .next ((queuesOf s ctx).foldl startQueue s)
  else .next (ignoreCmd s ctx)

/-- A fibre as an image gives it, with the checks of rti; none where they fail (R348, R369, R371). -/
def fromImage (t : Team) (f : Fibre) (bs : List Byte) : Option Fibre :=
  let d (i : Nat) : Nat := leWord ((bs.drop (8 * i)).take 8)
  let fb := 8 * fld (d 2) 16 5
  let fs := 8 * fld (d 2) 21 6
  if d 0 % 8 ≠ 0 ∨ fs = 0 ∨ 256 < fs ∨ t.w < fb + fs ∨ fld (d 2) 32 16 ≠ f.depth then none
  else
    let pc := BitVec.ofNat 64 (d 0)
    let tagByte (i : Nat) : Nat := (bs.getD (128 + 4 * t.w + i / 2) 0).toNat / (if i % 2 = 0 then 1 else 16)
    let regs := (List.range t.w).foldl (fun m i =>
      setD Reg.zero i ⟨BitVec.ofNat 32 (leWord ((bs.drop (128 + 4 * i)).take 4)), tagOf (tagByte i)⟩ m) []
    let stack := ((List.range f.stack.length).map fun i => BitVec.ofNat 64 (d (4 + i))).reverse
    some { f with pc := pc, runPc := pc, seed := BitVec.ofNat 64 (d 1), preds := BitVec.ofNat 16 (fld (d 2) 0 16) ||| 1, fb := fb, fs := fs,
                  status := BitVec.ofNat 32 (d 3), stack := stack, regs := regs, badRegs := [], skipBrk := some pc,
                  lastBrk := none }

/-- The fibre of a released team: a trapped or stopped one, and one whose PC its image moved, is loose at its PC; a sleeping one runs its transaction
again; the others go on where they stand. -/
def reloaded (s : State) (old new : Fibre) : Fibre :=
  let loose (f : Fibre) : Fibre := { f.newRun with st := .loose s.clock 0, trap := none }
  match old.st with
  | .trapped | .stopped => loose new
  | .sleeping o _ dl _ _ => loose { new with restart := ⟨o, dl⟩ :: new.restart }
  | _ => if new.pc = old.pc then new else loose new

/-- RESUME of one team: its fibres' images are reloaded and the team is released; none where an image fails the checks. -/
def resumeTeam (s : State) (c : Ctx) (t : Team) : Option State :=
  match look t.id c.blocks with
  | none => none
  | some off =>
    let fs := s.teamFibres t.id
    let base := off + 128 + 16 * t.haltRecs.length
    if c.saveSize < 12 ∨ 47 < c.saveSize ∨ 2 ^ c.saveSize < base + fs.length * imageSize t.w then none
    else
      let new := fs.zipIdx.map fun e =>
        (fromImage t e.1 (s.bytes (c.saveBase + base + e.2 * imageSize t.w) (imageSize t.w))).map fun f => (e.1, reloaded s e.1 f)
      if new.any (·.isNone) then none
      else
        let fs' := new.filterMap id
        let out := (fs'.filter fun e => (match e.2.st with | .loose _ _ => true | _ => false)).map (·.1.fidx)
        let s := ungang (fs'.foldl (fun s e => s.setFibre e.2.key e.2) s) t.id out
        some (s.setTeam t.id { t with halt := none, report := none, asyncTrap := none, pendEv := [] })

/-- RESUME (R362, R371): every reported team of a faulted context. -/
def execResume (ctx : Nat) (s : State) : Host.Outcome State Fault Refusal :=
  let c := s.ctx ctx
  if c.st ≠ .faulted then .next (ignoreCmd s ctx)
  else
    let ts := (ctxTeams s ctx).filter fun t => t.report.isSome
    let r := ts.foldl (fun (acc : State × Bool) t => match resumeTeam acc.1 c t with
      | some s => (s, acc.2)
      | none => (acc.1, false)) (s, true)
    .next (if r.2 then r.1.setCtx ctx { r.1.ctx ctx with st := .running } else r.1)

/-! ## CTXSAVE_WRITE (R303, R360, R361) -/

/-- CTXSAVE_WRITE: ignored while a team of the context is resident. With it the kernel gives the context its translation root, queues and frames
(log 6). -/
def execCtxsaveWrite (ctx : Nat) (val : DWord) (root : Nat) (queues : BitVec 32) (frames : List (Nat × Nat)) (s : State) :
    Host.Outcome State Fault Refusal :=
  let c := s.ctx ctx
  if 256 ≤ ctx ∨ resident s ctx then .next s
  else
    .next (s.setCtx ctx { c with saveBase := (val &&& 0x03FFFFFFFFFFF000#64).toNat, saveSize := val.toNat % 64, root := root,
                                 queues := queues, frames := frames })

/-! ## KERNEL_STOP (R374, R448) -/

/-- A context as a stop of the kernel leaves it: frozen, with no thaw to come. -/
def stopFrozen (s : State) (n : Nat) : State :=
  if (s.ctx n).st = .frozen then s.setCtx n { s.ctx n with thawing := false } else freezeCtx s n

/-- KERNEL_STOP: a fatal exception, or the heartbeat's end; every context is frozen, and the application cores reboot warm. While they do, nothing
further happens. -/
def execKernelStop (fatal : Bool) (s : State) : Host.Outcome State Fault Refusal :=
  let late := match s.hub.kTimer with | some d => decide (d ≤ s.clock) | none => false
  if !s.power || s.hub.boot != .booted || s.hub.reboot || !(fatal || late) then .next s
  else
    let s := (List.range 256).foldl stopFrozen s
    .next { s with hub := { s.hub with reboot := true, kTimer := none } }

end Sys2Proof.Machine
end

