-- ==== Sys2Proof/Machine/Control.lean ====
section
/-! DEFINITION. Branches, calls and returns, majors 0x40 to 0x42 (R66, R119 to R128). -/

namespace Sys2Proof.Machine

/-- The target of a Format B word (R70). -/
def target (f : Fibre) (off : BitVec 34) : DWord := f.pc + off.signExtend 64 * 8

/-- bra (R120). -/
def execBra (g : Guard) (off : BitVec 34) (s : State) : Host.Outcome State Fault Refusal :=
  issueWith (.bra g off) .taken (each fun e s => some (s, .go { f := e.f, next := some (target e.f off) })) s

/-- dbra (R121): the counter is written with its tag; a counter that does not reach 0 branches. -/
def execDbra (g : Guard) (off : BitVec 34) (ctr : Fin 256) (s : State) : Host.Outcome State Fault Refusal :=
  issueWith (.dbra g off ctr) .taken (each fun e s =>
    match readInt e.env e.f (.v ctr) with
    | .error t => some (s, .trap t)
    | .ok v => some (s, .go { f := e.f, w := { regs := [(ctr.val, ⟨v - 1, (e.f.reg ctr.val).tag⟩)] },
                              next := if v = 1 then none else some (target e.f off) })) s

/-- jmp (R122). -/
def execJmp (g : Guard) (a : Op64) (s : State) : Host.Outcome State Fault Refusal :=
  issueWith (.jmp g a) .addr (each fun e s =>
    match readOp64 e.env e.f a with
    | .error t => some (s, .trap t)
    | .ok v =>
      if v.toNat % 8 ≠ 0 then some (s, .trap (.at .align v 1)) else some (s, .go { f := e.f, next := some v })) s

/-- The fibre-local offset of the spilled entry of a depth index (R126). -/
def spillOff (k : Site) (d : Nat) : DWord := BitVec.ofNat 64 k.lau.locF - BitVec.ofNat 64 (8 * (d + 1))
/-- A return-stack entry (R125). -/
def stackEntry (ra : DWord) (fb fs : Nat) : DWord :=
  BitVec.ofNat 64 (fb / 8 * 2 ^ 59 + fs / 8 * 2 ^ 53 + ra.toNat / 8 % 2 ^ 53)
/-- A return address rebuilt from an entry (R125). -/
def entryPc (e : DWord) : DWord := (BitVec.ofNat 56 (e.toNat % 2 ^ 53 * 8)).signExtend 64

/-- The checks and effects of call and calli at a fibre, for a target and a shift in registers (R124). -/
def callBody (s : State) (e : Ex) (t : DWord) (sh : Nat) : Option (State × Act) :=
  match siteOf s e.f with
  | none => none
  | some k =>
    if t.toNat % 8 ≠ 0 then some (s, .trap (.at .align t 1))
    else
      match fetchWord s k.core k.ctx (t - 8) 6 with
      | .error x => some (s, .trap x)
      | .ok w =>
        match decodeWords [w] with
        | .ok (.frameWord imm) =>
          let f := e.f
          let fr := imm.toNat
          if k.team.w < f.fb + sh + fr || f.depth = 65535 then
            some (s, .trap { code := .frameOverflow, faddr := t, aux := fr })
          else
            let push (s : State) (f : Fibre) (st : List DWord) : State × Act :=
              (s, .go { f := { f with stack := stackEntry (f.pc + 8) f.fb f.fs :: st, depth := f.depth + 1, fb := f.fb + sh, fs := fr },
                        next := some t })
            if f.stack.length < 8 then some (push s f f.stack)
            else if lateTxn s f then memAct s (abortAt s f 3 : MemR Unit) fun s f _ => (s, .go { f := f })
            else
              let o := spillOff k (f.depth - 8)
              match place k .f o 8 8 3 with
              | .error x => some (s, .trap x)
              | .ok p =>
                memAct s (storeAt s k f p (leBytes (f.stack.getLastD 0).toNat 8)) fun s f _ => push s f f.stack.dropLast
        | _ => some (s, .trap (.illegalAt 0))

/-- call (R124). -/
def execCall (g : Guard) (off : BitVec 34) (sh : Fin 33) (s : State) : Host.Outcome State Fault Refusal :=
  issueWith (.call g off sh) .taken (each fun e s => callBody s e (target e.f off) (8 * sh.val)) s

/-- calli (R124). -/
def execCalli (g : Guard) (a : Op64) (sh : Fin 33) (s : State) : Host.Outcome State Fault Refusal :=
  issueWith (.calli g a sh) .addr (each fun e s =>
    match readOp64 e.env e.f a with
    | .error t => some (s, .trap t)
    | .ok v => callBody s e v (8 * sh.val)) s

/-- The effect of ret for the entry found (R127). -/
def retTo (k : Site) (s : State) (f : Fibre) (en : DWord) (rest : List DWord) : State × Act :=
  let fb8 := en.toNat / 2 ^ 59
  let fs8 := en.toNat / 2 ^ 53 % 64
  if fs8 = 0 || 32 < fs8 || k.team.w < 8 * fb8 + 8 * fs8 then (s, .trap (.illegalAt 0))
  else (s, .go { f := { f with stack := rest, depth := f.depth - 1, fb := 8 * fb8, fs := 8 * fs8 }, next := some (entryPc en) })

/-- ret (R126, R127): the top entry of the core's stack, or the spilled one. -/
def execRet (g : Guard) (s : State) : Host.Outcome State Fault Refusal :=
  issueWith (.ret g) .addr (each fun e s =>
    match siteOf s e.f with
    | none => none
    | some k =>
      if e.f.depth = 0 then some (s, .trap (.illegalAt 0))
      else
        match e.f.stack with
        | en :: rest => some (retTo k s e.f en rest)
        | [] =>
          if lateTxn s e.f then memAct s (abortAt s e.f 3 : MemR Unit) fun s f _ => (s, .go { f := f })
          else
          match place k .f (spillOff k (e.f.depth - 1)) 8 8 2 with
          | .error x => some (s, .trap x)
          | .ok p =>
            memAct s (loadAt s k e.f p 8 .normal) fun s f r => retTo k s f (BitVec.ofNat 64 (leWord r.1)) []) s

/-- nop (R128). -/
def execNop (g : Guard) (s : State) : Host.Outcome State Fault Refusal :=
  issueWith (.nop g) .none (each fun e s => some (s, .go { f := e.f })) s

/-- A frame word reached in sequence is a no-operation (R66). -/
def execFrameWord (imm : Word) (s : State) : Host.Outcome State Fault Refusal :=
  issueWith (.frameWord imm) .none (each fun e s => some (s, .go { f := e.f })) s

end Sys2Proof.Machine
end

