-- ==== Sys2Proof/Machine/Loader.lean ====
section
/-! DEFINITION. The loader of code objects, the Proeb translator and the translation cache (R25, R74, R81, R419, R429 to R437, R454). -/

namespace Sys2Proof.Machine

/-! ## Static paths of a code region (R25, R74, R81) -/

/-- The instruction at an offset of a code region, if a whole word of the region stands there. -/
def codeAt (code : List Byte) (off : Nat) : Option (Nat × Dec Instr) :=
  if off % 8 = 0 ∧ off + 8 ≤ code.length then
    let ws := wordsOf 21 (code.drop off)
    some (ws.headD 0, decodeWords ws)
  else none

/-- An offset of the region, displaced by words. -/
def shifted (off : Nat) (d : Int) : Option Nat := let t := (off : Int) + 8 * d; if t < 0 then none else some t.toNat

/-- Where control may go from an instruction, of what can be determined statically; with what it calls or spawns, or over it. -/
def staticNext (calls : Bool) (off : Nat) (i : Instr) : List Nat :=
  let next := off + 8 * words i
  let free : Bool := match guardOf i with | some g => g.pred == 0 && !g.neg | none => true
  let go (o : BitVec 34) : List Nat := (shifted off o.toInt).toList
  match i with
  | .bra _ o => go o ++ (if free then [] else [next])
  | .dbra _ o _ | .tbegin _ o _ | .otherwise _ o | .fork _ o _ => go o ++ [next]
  | .call _ o _ | .spawn _ o _ => (if calls then go o else []) ++ [next]
  | .jmp _ _ | .ret _ | .endF _ | .rti _ => if free then [] else [next]
  | .tree t =>
    let h := treeHdr t.header.toNat
    (treePaths h).flatMap fun p =>
      let c := h.leafCode p.2
      if c = 0 then [next] else if 1 ≤ c ∧ c ≤ min 4 h.slots then (shifted off (slotOff t c).toInt).toList else []
  | .unassignedMajor _ => []
  | _ => [next]

/-- The offsets reached from a list of offsets. -/
def reach (code : List Byte) (calls : Bool) : Nat → List Nat → List Nat → List Nat
  | 0, _, seen => seen
  | _ + 1, [], seen => seen
  | n + 1, a :: work, seen =>
    if seen.contains a then reach code calls n work seen
    else
      match codeAt code a with
      | none => reach code calls n work seen
      | some (_, .ok i) => reach code calls n (staticNext calls a i ++ work) (a :: seen)
      | some (_, .error _) => reach code calls n work (a :: seen)

/-- Fuel for a walk of the region: each instruction is entered once, and has at most ten successors. -/
def codeFuel (code : List Byte) : Nat := 11 * code.length + 16

/-- The frame size that a frame word gives (R66). -/
def frameSize (code : List Byte) (off : Nat) : Option Nat :=
  match codeAt code off with
  | some (_, .ok (.frameWord n)) => some n.toNat
  | _ => none

/-- The largest frame sum of a static call path from a function on that visits no function twice (R25, R123). -/
def frameSum (code : List Byte) : Nat → Nat → Nat → List Nat → Nat
  | 0, _, size, _ => size
  | n + 1, entry, size, path =>
    (reach code false (codeFuel code) [entry] []).foldl (fun best a =>
      match codeAt code a with
      | some (_, .ok (.call _ o sh)) =>
        match shifted a o.toInt with
        | some t =>
          if t = entry ∨ path.contains t ∨ t < 8 then best
          else
            match frameSize code (t - 8) with
            | some fs => max best (8 * sh.val + frameSum code n t fs (entry :: path))
            | none => best
        | none => best
      | _ => best) size

/-- What the code of a kernel reaches from its entry, with what it calls, forks and spawns. -/
def reached (code : List Byte) (entry : Nat) : List Nat := reach code true (codeFuel code) [entry] []

/-- Where the call paths of a kernel begin: its entry, and the targets of its spawns, whose fibres start anew with an empty return stack and the kernel's
own frame (R25, R165, R422). -/
def pathRoots (code : List Byte) (entry : Nat) : List Nat :=
  dedupe (entry :: (reached code entry).filterMap fun a => match codeAt code a with
    | some (_, .ok (.spawn _ o _)) => shifted a o.toInt
    | _ => none)

/-- The offsets of a kernel's code: what its entry reaches, or, where an indirect jump or call stands there, whose targets are not known statically, every
word of the region. -/
def kernelCode (code : List Byte) (entry : Nat) : List Nat :=
  let r := reached code entry
  if r.any fun a => match codeAt code a with
      | some (_, .ok (.jmp _ _)) | some (_, .ok (.calli _ _ _)) => true
      | _ => false
  then (List.range (code.length / 8)).map (8 * ·) else r

/-- Whether a kernel is a matrix kernel: its code holds an instruction of majors 0x72 to 0x74 (R272; log 96). -/
def matrixCode (code : List Byte) (entry : Nat) : Bool :=
  (kernelCode code entry).any fun a => match codeAt code a with
    | some (w, _) => decide (0x72 ≤ fld w 57 7 ∧ fld w 57 7 ≤ 0x74)
    | none => false

/-- The place of a word's C bit, by the format of its major; Format B has none (R62, R64, R67, R71). -/
def runBitPos (w : Nat) : Option Nat :=
  let mj := fld w 57 7
  if mj = 0x40 ∨ mj = 0x50 ∨ mj = 0x6B ∨ mj = 0x7E then none
  else if mj = 0x03 ∨ mj = 0x04 ∨ mj = 0x42 then some 3
  else if 0x60 ≤ mj ∧ mj ≤ 0x69 then some 2
  else some 4

/-- Whether a word is refused for its C bit alone (R74). -/
def runBitBreach (w : Nat) (rest : List Nat) : Bool :=
  match runBitPos w with
  | some b => w / 2 ^ b % 2 == 1 && (match decodeWords ((w - 2 ^ b) :: rest) with | .ok _ => true | .error _ => false)
  | none => false

/-- Whether the run that begins at an offset breaks R72 or R74: n more instructions may stand in it; the registers and predicates read so far. A fifth
instruction, which R72 forbids, is refused with them: DEDUCED, log 88. -/
def runBad (code : List Byte) : Nat → Nat → List Nat → List Nat → List Nat → Bool → Bool
  | n, off, vs, ss, ps, first =>
    match n, codeAt code off with
    | 0, some _ => true
    | n + 1, some (_, .ok i) =>
      let u := uses i
      (!first && (isTree i || u.writeV.any vs.contains || u.writeS.any ss.contains || u.wp.any fun p => p != 0 && ps.contains p)) ||
      (runBit i && runBad code n (off + 8 * words i) (vs ++ u.readV) (ss ++ u.readS)
        (ps ++ u.rp ++ (match guardOf i with | some g => [g.pred.val] | none => [])) false)
    | _ + 1, some (w, .error _) => runBitBreach w (wordsOf 20 (code.drop (off + 8)))
    | _, none => false

/-- Whether an instruction at a reached offset breaks R74 or R81. -/
def checkBad (code : List Byte) (off : Nat) : Bool :=
  runBad code 4 off [] [] [] true ||
  (match codeAt code off with
   | some (_, .ok (.tree t)) => (treePaths (treeHdr t.header.toNat)).any (pathIllegal t (treeHdr t.header.toNat))
   | _ => false)

/-! ## Code objects (R429 to R432) -/

/-- The fields of a code-object header. -/
structure ObjHdr where
  magic : Nat
  svnWord : Nat
  len   : Nat
  feats : List Nat
  kernels : Nat
  descs : Nat
  code  : Nat × Nat
  data  : Nat × Nat
  deriving DecidableEq, Repr

/-- Set bits of a 512-bit mask. -/
def maskBits (bs : List Byte) : List Nat := (List.range 512).filter fun i => (bs.getD (i / 8) 0).getLsbD (i % 8)

def objHdr (bs : List Byte) : ObjHdr :=
  let at_ (o n : Nat) : Nat := leWord ((bs.drop o).take n)
  { magic := at_ 0 4, svnWord := at_ 4 4, len := at_ 8 8, feats := maskBits ((bs.drop 0x10).take 64), kernels := at_ 0x50 8, descs := at_ 0x58 8,
    code := (at_ 0x60 8, at_ 0x68 8), data := (at_ 0x70 8, at_ 0x78 8) }

def ObjHdr.svn (h : ObjHdr) : Nat := h.svnWord % 128

/-- The device's feature mask has bits 0 to 8 (R430). -/
def deviceFeature (i : Nat) : Bool := decide (i < 9)
/-- HUB_FEATURESi. -/
def featureWord (i : Nat) : DWord := if i = 0 then 0x1FF else 0

/-- A kernel descriptor of an object: entry, .regs, .maxframe (R419). -/
def descOf (bs : List Byte) (h : ObjHdr) (k : Nat) : List Byte := (bs.drop (h.descs + 32 * k)).take 32
def descEntry (d : List Byte) : Nat := leWord (d.take 8)
def descWord1 (d : List Byte) : Nat := leWord ((d.drop 8).take 8)

/-- The shims for an object's features that the device lacks; none where the library has none for one of them (R431). -/
def shimsFor (lib : List (DWord × DWord)) (feats : List Nat) : Option (List (DWord × DWord)) :=
  let missing := feats.filter fun i => !deviceFeature i
  let found (i : Nat) : List (DWord × DWord) := lib.filter fun e => fld e.1.toNat 32 9 == i
  if missing.all fun i => found i != [] then some (missing.flatMap found) else none

/-- The loader's verdict on an object (R25, R429, R431, R432; the order is the model's, log 60; DEDUCED: what fails R25 has the name R25 gives, log 113). -/
def objVerdict (s : State) (bs sig : List Byte) (h : ObjHdr) : Option LoadErr :=
  let code := (bs.drop h.code.1).take h.code.2
  let ds := (List.range h.kernels).map (descOf bs h)
  let entries := ds.map fun d => descEntry d - h.code.1
  if !Config.signatureOk Config.objectKeyDigest sig (shake256 bs) then some .badSignature
  else if h.magic ≠ 0x4F435645 ∨ 64 < h.svn ∨ 256 ≤ h.svnWord then some .check
  else if h.svn < s.hub.svnfuse then some .svnRevoked
  else if (shimsFor s.hub.shims h.feats).isNone then some .missingFeature
  else if ds.any fun d => (pathRoots code (descEntry d - h.code.1)).any fun a =>
      fld (descWord1 d) 9 9 < frameSum code code.length a (fld (descWord1 d) 0 9) [] then some .frameDecl
  else if (reach code true (codeFuel code) entries []).any (checkBad code) then some .check
  else none

/-- Bytes stored by the kernel at a virtual address of a context: a line whose address does not translate is left out. -/
def vaPut (s : State) (ctx va : Nat) (bs : List Byte) : State :=
  if bs = [] then s
  else (lineParts va bs).foldl (fun s p => match hubVa s ctx (BitVec.ofNat 64 p.1) with
    | some (pa, _) => hubPut s pa p.2
    | none => s) s

/-- The feature table with a shim's entry behind the others, unless it is there already; at most 64 (R431). -/
def addShim (s : State) (n : Nat) (e : DWord × DWord) : State :=
  let c := s.ctx n
  let old := (List.range c.featCount).any fun i => s.bytes (c.featBase + 16 * i) 16 == leBytes e.1.toNat 8 ++ leBytes e.2.toNat 8
  if old || decide (64 ≤ c.featCount) then s
  else (hubPut s (c.featBase + 16 * c.featCount) (leBytes e.1.toNat 8 ++ leBytes e.2.toNat 8)).setCtx n { c with featCount := c.featCount + 1 }

/-- A descriptor as the loader writes it: the entry's address, the mark of a matrix kernel, and the default boundaries (R272, R419). -/
def descOut (text : List Byte) (h : ObjHdr) (code : Nat) (d : List Byte) : List Byte :=
  let w1 := (BitVec.ofNat 64 (descWord1 d) &&& ~~~(1#64 <<< 33)) ||| (if matrixCode text (descEntry d - h.code.1) then 1#64 <<< 33 else 0)
  leBytes (code + (descEntry d - h.code.1)) 8 ++ leBytes w1.toNat 8 ++ (d.drop 16).take 8 ++ leBytes (0x080 + 2 ^ 16 * 0x0C0 + 2 ^ 32 * 0x0F0) 8

/-- LOAD_CODE_OBJECT: the object that lies at a physical address is checked and its regions are placed at addresses of a context that are multiples
of 4,096 (R429, R454). -/
def execLoadCodeObject (ctx src code data desc : Nat) (s : State) : Host.Outcome State Fault Refusal :=
  let len := (objHdr (s.bytes src 256)).len
  let bs := s.bytes src len
  let h := objHdr bs
  match objVerdict s bs (s.bytes (src + len) 114) h with
  | some e => .next { s with hub := { s.hub with loadErr := some e } }
  | none =>
    if code % 4096 ≠ 0 ∨ data % 4096 ≠ 0 then .next s
    else
      let text := (bs.drop h.code.1).take h.code.2
      let s := vaPut s ctx code text
      let s := vaPut s ctx data ((bs.drop h.data.1).take h.data.2)
      let s := (List.range h.kernels).foldl (fun s k => vaPut s ctx (desc + 32 * k) (descOut text h code (descOf bs h k))) s
      let s := ((shimsFor s.hub.shims h.feats).getD []).foldl (fun s e => addShim s ctx e) s
      let o : CodeObj := { ctx := ctx, base := code, len := len, svn := h.svn, feats := h.feats.filter fun i => !deviceFeature i }
      .next { s with hub := { s.hub with objs := s.hub.objs ++ [o], loadErr := none } }

/-! ## Proeb modules (R433 to R436) -/

/-- A function record: result, parameters, locals, body. -/
structure PFun where
  res    : Nat
  params : List Nat
  locals : List Nat
  body   : List Byte
  deriving DecidableEq, Repr

/-- The function records from an offset on, and the bytes left behind the last. -/
def pFuns : Nat → List Byte → Option (List PFun × List Byte)
  | 0, bs => some ([], bs)
  | n + 1, bs =>
    if bs.length < 8 then none
    else
      let len := leWord (bs.take 4)
      let np := (bs.getD 4 0).toNat
      let nl := leWord ((bs.drop 6).take 2)
      let rest := bs.drop 8
      if rest.length < np + nl + len then none
      else
        let f : PFun := { res := (bs.getD 5 0).toNat, params := (rest.take np).map (·.toNat), locals := ((rest.drop np).take nl).map (·.toNat),
                          body := (rest.drop (np + nl)).take len }
        match pFuns n (rest.drop (np + nl + len)) with
        | some (fs, tail) => some (f :: fs, tail)
        | none => none

/-- An export entry. -/
structure PExp where
  fn    : Nat
  shape : Nat × Nat × Nat
  rr    : Bool
  scratch : Nat
  ok    : Bool
  deriving DecidableEq, Repr

def pExp (bs : List Byte) : PExp :=
  let b (i : Nat) : Nat := (bs.getD i 0).toNat
  let scr := leWord ((bs.drop 8).take 4)
  { fn := leWord (bs.take 2), shape := (b 2 + 1, b 3 + 1, b 4 + 1), rr := b 5 == 1, scratch := scr,
    ok := decide ((b 2 + 1) * (b 3 + 1) * (b 4 + 1) ≤ 4) && decide (b 5 ≤ 1) && b 6 == 0 && b 7 == 0 && scr % 128 == 0 &&
      leWord ((bs.drop 12).take 4) == 0 }

/-- Registers of a value of a type, from an index on: an i64 takes an even pair. -/
def pPlace (ts : List Nat) : Nat := ts.foldl (fun n t => if t = 3 then (n + 1) / 2 * 2 + 2 else n + 1) 0

/-- An open block: the result that its end leaves, the height of the stack at its start, and the values a br to it takes. -/
structure PBlk where
  res  : Nat
  base : Nat
  arg  : Nat
  isIf : Bool
  deriving DecidableEq, Repr

/-- Pops operands of given types, the last on top. -/
def pPop (st : List Nat) (base : Nat) (ts : List Nat) : Option (List Nat) :=
  let n := ts.length
  if st.length < base + n then none else if st.take n = ts.reverse then some (st.drop n) else none

def pPush (t : Nat) (st : List Nat) : List Nat := if t = 0 then st else t :: st

/-- Operands and result of an opcode without immediates (R433). -/
def pSig (op : Nat) : Option (List Nat × Nat) :=
  if 0x20 ≤ op ∧ op ≤ 0x2F then some ([1, 1], 1)
  else if op = 0x34 then some ([2], 2)
  else if 0x30 ≤ op ∧ op ≤ 0x36 then some ([2, 2], 2)
  else if op = 0x37 ∨ op = 0x38 then some ([2, 2], 1)
  else
    match op with
    | 0x40 => some ([3], 1) | 0x41 => some ([3], 2) | 0x42 => some ([3, 1], 0) | 0x43 => some ([3, 2], 0)
    | 0x44 => some ([3, 3], 3) | 0x45 => some ([1], 3) | 0x46 => some ([], 3) | 0x48 => some ([1], 2) | 0x49 => some ([2], 1)
    | _ => none

/-- Whether a stack ends a block: exactly its result above its base (R434). -/
def pEnds (st : List Nat) (base res : Nat) : Bool := st.take (st.length - base) == (if res = 0 then [] else [res])

/-- The check of a body in one pass: the registers it needs at most, and the functions it calls; none where R434 or R435 refuses it. `dead` holds
behind a br or return. -/
def pCheck (fs : List PFun) (f : PFun) : Nat → List Byte → List Nat → List PBlk → Bool → Nat → List Nat → Option (Nat × List Nat)
  | 0, _, _, _, _, _, _ => none
  | _ + 1, [], _, _, _, _, _ => none
  | n + 1, op :: bs, st, blks, dead, hi, calls =>
    let loc := f.params ++ f.locals
    let hi := max hi (pPlace (loc ++ st.reverse))
    let base := match blks with | b :: _ => b.base | [] => 0
    let imm (k : Nat) : Nat := leWord (bs.take k)
    if dead && op != 0x04 && op != 0x05 then none
    else
      match op.toNat with
      | 0x05 =>
        match blks with
        | [] => if pEnds st 0 f.res && bs == [] then some (hi, calls) else none
        | b :: rest =>
          if pEnds st b.base b.res && !(b.isIf && b.res != 0) then
            pCheck fs f n bs (pPush b.res (st.drop (st.length - b.base))) rest false hi calls
          else none
      | 0x04 =>
        match blks with
        | b :: rest =>
          if b.isIf && pEnds st b.base b.res then
            pCheck fs f n bs (st.drop (st.length - b.base)) ({ b with isIf := false } :: rest) false hi calls
          else none
        | [] => none
      | 0x01 | 0x02 | 0x03 =>
        let t := imm 1
        let st' := if op = 0x03 then pPop st base [1] else some st
        match st' with
        | some st =>
          if t ≤ 3 && bs != [] then
            pCheck fs f n (bs.drop 1) st ({ res := t, base := st.length, arg := if op = 0x02 then 0 else t, isIf := op == 0x03 } :: blks) false hi calls
          else none
        | none => none
      | 0x06 | 0x07 =>
        let st' := if op = 0x07 then pPop st base [1] else some st
        match st', blks[imm 1]? with
        | some st, some b =>
          let args := if b.arg = 0 then [] else [b.arg]
          if bs != [] && (pPop st base args).isSome then pCheck fs f n (bs.drop 1) st blks (op == 0x06) hi calls else none
        | _, _ => none
      | 0x08 => if (pPop st base (if f.res = 0 then [] else [f.res])).isSome then pCheck fs f n bs st blks true hi calls else none
      | 0x09 =>
        match fs[imm 2]? with
        | some g =>
          match pPop st base g.params with
          | some st => if 2 ≤ bs.length then pCheck fs f n (bs.drop 2) (pPush g.res st) blks false hi (calls ++ [imm 2]) else none
          | none => none
        | none => none
      | 0x10 =>
        match loc[imm 1]? with
        | some t => if bs != [] then pCheck fs f n (bs.drop 1) (t :: st) blks false (max hi (pPlace (loc ++ (t :: st).reverse))) calls else none
        | none => none
      | 0x11 =>
        match loc[imm 1]? with
        | some t =>
          match pPop st base [t] with
          | some st => if bs != [] then pCheck fs f n (bs.drop 1) st blks false hi calls else none
          | none => none
        | none => none
      | 0x12 => if 4 ≤ bs.length then pCheck fs f n (bs.drop 4) (1 :: st) blks false hi calls else none
      | 0x13 => if 4 ≤ bs.length then pCheck fs f n (bs.drop 4) (2 :: st) blks false hi calls else none
      | 0x14 => if 8 ≤ bs.length then pCheck fs f n (bs.drop 8) (3 :: st) blks false hi calls else none
      | o =>
        match pSig o with
        | some (ts, r) =>
          match pPop st base ts with
          | some st => pCheck fs f n bs (pPush r st) blks false hi calls
          | none => none
        | none => none

/-- A function's frame and calls: locals and operand stack, rounded up to a multiple of 8, at most 256 registers. -/
def pFrame (fs : List PFun) (f : PFun) : Option (Nat × List Nat) :=
  if 32 < f.params.length || 256 < f.params.length + f.locals.length || (f.params ++ f.locals).any (fun t => t == 0 || 3 < t) || 3 < f.res then none
  else
    match pCheck fs f (f.body.length + 1) f.body [] [] false 0 [] with
    | some (hi, calls) => let n := max 8 ((hi + 7) / 8 * 8); if 256 < n then none else some (n, calls)
    | none => none

/-- The largest frame sum over the static call graph from a function; none where the graph holds a cycle (R436). -/
def pSum (fr : List (Nat × List Nat)) : Nat → Nat → Option Nat
  | 0, _ => none
  | n + 1, i =>
    match fr[i]? with
    | none => none
    | some (size, calls) =>
      calls.foldl (fun acc c => match acc, pSum fr n c with
        | some a, some b => some (max a (size + b))
        | _, _ => none) (some size)

/-- A module that R434 to R436 accept: its SVN, its exports, and each function's frame with the largest sum from it. -/
def pModule (bs : List Byte) : Option (Nat × List PExp × List (Nat × Nat)) :=
  let at_ (o n : Nat) : Nat := leWord ((bs.drop o).take n)
  let nf := at_ 8 4
  let ne := at_ 12 4
  if bs.length < 16 ∨ at_ 0 4 ≠ 0x42455250 ∨ 64 < at_ 4 4 ∨ nf < 1 ∨ 65535 < nf ∨ ne < 1 ∨ 256 < ne ∨ bs.length < 16 + 16 * ne then none
  else
    match pFuns nf (bs.drop (16 + 16 * ne)) with
    | none => none
    | some (fs, _) =>
      let exps := (List.range ne).map fun i => pExp ((bs.drop (16 + 16 * i)).take 16)
      let fr := fs.map (pFrame fs)
      let sums := (List.range nf).map (pSum (fr.filterMap id) (nf + 1))
      if exps.all (fun e => e.ok && (match fs[e.fn]? with | some f => f.res == 0 | none => false)) && fr.all (·.isSome) && sums.all (·.isSome) then
        some (at_ 4 4, exps, (fr.filterMap id).zip (sums.filterMap id) |>.map fun x => (x.1.1, x.2))
      else none

/-- The descriptor of an exported kernel (R419, R436); a window has at least 16 registers (R11; log 52). -/
def pDesc (entry : Nat) (fr : Nat × Nat) (e : PExp) : List Byte :=
  leBytes entry 8 ++
  leBytes (fr.1 + 2 ^ 9 * max 16 (min 256 fr.2) + 2 ^ 25 * (e.shape.1 - 1) + 2 ^ 27 * (e.shape.2.1 - 1) + 2 ^ 29 * (e.shape.2.2 - 1) + 2 ^ 31 * bit e.rr) 8 ++
  leBytes e.scratch 8 ++ leBytes (0x080 + 2 ^ 16 * 0x0C0 + 2 ^ 32 * 0x0F0) 8

/-- The seed of the translation key: SHAKE256 of the identity seed and a label, cut to 57 bytes (R444). -/
def xlatSeed : BitVec 456 :=
  (shake256 (leBytes Config.seed.toNat 57 ++ [0x45, 0x56, 0x53, 0x52, 0x2D, 0x58, 0x4C, 0x41, 0x54])).setWidth 456

/-- The device's 512-bit feature mask (R430). -/
def deviceMask : BitVec 512 := 0x1FF

/-- What the signature of a cache entry is over: its key and its SVN (R437). -/
def xlatBytes (digest feats : BitVec 512) (svn : Nat) : List Byte := leBytes digest.toNat 64 ++ leBytes feats.toNat 64 ++ leBytes svn 8

/-- Whether an entry bears the signature of the device's translation key (R437). -/
def XlatEnt.signed (e : XlatEnt) (s : State) : Bool :=
  match s.hub.identity with
  | some k => e.sig == Config.edSign k.2 (xlatBytes e.digest e.feats e.svn)
  | none => false

/-- PROEB_TRANSLATE: the module at a physical address is checked and translated; the code object carries its SVN and feature bit 0, and the cache
holds it (R432 to R437). -/
def execProebTranslate (ctx src len code desc : Nat) (s : State) : Host.Outcome State Fault Refusal :=
  let bs := s.bytes src len
  let refuse (e : LoadErr) : Host.Outcome State Fault Refusal := .next { s with hub := { s.hub with loadErr := some e } }
  match pModule bs with
  | none => refuse .proeb
  | some (svn, exps, fr) =>
    if svn < s.hub.svnfuse then refuse .svnRevoked
    else if exps.any fun e => 256 < (fr.getD e.fn (0, 0)).2 then refuse .frameDecl
    else if code % 4096 ≠ 0 then .next s
    else
      let out := Config.proebCode bs
      let s := vaPut s ctx code out
      let s := exps.zipIdx.foldl (fun s e =>
        vaPut s ctx (desc + 32 * e.2) (pDesc (code + 8 * Config.proebEntry bs e.1.fn) (fr.getD e.1.fn (0, 0)) e.1)) s
      let o : CodeObj := { ctx := ctx, base := code, len := out.length, svn := svn, feats := [] }
      let key := shake256 bs
      let sig := match s.hub.identity with | some k => Config.edSign k.2 (xlatBytes key deviceMask svn) | none => 0
      let x : XlatEnt := { digest := key, feats := deviceMask, svn := svn, sig := sig, base := code }
      .next { s with hub := { s.hub with objs := s.hub.objs ++ [o], xlat := s.hub.xlat.filter (fun e => e.digest != key) ++ [x],
                                         loadErr := none } }

/-- XLAT_CACHE_LOOKUP: the answer is the translated object's base, or a miss; an entry whose SVN is below the counter is purged, and the load fails
(R437). -/
def execXlatCacheLookup (key : BitVec 512) (s : State) : Host.Outcome State Fault Refusal :=
  match s.hub.xlat.find? fun e => e.digest == key && e.feats == deviceMask with
  | none => .next { s with hub := { s.hub with xlatHit := none } }
  | some e =>
    if e.svn < s.hub.svnfuse then
      .next { s with hub := { s.hub with xlat := s.hub.xlat.filter (fun e => e.digest != key), xlatHit := none, loadErr := some .svnRevoked } }
    else .next { s with hub := { s.hub with xlatHit := if e.signed s then some e.base else none } }

end Sys2Proof.Machine
end

