-- ==== Sys2Proof/Machine/MemEvents.lean ====
section
/-! DEFINITION. Steps of homes, combining buffers, caches, links, translation and the package switch (R195 to R210, R217 to R225, R244, R398 to
R404, R409). -/

namespace Sys2Proof.Machine

/-! ## BAR_ARRIVAL (R244, R264) -/

/-- Whether a result that a home owes to a window entry is still awaited there. -/
def Fibre.awaits (f : Fibre) (clk entry : Nat) : Bool := decide (clk + 2 ^ 39 ≤ getD 0 entry f.avail)

/-- A value that was owed to a window entry reaches it, at a clock. -/
def Fibre.receive (f : Fibre) (entry : Nat) (r : Reg) (at_ : Nat) : Fibre :=
  { f with regs := setD Reg.zero entry r f.regs, badRegs := f.badRegs.filter (· != entry), avail := put entry at_ f.avail }

/-- The phase that an arrival received reaches the fibre's window entry, unless it is no longer awaited there. -/
def barResult (s : State) (m : BarMsg) (a : Arrival) (ph : Nat) : State :=
  match a.dst, s.fibre a.before.key with
  | .v n, some f =>
    let entry := a.before.fb + n.val
    if f.awaits s.clock entry then
      s.setFibre f.key (f.receive entry ⟨BitVec.ofNat 32 ph, .n32⟩ (max s.clock (m.clk + latOf s m.pa)))
    else s
  | _, _ => s

/-- The die from which a barrier message comes. -/
def BarMsg.die (m : BarMsg) : Nat := if m.scope ≤ 1 then m.unit / 128 else if m.scope = 2 then m.unit / 32 else m.unit

/-- A message applied at its cell's home, arrival by arrival in ascending global fibre index, with each arrival's phase; what the arriving cores and their
dies hold of the cell goes (R211, R244, R264). -/
def barApply (s : State) (m : BarMsg) : State × List (Arrival × BarMsg × Nat) :=
  let line := lineOf m.pa
  let s := recallLine (reachHome s m.die line) line
  let (s, l) := m.arrivals.foldl (fun (acc : State × List (Arrival × BarMsg × Nat)) a =>
    let r := barArrive acc.1 m.pa
    (freshen r.1 a.core line, acc.2 ++ [(a, m, r.2)])) (s, [])
  (reachBack s m.die line, l)

/-- The arrivals that write one s-register of one team, with the phases they received. -/
abbrev SGroup := (Nat × Nat) × List (Arrival × BarMsg × Nat)

def sGroups (l : List (Arrival × BarMsg × Nat)) : List SGroup :=
  let keyOf (a : Arrival) : Option (Nat × Nat) := match a.dst with | .s n => some (a.before.team, n.val) | _ => none
  (dedupe (l.filterMap fun e => keyOf e.1)).map fun k => (k, l.filter fun e => keyOf e.1 == some k)

/-- Whether the writes of a group keep R160, among themselves and with the writes of the clock's issues. -/
def SGroup.equal (g : SGroup) (s : State) : Bool :=
  let phs := dedupe (g.2.map (·.2.2))
  decide (phs.length ≤ 1) && (match s.team g.1.1 with
    | some t => t.swClk != s.clock || t.swlog.all fun w => w.sreg != g.1.2 || (!w.clash && phs == [w.val.toNat])
    | none => true)

/-- Traps of arrivals at the home: the fibres are as before their bar, in an event for each issue, and in no event that followed the bar (R26, R344). -/
def barTraps (s : State) (l : List (Arrival × Trap)) : State :=
  (dedupe (l.map fun e => (e.1.before.team, e.1.before.fidx % 4))).foldl (fun s k =>
    let mine := l.filter fun e => (e.1.before.team, e.1.before.fidx % 4) == k
    let ids := mine.map (·.1.before.fidx)
    let s := match s.team k.1 with
      | some t => s.setTeam k.1 { t with pendEv := (t.pendEv.map fun e =>
          if e.num.isNone && e.clk == s.clock then { e with fibres := e.fibres.filter fun i => !ids.contains i } else e).filter (·.fibres != []) }
      | none => s
    mine.foldl (fun s e => trapLater s k.1 (k.2, e.1.issued)
      [(e.1.before, trapRec e.1.before e.2 e.1.before.pc (restartPc e.1.before) false none)]) s) s

/-- The messages of a clock applied one after the other; where the phases that an s-register receives break R160, those arrivals did not take place (R26),
and the others are applied without them. -/
def barRun (s : State) : Nat → List BarMsg → List SGroup → State × List (Arrival × BarMsg × Nat) × List SGroup
  | 0, _, bad => (s, [], bad)
  | n + 1, ms, bad =>
    let (s', l) := ms.foldl (fun (acc : State × List (Arrival × BarMsg × Nat)) m => let r := barApply acc.1 m; (r.1, acc.2 ++ r.2)) (s, [])
    match (sGroups l).filter fun g => !g.equal s with
    | [] => (s', l, bad)
    | gs =>
      let out (a : Arrival) : Bool := gs.any fun g => g.2.any fun e => e.1 == a
      barRun s n ((ms.map fun m => { m with arrivals := m.arrivals.filter fun a => !out a }).filter (·.arrivals != [])) (bad ++ gs)

/-- A message reaches its cell's home, and every claimed entry of the line drains (R199, R402). -/
def barReach (s : State) (m : BarMsg) : State := recallLine (reachHome s m.die (lineOf m.pa)) (lineOf m.pa)

/-- The write of an s-register by a group of arrivals, with the issues that they belong to. -/
def SGroup.mine (g : SGroup) : (Nat × Nat) × List Fibre :=
  (match g.2 with | e :: _ => (e.1.before.fidx % 4, e.1.issued) | [] => (0, 0), g.2.map (·.1.before))

/-- BAR_ARRIVAL (R244, R264): the messages of the clock are applied at their cells' homes, where a granule 0 that is poisoned when the claimed entries have
drained raises POISON; or some arrivals of another module's fibres, of which only the cell is seen here. -/
def execBarArrival (ext : Option (Nat × Nat)) (s : State) : Host.Outcome State Fault Refusal :=
  match ext with
  | some (pa, n) =>
    if !isMemory pa || pa % 128 != 0 || (s.line (lineOf pa)).poison.getLsbD 0 then .next s
    else if s.reserved (lineOf pa) then .next s.postpone
    else .next ((List.range n).foldl (fun s _ => (barArrive s pa).1) (recallLine s (lineOf pa)))
  | none =>
    let due := s.bars.filter fun m => !s.reserved (lineOf m.pa)
    let s := due.foldl barReach { s with bars := s.bars.filter fun m => s.reserved (lineOf m.pa) }
    let bad (m : BarMsg) : Bool := (s.line (lineOf m.pa)).poison.getLsbD 0
    let ms := due.filter fun m => !bad m
    let (s, l, clash) := barRun s (ms.length * 32 + 1) ms []
    let s := l.foldl (fun s e => barResult s e.2.1 e.1 e.2.2) s
    let s := (sGroups l).foldl (fun s g =>
      (sregPut s g.1.1 ((g.2.map fun e => latOf s e.2.1.pa).foldl max 0) g.mine g.1.2 (g.2.map fun e => BitVec.ofNat 64 e.2.2)).1) s
    let s := clash.foldl (fun s g => (sregPut s g.1.1 0 ((0, 0), []) g.1.2 [0, 1]).1) s
    let poisoned := (due.filter bad).flatMap fun m => m.arrivals.map fun a => (a, poisonAt a.va m.pa 0)
    .next (barTraps s (poisoned ++ clash.flatMap fun g => g.2.map fun e => (e.1, Trap.nonuniformAt g.1.2)))

/-! ## Combining buffers (R197 to R199, R219) -/

def setEntry (s : State) (core : Nat) (e : Wcb) : State :=
  let c := s.core core
  s.setCore core { c with wcb := c.wcb.map fun x => if x.line == e.line then e else x }

/-- CLAIM (R197): the claims that a core has sent to a line's slice reach it, up to this line's, in the order they were sent (R212). -/
def execClaim (core line : Nat) (s : State) : Host.Outcome State Fault Refusal :=
  match (s.core core).entry line with
  | none => .next s
  | some e => if e.claimed then .next s else .next (sendAhead s core line)

/-- WCB_DRAIN_TIMEOUT (R198): 64 clocks after the last merge. -/
def execWcbDrainTimeout (core line : Nat) (s : State) : Host.Outcome State Fault Refusal :=
  match (s.core core).entry line with
  | none => .next s
  | some e => if e.merged + 64 ≤ s.clock ∧ !s.blocked line then .next (drainLine s core line) else .next s

/-- WCB_DRAIN (R198): an entry that its home recalls. -/
def execWcbDrain (core line : Nat) (s : State) : Host.Outcome State Fault Refusal :=
  match (s.core core).entry line with
  | none => .next s
  | some e => if e.recalled ∧ !s.blocked line then .next (drainLine s core line) else .next s

/-! ## Writes and reservations of other agents at a home (R199, R203, R232) -/

/-- Where a host's write at an offset of BAR2 goes: into the far-memory range that HUB_HOSTWIN names, if it is enabled and memory (R438, R452). -/
def hostWindow (s : State) (off : Nat) : Option Nat :=
  let h := s.hub.hostwin
  if s.hub.hostEn && farLine (lineOf h) && isMemory h && decide (off < 2 ^ 30) then some (h + off) else none

/-- HOME_WRITE (R203): one write of another agent to bytes of one line; a host's address is an offset of BAR2. A posted write to a line that is held back
completes later, and a host's later ones stay behind it (R438). -/
def execHomeWrite (host : Bool) (at_ : Nat) (bytes : List Byte) (s : State) : Host.Outcome State Fault Refusal :=
  match (if host then hostWindow s at_ else some at_) with
  | none => .next s
  | some pa =>
    let bs := bytes.take (128 - pa % 128)
    let behind := host && s.postponed.any fun i => match i with | .homeWrite h _ _ => h | _ => false
    if bs = [] ∨ !isMemory pa then .next s
    else if s.reserved (lineOf pa) || behind then .next s.postpone
    else .next (hubPut s pa bs)

/-- FAR_ATOMIC (R199): an atomic of another module's fibre. It recalls the line's claimed entries and waits for their drains, then applies. -/
def execFarAtomic (op : AOp) (pa len : Nat) (x : DWord) (s : State) : Host.Outcome State Fault Refusal :=
  let line := lineOf pa
  if (len ≠ 4 ∧ len ≠ 8) ∨ pa % len ≠ 0 ∨ !isMemory pa then .next s
  else if s.reserved line then .next s.postpone
  else
    let cs := (getD [] line (s.die (dieOfLine line)).claims).filter fun c => ((s.core c).entry line).isSome
    if cs = [] then
      if (badGranule (s.line line).poison (pa % 128) len).isSome then .next s
      else
        let s := hubReach s line
        let old := leWord (s.bytes pa len)
        let new := atomOp op len old (x.toNat % 2 ^ (8 * len))
        .next (hubMerge (if new = old then s else homePut s pa (leBytes new len)) line)
    else
      let s := cs.foldl (fun s c => match (s.core c).entry line with
        | some e => setEntry s c { e with recalled := true }
        | none => s) s
      .next { s with agenda := cs.map (Instr.wcbDrain · line) ++ [.farAtomic op pa len x] ++ s.agenda }

/-- COMMIT_RESERVE (R232): another module's commit takes the reservation of a line, for which the claimed entries are recalled; or the home writes its
masked bytes, none where the commit has failed, in one step, and the reservation is released. -/
def execCommitReserve (line : Nat) (step : CommitStep) (s : State) : Host.Outcome State Fault Refusal :=
  match step with
  | .write mask data =>
    if (s.line line).resv.isNone then .next s
    else if s.asleep line then .next s.postpone
    else
      let s := if mask = 0 then s else hubMerge (homeWrite (hubReach s line) line mask data) line
      .next (s.setLine line { s.line line with resv := none })
  | .take m =>
    if !isMemory (line * 128) ∨ m = s.hub.modid then .next s
    else if s.reserved line then .next s.postpone
    else
      let s := recallLine s line
      .next (s.setLine line { s.line line with resv := some m })

/-! ## Copies (R196, R200, R219, R222, R403) -/

/-- Copies in a cache of n lines in 8 ways: the copy filled first in a full set gives way. The sets are the lines' residues (log 13). -/
def evict (n line : Nat) (m : List (Nat × Copy)) : List (Nat × Copy) × Option Nat :=
  let same := m.filter fun e => n < 8 || e.1 % (n / 8) == line % (n / 8)
  if same.length < 8 then (m, none)
  else
    match minBy (fun e => e.2.filled) same with
    | none => (m, none)
    | some e => (del e.1 m, some e.1)

/-- The RDC of a die allocates a line: it registers at the home, unless the page is sealed or the line another module's (R200, R208, R222,
R403). -/
def fillRdc (s : State) (die line : Nat) (sealed : Bool) : State :=
  let s := visitHome s die line
  let x := s.die die
  let (m, out) := evict 262144 line x.rdc
  let c : Copy := { img := s.image line, poison := (s.line line).poison, ver := (s.line line).ver, filled := s.clock, exempt := sealed }
  let s := s.setDie die { x with rdc := put line c m }
  let s := match out with | some l => s.later (.rdcDropNotice die l) | none => s
  if sealed || !s.ownLine line then s
  else
    let h := s.die (dieOfLine line)
    let old := getD [] line h.sharers
    s.setDie (dieOfLine line) { h with sharers := put line (if old.contains die then old else old ++ [die]) h.sharers }

/-- The L1 of a core takes in a line as fetched, with its own combining entry's bytes; a copy that it holds is replaced (R196, R197). -/
def fillL1 (s : State) (core line : Nat) (exempt : Bool) : State :=
  let n := 32 * (256 - (s.core core).ubL1)
  if n = 0 then s
  else
    let (img, pz, ver, _) := outerCopy s core line
    let c := s.core core
    let (img, pz) := match c.entry line with
      | some e => (imgMerge img e.mask e.data, pz &&& ~~~(coveredGranules e.mask))
      | none => (img, pz)
    s.setCore core { c with l1 := put line { img := img, poison := pz, ver := ver, filled := s.clock, exempt := exempt } (evict n line (del line c.l1)).1 }

/-- LOAD_RESPONSE (R195, R196, R200, R212): the line that a load or prefetch has asked for comes: a far line of the die into its L2 slice, a line of another
home into the RDC of the die, and into L1 where the hint allows. -/
def execLoadResponse (core line : Nat) (s : State) : Host.Outcome State Fault Refusal :=
  match look line (s.core core).fills with
  | none => .next s
  | some note =>
    let (hold, s) := drawStall s
    let die := dieOfCore core
    let inRdc := (look line (s.die die).rdc).isSome
    if hold || (s.asleep line && !inRdc) then .next s
    else
      let c := s.core core
      let s := s.setCore core { c with fills := del line c.fills }
      let sealed := note / 2 % 2 == 1
      let s := l2Fill s line
      let s := if (s.ownLine line && dieOfLine line == die) || inRdc then s else fillRdc s die line sealed
      .next (if note % 2 = 1 then fillL1 s core line sealed else s)

/-- RDC_PUSH (R403). -/
def execRdcPush (die line ver : Nat) (mask : BitVec 128) (data : BitVec 1024) (poison : BitVec 4) (s : State) :
    Host.Outcome State Fault Refusal :=
  .next (applyPush s die { line := line, mask := mask, data := data, ver := ver, poison := poison })

/-- RDC_DROP_NOTICE (R403): a die that no longer holds a line is unregistered at its home. -/
def execRdcDropNotice (die line : Nat) (s : State) : Host.Outcome State Fault Refusal :=
  if (look line (s.die die).rdc).isSome then .next s
  else
    let s := reachHome s die line
    let h := s.die (dieOfLine line)
    .next (s.setDie (dieOfLine line) { h with sharers := setD [] line ((getD [] line h.sharers).filter (· != die)) h.sharers })

/-- L1_COPY_EXPIRY (R219). -/
def execL1CopyExpiry (core line : Nat) (s : State) : Host.Outcome State Fault Refusal :=
  let c := s.core core
  match look line c.l1 with
  | none => .next s
  | some x => if x.filled + 4096 ≤ s.clock then .next (s.setCore core { c with l1 := del line c.l1 }) else .next s

/-- RDC_REMOTE_EXPIRY (R222). -/
def execRdcRemoteExpiry (die line : Nat) (s : State) : Host.Outcome State Fault Refusal :=
  let d := s.die die
  match look line d.rdc with
  | none => .next s
  | some x =>
    if !s.ownLine line ∧ x.filled + 4096 ≤ s.clock then .next (s.setDie die { d with rdc := del line d.rdc }) else .next s

/-! ## MESSAGE_DELIVER (R401, R402) -/

/-- Whether a die may deliver a message: its clock covers the stamp but for the sender's own entry. -/
def covered (d : Die) (m : Msg) : Bool := (List.range 8).all fun k => k == m.src || vcGe (d.clockOf k) (nth 0 m.stamp k)

/-- MESSAGE_DELIVER: the oldest message of a die to another is delivered; its pushes are applied next, in order. -/
def execMessageDeliver (die src : Nat) (s : State) : Host.Outcome State Fault Refusal :=
  let d := s.die die
  match d.inbox.find? (·.src == src) with
  | none => .next s
  | some m =>
    let (hold, s) := drawStall s
    if hold || !covered d m then .next s
    else
      let s := s.setDie die { d with inbox := d.inbox.erase m, vc := mergeVc d.vc m.stamp }
      .next { s with agenda := m.pushes.map (fun p => .rdcPush die p.line p.ver p.mask p.data p.poison) ++ s.agenda }

/-! ## Translation (R205 to R207) -/

/-- A virtual address from its bits [55:0]. -/
def canonVa (x : Nat) : DWord := (BitVec.ofNat 56 x).signExtend 64

/-- WALK_COMPLETE (R207): the walk of one of the 64 oldest misses ends, and its leaf fills every miss of the merge table, of 1,024 entries, that it covers: in
the die's TLB and in those of the cores that wait and of their quads. -/
def execWalkComplete (die ctx page : Nat) (s : State) : Host.Outcome State Fault Refusal :=
  let d := s.die die
  if !(d.misses.take 64).any (fun m => m.ctx == ctx && m.page == page) then .next s
  else
    let (hold, s) := drawStall s
    if hold then .next s
    else
      let va := canonVa (page * 4096)
      match walk s ctx va with
      | none => .next (s.setDie die { d with misses := d.misses.filter fun m => !(m.ctx == ctx && m.page == page) })
      | some (leaf, _, bits) =>
        let e : TlbEnt := { ctx := ctx, base := va.toNat / 2 ^ bits * 2 ^ bits, bits := bits, leaf := leaf }
        let hit (m : Miss) : Bool := m.ctx == ctx && (canonVa (m.page * 4096)).toNat / 2 ^ bits == va.toNat / 2 ^ bits
        let table := d.misses.take 1024
        let s := s.setDie die { d with misses := table.filter (fun m => !hit m) ++ d.misses.drop 1024, tlb := tlbAdd 16384 e d.tlb }
        .next (((table.filter hit).flatMap (·.cores)).foldl (fun s c => tlbNear s c e) s)

/-- A write of CD_TLBINV (R207): ignored while an invalidation is in progress. -/
def tlbinvStart (s : State) (die : Nat) (x : TlbInv) : State :=
  let d := s.die die
  if d.inv.isSome then s else s.setDie die { d with inv := some x }

def execTlbinvPage (die va ctx : Nat) (s : State) : Host.Outcome State Fault Refusal :=
  .next (tlbinvStart s die { kind := 0, va := va % 2 ^ 56 / 4096 * 4096, ctx := ctx % 256 })

def execTlbinvContext (die ctx : Nat) (s : State) : Host.Outcome State Fault Refusal :=
  .next (tlbinvStart s die { kind := 1, va := 0, ctx := ctx % 256 })

def execTlbinvAll (die : Nat) (s : State) : Host.Outcome State Fault Refusal :=
  .next (tlbinvStart s die { kind := 2, va := 0, ctx := 0 })

/-- Whether an invalidation names an entry. -/
def TlbInv.hits (x : TlbInv) (e : TlbEnt) : Bool :=
  match x.kind with
  | 0 => e.ctx == x.ctx && (canonVa x.va).toNat / 2 ^ e.bits == e.base / 2 ^ e.bits
  | 1 => e.ctx == x.ctx
  | _ => true

/-- TLBINV_DONE (R207): no entry can supply the old translation any longer, and BUSY falls. -/
def execTlbinvDone (die : Nat) (s : State) : Host.Outcome State Fault Refusal :=
  let d := s.die die
  match d.inv with
  | none => .next s
  | some x =>
    let (hold, s) := drawStall s
    if hold then .next s
    else .next (tlbDrop (s.setDie die { d with inv := none }) (· == die) x.hits)

/-! ## LDSUM_GATHER (R210, R225, R257, R409) -/

def Gather.bytes (g : Gather) : Nat := match g.kind with | .int => 4 | .ea160 => 32 | .ea320 => 64

/-- The value of one replica's bytes. -/
def sumCell (k : SumKind) (x : Nat) : Acc :=
  match k with
  | .int => { v := x }
  | .ea160 => eaOfNat .ea160 x
  | .ea320 => eaOfNat .ea320 x

/-- The sum of two answers (R50; integer cells modulo 2^32). -/
def sumAdd (k : SumKind) (a b : Acc) : Acc :=
  match k with
  | .int => { v := (a.v + b.v) % 2 ^ 32 }
  | .ea160 => eaAdd .ea160 a b
  | .ea320 => eaAdd .ea320 a b

/-- Which of a cell's granules, at most two, are poisoned in some replica of this module. -/
def badGranules (s : State) (pa n : Nat) : BitVec 2 :=
  let g := pa % 128 / 32
  let hit (i : Nat) : Bool := decide (32 * i < n) && (List.range 8).any fun d => (s.line (lineOf (replicaOf s pa d))).poison.getLsbD (g + i)
  BitVec.ofNat 2 (bit (hit 0) + 2 * bit (hit 1))

/-- A module's answer to a gather (R409). -/
def Gather.answer (g : Gather) (m : Nat) (sum : Acc) (bad : BitVec 2) : Gather :=
  { g with await := g.await.filter (· != m), sums := put m (sum, bad) g.sums }

/-- The answer of this module: the sum of the cell over its eight dies, each read at its home in one instant. -/
def ownSum (s : State) (die : Nat) (g : Gather) : State × Gather :=
  let bad := badGranules s g.pa g.bytes
  let r := (List.range 8).foldl (fun (acc : State × Acc) d =>
    let pa := replicaOf acc.1 g.pa d
    let s := visitHome acc.1 die (lineOf pa)
    (s, sumAdd g.kind acc.2 (sumCell g.kind (leWord (s.bytes pa g.bytes))))) (s, Acc.zero)
  (r.1, g.answer s.hub.modid r.2 bad)

/-- What the modules' answers add up to. -/
def Gather.sum (g : Gather) : Acc := g.sums.foldl (fun a e => sumAdd g.kind a e.2.1) Acc.zero

/-- The first granule of the cell that is poisoned in an answer (R409, R456). -/
def Gather.bad (g : Gather) : Option Nat :=
  ((List.range 2).find? fun i => g.sums.any fun e => e.2.2.getLsbD i).map (g.pa % 128 / 32 + ·)

/-- What an ldsum writes (R257). -/
def sumWr (g : Gather) (m : Rm) : Wr :=
  match g.kind with
  | .int => Wr.opt g.d (BitVec.ofInt 32 g.sum.v) .i32
  | .ea160 => Wr.opt g.d (BitVec.ofNat 32 (eaRead .ea160 (.ieee .f32) m g.sum)) .f32
  | .ea320 => Wr.opt g.d (BitVec.ofNat 32 (eaRead .ea320 (.ieee .f32) m g.sum)) .f32

/-- Whether a fibre stands where its ldsum left it: it has not trapped since, nor begun its handler (log 41). -/
def Fibre.stands (f b : Fibre) : Bool :=
  f.hand == b.hand && (match f.st with | .ganged | .loose _ _ => true | _ => false)

/-- A gather that every module has answered delivers its result to its fibre: to the window entry and to the latch of the run that await it. Poison that the
answers bring raises POISON at the ldsum, after which nothing of its fibre has issued (R257, R409; log 81); where a breakpoint has taken the fibre away
since, it marks the window entry (log 41). -/
def finishGather (s : State) (g : Gather) : State :=
  let s := { s with gathers := s.gathers.filter (·.id != g.id) }
  match s.fibre g.fibre with
  | none => s
  | some f =>
    let b := g.before
    let inRun := g.c && decide (g.pos < f.runPos ∧ s.clock + 2 ^ 39 ≤ nth 0 f.lAvail g.pos)
    let owed (n : Fin 256) : Bool := f.awaits s.clock (b.fb + n.val)
    match g.bad with
    | some gr =>
      if f.stands b then
        trapLater s f.team (f.fidx % 4, g.issued) [({ b with skipBrk := none }, trapRec b (poisonAt g.va g.pa gr) b.pc (restartPc b) false none)]
      else
        match g.d with
        | some n =>
          if owed n then s.setFibre g.fibre { f with badRegs := dedupe (f.badRegs ++ [b.fb + n.val]), avail := put (b.fb + n.val) s.clock f.avail } else s
        | none => s
    | none =>
      let w := sumWr g .rne
      let r := (w.regs.map (·.2)).head?
      let f := match g.d, r with
        | some n, some r => if owed n then f.receive (b.fb + n.val) r s.clock else f
        | _, _ => f
      s.setFibre g.fibre
        (if inRun then { f with latches := f.latches.set g.pos (w.latch.getD Reg.zero), lAvail := f.lAvail.set g.pos s.clock } else f)

/-- The gathers of one issue, which one event of traps has to hold (R344). -/
def Gather.sameIssue (g x : Gather) : Bool :=
  x.fibre / 1024 == g.fibre / 1024 && x.fibre % 4 == g.fibre % 4 && x.issued == g.issued

/-- A gather as an answer leaves it: the results of one issue are delivered once all its gathers have been answered (R344, R409). -/
def gatherStep (s : State) (g : Gather) : State :=
  let s := { s with gathers := s.gathers.map fun (x : Gather) => if x.id == g.id then g else x }
  let mine := s.gathers.filter g.sameIssue
  if mine.all fun x => x.await == [] then mine.foldl finishGather s else s

/-- LDSUM_GATHER: this module's answer, or that of another module, whose sum the package switch adds. -/
def execLdsumGather (id : Nat) (ext : Option (Nat × Int × BitVec 3 × BitVec 2)) (s : State) : Host.Outcome State Fault Refusal :=
  match s.gathers.find? (·.id == id) with
  | none => .next s
  | some g =>
    match ext with
    | some (m, v, spec, bad) =>
      if m = s.hub.modid ∨ !g.await.contains m then .next s
      else
        .next (gatherStep s (g.answer m { v := v, pinf := spec.getLsbD 0, ninf := spec.getLsbD 1, nan := spec.getLsbD 2 } bad))
    | none =>
      if !g.await.contains s.hub.modid then .next s
      else
        let (hold, s) := drawStall s
        if hold || (List.range 8).any (fun d => s.asleep (lineOf (replicaOf s g.pa d))) then .next s
        else
          let die := match s.fibre g.fibre with
            | some f => (match s.team f.team with | some t => dieOfCore t.core | none => 0)
            | none => 0
          let (s, g) := ownSum s die g
          .next (gatherStep s g)

/-! ## WRITE_ACKNOWLEDGE and UNCORRECTABLE_ERROR (R204, R217) -/

/-- WRITE_ACKNOWLEDGE (R217): a home's acknowledgement reaches the core. -/
def execWriteAcknowledge (core : Nat) (s : State) : Host.Outcome State Fault Refusal :=
  let (hold, s) := drawStall s
  if hold then .next s
  else
    let c := s.core core
    let (n, s) := draw s (max c.acks.length 1)
    .next (s.setCore core { c with acks := c.acks.eraseIdx n })

/-- A copy of a line in which a granule becomes poisoned. -/
def Copy.mark (c : Copy) (granule : Nat) : Copy :=
  let bad := BitVec.ofNat 4 (2 ^ (granule % 4))
  { c with poison := c.poison ||| bad, own := c.own ||| bad }

/-- UNCORRECTABLE_ERROR (R204): a granule of memory, of the unified store, or of a copy in L1 or the RDC becomes poisoned, or a register's value is lost.
The remote copies of a line of memory learn of it, and no version changes (R200, R203; log 21). -/
def execUncorrectableError (e : ErrAt) (s : State) : Host.Outcome State Fault Refusal :=
  match e with
  | .mem pa =>
    if !isMemory pa then .next s
    else
      let m := s.line (lineOf pa)
      let m := { m with poison := m.poison ||| BitVec.ofNat 4 (2 ^ (pa % 128 / 32)) }
      let s := s.setLine (lineOf pa) m
      .next (if s.ownLine (lineOf pa) then pushLine s (lineOf pa) 0 0 m else s)
  | .store core addr => if addr < 2 ^ 20 then .next (s.setCore core ((s.core core).markBad (addr / 32))) else .next s
  | .reg fibre entry =>
    match s.fibre fibre with
    | none => .next s
    | some f =>
      let w := match s.team f.team with | some t => t.w | none => 0
      if entry < w then .next (s.setFibre fibre { f with badRegs := dedupe (f.badRegs ++ [entry]) }) else .next s
  | .sreg team n =>
    match s.team team with
    | none => .next s
    | some t => if n < 32 then .next (s.setTeam team { t with badS := dedupe (t.badS ++ [n]) }) else .next s
  | .l1 core line granule =>
    let c := s.core core
    match look line c.l1 with
    | none => .next s
    | some x => .next (s.setCore core { c with l1 := put line (x.mark granule) c.l1 })
  | .rdc die line granule =>
    let d := s.die die
    match look line d.rdc with
    | none => .next s
    | some x => .next (s.setDie die { d with rdc := put line (x.mark granule) d.rdc })

end Sys2Proof.Machine
end

