-- ==== Sys2Proof/Machine/Registers.lean ====
section
/-! DEFINITION. The control space: what its registers read as, and the writes that the resident kernel and a debugger make (R187, R188, R207, R242,
R273, R353, R356, R360, R361, R384, R400, R411, R430 to R432, R447 to R453). A write changes the fields that are RW; what it gives a reserved
field is dropped (log 19). -/

namespace Sys2Proof.Machine

/-! ## UB_WRITE and MXDIR_WRITE (R187, R188, R273) -/

/-- UB_WRITE: one boundary register alone; ignored while a team is resident or where the values would break their order. -/
def execUbWrite (core : Nat) (which : Fin 3) (val : Nat) (s : State) : Host.Outcome State Fault Refusal :=
  let c := s.core core
  let v := val % 512
  let (a, b, l) := match which with
    | 0 => (v, c.ubTiles, c.ubL1)
    | 1 => (c.ubScratch, v, c.ubL1)
    | 2 => (c.ubScratch, c.ubTiles, v)
  if 1024 ≤ core ∨ coreTeams s core ≠ [] ∨ ¬(16 ≤ a ∧ a ≤ b ∧ b ≤ l ∧ l ≤ 252) then .next s
  else .next (s.setCore core { c with ubScratch := a, ubTiles := b, ubL1 := l, l1 := if l = c.ubL1 then c.l1 else [] })

/-- MXDIR_WRITE: ignored while the partition is bound. -/
def execMxdirWrite (quad : Nat) (part : Fin 4) (val : DWord) (s : State) : Host.Outcome State Fault Refusal :=
  if 256 ≤ quad ∨ (s.part quad part.val).owner.isSome then .next s
  else
    let q := s.quad quad
    .next (s.setQuad quad { q with mxdir := setD 0 part.val (val &&& 0x00FFFFFFFFFFFFE0#64) q.mxdir })

/-! ## Retention (R450) -/

/-- Whether a context is resident on a die: one of its teams is. -/
def dieBusy (s : State) (die : Nat) : Bool := s.teams.any fun t => dieOfCore t.2.core == die

/-- The layers re-encode in turn: the lowest one whose mode is not the one asked for is next, for 40 microseconds. -/
def nextLayer (d : Die) (clk : Nat) : Die :=
  if d.busy ≠ 0 then d
  else
    match (List.range 4).find? fun i => d.ret.getLsbD i != d.enc.getLsbD i with
    | some i => { d with busy := BitVec.ofNat 4 (2 ^ i), encAt := clk + 40 * Config.clocksPerUs }
    | none => d

/-- RETCTL_WRITE: a layer's bit is kept while it re-encodes, and all are while a context is resident on the die. -/
def execRetctlWrite (die : Nat) (val : DWord) (s : State) : Host.Outcome State Fault Refusal :=
  if 8 ≤ die ∨ dieBusy s die then .next s
  else
    let d := s.die die
    .next (s.setDie die (nextLayer { d with ret := (d.ret &&& d.busy) ||| (val.setWidth 4 &&& ~~~d.busy) } s.clock))

/-- RETENTION_REENCODE_DONE: the layer is in its new mode, and the next begins. -/
def execRetentionReencodeDone (die : Nat) (layer : Fin 4) (s : State) : Host.Outcome State Fault Refusal :=
  let d := s.die die
  if !d.busy.getLsbD layer.val ∨ s.clock < d.encAt then .next s
  else .next (s.setDie die (nextLayer { d with busy := 0, enc := d.enc ^^^ d.busy } s.clock))

/-! ## Registers of the hub (R447, R452, R453) -/

/-- 100 ms (R447). -/
def heartbeat : Nat := 100000 * Config.clocksPerUs

/-- KHEART_WRITE: a write that changes COUNT restarts the timer. -/
def execKheartWrite (val : DWord) (s : State) : Host.Outcome State Fault Refusal :=
  let v : Word := val.setWidth 32
  let t := if v = s.hub.kheart then s.hub.kTimer else s.hub.kTimer.map fun _ => s.clock + heartbeat
  .next { s with hub := { s.hub with kheart := v, kTimer := t } }

/-- QENABLE_WRITE: a thread whose bit is cleared finishes its step and takes no packet. -/
def execQenableWrite (val : DWord) (s : State) : Host.Outcome State Fault Refusal :=
  .next { s with hub := { s.hub with qenable := val.setWidth 32 } }

/-- A physical address after the module has learnt its number: its own memory carries it (R453). -/
def renumber (old new pa : Nat) : Nat :=
  let m := pa / 2 ^ 52
  (if m = old then new else if m = new then old else m) * 2 ^ 52 + pa % 2 ^ 52

/-- MODID_WRITE: the first write since power-up sets the number; later ones are ignored. -/
def execModidWrite (val : DWord) (s : State) : Host.Outcome State Fault Refusal :=
  if s.hub.modidSet then .next s
  else
    let n := val.toNat % 64
    let o := s.hub.modid
    let mem := s.mem.foldl (fun m c => setD 0 (renumber o n c.1) c.2 m) []
    let lines := s.lines.foldl (fun m c => setD {} (renumber o n (c.1 * 128) / 128) c.2 m) []
    .next { s with mem := mem, lines := lines, hub := { s.hub with modid := n, modidSet := true } }

/-- A gather without the modules that have left the membership: they are not awaited, and what they answered contributes nothing (R409). -/
def Gather.within (g : Gather) (mem : DWord) : Gather :=
  { g with await := g.await.filter mem.getLsbD, sums := g.sums.filter fun e => mem.getLsbD e.1 }

/-- PODMEMB_WRITE: the module's own bit ignores the write (R453); a gather waits no longer for a module that leaves (R409, R440). -/
def execPodmembWrite (val : DWord) (s : State) : Host.Outcome State Fault Refusal :=
  let own : DWord := BitVec.ofNat 64 (2 ^ s.hub.modid)
  let s := { s with hub := { s.hub with podmemb := (val &&& ~~~own) ||| (s.hub.podmemb &&& own) } }
  .next (s.gathers.foldl (fun s g => if g.within (members s) = g then s else gatherStep s (g.within (members s))) s)

/-! ## The map of the control space (R451) -/

/-- A register of the control space. -/
inductive CReg where
  | ctxcmd | regbase | hostwin | qenable | kheart | bootstat | svnfuse | modid | podmemb
  | features (i : Nat) | ctxstat (n : Nat) | ctxsave (n : Nat) | ctxfeat (n : Nat) | ctxfeat2 (n : Nat)
  | submit (n : Nat) | stat (n : Nat) | accept (n : Nat) | qcb (n : Nat)
  | tlbinv (d : Nat) | wakestat (d : Nat) | droopcnt (d : Nat) | retctl (d : Nat) | linkstat (d b : Nat)
  | mxdir (quad p : Nat) | ub (core i : Nat) | brk (core i : Nat) | dbgctl (core : Nat) | dbgmark (core : Nat)
  deriving DecidableEq, Repr

/-- The register of a core's page. -/
def coreReg (core o : Nat) : Option CReg :=
  if o < 0x18 then some (.ub core (o / 8))
  else if 0x20 ≤ o ∧ o < 0x40 then some (.brk core (o / 8 - 4))
  else if o = 0x40 then some (.dbgctl core)
  else if o = 0x48 then some (.dbgmark core)
  else none

/-- The register of a compute die's block. -/
def dieReg (d o : Nat) : Option CReg :=
  if o = 0 then some (.tlbinv d)
  else if o = 0x08 then some (.wakestat d)
  else if o = 0x10 then some (.droopcnt d)
  else if o = 0x18 then some (.retctl d)
  else if 0x20 ≤ o ∧ o < 0x40 then some (.linkstat d (o / 8 - 4))
  else if 0x0100_0000 ≤ o ∧ o < 0x0120_0000 then
    if o % 0x1_0000 < 0x20 then some (.mxdir (d * 32 + (o - 0x0100_0000) / 0x1_0000) (o % 0x1_0000 / 8)) else none
  else if 0x0180_0000 ≤ o ∧ o < 0x0188_0000 then coreReg (d * 128 + (o - 0x0180_0000) / 0x1000) (o % 0x1000)
  else none

/-- The register at an offset from CSB that is a multiple of 8. -/
def regAt (o : Nat) : Option CReg :=
  if o % 8 ≠ 0 then none
  else if o < 0x48 then
    (match o / 8 with
     | 0 => some .ctxcmd | 1 => some .regbase | 2 => some .hostwin | 3 => some .qenable | 4 => some .kheart | 5 => some .bootstat
     | 6 => some .svnfuse | 7 => some .modid | _ => some .podmemb)
  else if 0x80 ≤ o ∧ o < 0xC0 then some (.features (o / 8 - 16))
  else if 0x1_0000 ≤ o ∧ o < 0x1_2000 then
    let n := (o - 0x1_0000) / 32
    (match o / 8 % 4 with
     | 0 => some (.ctxstat n) | 1 => some (.ctxsave n) | 2 => some (.ctxfeat n) | _ => some (.ctxfeat2 n))
  else if 0x0100_0000 ≤ o ∧ o < 0x0102_0000 then
    let n := (o - 0x0100_0000) / 0x1000
    (match o % 0x1000 / 8 with
     | 0 => some (.submit n) | 1 => some (.stat n) | 2 => some (.accept n) | 3 => some (.qcb n) | _ => none)
  else if 0x1000_0000 ≤ o ∧ o < 0x2000_0000 then dieReg ((o - 0x1000_0000) / 0x0200_0000) ((o - 0x1000_0000) % 0x0200_0000)
  else none

/-! ## Reads (R451) -/

/-- The peer of a bundle (R398, R400): 8 is the hub die. -/
def bundlePeer (d b : Nat) : Nat :=
  match b with
  | 0 => (d + 1) % 8 | 1 => (d + 7) % 8 | 2 => d ^^^ 4 | _ => 8

/-- The bundles that traffic to a die takes, by the distance of the dies modulo 8 (R398). -/
def routeBundles (delta : Nat) : List Nat :=
  match delta with
  | 1 => [0] | 7 => [1] | 4 => [2] | 2 => [0, 0] | 6 => [1, 1] | 3 => [2, 1] | 5 => [2, 0] | _ => []

/-- The fixed route from a die to another: each hop's die and bundle (R398). -/
def hops (d : Nat) : List Nat → List (Nat × Nat)
  | [] => []
  | b :: t => (d, b) :: hops (bundlePeer d b) t
def route (d e : Nat) : List (Nat × Nat) := hops d (routeBundles ((e + 8 - d) % 8))

/-- The largest number of exact entries in use in a slice of a die (R242). -/
def inUse (s : State) (d : Die) : Nat :=
  let ws := d.watches.filter fun w => s.ownLine w.line
  (ws.map fun w => (ws.filter fun x => sliceOf x.line == sliceOf w.line).length).foldl max 0

def QSt.code : QSt → Nat
  | .idle => 0 | .serving => 1 | .stopped => 2 | .error => 3

/-- What a register reads as. -/
def CReg.read (s : State) : CReg → Nat
  | .ctxcmd => 0
  | .regbase => s.hub.regbase
  | .hostwin => s.hub.hostwin + bit s.hub.hostEn
  | .qenable => s.hub.qenable.toNat
  | .kheart => s.hub.kheart.toNat
  | .bootstat => s.hub.attempts % 65536 * 2 ^ 32 + 2 ^ 12 * bit (s.hub.boot == .booted) + 2 ^ 8 * s.hub.bootStep + s.hub.bootCode
  | .svnfuse => s.hub.svnfuse
  | .modid => s.hub.modid
  | .podmemb => (members s).toNat
  | .features i => (featureWord i).toNat
  | .ctxstat n => let c := s.ctx n; c.resume * 2 ^ 32 + c.ignored * 2 ^ 24 + c.reason * 2 ^ 16 + c.st.code
  | .ctxsave n => let c := s.ctx n; c.saveBase + c.saveSize
  | .ctxfeat n => (s.ctx n).featBase
  | .ctxfeat2 n => (s.ctx n).featCount
  | .submit n => (s.queue n).wridx.toNat
  | .stat n => let q := s.queue n; q.stale.toNat * 2 ^ 32 + q.error * 2 ^ 8 + q.st.code
  | .accept n => (s.queue n).accepted.toNat
  | .qcb n => (s.queue n).qcb
  | .tlbinv d => 2 ^ 63 * bit (s.die d).inv.isSome
  | .wakestat d => let x := s.die d; x.refused % 65536 * 2 ^ 48 + x.bucketed % 65536 * 2 ^ 32 + inUse s x
  | .droopcnt d => (s.die d).droop
  | .retctl d => let x := s.die d; x.busy.toNat * 16 + x.ret.toNat
  | .linkstat d b => getD 0 b (s.die d).retries % 65536 * 2 ^ 32 + bundlePeer d b * 2 ^ 24 + getD 0 b (s.die d).link
  | .mxdir q p => (getD 0 p (s.quad q).mxdir).toNat
  | .ub c i => let x := s.core c; if i = 0 then x.ubScratch else if i = 1 then x.ubTiles else x.ubL1
  | .brk c i => (getD 0 i (s.core c).brk).toNat
  | .dbgctl c => (s.core c).fstop.toNat
  | .dbgmark c => (s.core c).mark.toNat

/-- A load from the control space: an access that is not an aligned one of 8 bytes, or that names no register, reads zero. -/
def readControl (s : State) (off size : Nat) : Nat :=
  if size = 8 then (match regAt off with | some r => r.read s | none => 0) else 0

/-! ## The host's view (R438, R452) -/

/-- The register that BAR0 shows at an offset: a queue's latch, status and accepted index, in a page of 4 KiB for each queue. -/
def bar0Reg (off : Nat) : Option CReg :=
  if 32 * 0x1000 ≤ off then none
  else match off % 0x1000 with
    | 0x000 => some (.submit (off / 0x1000))
    | 0x008 => some (.stat (off / 0x1000))
    | 0x010 => some (.accept (off / 0x1000))
    | _ => none

/-- What a host reads: BAR0's registers, aligned and whole, zero elsewhere; through BAR2 the far memory of the window, zero where the window is off or no
memory. -/
def hostRead (s : State) (bar2 : Bool) (off size : Nat) : Nat :=
  if bar2 then leWord ((List.range size).map fun i => match hostWindow s (off + i) with | some pa => s.byte pa | none => 0)
  else if size = 8 then (match bar0Reg off with | some r => r.read s | none => 0)
  else 0

/-! ## REGISTER_WRITE (R451) -/

/-- The events that a write to a register with events of its own amounts to, in order. -/
def CReg.events (s : State) (val : DWord) : CReg → List Instr
  | .ctxcmd =>
    let n := fld val.toNat 8 8
    (match fld val.toNat 0 3 with
     | 1 => [.preempt n (fld val.toNat 16 24)] | 2 => [.resetCtx n] | 3 => [.freeze n] | 4 => [.thaw n] | 5 => [.start n] | 6 => [.resume n]
     | _ => [])
  | .qenable => [.qenableWrite val]
  | .kheart => [.kheartWrite val]
  | .modid => [.modidWrite val]
  | .podmemb => [.podmembWrite val]
  | .ctxsave n => [.ctxsaveWrite n val (s.ctx n).root (s.ctx n).queues (s.ctx n).frames]
  | .submit n => [.qpSubmit n val]
  | .stat n => [.qpStatClear n val]
  | .qcb n => [.qpQcbWrite n val]
  | .tlbinv d =>
    (match fld val.toNat 61 2 with
     | 0 => [.tlbinvPage d (fld val.toNat 12 44 * 4096) (fld val.toNat 0 8)] | 1 => [.tlbinvContext d (fld val.toNat 0 8)]
     | 2 => [.tlbinvAll d] | _ => [])
  | .retctl d => [.retctlWrite d val]
  | .mxdir q p => [.mxdirWrite q (Fin.ofNat 4 p) val]
  | .ub c i => [.ubWrite c (Fin.ofNat 3 i) val.toNat]
  | .dbgctl c =>
    [.dbgRelease c (val.extractLsb' 32 16), .dbgHaltreq c (val.extractLsb' 16 16), .dbgFstop c (val.extractLsb' 0 16)]
  | _ => []

/-- The writes without an event of their own. -/
def CReg.store (s : State) (val : DWord) : CReg → State
  | .regbase => { s with hub := { s.hub with regbase := (val &&& 0x03FFFFFFFFFF0000#64).toNat } }
  | .hostwin => { s with hub := { s.hub with hostwin := (val &&& 0x03FFFFFFC0000000#64).toNat, hostEn := val.getLsbD 0 } }
  | .ctxfeat n => s.setCtx n { s.ctx n with featBase := (val &&& 0x03FFFFFFFFFFFFF0#64).toNat }
  | .ctxfeat2 n => s.setCtx n { s.ctx n with featCount := min 64 (val.toNat % 128) }
  | .brk c i => s.setCore c { s.core c with brk := setD 0 i (val &&& 0xFCFFFFFFFFFFFFF8#64) (s.core c).brk }
  | .dbgmark c => s.setCore c { s.core c with mark := val }
  | _ => s

/-- What a host's write to BAR0 amounts to: events of a queue's registers; elsewhere it completes without effect. -/
def bar0Events (s : State) (off : Nat) (val : DWord) : List Instr := match bar0Reg off with | some r => r.events s val | none => []

/-- REGISTER_WRITE: an aligned 8-byte store to the control space; where no register lies, it is ignored. -/
def execRegisterWrite (off : Nat) (val : DWord) (s : State) : Host.Outcome State Fault Refusal :=
  match regAt off with
  | none => .next s
  | some r =>
    let es := r.events s val
    .next (if es = [] then r.store s val else { s with agenda := es ++ s.agenda })

end Sys2Proof.Machine
end

