-- ==== Sys2Proof/Machine/Hub.lean ====
section
/-! DEFINITION. The hub's outside: pod frames, port rings, boot, attestation, the supply and the links (R398 to R400, R438 to R449). -/

namespace Sys2Proof.Machine

def microseconds (n : Nat) : Nat := n * Config.clocksPerUs

/-! ## The pod (R439, R440) -/

/-- What a port keeps after a peer's ACKSEQ: the flits it does not cover. -/
def acknowledged (p : PodPort) (ack clk : Nat) : PodPort :=
  match p.unacked.findIdx? (· == ack) with
  | some i => if i = 0 then p else { p with unacked := p.unacked.drop i, ackseq := ack, ackClk := clk }
  | none => if p.unacked ≠ [] ∧ ack = p.sent then { p with unacked := [], ackseq := ack, ackClk := clk } else p

/-- POD_FRAME_RECEIVE: flits are accepted in SEQ order only, and one that arrives again is discarded; a frame that is not for this module, or not
from a member, is discarded (R439, R440). -/
def execPodFrameReceive (src dst flits seq ack : Nat) (s : State) : Host.Outcome State Fault Refusal :=
  if !s.power ∨ dst ≠ s.hub.modid ∨ src = s.hub.modid ∨ !(members s).getLsbD src ∨ flits < 1 ∨ 56 < flits then .next s
  else
    let p := acknowledged (s.port src) ack s.clock
    let skip := (p.expect + 2 ^ 32 - seq % 2 ^ 32) % 2 ^ 32
    let p := if skip < flits then { p with expect := (seq + flits) % 2 ^ 32 } else p
    .next (s.setPort src p)

/-- POD_RESEND_TIMEOUT: ACKSEQ has not advanced for 20 microseconds, and the sender resends from it. -/
def execPodResendTimeout (peer : Nat) (s : State) : Host.Outcome State Fault Refusal :=
  let p := s.port peer
  if p.unacked ≠ [] ∧ p.ackClk + microseconds 20 ≤ s.clock then
    let s := s.setPort peer { p with resent := p.resent + 1, ackClk := s.clock }
    .next { s with hub := { s.hub with wire := s.hub.wire ++ podFrames s.hub.modid peer p.expect p.unacked } }
  else .next s

/-- POD_ACK_TIMER: ACKSEQ is reported to a member at least every 2 microseconds. -/
def execPodAckTimer (peer : Nat) (s : State) : Host.Outcome State Fault Refusal :=
  let p := s.port peer
  if p.reported + microseconds 2 ≤ s.clock then .next (s.setPort peer { p with reported := s.clock }) else .next s

/-! ## Port rings (R441) -/

/-- PORT_DESCRIPTOR: the engine has served a descriptor that it owns: what came in lies in the buffer, and one write sets STATUS and clears OWN. -/
def execPortDescriptor (desc status : Nat) (data : List Byte) (s : State) : Host.Outcome State Fault Refusal :=
  let buf := s.dword desc
  let len := s.dword (desc + 8) % 2 ^ 32
  let flags := s.dword (desc + 8) / 2 ^ 32 % 2 ^ 16
  if !s.power ∨ s.hub.boot = .failedFuse ∨ !isMemory desc ∨ desc % 32 ≠ 0 ∨ flags % 2 = 0 ∨ 4 < status ∨ len < 1 ∨ 2 ^ 24 < len then .next s
  else if s.reserved (lineOf desc) || (isMemory buf && linesHeld s buf (min len data.length) true) then .next s.postpone
  else
    let s := if isMemory buf then hubPut s buf (data.take len) else s
    .next (hubPut s (desc + 12) (leBytes (flags - 1 + 2 ^ 16 * status) 4))

/-! ## Boot (R442 to R447) -/

/-- A step of the sequence fails: code and step are recorded; from step 2 on, the sequence restarts after a second. -/
def bootFail (s : State) (step code : Nat) : State :=
  { s with hub := { s.hub with bootStep := step, bootCode := code, reqs := [], blocks := [], imgLen := none,
                               boot := if step = 1 then .failedFuse else .waitRetry (s.clock + microseconds 1000000) step } }

/-- Training of every bundle that is not up (R400, R442). -/
def trainLinks (s : State) : State :=
  let s := (List.range 8).foldl (fun s d =>
    let x := s.die d
    s.setDie d { x with link := (List.range 4).foldl (fun m b => if getD 0 b m = 2 then m else setD 0 b 1 m) x.link }) s
  { s with hub := { s.hub with boot := .training } }

/-- Step 3 begins with port 0. -/
def seekAddress (s : State) : State := { s with hub := { s.hub with boot := .address, bootPort := 0, bootClk := s.clock } }

/-- The outcome of a training: the bundles that came up, and those that failed; each route of R398 must be up (R442). -/
def linksTrained (s : State) (down : List (Nat × Nat)) : State :=
  let s := (List.range 8).foldl (fun s d =>
    let x := s.die d
    s.setDie d { x with link := (List.range 4).foldl (fun m b =>
      if getD 0 b m = 2 then m else setD 0 b (if down.contains (d, b) then 3 else 2) m) x.link }) s
  let up := (List.range 8).all fun d => (List.range 8).all fun e => (route d e).all fun h => getD 0 h.2 (s.die h.1).link == 2
  if up then seekAddress s else bootFail s 2 2

/-- The blocks of an image with its signature. -/
def blockCount (len : Nat) : Nat := (len + 114 + 1023) / 1024

/-- Requests for the blocks that have not come and are not requested, while fewer than 64 are outstanding (R443). -/
def askBlocks (s : State) (len : Nat) : State :=
  let miss := (List.range (blockCount len)).filter fun i => !(s.hub.reqs.any fun r => r.block == i) && !(s.hub.blocks.any fun b => b.1 == i)
  let new := (miss.take (64 - s.hub.reqs.length)).map fun i => ({ file := s.hub.bootFile, block := i, sent := s.clock, tries := 1 } : BlockReq)
  { s with hub := { s.hub with reqs := s.hub.reqs ++ new } }

/-- Step 4 begins: block 0 of the file that option 59 names is requested from its server; the reply gives LENGTH (R442, R443). -/
def beginFetch (s : State) (server : BitVec 128) (file : BitVec 512) : State :=
  { s with hub := { s.hub with boot := .fetching, bootServer := server, bootFile := file,
                               reqs := [{ file := file, block := 0, sent := s.clock, tries := 1 }], blocks := [], imgLen := none } }

/-- Step 1: the identity key and the translation key are derived from the fused seed (R442, R444). -/
def deriveKeys (s : State) : State := { s with hub := { s.hub with identity := some (Config.seed, xlatSeed) } }

/-- The bytes of the file as they have come, once every block has. -/
def fetchedImage (s : State) : Option (List Byte) :=
  match s.hub.imgLen with
  | none => none
  | some len =>
    if (List.range (blockCount len)).all fun i => s.hub.blocks.any fun b => b.1 == i then
      some (((List.range (blockCount len)).flatMap fun i => match s.hub.blocks.find? fun b => b.1 == i with
        | some b => leBytes b.2.toNat 1024
        | none => []).take (len + 114))
    else none

/-- Step 5: the code of the failure, or none (R442). -/
def imageVerdict (s : State) (bs : List Byte) : Option Nat :=
  let h := objHdr bs
  if h.magic ≠ 0x4F425645 ∨ some h.len ≠ s.hub.imgLen ∨ 64 < h.svn ∨ 256 ≤ h.svnWord then some 5
  else if h.svn < s.hub.svnfuse then some 6
  else if !Config.signatureOk Config.bootKeyDigest (bs.drop h.len) (shake256 (bs.take h.len)) then some 5
  else none

/-- The fuse counter as an image's ADVANCE leaves it (R446). -/
def burnt (old : Nat) (h : ObjHdr) : Nat := if h.svnWord / 128 % 2 = 1 ∧ old < h.svn then h.svn else old

/-- Step 6: fuses are burnt, every line is zero at version 0 with no poison, the image is loaded, and the application cores are released. -/
def loadImage (s : State) (bs : List Byte) : State :=
  let h := objHdr bs
  let s := { s with mem := [], lines := [] }
  let s := hubPut s (2 ^ 48 + Config.imageLine % 2 ^ 31 * 128) bs
  { s with hub := { s.hub with svnfuse := burnt s.hub.svnfuse h, imgDigest := shake256 (bs.take h.len), imgSvn := h.svn, boot := .booted,
                               shims := Config.shimLibrary ((bs.drop h.data.1).take h.data.2), reqs := [], blocks := [],
                               kTimer := some (s.clock + heartbeat) } }

/-- POWER_UP: the boot ROM's sequence with what it finds (R442). -/
def execPowerUp (i : BootInput) (s : State) : Host.Outcome State Fault Refusal :=
  match i, s.hub.boot with
  | .begin ok, .off =>
    let s := { s with power := true, epoch := s.clock }
    .next (if ok then trainLinks (deriveKeys s) else bootFail s 1 1)
  | .train down, .training => .next (linksTrained s down)
  | .address server file, .address => .next (beginFetch s server file)
  | .finish memOk, .fetching =>
    match fetchedImage s with
    | none => .next s
    | some bs =>
      match imageVerdict s bs with
      | some c => .next (bootFail s 5 c)
      | none => .next (if memOk then loadImage s bs else bootFail s 6 7)
  | _, _ => .next s

/-- BOOT_RETRY: after a second the sequence restarts from step 2 or from step 3. -/
def execBootRetry (s : State) : Host.Outcome State Fault Refusal :=
  match s.hub.boot with
  | .waitRetry clk step =>
    if s.clock < clk then .next s
    else
      let s := { s with hub := { s.hub with attempts := (s.hub.attempts + 1) % 65536 } }
      .next (if step = 2 then trainLinks s else seekAddress s)
  | _ => .next s

/-- DHCP_PORT_TIMEOUT: the next port is tried after 4 seconds; after port 15 there is no address. -/
def execDhcpPortTimeout (s : State) : Host.Outcome State Fault Refusal :=
  if s.hub.boot = .address ∧ s.hub.bootClk + microseconds 4000000 ≤ s.clock then
    if 15 ≤ s.hub.bootPort then .next (bootFail s 3 3)
    else .next { s with hub := { s.hub with bootPort := s.hub.bootPort + 1, bootClk := s.clock } }
  else .next s

/-- BLOCK_REQUEST_TIMEOUT: a request without a reply for 500 ms is sent again; 16 unanswered ones fail the fetch (R443). -/
def execBlockRequestTimeout (block : Nat) (s : State) : Host.Outcome State Fault Refusal :=
  if s.hub.boot ≠ .fetching then .next s
  else
    match s.hub.reqs.find? fun r => r.block == block with
    | none => .next s
    | some r =>
      if s.clock < r.sent + microseconds 500000 then .next s
      else if 16 ≤ r.tries then .next (bootFail s 4 4)
      else .next { s with hub := { s.hub with reqs := s.hub.reqs.map fun x =>
        if x.block = block then { x with sent := s.clock, tries := x.tries + 1 } else x } }

/-- BOOT_BLOCK_REPLY: a block comes with the image's LENGTH (R443). -/
def execBootBlockReply (block len : Nat) (data : BitVec 8192) (s : State) : Host.Outcome State Fault Refusal :=
  if s.hub.boot ≠ .fetching ∨ !(s.hub.reqs.any fun r => r.block == block) then .next s
  else
    let n := s.hub.imgLen.getD len
    .next (askBlocks { s with hub := { s.hub with reqs := s.hub.reqs.filter (fun r => r.block != block),
                                                  blocks := s.hub.blocks ++ [(block, data)], imgLen := some n } } n)

/-- ATTESTATION_REPORT (R445). -/
def execAttestationReport (nonce : BitVec 256) (s : State) : Host.Outcome State Fault Refusal :=
  match s.hub.identity with
  | none => .next s
  | some key =>
  if !s.power ∨ s.hub.boot ≠ .booted then .next s
  else
    let bs := leBytes nonce.toNat 32 ++ leBytes s.hub.imgDigest.toNat 64 ++ (List.range 8).flatMap (fun i => leBytes (featureWord i).toNat 8) ++
      leBytes s.hub.svnfuse 8 ++ leBytes s.hub.imgSvn 8 ++ List.replicate 80 0
    .next { s with hub := { s.hub with report := some (bs ++ leBytes (Config.edSign key.1 bs).toNat 114) } }

/-! ## Supply, links, warm reboot (R399, R400, R446, R448, R449) -/

/-- DROOP_STRETCH (R449): a stretched clock counts as one clock; the event is counted. -/
def execDroopStretch (die : Nat) (s : State) : Host.Outcome State Fault Refusal :=
  if 8 ≤ die then .next s else .next (s.setDie die { s.die die with droop := ((s.die die).droop + 1) % 2 ^ 32 })

/-- LINK_FLIT_RETRY (R399, R400): a damaged flit is sent again, which the receiver counts. -/
def execLinkFlitRetry (die bundle : Nat) (s : State) : Host.Outcome State Fault Refusal :=
  if 8 ≤ die ∨ 4 ≤ bundle then .next s
  else
    let d := s.die die
    .next (s.setDie die { d with retries := setD 0 bundle ((getD 0 bundle d.retries + 1) % 65536) d.retries })

/-- POWER_LOSS: nothing outlives it but the fuses; during the burn of step 6 they keep the old count or hold the new one (R446). -/
def execPowerLoss (burnt_ : Bool) (s : State) : Host.Outcome State Fault Refusal :=
  let old := s.hub.svnfuse
  let fuse := match s.hub.boot, fetchedImage s with
    | .fetching, some bs => if burnt_ && (imageVerdict s bs).isNone then burnt old (objHdr bs) else old
    | _, _ => old
  .next { State.reset with clock := s.clock, nextId := s.nextId, free := s.free, power := false, hub := { svnfuse := fuse } }

/-- WARM_REBOOT_DONE (R448): the resident kernel runs again, and its heartbeat with it. -/
def execWarmRebootDone (s : State) : Host.Outcome State Fault Refusal :=
  if s.hub.reboot then .next { s with hub := { s.hub with reboot := false, kTimer := some (s.clock + heartbeat) } } else .next s

end Sys2Proof.Machine
end

