-- ==== Sys2Proof/Machine/IndexEngine.lean ====
section
/-! DEFINITION. The index engine's own steps: walks, and their samples in flight (R308 to R310, R333). -/

namespace Sys2Proof.Machine

/-! ## The forest descriptor (R308) -/

def fNF (d : Nat) : Nat := fld d 224 16
def fDepth (d : Nat) : Nat := fld d 208 8
def fTrees (d : Nat) : Nat := fld d 192 16
def fFeat (d : Nat) : Nat := fld d 128 64
def fRoots (d : Nat) : Nat := fld d 64 64
def fNodes (d : Nat) : Nat := fld d 0 64

/-! ## A sample (R309) -/

/-- How a sample stops walking before its last tree: with the NAN state, and the failure that the record reports, if it is one. -/
abbrev Fail := Option (Nat × DWord)

/-- n bytes that the engine reads: the value, poison as NAN, or a failure (R309). -/
def idxRead (s : State) (k : Site) (va : Nat) (n : Nat) : Except Fail Nat :=
  match engineRead s k.core k.ctx (BitVec.ofNat 64 va) n with
  | .error t => .error (some (statusOf t, t.faddr))
  | .ok bs => if bs.any (·.2) then .error none else .ok (leWord (bs.map (·.1)))

/-- The features of an entity (R308, R309). -/
def idxRow (s : State) (k : Site) (d ent : Nat) : List Feat :=
  (List.range (fNF d)).map fun i =>
    match idxRead s k ((fFeat d + 4 * (ent * fNF d + i)) % 2 ^ 64) 4 with
    | .ok v => .val v
    | .error none => .bad
    | .error (some f) => .fail f.1 f.2

/-- The first address of an entity's row that does not lie in near memory (R309). -/
def rowFar (s : State) (k : Site) (d ent : Nat) : Option Nat :=
  ((List.range (fNF d)).map fun i => (fFeat d + 4 * (ent * fNF d + i)) % 2 ^ 64).find? fun va =>
    match translate s k.core k.ctx (BitVec.ofNat 64 va) with
    | some (pa, _) => farLine (lineOf pa)
    | none => false

/-- A sample that has stopped with NAN (R309). -/
def Sample.failed (x : Sample) (f : Fail) : Sample := { x with acc := { x.acc with nan := true }, out := some (0x7FC00000, f) }

/-- A sample that has no tree left has its output (R309). -/
def Sample.settled (x : Sample) (d : Nat) : Sample :=
  if fTrees d ≤ x.tree then { x with out := some (eaRead .ea160 (.ieee .f32) .rne x.acc, none) } else x

/-- The clocks that a line takes to come to the engine. -/
def idxLat (s : State) (k : Site) (va : Nat) : Nat :=
  match translate s k.core k.ctx (BitVec.ofNat 64 va) with
  | some (pa, _) => latHome s (lineOf pa)
  | none => 1

/-- The entity of a sample and its feature row are fetched before its walk begins (R310). `odd` is the status of a feature table outside near memory
(log 9). -/
def Sample.fetch (x : Sample) (s : State) (k : Site) (w : Walk) (odd : Nat) : Sample :=
  match idxRead s k ((w.ents.toNat + 4 * x.ix) % 2 ^ 64) 4 with
  | .error f => x.failed f
  | .ok ent =>
    match rowFar s k w.forest ent with
    | some va => { x with ent := ent }.failed (some (odd, BitVec.ofNat 64 va))
    | none =>
      { x with ent := ent, row := some (idxRow s k w.forest ent), acc := Acc.zero,
               ready := s.clock + idxLat s k ((fFeat w.forest + 4 * (ent * fNF w.forest)) % 2 ^ 64) }.settled w.forest

/-- One level of a tree, from a node as read (R309). -/
def Sample.level (x : Sample) (d na node : Nat) (n : Int) (row : List Feat) : Sample :=
  if fld node 31 1 = 1 then
    { x with acc := eaAdd .ea160 x.acc (eaFrom .ea160 (Fmt.f32.val (fld node 96 32))), tree := x.tree + 1, node := none, depth := 0 }.settled d
  else if x.depth = fDepth d then x.failed (some (8, BitVec.ofNat 64 na))
  else if fNF d ≤ fld node 0 16 then x.failed (some (7, BitVec.ofNat 64 na))
  else
    match nth .bad row (fld node 0 16) with
    | .bad => x.failed none
    | .fail st fa => x.failed (some (st, fa))
    | .val v =>
      let xv := Fmt.f32.val v
      let left := if xv.isNan then fld node 30 1 == 1 else xv.lt false (Fmt.f32.val (fld node 96 32))
      { x with node := some (n + intOf true 32 (if left then fld node 32 32 else fld node 64 32)), depth := x.depth + 1 }

/-- The line of the node that a sample needs next, where its address translates; reading a tree's root comes first (R309, R310). -/
def Sample.root (x : Sample) (s : State) (k : Site) (d : Nat) : Except Fail Int :=
  match x.node with
  | some n => .ok n
  | none => (idxRead s k ((fRoots d + 4 * x.tree) % 2 ^ 64) 4).map fun r => (r : Int)

/-- The node buffer takes a line: 256 KiB of lines, of which the oldest gives way (R310). -/
def nodeFill (l : List Nat) (line : Nat) : List Nat := (if 2048 ≤ l.length then l.drop 1 else l) ++ [line]

/-- The lines whose fetch has ended enter the node buffer. -/
def Quad.nodeArrive (q : Quad) (clk : Nat) : Quad :=
  { q with nodes := (q.nodeDue.filter (·.2 ≤ clk)).foldl (fun l e => nodeFill l e.1) q.nodes, nodeDue := q.nodeDue.filter (clk < ·.2) }

/-- A clock of a sample: the fetch of its row, one level of its tree where the node's line is in the node buffer, or the miss that delays it alone
(R310); a second miss of a line waits for the first one's fetch. Nodes are read at their homes; the buffer holds lines back or not. -/
def Sample.clock (x : Sample) (s : State) (qn : Nat) (k : Site) (w : Walk) : State × Sample :=
  if x.out.isSome || s.clock < x.ready then (s, x)
  else
    match x.row with
    | none =>
      let (c, s) := draw s 2
      (s, x.fetch s k w (if c = 0 then 4 else 7))
    | some row =>
      match x.root s k w.forest with
      | .error f => (s, x.failed f)
      | .ok n =>
        let na := (BitVec.ofInt 64 ((fNodes w.forest : Int) + 16 * n)).toNat
        let x := { x with node := some n }
        match translate s k.core k.ctx (BitVec.ofNat 64 na), idxRead s k na 16 with
        | _, .error f => (s, x.failed f)
        | none, .ok node => (s, x.level w.forest na node n row)
        | some (pa, _), .ok node =>
          let q := s.quad qn
          if q.nodes.contains (lineOf pa) then (s, x.level w.forest na node n row)
          else
            match q.nodeDue.find? (·.1 == lineOf pa) with
            | some e => (s, { x with ready := e.2 })
            | none =>
              let due := s.clock + latHome s (lineOf pa)
              (s.setQuad qn { q with nodeDue := q.nodeDue ++ [(lineOf pa, due)] }, { x with ready := due })

/-! ## The engine's clock (R310) -/

def Quad.setWalk (q : Quad) (w : Walk) : Quad := { q with walks := q.walks.map fun x => if x.id == w.id then w else x }
def Quad.walk (q : Quad) (id : Nat) : Option Walk := q.walks.find? (·.id == id)

/-- The samples that all walks of a quad have in flight. -/
def Quad.inFlight (q : Quad) : Nat := (q.walks.map (·.flight.length)).sum

/-- New samples of a walk begin while the engine holds fewer than 64 (R310). -/
def beginSamples (s : State) (qn id : Nat) : State :=
  match (s.quad qn).walk id with
  | none => s
  | some w =>
    let n := min (64 - (s.quad qn).inFlight) (w.n - w.next)
    s.setQuad qn ((s.quad qn).setWalk
      { w with next := w.next + n, flight := w.flight ++ (List.range n).map fun i => { ix := w.next + i } })

/-- A clock of a started walk: samples begin, and each in flight goes on, unless the context is being reset (R364). -/
def walkClock (s : State) (qn id : Nat) : State :=
  let s := beginSamples s qn id
  match (s.quad qn).walk id with
  | none => s
  | some w =>
    match s.team w.team with
    | none => s
    | some t =>
      let k := siteOfTeam s t
      if (s.ctx k.ctx).resetting then s
      else
      let (s, fl) := w.flight.foldl (fun (acc : State × List Sample) x =>
        let (s, x) := x.clock acc.1 qn k w
        (s, acc.2 ++ [x])) (s, [])
      s.setQuad qn ((s.quad qn).setWalk { w with flight := fl })

/-- A clock of the index engines (R310). -/
def indexClock (s : State) : State :=
  s.quads.foldl (fun s q =>
    let s := if (s.quad q.1).nodeDue = [] then s else s.setQuad q.1 ((s.quad q.1).nodeArrive s.clock)
    (q.2.walks.filter (·.started)).foldl (fun s w => walkClock s q.1 w.id) s) s

/-! ## Their events -/

/-- A walk ends with its record. -/
def endWalk (s : State) (qn : Nat) (w : Walk) (ctx status index : Nat) (fa : DWord) : State :=
  let q := s.quad qn
  let s := s.setQuad qn { q with walks := q.walks.filter (·.id != w.id) }
  postRecord s { id := 0, ctx := ctx, team := w.team, core := w.core, cell := w.cell, faddr := fa, skipped := 0, index := index, detail := 0,
                 status := status }

/-- INDEX_WALK_START (R308, R333): the command and the descriptor are read; walks start in posting order, each after the writes of the fibres that
posted it have reached their homes (R223). -/
def execIndexWalkStart (quad walk : Nat) (s : State) : Host.Outcome State Fault Refusal :=
  match (s.quad quad).walks.find? fun w => !w.started with
  | none => .next s
  | some w =>
    match s.team w.team with
    | none => .next s
    | some t =>
      let k := siteOfTeam s t
      if w.id ≠ walk || s.owes w.core w.acks || (s.ctx k.ctx).resetting then .next s
      else if t.scrSize < w.off + 32 then .next (endWalk s quad w k.ctx 4 0 (BitVec.ofNat 64 w.off))
      else
        let c (i : Nat) := scrWord s t w.off i
        if w.off % 32 ≠ 0 ∨ c 0 % 32 ≠ 0 ∨ c 1 % 4 ≠ 0 ∨ c 2 % 4 ≠ 0 ∨ c 3 / 65536 ≠ 0 ∨ c 3 = 0 then
          let (fa, s) := freeDWord s
          .next (endWalk s quad w k.ctx 2 0 fa)
        else
          let s := syncDie s k.die
          match engineRead s k.core k.ctx (BitVec.ofNat 64 (c 0)) 32 with
          | .error x => .next (endWalk s quad w k.ctx (statusOf x) 0 x.faddr)
          | .ok bs =>
            let w := { w with started := true, desc := BitVec.ofNat 64 (c 0), forest := leWord (bs.map (·.1)), ents := BitVec.ofNat 64 (c 1),
                              outs := BitVec.ofNat 64 (c 2), n := c 3 }
            .next (s.setQuad quad ((s.quad quad).setWalk w))

/-- The lower of two failures of samples (R309). -/
def lowerFail (a : Option (Nat × Nat × DWord)) (ix : Nat) (f : Fail) : Option (Nat × Nat × DWord) :=
  match a, f with
  | a, none => a
  | none, some f => some (ix, f.1, f.2)
  | some a, some f => if ix < a.1 then some (ix, f.1, f.2) else some a

/-- A sample leaves the engine; after the last one the walk's record reports DONE or the lowest failure (R309, R333). -/
def sampleOut (s : State) (quad : Nat) (ctx : Nat) (w : Walk) (x : Sample) (f : Fail) : State :=
  let w := { w with flight := w.flight.filter (·.ix != x.ix), fail := lowerFail w.fail x.ix f }
  let s := s.setQuad quad ((s.quad quad).setWalk w)
  if w.next < w.n || w.flight != [] then s
  else
    match w.fail with
    | none => endWalk s quad w ctx 0 w.n 0
    | some (j, st, fa) => endWalk s quad w ctx st j fa

/-- INDEX_SAMPLE_DONE (R309, R310): a sample that has finished its trees has its output written as one write. -/
def execIndexSampleDone (quad walk : Nat) (s : State) : Host.Outcome State Fault Refusal :=
  match (s.quad quad).walk walk with
  | none => .next s
  | some w =>
    match s.team w.team, w.flight.find? (·.out.isSome) with
    | some t, some ({ out := some (v, f), .. } : Sample) =>
      let x := (w.flight.find? (·.out.isSome)).getD { ix := 0 }
      let k := siteOfTeam s t
      let va := w.outs + BitVec.ofNat 64 (4 * x.ix)
      match checkVa s k.core k.ctx va { kind := 5, w := true, seals := true } with
      | .ok (pa, _) =>
        if s.reserved (lineOf pa) || (s.ctx k.ctx).resetting then .next s
        else .next (sampleOut (engineWrite s k.core pa (leBytes v 4)) quad k.ctx w x f)
      | .error e => .next (sampleOut s quad k.ctx w x (f.or (some (statusOf e, e.faddr))))
    | _, _ => .next s

end Sys2Proof.Machine
end

