-- ==== Sys2Proof/Machine/Tiles.lean ====
section
/-! DEFINITION. The tile table, major 0x70 (R317 to R319). -/

namespace Sys2Proof.Machine

/-- The entry that a shape word and an offset describe (R317). -/
def shapeTile (t : Team) (x y : Nat) : Tile :=
  { owner := t.slot, addr := t.tileBase + 128 * y, off := y, cols := fld x 8 7, rows := fld x 0 7, fmt := fld x 16 4, st := .filling }

/-- Whether two tiles of a carve-out overlap. -/
def tilesMeet (a b : Tile) : Bool := decide (a.addr < b.addr + b.extent ∧ b.addr < a.addr + a.extent)

/-- The checks of talloc (R317), and the entry's number. -/
def tallocCheck (s : State) (t : Team) (h : Nat) (e : Tile) : Except Trap Nat :=
  if 10 ≤ e.fmt then .error (.illegalAt 0)
  else
    match tileIx t h with
    | none => .error (.tile h)
    | some ix =>
      let c := s.core t.core
      if (c.tile ix).st ≠ .empty then .error (.tile h)
      else if t.tileSize < 128 * e.off + e.extent ||
          (List.range t.tblCount).any fun j => (c.tile (t.tblBase + j)).st != .empty && tilesMeet e (c.tile (t.tblBase + j)) then
        .error (.at .protection (BitVec.ofNat 64 (128 * e.off)) 5)
      else .ok ix

/-- The bytes of a range of the unified store set to zero, their poison with them. -/
def Core.zero (c : Core) (a n : Nat) : Core :=
  { c with store := c.store.filter (fun e => e.1 < a || a + n ≤ e.1),
           scrPoison := c.scrPoison.filter fun e => !decide (a ≤ 32 * e.1 ∧ 32 * e.1 + 32 ≤ a + n) }

/-- talloc (R317): zeroing starts in the issue clock at 1 KiB a clock. -/
def execTalloc (g : Guard) (t : Fin 64) (q : Fin 8) (x y : Src) (s : State) : Host.Outcome State Fault Refusal :=
  crewIssue (.talloc g t q x y) q.val [] (fun e => do pure [← rd32 x e, ← rd32 y e])
    (fun k _ _ vs s => do
      let e := shapeTile k.team (opnd vs 0) (opnd vs 1)
      let ix ← tallocCheck s k.team t.val e
      let c := (s.core k.core).zero e.addr e.extent
      pure (some (s.setCore k.core (c.setTile ix { e with zeroed := some (s.clock + max 1 ((e.extent + 1023) / 1024)) }), passOn))) s

/-- tfree (R318). -/
def execTfree (g : Guard) (t : Fin 64) (q : Fin 8) (s : State) : Host.Outcome State Fault Refusal :=
  crewIssue (.tfree g t q) q.val [t] rdNone
    (fun k _ _ _ s => do
      let (ix, _) ← needTile s k.team t.val
      pure (some (s.setCore k.core ((s.core k.core).setTile ix {}), passOn))) s

/-- An instruction that acts on a READY tile at each executing fibre (R315, R319). -/
def tileIssue (i : Instr) (h : Fin 64) (b : Ex → State → Option (State × Act)) (pre : List Ex → Option (Ex → Trap)) (s : State) :
    Host.Outcome State Fault Refusal :=
  issueWith i .none (fun es s =>
    match es with
    | [] => some (s, [])
    | e :: _ =>
      match s.team e.f.team with
      | none => none
      | some t =>
        if tileBusy s t h.val then none
        else
          match pre es with
          | some x => some (s, es.map fun e => .trap (x e))
          | none => each b es s) s

/-- tinfo (R319). -/
def execTinfo (g : Guard) (t : Fin 64) (d : Dst64) (s : State) : Host.Outcome State Fault Refusal :=
  tileIssue (.tinfo g t d) t (fun e s =>
    match siteOf s e.f with
    | none => none
    | some k =>
      match needTile s k.team t.val with
      | .error x => some (s, .trap x)
      | .ok (_, tl) => some (s, .go { f := e.f, w := Wr.wide d (BitVec.ofNat 64 tl.desc) .n32 .n32 })) (fun _ => none) s

/-- The 256 bytes of a tile's exponents: rows, then columns, each sign-extended (R319). -/
def expBytes (t : Tile) : List Byte :=
  ((List.range 128).map fun i => (getD 0 i t.rowExp).signExtend 8) ++ (List.range 128).map fun i => (getD 0 i t.colExp).signExtend 8

def expMap (bs : List Byte) : List (Nat × BitVec 5) :=
  bs.zipIdx.foldl (fun m b => setD 0 b.2 (b.1.setWidth 5) m) []

/-- tinfo.getexp (R319). -/
def execTinfoGetexp (g : Guard) (t : Fin 64) (y : Src) (s : State) : Host.Outcome State Fault Refusal :=
  tileIssue (.tinfoGetexp g t y) t (fun e s =>
    match siteOf s e.f with
    | none => none
    | some k =>
      match (do
        let o ← rd32 y e
        let (_, tl) ← needTile s k.team t.val
        scratchCheck k.team o.2 256 8 3
        pure (o.2, tl)) with
      | .error x => some (s, .trap x)
      | .ok (o, tl) => some (s.setCore k.core ((s.core k.core).putBytes (k.team.scrBase + o) (expBytes tl)), .go { f := e.f })) (fun _ => none) s

/-- The offsets that fibres of one tinfo.setexp give must be equal; a fibre whose own offset cannot be read has the trap of its operand (R26 step 3,
R319). -/
def setexpDiffers (y : Src) (es : List Ex) : Option (Ex → Trap) :=
  let os := es.filterMap fun e => if e.pre.isSome then none else match rd32 y e with | .ok o => some o.2 | .error _ => none
  if (dedupe os).length ≤ 1 then none
  else some fun e => e.pre.getD (match rd32 y e with | .error x => x | .ok _ => { code := .nonuniform, aux := y.code })

/-- tinfo.setexp (R319). -/
def execTinfoSetexp (g : Guard) (t : Fin 64) (y : Src) (s : State) : Host.Outcome State Fault Refusal :=
  tileIssue (.tinfoSetexp g t y) t (fun e s =>
    match siteOf s e.f with
    | none => none
    | some k =>
      match (do
        let o ← rd32 y e
        let (ix, tl) ← needTile s k.team t.val
        scratchCheck k.team o.2 256 8 2
        match (s.core k.core).badAt (k.team.scrBase + o.2) 256 with
        | some gr => .error { code := .poison, faddr := BitVec.ofNat 64 (32 * gr - k.team.scrBase) }
        | none => pure (o.2, ix, tl)) with
      | .error x => some (s, .trap x)
      | .ok (o, ix, tl) =>
        let c := s.core k.core
        let bs := c.bytes (k.team.scrBase + o) 256
        some (s.setCore k.core (c.setTile ix { tl with rowExp := expMap (bs.take 128), colExp := expMap (bs.drop 128) }), .go { f := e.f }))
    (setexpDiffers y) s

/-- TILE_ZERO_DONE (R194, R317): the entry is READY in the clock after the last clock of its zeroing. -/
def execTileZeroDone (core entry : Nat) (s : State) : Host.Outcome State Fault Refusal :=
  let c := s.core core
  let t := c.tile entry
  match t.zeroed with
  | none => .next s
  | some clk =>
    if s.clock < clk || t.st ≠ .filling then .next s
    else .next (s.setCore core (c.setTile entry { t with st := .ready, zeroed := none }))

end Sys2Proof.Machine
end

