-- ==== Sys2Proof/Machine/Dispatch.lean ====
section
/-! DEFINITION. The meaning of each constructor of Instr, one arm each. -/

namespace Sys2Proof.Machine

def exec (i : Instr) (s : State) : Host.Outcome State Fault Refusal :=
  match i with
  | .iadd c t sat d a b => Sys2Proof.Machine.execIadd c t sat d a b s
  | .isub c t sat d a b => Sys2Proof.Machine.execIsub c t sat d a b s
  | .imul c t sat d a b => Sys2Proof.Machine.execImul c t sat d a b s
  | .imulh c t d a b => Sys2Proof.Machine.execImulh c t d a b s
  | .imad c t sat d a b x => Sys2Proof.Machine.execImad c t sat d a b x s
  | .idiv c t d a b => Sys2Proof.Machine.execIdiv c t d a b s
  | .irem c t d a b => Sys2Proof.Machine.execIrem c t d a b s
  | .imin c t d a b => Sys2Proof.Machine.execImin c t d a b s
  | .imax c t d a b => Sys2Proof.Machine.execImax c t d a b s
  | .iabs c sat d a => Sys2Proof.Machine.execIabs c sat d a s
  | .ineg c sat d a => Sys2Proof.Machine.execIneg c sat d a s
  | .icmp c t cd pd a b => Sys2Proof.Machine.execIcmp c t cd pd a b s
  | .and c d a b => Sys2Proof.Machine.execAnd c d a b s
  | .or c d a b => Sys2Proof.Machine.execOr c d a b s
  | .xor c d a b => Sys2Proof.Machine.execXor c d a b s
  | .andn c d a b => Sys2Proof.Machine.execAndn c d a b s
  | .not c d a => Sys2Proof.Machine.execNot c d a s
  | .shl c d a b => Sys2Proof.Machine.execShl c d a b s
  | .shr c d a b => Sys2Proof.Machine.execShr c d a b s
  | .sha c d a b => Sys2Proof.Machine.execSha c d a b s
  | .rot c d a b => Sys2Proof.Machine.execRot c d a b s
  | .popc c d a => Sys2Proof.Machine.execPopc c d a s
  | .clz c d a => Sys2Proof.Machine.execClz c d a s
  | .ctz c d a => Sys2Proof.Machine.execCtz c d a s
  | .brev c d a => Sys2Proof.Machine.execBrev c d a s
  | .bfx c t d a b => Sys2Proof.Machine.execBfx c t d a b s
  | .bfi c d a b x => Sys2Proof.Machine.execBfi c d a b x s
  | .lea c sh d a b => Sys2Proof.Machine.execLea c sh d a b s
  | .addc c d a b => Sys2Proof.Machine.execAddc c d a b s
  | .mov c d a => Sys2Proof.Machine.execMov c d a s
  | .sel c d p b x => Sys2Proof.Machine.execSel c d p b x s
  | .plog c tt pd pa pb => Sys2Proof.Machine.execPlog c tt pd pa pb s
  | .movi c t d imm => Sys2Proof.Machine.execMovi c t d imm s
  | .movw c d imm => Sys2Proof.Machine.execMovw c d imm s
  | .fadd c m d a b => Sys2Proof.Machine.execFadd c m d a b s
  | .fsub c m d a b => Sys2Proof.Machine.execFsub c m d a b s
  | .fmul c m d a b => Sys2Proof.Machine.execFmul c m d a b s
  | .ffma c m d a b x => Sys2Proof.Machine.execFfma c m d a b x s
  | .fmin c d a b => Sys2Proof.Machine.execFmin c d a b s
  | .fmax c d a b => Sys2Proof.Machine.execFmax c d a b s
  | .fabs c d a => Sys2Proof.Machine.execFabs c d a s
  | .fneg c d a => Sys2Proof.Machine.execFneg c d a s
  | .fcmp c cd pd a b => Sys2Proof.Machine.execFcmp c cd pd a b s
  | .fdiv c m d a b => Sys2Proof.Machine.execFdiv c m d a b s
  | .fsqrt c m d a => Sys2Proof.Machine.execFsqrt c m d a s
  | .frcp c m d a => Sys2Proof.Machine.execFrcp c m d a s
  | .fexp2 c m d a => Sys2Proof.Machine.execFexp2 c m d a s
  | .flog2 c m d a => Sys2Proof.Machine.execFlog2 c m d a s
  | .frnd c m d a => Sys2Proof.Machine.execFrnd c m d a s
  | .fcls c d a => Sys2Proof.Machine.execFcls c d a s
  | .hadd c f m d a b => Sys2Proof.Machine.execHadd c f m d a b s
  | .hmul c f m d a b => Sys2Proof.Machine.execHmul c f m d a b s
  | .hfma c f m d a b x => Sys2Proof.Machine.execHfma c f m d a b x s
  | .hmax c f d a b => Sys2Proof.Machine.execHmax c f d a b s
  | .cvt c src dst m d a => Sys2Proof.Machine.execCvt c src dst m d a s
  | .pack c src dst m d a j x => Sys2Proof.Machine.execPack c src dst m d a j x s
  | .unpack c src dst m d a j => Sys2Proof.Machine.execUnpack c src dst m d a j s
  | .retag c t d a => Sys2Proof.Machine.execRetag c t d a s
  | .vdot8 c f m d a b x => Sys2Proof.Machine.execVdot8 c f m d a b x s
  | .vdot6 c m d a b x => Sys2Proof.Machine.execVdot6 c m d a b x s
  | .vl2d8 c f m d a b x => Sys2Proof.Machine.execVl2d8 c f m d a b x s
  | .vhamm c d a b x => Sys2Proof.Machine.execVhamm c d a b x s
  | .vpqd c grp d a sB x => Sys2Proof.Machine.execVpqd c grp d a sB x s
  | .vrand c f d a => Sys2Proof.Machine.execVrand c f d a s
  | .bra g off => Sys2Proof.Machine.execBra g off s
  | .dbra g off ctr => Sys2Proof.Machine.execDbra g off ctr s
  | .call g off sh => Sys2Proof.Machine.execCall g off sh s
  | .jmp g a => Sys2Proof.Machine.execJmp g a s
  | .calli g a sh => Sys2Proof.Machine.execCalli g a sh s
  | .ret g => Sys2Proof.Machine.execRet g s
  | .nop g => Sys2Proof.Machine.execNop g s
  | .frameWord imm => Sys2Proof.Machine.execFrameWord imm s
  | .fork g off vD => Sys2Proof.Machine.execFork g off vD s
  | .spawn g off vA => Sys2Proof.Machine.execSpawn g off vA s
  | .endF g => Sys2Proof.Machine.execEndF g s
  | .yield g => Sys2Proof.Machine.execYield g s
  | .crew g pd size q => Sys2Proof.Machine.execCrew g pd size q s
  | .join g pd k dl q => Sys2Proof.Machine.execJoin g pd k dl q s
  | .leave g k q => Sys2Proof.Machine.execLeave g k q s
  | .vote g op ps q => Sys2Proof.Machine.execVote g op ps q s
  | .shfl g m d a b q => Sys2Proof.Machine.execShfl g m d a b q s
  | .cbcast g d a b q => Sys2Proof.Machine.execCbcast g d a b q s
  | .credi g op t d a q => Sys2Proof.Machine.execCredi g op t d a q s
  | .credf g op d a q => Sys2Proof.Machine.execCredf g op d a q s
  | .cscan g op excl t d a q => Sys2Proof.Machine.execCscan g op excl t d a q s
  | .regrow g pd b dl => Sys2Proof.Machine.execRegrow g pd b dl s
  | .regshrink g pd b => Sys2Proof.Machine.execRegshrink g pd b s
  | .ld c sz sp h t d ad => Sys2Proof.Machine.execLd c sz sp h t d ad s
  | .ldSplit c sz h t d p imm => Sys2Proof.Machine.execLdSplit c sz h t d p imm s
  | .st g sz sp h x ad => Sys2Proof.Machine.execSt g sz sp h x ad s
  | .stSplit g sz h x p imm => Sys2Proof.Machine.execStSplit g sz h x p imm s
  | .atom g op o sc sz sp d nw ad => Sys2Proof.Machine.execAtom g op o sc sz sp d nw ad s
  | .acas g o sc sz sp d nw ad => Sys2Proof.Machine.execAcas g o sc sz sp d nw ad s
  | .eacc g k o sc sp d ad => Sys2Proof.Machine.execEacc g k o sc sp d ad s
  | .earead c k m sp d ad => Sys2Proof.Machine.execEaread c k m sp d ad s
  | .ldsum c k pod d ad => Sys2Proof.Machine.execLdsum c k pod d ad s
  | .ldver c sp d ad => Sys2Proof.Machine.execLdver c sp d ad s
  | .stv g sz sp d nw ad => Sys2Proof.Machine.execStv g sz sp d nw ad s
  | .pfl g sp h ad => Sys2Proof.Machine.execPfl g sp h ad s
  | .fence g o sc => Sys2Proof.Machine.execFence g o sc s
  | .tbegin g off dl => Sys2Proof.Machine.execTbegin g off dl s
  | .otherwise g off => Sys2Proof.Machine.execOtherwise g off s
  | .tcommit g => Sys2Proof.Machine.execTcommit g s
  | .tabort g a => Sys2Proof.Machine.execTabort g a s
  | .retry g => Sys2Proof.Machine.execRetry g s
  | .tstat g d ps => Sys2Proof.Machine.execTstat g d ps s
  | .bar g sc d a => Sys2Proof.Machine.execBar g sc d a s
  | .seal g pod a b => Sys2Proof.Machine.execSeal g pod a b s
  | .unseal g pod a b => Sys2Proof.Machine.execUnseal g pod a b s
  | .talloc g t q x y => Sys2Proof.Machine.execTalloc g t q x y s
  | .tfree g t q => Sys2Proof.Machine.execTfree g t q s
  | .tinfo g t d => Sys2Proof.Machine.execTinfo g t d s
  | .tinfoGetexp g t y => Sys2Proof.Machine.execTinfoGetexp g t y s
  | .tinfoSetexp g t y => Sys2Proof.Machine.execTinfoSetexp g t y s
  | .xcopy g q x y => Sys2Proof.Machine.execXcopy g q x y s
  | .xchain g q x y => Sys2Proof.Machine.execXchain g q x y s
  | .tmove g q x y => Sys2Proof.Machine.execTmove g q x y s
  | .mlds g t q => Sys2Proof.Machine.execMlds g t q s
  | .mma g swap ad t q acc x => Sys2Proof.Machine.execMma g swap ad t q acc x s
  | .mmas g swap pat ta tb tc q acc x => Sys2Proof.Machine.execMmas g swap pat ta tb tc q acc x s
  | .acsnap g tc q acc d y => Sys2Proof.Machine.execAcsnap g tc q acc d y s
  | .acdrain g q acc k => Sys2Proof.Machine.execAcdrain g q acc k s
  | .acclr g all k q acc => Sys2Proof.Machine.execAcclr g all k q acc s
  | .adload g q x y => Sys2Proof.Machine.execAdload g q x y s
  | .adinv g q x => Sys2Proof.Machine.execAdinv g q x s
  | .vprune g pat hi ta tb tc q x y => Sys2Proof.Machine.execVprune g pat hi ta tb tc q x y s
  | .sift g strm x y => Sys2Proof.Machine.execSift g strm x y s
  | .sieveget g strm q x => Sys2Proof.Machine.execSieveget g strm q x s
  | .sieveset g strm q x => Sys2Proof.Machine.execSieveset g strm q x s
  | .fwalk g q x y => Sys2Proof.Machine.execFwalk g q x y s
  | .trap g a => Sys2Proof.Machine.execTrap g a s
  | .rti g => Sys2Proof.Machine.execRti g s
  | .brk g => Sys2Proof.Machine.execBrk g s
  | .rdsys g d code q => Sys2Proof.Machine.execRdsys g d code q s
  | .wrsys g mark b => Sys2Proof.Machine.execWrsys g mark b s
  | .tree t => Sys2Proof.Machine.execTree t s
  | .unassignedMajor w => Sys2Proof.Machine.execUnassignedMajor w s
  | .sealingUnitApply => Sys2Proof.Machine.execSealingUnitApply s
  | .tileZeroDone core entry => Sys2Proof.Machine.execTileZeroDone core entry s
  | .issueSelect core slot => Sys2Proof.Machine.execIssueSelect core slot s
  | .colanderWindow core slot => Sys2Proof.Machine.execColanderWindow core slot s
  | .slotWatchdog core slot => Sys2Proof.Machine.execSlotWatchdog core slot s
  | .clusterAdmit launch cores => Sys2Proof.Machine.execClusterAdmit launch cores s
  | .teamRetire team => Sys2Proof.Machine.execTeamRetire team s
  | .clusterRetireReport launch pos => Sys2Proof.Machine.execClusterRetireReport launch pos s
  | .allotmentStep core => Sys2Proof.Machine.execAllotmentStep core s
  | .regrowDeadline team => Sys2Proof.Machine.execRegrowDeadline team s
  | .crewEvaluate core => Sys2Proof.Machine.execCrewEvaluate core s
  | .txnDeadline fibre => Sys2Proof.Machine.execTxnDeadline fibre s
  | .wake fibre => Sys2Proof.Machine.execWake fibre s
  | .watch line ver who => Sys2Proof.Machine.execWatch line ver who s
  | .watchCancel who => Sys2Proof.Machine.execWatchCancel who s
  | .barArrival ext => Sys2Proof.Machine.execBarArrival ext s
  | .claim core line => Sys2Proof.Machine.execClaim core line s
  | .wcbDrainTimeout core line => Sys2Proof.Machine.execWcbDrainTimeout core line s
  | .wcbDrain core line => Sys2Proof.Machine.execWcbDrain core line s
  | .farAtomic op pa len x => Sys2Proof.Machine.execFarAtomic op pa len x s
  | .loadResponse core line => Sys2Proof.Machine.execLoadResponse core line s
  | .rdcPush die line ver mask data poison => Sys2Proof.Machine.execRdcPush die line ver mask data poison s
  | .rdcDropNotice die line => Sys2Proof.Machine.execRdcDropNotice die line s
  | .l1CopyExpiry core line => Sys2Proof.Machine.execL1CopyExpiry core line s
  | .rdcRemoteExpiry die line => Sys2Proof.Machine.execRdcRemoteExpiry die line s
  | .messageDeliver die src => Sys2Proof.Machine.execMessageDeliver die src s
  | .walkComplete die ctx page => Sys2Proof.Machine.execWalkComplete die ctx page s
  | .tlbinvPage die va ctx => Sys2Proof.Machine.execTlbinvPage die va ctx s
  | .tlbinvContext die ctx => Sys2Proof.Machine.execTlbinvContext die ctx s
  | .tlbinvAll die => Sys2Proof.Machine.execTlbinvAll die s
  | .tlbinvDone die => Sys2Proof.Machine.execTlbinvDone die s
  | .ldsumGather id ext => Sys2Proof.Machine.execLdsumGather id ext s
  | .arbiterGrant quad => Sys2Proof.Machine.execArbiterGrant quad s
  | .passPromotion quad part => Sys2Proof.Machine.execPassPromotion quad part s
  | .requestStart quad part => Sys2Proof.Machine.execRequestStart quad part s
  | .rowAddition quad part req row => Sys2Proof.Machine.execRowAddition quad part req row s
  | .passComplete quad part req => Sys2Proof.Machine.execPassComplete quad part req s
  | .adapterSliceArrival quad part id proj kstep nstep => Sys2Proof.Machine.execAdapterSliceArrival quad part id proj kstep nstep s
  | .replaySidePass quad part req row => Sys2Proof.Machine.execReplaySidePass quad part req row s
  | .replayAddition quad part req row => Sys2Proof.Machine.execReplayAddition quad part req row s
  | .adapterFault quad part id proj kstep nstep => Sys2Proof.Machine.execAdapterFault quad part id proj kstep nstep s
  | .addOnStore quad part => Sys2Proof.Machine.execAddOnStore quad part s
  | .copyEntryCopy core cmd => Sys2Proof.Machine.execCopyEntryCopy core cmd s
  | .copyEntryCopymma core cmd => Sys2Proof.Machine.execCopyEntryCopymma core cmd s
  | .copyEntryTmove core cmd => Sys2Proof.Machine.execCopyEntryTmove core cmd s
  | .copyEntryPrefetch core cmd => Sys2Proof.Machine.execCopyEntryPrefetch core cmd s
  | .copyEntryLoop core cmd => Sys2Proof.Machine.execCopyEntryLoop core cmd s
  | .copyEntrySkipif core cmd => Sys2Proof.Machine.execCopyEntrySkipif core cmd s
  | .copyEntrySignal core cmd => Sys2Proof.Machine.execCopyEntrySignal core cmd s
  | .copyEntryEnd core cmd => Sys2Proof.Machine.execCopyEntryEnd core cmd s
  | .completionRecord id => Sys2Proof.Machine.execCompletionRecord id s
  | .indexWalkStart quad walk => Sys2Proof.Machine.execIndexWalkStart quad walk s
  | .indexSampleDone quad walk => Sys2Proof.Machine.execIndexSampleDone quad walk s
  | .pruneComplete quad part => Sys2Proof.Machine.execPruneComplete quad part s
  | .halt team => Sys2Proof.Machine.execHalt team s
  | .haltRecords team => Sys2Proof.Machine.execHaltRecords team s
  | .nestedFault team => Sys2Proof.Machine.execNestedFault team s
  | .asyncEngineFault team cause => Sys2Proof.Machine.execAsyncEngineFault team cause s
  | .dbgRelease core slots => Sys2Proof.Machine.execDbgRelease core slots s
  | .dbgHaltreq core slots => Sys2Proof.Machine.execDbgHaltreq core slots s
  | .dbgFstop core slots => Sys2Proof.Machine.execDbgFstop core slots s
  | .preempt ctx us => Sys2Proof.Machine.execPreempt ctx us s
  | .drainDeadline ctx => Sys2Proof.Machine.execDrainDeadline ctx s
  | .resetCtx ctx => Sys2Proof.Machine.execResetCtx ctx s
  | .freeze ctx => Sys2Proof.Machine.execFreeze ctx s
  | .thaw ctx => Sys2Proof.Machine.execThaw ctx s
  | .start ctx => Sys2Proof.Machine.execStart ctx s
  | .resume ctx => Sys2Proof.Machine.execResume ctx s
  | .ctxsaveWrite ctx val root queues frames => Sys2Proof.Machine.execCtxsaveWrite ctx val root queues frames s
  | .qpSubmit q val => Sys2Proof.Machine.execQpSubmit q val s
  | .qpQcbWrite q val => Sys2Proof.Machine.execQpQcbWrite q val s
  | .qpStatClear q val => Sys2Proof.Machine.execQpStatClear q val s
  | .packetTake q => Sys2Proof.Machine.execPacketTake q s
  | .launch q => Sys2Proof.Machine.execLaunch q s
  | .pool q => Sys2Proof.Machine.execPool q s
  | .wait q => Sys2Proof.Machine.execWait q s
  | .waitDeadline q => Sys2Proof.Machine.execWaitDeadline q s
  | .signal q => Sys2Proof.Machine.execSignal q s
  | .marker q => Sys2Proof.Machine.execMarker q s
  | .digest q => Sys2Proof.Machine.execDigest q s
  | .poolBinForm launch pc core => Sys2Proof.Machine.execPoolBinForm launch pc core s
  | .poolEnd launch => Sys2Proof.Machine.execPoolEnd launch s
  | .launchFlush launch => Sys2Proof.Machine.execLaunchFlush launch s
  | .flushAnswer launch die => Sys2Proof.Machine.execFlushAnswer launch die s
  | .launchComplete launch => Sys2Proof.Machine.execLaunchComplete launch s
  | .shawmWatchdog q => Sys2Proof.Machine.execShawmWatchdog q s
  | .firmwareRestart => Sys2Proof.Machine.execFirmwareRestart s
  | .ubWrite core which val => Sys2Proof.Machine.execUbWrite core which val s
  | .mxdirWrite quad part val => Sys2Proof.Machine.execMxdirWrite quad part val s
  | .retctlWrite die val => Sys2Proof.Machine.execRetctlWrite die val s
  | .retentionReencodeDone die layer => Sys2Proof.Machine.execRetentionReencodeDone die layer s
  | .kheartWrite val => Sys2Proof.Machine.execKheartWrite val s
  | .kernelStop fatal => Sys2Proof.Machine.execKernelStop fatal s
  | .qenableWrite val => Sys2Proof.Machine.execQenableWrite val s
  | .modidWrite val => Sys2Proof.Machine.execModidWrite val s
  | .podmembWrite val => Sys2Proof.Machine.execPodmembWrite val s
  | .podResendTimeout peer => Sys2Proof.Machine.execPodResendTimeout peer s
  | .podAckTimer peer => Sys2Proof.Machine.execPodAckTimer peer s
  | .bootRetry => Sys2Proof.Machine.execBootRetry s
  | .blockRequestTimeout block => Sys2Proof.Machine.execBlockRequestTimeout block s
  | .nonpassRequestComplete quad part req => Sys2Proof.Machine.execNonpassRequestComplete quad part req s
  | .regrowCopyComplete team => Sys2Proof.Machine.execRegrowCopyComplete team s
  | .waitPacketWake q => Sys2Proof.Machine.execWaitPacketWake q s
  | .sievegetDone core team => Sys2Proof.Machine.execSievegetDone core team s
  | .writeAcknowledge core => Sys2Proof.Machine.execWriteAcknowledge core s
  | .warmRebootDone => Sys2Proof.Machine.execWarmRebootDone s
  | .dhcpPortTimeout => Sys2Proof.Machine.execDhcpPortTimeout s
  | .homeWrite host pa bytes => Sys2Proof.Machine.execHomeWrite host pa bytes s
  | .commitReserve line step => Sys2Proof.Machine.execCommitReserve line step s
  | .uncorrectableError e => Sys2Proof.Machine.execUncorrectableError e s
  | .powerUp b => Sys2Proof.Machine.execPowerUp b s
  | .bootBlockReply block len data => Sys2Proof.Machine.execBootBlockReply block len data s
  | .powerLoss burnt => Sys2Proof.Machine.execPowerLoss burnt s
  | .droopStretch die => Sys2Proof.Machine.execDroopStretch die s
  | .linkFlitRetry die bundle => Sys2Proof.Machine.execLinkFlitRetry die bundle s
  | .attestationReport nonce => Sys2Proof.Machine.execAttestationReport nonce s
  | .portDescriptor desc status data => Sys2Proof.Machine.execPortDescriptor desc status data s
  | .podFrameReceive src dst flits seq ack => Sys2Proof.Machine.execPodFrameReceive src dst flits seq ack s
  | .registerWrite off val => Sys2Proof.Machine.execRegisterWrite off val s
  | .loadCodeObject ctx src code data desc => Sys2Proof.Machine.execLoadCodeObject ctx src code data desc s
  | .proebTranslate ctx src len code desc => Sys2Proof.Machine.execProebTranslate ctx src len code desc s
  | .xlatCacheLookup key => Sys2Proof.Machine.execXlatCacheLookup key s

end Sys2Proof.Machine
end

