-- ==== Sys2Proof/Machine/Schedule.lean ====
section
/-! DEFINITION. The clock: which events of which agents are due in it, in the order in which the model lets them happen (R148, R151, R203; log 2). An
event whose moment the spec leaves open is put off by a free draw (log 3); one that is not enabled when its turn comes leaves the machine as it is. -/

namespace Sys2Proof.Machine

/-! ## Who there is -/

def coresOf (s : State) : List Nat := sortBy id (dedupe (s.cores.map (·.1) ++ s.teams.map (·.2.core)))
def quadsOf (s : State) : List Nat := sortBy id (dedupe (s.quads.map (·.1) ++ s.teams.map fun t => quadOfCore t.2.core))
/-- A partition that holds requests or add-on-stores, or that a team is bound to. -/
def partsOf (s : State) : List (Nat × Nat) :=
  (quadsOf s).flatMap fun q => ((List.range 4).filter fun p => (s.part q p) != {}).map fun p => (q, p)

/-! ## Events by agent -/

/-- Wakes and deadlines of fibres; a wake goes before a deadline (R236). Those for other modules leave by the ports. -/
def wakeEvents (s : State) : List Instr :=
  s.wakes.filterMap (fun w => match w.who with | .fibre k => some (.wake k) | .thread q => some (.waitPacketWake q) | _ => none) ++
  s.fibres.filterMap fun e => match e.2.st with
    | .sleeping _ _ (some d) _ _ => if d ≤ s.clock then some (.txnDeadline e.1) else none
    | _ => none

/-- Completions that fall due in this clock. -/
def completionEvents (s : State) : List Instr :=
  (s.teams.filterMap fun t => if t.2.copying then some (.regrowCopyComplete t.1) else none) ++
  (s.cores.flatMap fun c => c.2.tiles.filterMap fun t => t.2.zeroed.map fun _ => .tileZeroDone c.1 t.1) ++
  (s.cores.flatMap fun c => (dedupe (c.2.sieveBusy.map (·.team))).map fun t => .sievegetDone c.1 t) ++
  (partsOf s).flatMap fun p => (s.part p.1 p.2).reqs.filterMap fun r =>
    match r.due with
    | some d => if d ≤ s.clock then some (if r.isPass then .passComplete p.1 p.2 r.id else .nonpassRequestComplete p.1 p.2 r.id) else none
    | none => none

/-- Halts, their records, and faults without a handler (R342 to R350). -/
def haltEvents (s : State) : List Instr :=
  (s.teams.filterMap fun t => if t.2.pendEv.any (·.num.isNone) then some (.halt t.1) else none) ++
  (s.teams.filterMap fun t => if t.2.halt.isSome then some (.haltRecords t.1) else none) ++
  (s.teams.filterMap fun t => if t.2.halt.isSome then some (.nestedFault t.1) else none)

/-- Windows at clocks of the cores' count that are multiples of 4, then the selections of each slot with its watchdog (R148, R151 to R154). -/
def slotEvents (s : State) : List Instr :=
  let cs := sortBy id (dedupe (s.teams.map (·.2.core)))
  (if (s.clock - s.epoch) % 4 = 0 then cs.flatMap fun c => (List.range 4).map fun i => .colanderWindow c i else []) ++
  cs.flatMap fun c => (List.range 4).flatMap fun i => [.issueSelect c i, .slotWatchdog c i]

/-- The arrivals of the clock's bar instructions reach their cells as the instructions do, before what their fibres issue later (R217, R226, R244). -/
def barEvents (s : State) : List Instr := if s.teams = [] then [] else [.barArrival none]

/-- The steps that end a core's clock. -/
def coreEvents (s : State) : List Instr :=
  let cs := sortBy id (dedupe (s.teams.map (·.2.core)))
  cs.map .crewEvaluate ++ s.teams.map (fun t => .teamRetire t.1) ++ (coresOf s).map .allotmentStep ++ s.teams.map fun t => .regrowDeadline t.1

/-- What the copy engine meets at each command in progress. -/
def copyEvents (s : State) : List Instr :=
  s.cores.flatMap fun e => (e.2.copyQ.take 4).filterMap fun c => (s.team c.team).map fun t =>
    match curOp s t c with
    | .copy => .copyEntryCopy e.1 c.id
    | .copymma => .copyEntryCopymma e.1 c.id
    | .tmove => .copyEntryTmove e.1 c.id
    | .prefetch => .copyEntryPrefetch e.1 c.id
    | .loop => .copyEntryLoop e.1 c.id
    | .skipif => .copyEntrySkipif e.1 c.id
    | .signal => .copyEntrySignal e.1 c.id
    | _ => .copyEntryEnd e.1 c.id

/-- Slices that arrive, or whose fetch fails. -/
def adapterEvents (s : State) : List Instr :=
  s.quads.flatMap fun e => e.2.fetches.flatMap fun f =>
    [.adapterSliceArrival e.1 f.tag.part f.tag.id f.tag.proj f.tag.kstep f.tag.nstep,
     .adapterFault e.1 f.tag.part f.tag.id f.tag.proj f.tag.kstep f.tag.nstep]

/-- Rows of the matrix engines that are added in this clock. -/
def rowEvents (s : State) : List Instr :=
  (s.quads.filterMap fun e => (nextSide e.2).map fun x => .replaySidePass e.1 x.part x.req x.row) ++
  ((partsOf s).flatMap fun p => (s.part p.1 p.2).reqs.flatMap fun r =>
    (r.entered.filter fun x => decide (x.2 + 256 ≤ s.clock) && !r.added.contains x.1).map fun x => .rowAddition p.1 p.2 r.id x.1) ++
  s.quads.flatMap fun e => (e.2.replay.filter fun x => decide (x.entry + 256 ≤ s.clock)).map fun x => .replayAddition e.1 x.part x.req x.row

/-- Promotions, starts and grants (R275). -/
def matrixEvents (s : State) : List Instr :=
  (quadsOf s).flatMap fun q => (List.range 4).map (.passPromotion q) ++ (List.range 4).map (.requestStart q) ++ [.arbiterGrant q]

/-- The events whose moment is open. -/
def engineEvents (s : State) : List Instr :=
  ((partsOf s).filterMap fun p => if (s.part p.1 p.2).adds = [] then none else some (.addOnStore p.1 p.2)) ++
  ((partsOf s).filterMap fun p => if (s.part p.1 p.2).reqs.any (fun r => r.started.isSome && r.due.isNone && !r.isPass) then some (.pruneComplete p.1 p.2)
    else none) ++
  (s.quads.flatMap fun e => e.2.walks.flatMap fun w =>
    if w.started then (w.flight.filter (·.out.isSome)).map fun _ => .indexSampleDone e.1 w.id else [.indexWalkStart e.1 w.id]) ++
  s.records.map fun r => .completionRecord r.id

/-- Claims, drains, fills, messages, walks, acknowledgements (R196 to R207, R217, R265, R402). -/
def memoryEvents (s : State) : List Instr :=
  (s.cores.flatMap fun e => e.2.wcb.filterMap fun w => if w.claimed then none else some (.claim e.1 w.line)) ++
  (s.cores.flatMap fun e => e.2.fills.map fun f => .loadResponse e.1 f.1) ++
  (s.cores.flatMap fun e => e.2.acks.map fun _ => .writeAcknowledge e.1) ++
  (s.dies.flatMap fun e => (dedupe (e.2.inbox.map (·.src))).map fun x => .messageDeliver e.1 x) ++
  (s.dies.flatMap fun e => e.2.misses.map fun m => .walkComplete e.1 m.ctx m.page) ++
  (s.dies.filterMap fun e => e.2.inv.map fun _ => .tlbinvDone e.1) ++
  (s.gathers.map fun g => .ldsumGather g.id none) ++
  if s.sealQ = [] then [] else [.sealingUnitApply]

/-- What ages by the clock: combining entries and copies (R198, R219, R222). -/
def ageEvents (s : State) : List Instr :=
  (s.cores.flatMap fun e => e.2.wcb.flatMap fun w =>
    (if w.recalled then [.wcbDrain e.1 w.line] else []) ++ if w.merged + 64 ≤ s.clock then [.wcbDrainTimeout e.1 w.line] else []) ++
  (s.cores.flatMap fun e => e.2.l1.filterMap fun x => if x.2.filled + 4096 ≤ s.clock then some (.l1CopyExpiry e.1 x.1) else none) ++
  s.dies.flatMap fun e => e.2.rdc.filterMap fun x => if x.2.filled + 4096 ≤ s.clock && !s.ownLine x.1 then some (.rdcRemoteExpiry e.1 x.1) else none

/-- A packet of the dispatch unit. -/
def unitEvent (q : Nat) (p : Packet) : Instr :=
  match p.type with
  | 1 => .launch q | 2 => .pool q | 3 => .wait q | 4 => .signal q | 5 => .marker q | _ => .digest q

/-- Threads, the dispatch unit, launches and pools on their way (R410, R416, R422 to R428). -/
def frontEvents (s : State) : List Instr :=
  (s.queues.filterMap fun e => e.2.unit.map (unitEvent e.1)) ++
  ((s.queues.filter fun e => threadRuns s e.1).map fun e => .packetTake e.1) ++
  (s.launches.flatMap fun e =>
    (if e.2.pool then [.poolEnd e.1] else [.launchFlush e.1]) ++
    match e.2.flush with
    | none => []
    | some [] => [.launchComplete e.1]
    | some ds => ds.map fun d => .flushAnswer e.1 d)

/-- Deadlines of the front end and the firmware. -/
def frontDeadlines (s : State) : List Instr :=
  (s.queues.filterMap fun e => match e.2.waitDl with | some d => if d ≤ s.clock then some (.waitDeadline e.1) else none | none => none) ++
  ((s.queues.filter fun e => e.2.st == .serving).map fun e => .shawmWatchdog e.1) ++
  if s.hub.fwRestart.isSome then [.firmwareRestart] else []

/-- A run of admissions tried on a copy w of the machine: the machine with the draws made, the copy, and the events. -/
structure Trial where
  s  : State
  w  : State
  es : List Instr

/-- The clusters of a grid launch that a die admits one after another in this clock, each with a free choice among the quads that fit it (R141, R406). -/
def admitGrid (l : Launch) (die : Nat) : Nat → Trial → Trial
  | 0, x => x
  | fuel + 1, x =>
    match nextCluster x.w die l.express with
    | none => x
    | some (y, p) =>
      match fitsOn x.w die y with
      | [] => x
      | cs =>
        if y.id ≠ l.id then x
        else
          let (i, s) := draw x.s cs.length
          match admitCluster x.w y p (cs.getD i []) with
          | none => x
          | some w => admitGrid l die fuel { x with s := s, w := w, es := x.es ++ [.clusterAdmit l.id (cs.getD i [])] }

/-- The ripe bins of a pool, each with a free choice among the cores where its team may start (R422). -/
def admitPool (l : Launch) (x : Trial) : Trial :=
  (l.fill.bins.filter fun b => b.ripe x.s.clock).foldl (fun x b =>
    match x.w.launch l.id with
    | none => x
    | some y =>
      match (List.range 8).flatMap fun d => if poolTurn x.w y d then (List.range 128).map (128 * d + ·) |>.filter fun c => (poolRoom x.w y.fill c).isSome else [] with
      | [] => x
      | cs =>
        let (i, s) := draw x.s cs.length
        match poolRoom x.w y.fill (cs.getD i 0) with
        | none => x
        | some (r, part) =>
          { x with s := s, w := formTeam x.w y.fill b (cs.getD i 0) part r, es := x.es ++ [.poolBinForm l.id b.pc (cs.getD i 0)] }) x

/-- The clusters and the pools' teams that start in this clock, in the order of admission: by class, then by age (R357, R406). A die has 128 cores of 16
team slots. -/
def admissions (s : State) : State × List Instr :=
  let x := (sortBy (fun l => l.reqClass * 2 ^ 64 + l.id) (s.launches.map (·.2))).foldl (fun (x : Trial) l =>
    if l.pool then admitPool l x else (List.range 8).foldl (fun x d => admitGrid l d 2048 x) x) { s := s, w := s, es := [] }
  (x.s, x.es)

/-- Resets being carried out, drains and their deadlines (R363, R364). -/
def contextEvents (s : State) : List Instr :=
  s.ctxs.flatMap fun e =>
    (if e.2.resetting then [.resetCtx e.1] else []) ++ (if e.2.thawing then [.thaw e.1] else []) ++ if e.2.st = .draining then [.drainDeadline e.1] else []

/-- The hub's timers (R440, R442, R443, R447, R450). -/
def hubEvents (s : State) : List Instr :=
  (match s.hub.kTimer with | some d => if d ≤ s.clock then [.kernelStop false] else [] | none => []) ++
  (s.hub.ports.filterMap fun e => if e.2.unacked != [] && decide (e.2.ackClk + 20 * Config.clocksPerUs ≤ s.clock) then some (.podResendTimeout e.1) else none) ++
  ((List.range 64).filterMap fun m =>
    if (members s).getLsbD m && m != s.hub.modid && decide ((s.port m).reported + 2 * Config.clocksPerUs ≤ s.clock) then some (.podAckTimer m) else none) ++
  (match s.hub.boot with
   | .waitRetry c _ => if c ≤ s.clock then [.bootRetry] else []
   | .address => [.dhcpPortTimeout]
   | .fetching => s.hub.reqs.map fun r => .blockRequestTimeout r.block
   | _ => []) ++
  s.dies.flatMap fun e => (List.finRange 4).filterMap fun i =>
    if e.2.busy.getLsbD i.val && decide (e.2.encAt ≤ s.clock) then some (.retentionReencodeDone e.1 i) else none

/-! ## The clock -/

/-- Whether an event may not be put off any more (R359): a step of the launch of queue 0 that the express bound covers later than 2 microseconds after its
submission, or what an express pass waits for later than a microsecond after its posting: a request of its own partition before it, or the slices for which a
pass of another partition keeps the array. -/
def urgent (s : State) (i : Instr) : Bool :=
  let x := s.queue 0
  let late (n : Nat) : Bool := match x.bound with | some b => b.1 == n && decide (b.2 + 2 * Config.clocksPerUs ≤ s.clock) | none => false
  let waits (q : Nat) : Bool := (s.part q 0).reqs.any fun r => r.due.isNone && decide (r.posted + Config.clocksPerUs ≤ s.clock)
  match i with
  | .packetTake q | .launch q => q == 0 && late x.accepted.toNat
  | .clusterAdmit l _ => (match s.launch l with | some y => y.express && y.queue == 0 && late y.index | none => false)
  | .adapterSliceArrival q _ _ _ _ _ | .adapterFault q _ _ _ _ _ => waits q
  | .addOnStore q p | .pruneComplete q p => p == 0 && waits q
  | _ => false

/-- Each event of a list comes now or, where it is not urgent, may be put off by a free draw (log 3). -/
def sometimes (s : State) (es : List Instr) : State × List Instr :=
  es.foldl (fun (acc : State × List Instr) e =>
    let (hold, s) := drawStall acc.1; (s, if hold && !urgent s e then acc.2 else acc.2 ++ [e])) (s, [])

/-- The events due in the clock that has just begun, in order. -/
def due (s : State) : State × List Instr :=
  let (s, eng) := sometimes s (engineEvents s ++ adapterEvents s)
  let (s, cp) := sometimes s (copyEvents s)
  let (s, fr) := sometimes s (frontEvents s)
  let (s, ad) := admissions s
  let (s, ad) := sometimes s ad
  let (s, mm) := sometimes s (memoryEvents s)
  let (s, rb) := sometimes s (if s.hub.reboot then [.warmRebootDone] else [])
  (s, wakeEvents s ++ completionEvents s ++ eng ++ haltEvents s ++ slotEvents s ++ barEvents s ++ mm ++ coreEvents s ++ cp ++ rowEvents s ++ matrixEvents s ++
    ad ++ frontDeadlines s ++ fr ++ contextEvents s ++ ageEvents s ++ hubEvents s ++ rb)

/-- The next clock begins: epochs are announced, wakes for other modules leave, what the outside does comes first, then the module's own events. -/
def tick (s : State) : State :=
  let s := (List.range 8).foldl announce s
  let late := s.postponed
  let s := { s with clock := s.clock + 1, wakes := s.wakes.filter fun w => match w.who with | .fibre _ | .thread _ => true | _ => false,
                    postponed := [], hub := { s.hub with wire := [] } }
  let (s, es) := due (indexClock s)
  { s with agenda := late ++ Config.outside s.clock ++ es }

/-- A clock of a module without power: of what the outside does, only a power-up matters (R442, R446). -/
def tickDark (s : State) : State :=
  { s with clock := s.clock + 1,
           agenda := (Config.outside (s.clock + 1)).filter fun i => match i with | .powerUp _ => true | _ => false }

end Sys2Proof.Machine
end

