-- ==== Sys2Proof/Machine/Cycle.lean ====
section
/-! DEFINITION. One step: the selected gang's instruction, else the next event of the clock, else the next clock (R15, R55, R56, R151; log 2); and how
an instruction is laid where the next step fetches it (log 1). -/

namespace Sys2Proof.Machine

/-! ## The step -/

/-- What a fetch comes to: the instruction; for a word of no listed major or function the check of the feature table; else the trap (R15, R56, R431). -/
def runFetched (f : Fetched) (s : State) : Host.Outcome State Fault Refusal :=
  match f with
  | .instr i => exec i s
  | .bad w st sel => if st ≤ 2 then exec (.unassignedMajor (BitVec.ofNat 64 w)) s else issueTrap (decTrap (.illegal st sel)) s
  | .trap t => issueTrap t s

/-- The issue of the gang that its slot has selected. -/
def issueStep (gid : Nat) (s : State) : Host.Outcome State Fault Refusal :=
  match (s.gang gid).bind fun g => fetchGang s g with
  | none => .next s.unissue
  | some f => runFetched f s

/-- An event that was put off joins those of the next clock (R232, R438, R450). -/
def keepPutOff (e : Instr) : Host.Outcome State Fault Refusal → Host.Outcome State Fault Refusal
  | .next s => .next (if s.putOff then { s with putOff := false, postponed := s.postponed ++ [e] } else s)
  | r => r

/-- One step of the module. -/
def cycle (s : State) : Host.Outcome State Fault Refusal :=
  match s.issue, s.agenda with
  | some gid, _ => issueStep gid s
  | none, e :: rest => keepPutOff e (exec e { s with agenda := rest })
  | none, [] => .next (if s.power then tick s else tickDark s)

/-! ## A placed instruction (log 1) -/

/-- The words of an instruction whose bits are w, bit 0 the least significant of its first word: as many as the longest instruction has (R55, R79). -/
def placedWords (nbits w : Nat) : List Nat := (List.range 21).map fun i => fld (w % 2 ^ nbits) (64 * i) 64

/-- Bytes laid into memory without any agent's write. -/
def layBytes (s : State) (pa : Nat) (bs : List Byte) : State := bs.zipIdx.foldl (fun s e => s.setByte (pa + e.2) e.1) s

/-- Words laid at a virtual address of a context, each under its own translation. -/
def layWords (s : State) (core ctx : Nat) (va : DWord) (ws : List Nat) : State :=
  ws.zipIdx.foldl (fun s e => match translate s core ctx (va + BitVec.ofNat 64 (8 * e.2)) with
    | some (pa, _) => layBytes s pa (leBytes e.1 8)
    | none => s) s

/-- Whether the gang that issues next can fetch at its address. -/
def canFetch (s : State) : Option (Nat × Nat × DWord) :=
  match s.issue.bind s.gang with
  | none => none
  | some g =>
    match s.team g.team, gangPc s g with
    | some t, some pc =>
      let ctx := (s.teamLaunch t).ctx
      match checkVa s t.core ctx pc { kind := 1, x := true } with
      | .ok _ => some (t.core, ctx, pc)
      | .error _ => none
    | _, _ => none

/-- Page tables for context 0 that map its first GiB, readable, writable and executable, onto the second GiB of near memory of die 0. -/
def layTables (s : State) : State :=
  let s := s.setCtx 0 { s.ctx 0 with root := 0x1000 }
  let s := layBytes s 0x1000 (leBytes 0x2001 8)
  let s := layBytes s 0x2000 (leBytes 0x3001 8)
  layBytes s 0x3000 (leBytes 0x4000005D 8)

/-- A launch of one team with one fibre at address 0 of context 0, whose gang slot 0 of core 0 has selected. -/
def seatFibre (s : State) : State :=
  let n := s.nextId
  let l : Launch := { id := n, queue := 0, index := 0, ctx := 0, cls := 2, n := 1, entry := 0, regs := 256, w := 256 }
  let t : Team := { id := n + 1, core := 0, slot := 0, launch := n, cluster := 0, index := 0, pos := 0, n := 1, w := 256, regBytes := 1024,
                    scrBase := 0x80000, scrSize := 0, tileBase := 0xC0000, tileSize := 0, tblBase := 0, tblCount := 0 }
  let f : Fibre := { fidx := 0, team := n + 1, pc := 0, fs := 256, seed := 0, runPc := 0, st := .ganged }
  let g : Gang := { gid := n + 2, core := 0, slot := 0, team := n + 1, members := [(0, 0)], formed := s.clock }
  let s := ((s.setLaunch n l).setTeam (n + 1) t).setFibre f.key f
  { s with nextId := n + 3, gangs := s.gangs ++ [g], issue := some (n + 2), power := true }

/-- The machine with the instruction laid where its next step fetches it; where no gang is about to fetch, one is seated. -/
def placeWord (s : State) (nbits w : Nat) : State :=
  match canFetch s with
  | some (core, ctx, pc) => layWords s core ctx pc (placedWords nbits w)
  | none => layBytes (seatFibre (layTables s)) 0x40000000 ((placedWords nbits w).flatMap fun x => leBytes x 8)

end Sys2Proof.Machine
end

