-- ==== Sys2Proof/Safety.lean ====
section
/-! DEFINITION. The terms in which statements are made: the canonical form of memory, the conditions under which a gang's instruction issues,
what an issue leaves, and what the events of the device share. -/

namespace Sys2Proof.Machine

/-! ## Memory -/

/-- The canonical form of memory: addresses strictly rising, and no entry equal to what an unlisted address reads as. -/
def Memory.wf (m : List Host.Cell) : Bool := canon 0 m

/-- The canonical form of a state's memories: the module's memory, line metadata, and each core's unified store. -/
def State.wf (s : State) : Prop :=
  Memory.wf s.mem = true ∧ canon {} s.lines = true ∧ ∀ n c, look n s.cores = some c → canon 0 c.store = true

/-- An outcome that goes on. -/
def goesOn (r : Host.Outcome State Fault Refusal) : Prop := ∃ t, r = .next t

/-! ## An issue -/

/-- No breakpoint register of the team's core matches an address in the team's slot (R353, R354). -/
def Unbroken (s : State) (t : Team) (pc : DWord) : Prop :=
  ((s.core t.core).brk.any fun r => brkMatches r.2 t.slot pc) = false

/-- Gang g of team t has been selected, its fibres stand at one PC, and none of them raises a trap of R26's step 1 (R13, R140, R150). -/
structure Issuing (s : State) (i : Instr) (g : Gang) (t : Team) (pc : DWord) : Prop where
  issue : s.issue = some g.gid
  gang  : s.gang g.gid = some g
  team  : s.team g.team = some t
  tid   : t.id = g.team
  full  : g.members ≠ []
  nodup : (g.members.map (·.2)).Nodup
  fibre : ∀ m ∈ g.members, ∃ f, s.fibre (t.key m.2) = some f ∧ f.fidx = m.2 ∧ f.team = t.id ∧ f.pc = pc ∧
    firstTrap s t f = none ∧ stepOne i f = none

/-- A fibre of the gang with its lane. -/
def Member (s : State) (g : Gang) (t : Team) (lane : Nat) (f : Fibre) : Prop :=
  (lane, f.fidx) ∈ g.members ∧ s.fibre (t.key f.fidx) = some f

/-- A fibre of the gang at which the predicate lets the instruction execute (R26 step 2). -/
def Executes (s : State) (g : Gang) (t : Team) (i : Instr) (lane : Nat) (f : Fibre) : Prop :=
  Member s g t lane f ∧ (match guardOf i with | some p => guardOk p f.preds | none => true) = true

/-- The fibre after the instruction: its PC, its run and the clocks of its results advance (R16, R72 to R74, R151). -/
def Fibre.done (i : Instr) (s : State) (t : Team) (lane : Nat) (f : Fibre) (o : Out) : Fibre := advance i s.clock (exOf s t i lane f) o

/-- The fibre after the instruction with these writes. -/
def Fibre.after (i : Instr) (s : State) (t : Team) (lane : Nat) (f : Fibre) (w : Wr) : Fibre := f.done i s t lane { f := f.issuing, w := w }

/-- The fibre after the instruction: as `o` gives it where the predicate lets it execute, else only passed on (R26 step 2). -/
def Fibre.goes (i : Instr) (s : State) (t : Team) (o : Nat → Fibre → Out) (lane : Nat) (f : Fibre) : Fibre :=
  if runs i (exOf s t i lane f) then f.done i s t lane (o lane f) else f.done i s t lane { f := f.issuing }

/-- The fibre after a register-only instruction: with its writes where the predicate lets it execute, else with none. -/
def Fibre.pass (i : Instr) (s : State) (t : Team) (w : Nat → Wr) (lane : Nat) (f : Fibre) : Fibre :=
  Fibre.goes i s t (fun _ f => { f := f.issuing, w := w f.fidx }) lane f

/-- The gang after an issue that it passes whole; its issues after the clock of its team's halt are counted (R342, R343). -/
def Gang.passed (g : Gang) (t : Team) (clk : Nat) : Gang :=
  let late : Bool := match t.halt with | some h => decide (h.clk < g.issuedAt clk) | none => false
  { g with waited := 0, skid := if late then g.skid + 1 else g.skid, pend := none, served := if g.pend.isSome then some clk else g.served }

/-- What an issue leaves when the gang passes it whole: of s, only the gang's fibres, each changed to what `next` gives, and the issuing gang
itself differ; nothing else of the machine does. -/
structure Passed (s s' : State) (g : Gang) (t : Team) (next : Nat → Fibre → Fibre) : Prop where
  rest   : s' = { s with fibres := s'.fibres, gangs := s'.gangs, issue := none }
  mine   : ∀ lane f, Member s g t lane f → s'.fibre (t.key f.fidx) = some (next lane f)
  others : ∀ k, (∀ m ∈ g.members, k ≠ t.key m.2) → s'.fibre k = s.fibre k
  gang   : s'.gang g.gid = some (g.passed t s.clock)
  gangs  : ∀ h, h.gid ≠ g.gid → h.members ≠ [] → (h ∈ s'.gangs ↔ h ∈ s.gangs)

/-- The instruction completes: every fibre of the gang that executes writes what `w` gives for its fidx, and passes on. -/
def Completes (i : Instr) (s : State) (g : Gang) (t : Team) (w : Nat → Wr) : Prop :=
  ∃ s', exec i s = .next s' ∧ Passed s s' g t (Fibre.pass i s t w)

/-- The instruction completes with an effect on the machine: s1 is the machine with that effect, `o` what each executing fibre does besides. -/
def Performs (i : Instr) (s : State) (g : Gang) (t : Team) (s1 : State) (o : Nat → Fibre → Out) : Prop :=
  ∃ s', exec i s = .next s' ∧ Passed s1 s' g t (Fibre.goes i s t o)

/-- Every fibre of the gang executes. -/
def AllExecute (i : Instr) (s : State) (g : Gang) (t : Team) : Prop := ∀ lane f, Member s g t lane f → Executes s g t i lane f

/-- The release of an instruction has nothing left to wait for: its fibres' loads have returned, and the homes have acknowledged their writes (R217). -/
def Released (i : Instr) (s : State) (g : Gang) (t : Team) : Prop := releaseWait i s g ((gather s t g i).filter (runs i)) = none

/-- A gang of one fibre issues, its predicate lets it execute, and it stands in no other gang. -/
structure Solo (i : Instr) (s : State) (g : Gang) (t : Team) (lane : Nat) (f : Fibre) : Prop where
  issuing : Issuing s i g t f.pc
  sole    : g.members = [(lane, f.fidx)]
  here    : s.fibre (t.key f.fidx) = some f
  alone   : ∀ h ∈ s.gangs, h.team = t.id → h.gid ≠ g.gid → ∀ m ∈ h.members, m.2 ≠ f.fidx
  guard   : (match guardOf i with | some p => guardOk p f.preds | none => true) = true

/-- The fidx of a gang's fibres in ascending order. -/
def Gang.ids (g : Gang) : List Nat := (sortBy (·.2) g.members).map (·.2)

/-- The whole of crew q issues: every fibre of the gang executes, and they are the crew's live members (R161). -/
def WholeCrew (i : Instr) (s : State) (g : Gang) (t : Team) (q : Fin 8) (c : Crew) : Prop :=
  t.crew q.val = some c ∧ AllExecute i s g t ∧ g.ids = liveOf c

/-- What the last fibre of a gang leaves when it leaves it as f' does: its fibre, and its gang, are all that changes of s. -/
structure Left (s s' : State) (g : Gang) (f' : Fibre) : Prop where
  rest  : s' = { s with fibres := put f'.key f' s.fibres, gangs := s'.gangs, issue := none }
  gangs : ∀ h, h ∈ s'.gangs ↔ h ∈ s.gangs ∧ h.gid ≠ g.gid ∧ h.members ≠ []

/-- The instruction completes with a result v in s-register n: besides s1 and what the executing fibres do, that register of the team holds v and no
uncorrectable error, its other s-registers are as before, and in this clock all are still read as before (R84, R160, R204). -/
def PerformsSreg (i : Instr) (s : State) (g : Gang) (t : Team) (s1 : State) (o : Nat → Fibre → Out) (n : Nat) (v : DWord) : Prop :=
  ∃ s' t', exec i s = .next s' ∧
    t' = { t with sregs := t'.sregs, swClk := s.clock, swlog := t'.swlog, sAvail := t'.sAvail, badS := t.badS.filter (· != n) } ∧
    getD 0 n t'.sregs = v ∧ (∀ m, m ≠ n → getD 0 m t'.sregs = getD 0 m t.sregs) ∧
    (∀ m, getD 0 m (t'.seen s.clock) = getD 0 m t.sregs) ∧ (∀ m c, s.clock < c → getD 0 m (t'.seen c) = getD 0 m t'.sregs) ∧
    Passed (s1.setTeam t.id t') s' g t' (Fibre.goes i s t o)

/-- Where a fibre of team t stands (R57, R142, R189, R190). -/
def State.site (s : State) (t : Team) (f : Fibre) : Site :=
  let l := s.teamLaunch t
  { team := t, lau := l, core := t.core, die := dieOfCore t.core, ctx := l.ctx, gfid := gfidOf l t f.fidx }

/-- A gang of one fibre takes a trap: the fibre waits trapped with the trap's addresses, an open transaction of it is closed, nothing of the
instruction is written, and the team has one more event to be halted for (R26, R341, R344). -/
def TakesTrap (i : Instr) (s : State) (g : Gang) (t : Team) (f : Fibre) (x : Trap) (shim : Option DWord) : Prop :=
  let r := trapRec f.issuing x f.pc (restartPc f.issuing) (isTree i) shim
  ∃ s', exec i s = .next s' ∧
    s' = { s with fibres := put f.key (raiseTrap f.issuing r) s.fibres, gangs := s'.gangs, issue := none,
                  teams := put t.id { t with pendEv := t.pendEv ++ [{ num := none, clk := s.clock, fibres := [f.fidx], issue := some (g.slot, g.issuedAt s.clock) }] } s.teams } ∧
    ∀ h, h ∈ s'.gangs ↔ h ∈ s.gangs ∧ h.gid ≠ g.gid ∧ h.members ≠ []

/-- Every fibre of the gang takes a trap in one issue, the one that x gives for its fidx: each waits trapped with the trap's addresses and its place among
them, nothing of the instruction is written, the team has one more event to be halted for, and the gang is gone (R26, R160, R161, R344). -/
def TrapsWhole (i : Instr) (s : State) (g : Gang) (t : Team) (x : Nat → Trap) : Prop :=
  ∃ s' t', exec i s = .next s' ∧ s'.mem = s.mem ∧ s'.team t.id = some t' ∧
    t'.pendEv = t.pendEv ++ [{ num := none, clk := s.clock, fibres := g.ids, issue := some (g.slot, g.issuedAt s.clock) }] ∧
    t'.crews = t.crews ∧ (∀ n, getD 0 n t'.sregs = getD 0 n t.sregs) ∧ (∀ h ∈ s'.gangs, h.gid ≠ g.gid) ∧
    (∀ lane f, Member s g t lane f → s'.fibre (t.key f.fidx) = some (raiseTrap f.issuing
      { trapRec f.issuing (x f.fidx) f.pc (restartPc f.issuing) (isTree i) none with order := (g.ids.filter fun k => decide (k < f.fidx)).length })) ∧
    ∀ k, (∀ m ∈ g.members, k ≠ t.key m.2) → s'.fibre k = s.fibre k

/-- Instruction i of gang g begins, and no breakpoint register matches the next word. -/
def Begins (i : Instr) (s : State) (g : Gang) (t : Team) : Prop :=
  ∃ pc, Issuing s i g t pc ∧ Unbroken s t (pc + BitVec.ofNat 64 (8 * words i))

/-- What the executing fibres read for an operand: the word x, by fidx, where `read` reads it. -/
def Reads {α : Type} (read : Env → Fibre → Except Trap α) (i : Instr) (s : State) (g : Gang) (t : Team) (x : Nat → α) : Prop :=
  ∀ lane f, Executes s g t i lane f → read (envOf s t lane f.fidx) f = .ok (x f.fidx)

/-- An integer source (R30). -/
def ReadsInt (a : Src) (i : Instr) (s : State) (g : Gang) (t : Team) (x : Nat → Word) : Prop := Reads (fun e f => readInt e f a) i s g t x

/-- A source of any tag (R57). -/
def ReadsAny (a : Src) (i : Instr) (s : State) (g : Gang) (t : Team) (x : Nat → Opd) : Prop := Reads (fun e f => readSrc e f a) i s g t x

/-- A source of one tag (R99, R106, R108). -/
def ReadsTag (tag : Tag) (a : Src) (i : Instr) (s : State) (g : Gang) (t : Team) (x : Nat → Word) : Prop :=
  Reads (fun e f => readTag e f tag a) i s g t x

/-- A 64-bit operand (R93). -/
def ReadsWide (a : Op64) (i : Instr) (s : State) (g : Gang) (t : Team) (x : Nat → DWord) : Prop := Reads (fun e f => readOp64 e f a) i s g t x

/-- A destination that is no s-register. -/
def NoSreg (d : Dst) : Prop := ∀ n, d ≠ .s n

/-- A 64-bit destination that is no s-register. -/
def NoSreg64 (d : Dst64) : Prop := ∀ n, d ≠ .s n

/-- The rational number that an exact value stands for, if it is finite. -/
def Xr.rat : Xr → Option ℚ
  | .fin neg num den => some ((signed neg num : ℚ) / den)
  | _ => none

end Sys2Proof.Machine
end

