-- ==== Sys2Proof/WellFormed.lean ====
section
/-! DEFINITION. Well-formed instructions: the terms of Instr that an encoding stands for. The operand types rule out most ill-formed
terms; what they do not rule out is checked here, each check beside the rule it comes from. -/

namespace Sys2Proof

/-- A tapered target takes modifier 0 only (R40, R106). -/
def prmOk (f : PFmt) (m : Rm) : Bool := f != .t16 || m == .rne

def cvtRmOk (t : Tag) (m : Rm) : Bool := ! t.tapered || m == .rne

/-- The modifier of vdot8 and vl2d8 is a rounding mode for .t8 and a saturation bit otherwise (R112). -/
def nmodOk (f : NFmt) (m : NMod) : Bool :=
  match f, m with
  | .t8, .rm _ => true
  | .t8, .sat _ => false
  | _, .rm _ => false
  | _, .sat _ => true

/-- Cache hints belong to space g (R67). -/
def hintSpOk (sp : Space) (h : Hint) : Bool := sp == .g || h == .normal

/-- The placement of ld's destination (R67, R129). -/
def ldDstOk (sz : Size) (d : Dst) : Bool :=
  match d with
  | .none => true
  | .v n => dataOk sz n.val
  | .s _ => sz == .b64

/-- The form of a store's source for its size (R130). -/
def stSrcOk (sz : Size) (x : StSrc) : Bool :=
  match sz, x with
  | .b64, .wide n => n.val % 2 == 0
  | .b64, .sreg _ => true
  | .b128, .wide n => n.val % 4 == 0
  | .b8, .one (.s _) | .b16, .one (.s _) | .b32, .one (.s _) => false
  | .b8, .one _ | .b16, .one _ | .b32, .one _ => true
  | _, _ => false

/-- acas and stv hold a pair at b32 and a group of four at b64 (R254, R259). -/
def casOk (sz : Size) (d : Nat) : Bool := (sz == .b32 && d % 2 == 0) || (sz == .b64 && d % 4 == 0)

/-- The destination of rdsys: a register, of an even number where the value has 64 bits (R377, R381). -/
def rdsysOk (d : Dst) (code : Nat) : Bool :=
  match d with
  | .none => false
  | .v n => ! sysWide code || n.val % 2 == 0
  | .s _ => true

/-- A tree's words agree in number with its header (R79). -/
def treeOk (t : TreeWords) : Bool :=
  let w := t.header.toNat
  fld w 57 7 == 0x7E && t.nodes.length == (treeNodes w + 1) / 2 && t.arcs.length == treeArcs w
    && t.targets.length == (treeTargets w + 1) / 2

/-- The well-formed instructions. The steps of other agents have no encoding and are always well formed. -/
def wellFormed : Instr → Bool
  | .hadd _ f m _ _ _ => prmOk f m
  | .hmul _ f m _ _ _ => prmOk f m
  | .hfma _ f m _ _ _ _ => prmOk f m
  | .cvt _ s t m _ _ => cvtOk s t && cvtRmOk t m
  | .pack _ s t m _ _ j _ => packOk s t && cvtRmOk t m && decide (j.val < t.count)
  | .unpack _ s t m _ _ j => packOk t s && cvtRmOk t m && decide (j.val < s.count)
  | .retag _ t _ _ => decide (t.code ≤ 12)
  | .vdot8 _ f m _ _ _ _ => nmodOk f m
  | .vl2d8 _ f m _ _ _ _ => nmodOk f m
  | .frameWord imm => frameOk imm.toNat
  | .ld _ sz sp h t d _ => hintSpOk sp h && ldDstOk sz d && ldOk sz t d
  | .ldSplit _ sz _ t d _ _ => ldDstOk sz d && ldOk sz t d
  | .st _ sz sp h x _ => hintSpOk sp h && stSrcOk sz x
  | .stSplit _ sz _ x _ _ => stSrcOk sz x
  | .atom _ _ _ sc sz sp d _ _ => xScopeOk sp sc && (sz == .b32 || (sz == .b64 && d.val % 2 == 0))
  | .acas _ _ sc sz sp d _ _ => xScopeOk sp sc && casOk sz d.val
  | .eacc _ _ _ _ sp _ _ => sp != .x
  | .earead _ _ _ sp _ _ => sp != .x
  | .ldver _ sp _ _ => sp != .x
  | .stv _ sz sp d _ _ => sp != .x && casOk sz d.val
  | .pfl _ sp _ _ => sp != .x
  | .bar _ sc _ _ => sc != .lane
  | .acclr _ all _ _ acc => ! all || ! acc
  | .rdsys _ d code q => rdsysOk d code.val && (code.val == 3 || code.val == 4 || q.val == 0)
  | .tree t => treeOk t
  | .unassignedMajor w => unassigned w.toNat
  | _ => true

end Sys2Proof
end

