-- ==== Sys2Proof/Certificates/Slice0/Obligations.lean ====
section
/-! DEFINITION. The statements about the model: one Prop each, from the numbered rules of the spec. -/

open Sys2Proof Sys2Proof.Machine

/-! ## Register-only instructions (R26, R84, R86 to R118) -/

/-- Every register-only instruction completes for a gang of any size: where the operands of each executing fibre can be read, the fibre writes
what the instruction gives for them, a fibre whose predicate is false writes nothing, all of them go on at the next word, and nothing else of the
machine changes (R26, R84).

Where an operand cannot be read the fibre traps (R26 step 3): FORMAT_MISMATCH, with the selector and the tag, at a source whose tag the instruction does
not take (R30, R45, R57, R340); POISON at a register that an uncorrectable error has struck (R204). -/
def Obligations.RegisterInstructionsComplete : Prop :=
  (∀ (i : Instr) (ev : Alu) (s : State) (g : Gang) (t : Team) (w : Nat → Wr),
    aluOf i = some ev → Begins i s g t →
    (∀ lane f, Executes s g t i lane f → ev (envOf s t lane f.fidx) f = .ok (w f.fidx) ∧ (w f.fidx).sregs = []) →
    Completes i s g t w) ∧
  (∀ (i : Instr) (ev : Alu) (s : State) (g : Gang) (t : Team) (lane : Nat) (f : Fibre) (x : Trap),
    aluOf i = some ev → Solo i s g t lane f → ev (envOf s t lane f.fidx) f = .error x → x.code ≠ .breakpoint → TakesTrap i s g t f x none) ∧
  (∀ (e : Env) (f : Fibre) (a : Src) (o : Opd), readSrc e f a = .ok o →
    let mismatch : Trap := { code := .formatMismatch, aux := o.sel + 512 * o.tag.code }
    (o.any = true ∨ o.tag = .i32 ∨ o.tag = .n32 → readInt e f a = .ok o.val) ∧
    (o.any = false → o.tag ≠ .i32 → o.tag ≠ .n32 → readInt e f a = .error mismatch) ∧
    ∀ tag, (o.any = true ∨ o.tag = tag ∨ tag = .n32 ∧ (∃ n, a = .int n) → readTag e f tag a = .ok o.val) ∧
      (o.any = false → o.tag ≠ tag → ¬ (tag = .n32 ∧ ∃ n, a = .int n) → readTag e f tag a = .error mismatch)) ∧
  (∀ (e : Env) (f : Fibre) (n : Fin 256) (m : Fin 32), reservedTag (f.reg n.val).tag = false →
    (f.badRegs.contains (f.fb + n.val) = false →
      readSrc e f (.v n) = .ok { val := (f.reg n.val).val, tag := (f.reg n.val).tag, sel := n.val }) ∧
    (f.badRegs.contains (f.fb + n.val) = true → readSrc e f (.v n) = .error { code := .poison, aux := n.val }) ∧
    (e.badS.contains m.val = true → readSrc e f (.s m) = .error { code := .poison, aux := 0x100 + m.val }))

/-- What a passed instruction leaves of its fibre (the frame), where `o` is what it does: the PC is that of the next word or of the transfer; v-registers
other than the written ones, and all but the written predicates, read as before; p0 reads 1; the window, the frame, the return stack, the reduction
depth, the seed, the status word, the transaction and the crew role are as `o` has them; outside a run, and after a transfer, the run is over
(R11, R16, R72 to R74).

R26 step 2: an instruction whose predicate is false at every fibre of its gang has no effect; the gang goes on at the next word. Of the two budget
instructions, whose barrier is looked at after every issue of them, this is said where a fibre of the gang is one of the team's 1,024. -/
def Obligations.PassedFibres : Prop :=
  (∀ (i : Instr) (s : State) (t : Team) (lane : Nat) (f : Fibre) (o : Out),
     let f' := f.done i s t lane o
     f'.pc = o.next.getD (f.pc + BitVec.ofNat 64 (8 * words i)) ∧
     (∀ n, (∀ r ∈ o.w.regs, r.1 ≠ n) → f'.reg n = o.f.reg n) ∧
     (∀ n v, o.w.regs = [(n, v)] → f'.reg n = v) ∧
     (∀ n, (∀ p ∈ o.w.preds, p.1 ≠ n) → predBit f'.preds n = predBit o.f.preds n) ∧
     (∀ n b, 0 < n → n < 16 → o.w.preds = [(n, b)] → predBit f'.preds n = b) ∧
     predBit f'.preds 0 = true ∧
     f'.runPos = (if o.next = none ∧ runBit i = true then f.runPos + 1 else 0) ∧
     f'.fidx = o.f.fidx ∧ f'.team = o.f.team ∧ f'.fb = o.f.fb ∧ f'.fs = o.f.fs ∧ f'.stack = o.f.stack ∧ f'.depth = o.f.depth ∧
     f'.seed = o.f.seed ∧ f'.status = o.f.status ∧ f'.txn = o.f.txn ∧ f'.restart = o.f.restart ∧ f'.hand = o.f.hand ∧ f'.st = o.f.st ∧
     f'.trap = o.f.trap) ∧
  (∀ (i : Instr) (p : Guard) (s : State) (g : Gang) (t : Team), guardOf i = some p →
     ((∃ gd pd b dl, i = .regrow gd pd b dl) ∨ (∃ gd pd b, i = .regshrink gd pd b) →
       ∃ lane f, Member s g t lane f ∧ f.fidx < 1024 ∧ f.st = .ganged) → Begins i s g t →
     (∀ lane f, Member s g t lane f → guardOk p f.preds = false) →
     Performs i s g t s fun _ f => { f := f.issuing })

/-- A result written to an s-register by fibres that all give the same value: the register holds that value, every other s-register and all the
rest of the team but its log of the clock's writes is as before, and the gang passes the instruction (R84, R160).

Where their values differ, every fibre of the gang raises NONUNIFORM with the register's selector and the register keeps its value (R160). -/
def Obligations.UniformSregWrite : Prop :=
  ∀ (i : Instr) (ev : Alu) (s : State) (g : Gang) (t : Team) (w : Nat → Wr) (n : Nat),
    aluOf i = some ev → t.swClk ≠ s.clock →
    (∀ (v : DWord), Begins i s g t → (∃ lane f, Executes s g t i lane f) →
      (∀ lane f, Executes s g t i lane f →
        ev (envOf s t lane f.fidx) f = .ok (w f.fidx) ∧ (w f.fidx).sregs = [(n, v)] ∧ (w f.fidx).regs = [] ∧ (w f.fidx).preds = []) →
      PerformsSreg i s g t s (fun _ f => { f := f.issuing, w := w f.fidx }) n v) ∧
    (∀ (v : Nat → DWord) (pc : DWord), Issuing s i g t pc → AllExecute i s g t →
      (∀ lane f, Member s g t lane f → ev (envOf s t lane f.fidx) f = .ok (w f.fidx) ∧ (w f.fidx).sregs = [(n, v f.fidx)]) →
      (∃ j ∈ g.ids, ∃ k ∈ g.ids, v j ≠ v k) →
      TrapsWhole i s g t fun _ => { code := .nonuniform, aux := 0x100 + n })

/-- An exact integer result saturated to the range of its type where asked for, then taken modulo 2^32 (R87). -/
def narrowed (ty : Sgn) (sat : Bool) (e : Int) : Word :=
  let lo : Int := match ty with | .s => -2 ^ 31 | .n => 0
  let hi : Int := match ty with | .s => 2 ^ 31 - 1 | .n => 2 ^ 32 - 1
  BitVec.ofInt 32 (if sat then (if e < lo then lo else if hi < e then hi else e) else e)

/-- The tag of an integer result: I32 under .s, N32 under .n (R87). -/
def signTag (ty : Sgn) : Tag := match ty with | .s => .i32 | .n => .n32

/-- R86, R87: iadd, isub, imul, imulh, imad, imin, imax, iabs and ineg compute over exact integers read by the type, saturate if asked, and write
the result modulo 2^32 with the tag of the type.

R88: idiv and irem truncate toward zero; a zero divisor gives a quotient of 0xFFFFFFFF and the dividend as remainder. -/
def Obligations.IntegerArithmetic : Prop :=
  (∀ (s : State) (g : Gang) (t : Team) (c : Ctl) (ty : Sgn) (sat : Bool) (d : Dst) (a b z : Src) (x y r : Nat → Word), NoSreg d →
     (Begins (.iadd c ty sat d a b) s g t → ReadsInt a (.iadd c ty sat d a b) s g t x → ReadsInt b (.iadd c ty sat d a b) s g t y →
       Completes (.iadd c ty sat d a b) s g t fun k => Wr.one d (narrowed ty sat (intVal ty (x k) + intVal ty (y k))) (signTag ty)) ∧
     (Begins (.isub c ty sat d a b) s g t → ReadsInt a (.isub c ty sat d a b) s g t x → ReadsInt b (.isub c ty sat d a b) s g t y →
       Completes (.isub c ty sat d a b) s g t fun k => Wr.one d (narrowed ty sat (intVal ty (x k) - intVal ty (y k))) (signTag ty)) ∧
     (Begins (.imul c ty sat d a b) s g t → ReadsInt a (.imul c ty sat d a b) s g t x → ReadsInt b (.imul c ty sat d a b) s g t y →
       Completes (.imul c ty sat d a b) s g t fun k => Wr.one d (narrowed ty sat (intVal ty (x k) * intVal ty (y k))) (signTag ty)) ∧
     (Begins (.imulh c ty d a b) s g t → ReadsInt a (.imulh c ty d a b) s g t x → ReadsInt b (.imulh c ty d a b) s g t y →
       Completes (.imulh c ty d a b) s g t fun k => Wr.one d (narrowed ty false (intVal ty (x k) * intVal ty (y k) / 2 ^ 32)) (signTag ty)) ∧
     (Begins (.imad c ty sat d a b z) s g t → ReadsInt a (.imad c ty sat d a b z) s g t x → ReadsInt b (.imad c ty sat d a b z) s g t y →
       ReadsInt z (.imad c ty sat d a b z) s g t r →
       Completes (.imad c ty sat d a b z) s g t fun k =>
         Wr.one d (narrowed ty sat (intVal ty (x k) * intVal ty (y k) + intVal ty (r k))) (signTag ty)) ∧
     (Begins (.imin c ty d a b) s g t → ReadsInt a (.imin c ty d a b) s g t x → ReadsInt b (.imin c ty d a b) s g t y →
       Completes (.imin c ty d a b) s g t fun k => Wr.one d (if intVal ty (x k) ≤ intVal ty (y k) then x k else y k) (signTag ty)) ∧
     (Begins (.imax c ty d a b) s g t → ReadsInt a (.imax c ty d a b) s g t x → ReadsInt b (.imax c ty d a b) s g t y →
       Completes (.imax c ty d a b) s g t fun k => Wr.one d (if intVal ty (x k) ≤ intVal ty (y k) then y k else x k) (signTag ty)) ∧
     (Begins (.iabs c sat d a) s g t → ReadsInt a (.iabs c sat d a) s g t x →
       Completes (.iabs c sat d a) s g t fun k => Wr.one d (narrowed .s sat |(x k).toInt|) .i32) ∧
     (Begins (.ineg c sat d a) s g t → ReadsInt a (.ineg c sat d a) s g t x →
       Completes (.ineg c sat d a) s g t fun k => Wr.one d (narrowed .s sat (-(x k).toInt)) .i32)) ∧
  (∀ (s : State) (g : Gang) (t : Team) (c : Ctl) (ty : Sgn) (d : Dst) (a b : Src) (x y : Nat → Word), NoSreg d →
     (Begins (.idiv c ty d a b) s g t → ReadsInt a (.idiv c ty d a b) s g t x → ReadsInt b (.idiv c ty d a b) s g t y →
       Completes (.idiv c ty d a b) s g t fun k =>
         Wr.one d (if y k = 0 then 0xFFFFFFFF else BitVec.ofInt 32 ((intVal ty (x k)).tdiv (intVal ty (y k)))) (signTag ty)) ∧
     (Begins (.irem c ty d a b) s g t → ReadsInt a (.irem c ty d a b) s g t x → ReadsInt b (.irem c ty d a b) s g t y →
       Completes (.irem c ty d a b) s g t fun k =>
         Wr.one d (if y k = 0 then x k
           else BitVec.ofInt 32 (intVal ty (x k) - intVal ty (y k) * (intVal ty (x k)).tdiv (intVal ty (y k)))) (signTag ty)))

/-- R89, R103: icmp and fcmp set their predicate to the condition of the operands; an unordered pair satisfies only uno, and the two zeros are equal. -/
def Obligations.Comparisons : Prop :=
  ∀ (s : State) (g : Gang) (t : Team) (c : Ctl) (ty : Sgn) (cd : ICond) (fc : FCond) (pd : Option (Fin 16)) (a b : Src) (x y : Nat → Word),
    (Begins (.icmp c ty cd pd a b) s g t → ReadsInt a (.icmp c ty cd pd a b) s g t x → ReadsInt b (.icmp c ty cd pd a b) s g t y →
      Completes (.icmp c ty cd pd a b) s g t fun k => Wr.pred pd (match cd with
        | .eq => decide (intVal ty (x k) = intVal ty (y k)) | .ne => decide (intVal ty (x k) ≠ intVal ty (y k))
        | .lt => decide (intVal ty (x k) < intVal ty (y k)) | .le => decide (intVal ty (x k) ≤ intVal ty (y k))
        | .gt => decide (intVal ty (x k) > intVal ty (y k)) | .ge => decide (intVal ty (x k) ≥ intVal ty (y k)))) ∧
    (Begins (.fcmp c fc pd a b) s g t → ReadsTag .f32 a (.fcmp c fc pd a b) s g t x → ReadsTag .f32 b (.fcmp c fc pd a b) s g t y →
      Completes (.fcmp c fc pd a b) s g t fun k =>
        let u := Fmt.f32.val (x k).toNat
        let v := Fmt.f32.val (y k).toNat
        let un := u.isNan || v.isNan
        Wr.pred pd (match fc with
          | .oeq => u.eqv v | .one => !un && !u.eqv v | .olt => u.lt false v | .ogt => v.lt false u
          | .ole => u.lt false v || u.eqv v | .oge => v.lt false u || u.eqv v | .uno => un | .ord => !un))

/-- R90, R91: the bitwise instructions, the shifts by the whole count and the rotation, over operands of any tag; the result takes source a's tag.
The model's choices in it: log 85. -/
def Obligations.BitwiseAndShifts : Prop :=
  ∀ (s : State) (g : Gang) (t : Team) (c : Ctl) (d : Dst) (a b : Src) (x y : Nat → Opd), NoSreg d →
    (Begins (.and c d a b) s g t → ReadsAny a (.and c d a b) s g t x → ReadsAny b (.and c d a b) s g t y →
      Completes (.and c d a b) s g t fun k => Wr.one d ((x k).val &&& (y k).val) (x k).tag) ∧
    (Begins (.or c d a b) s g t → ReadsAny a (.or c d a b) s g t x → ReadsAny b (.or c d a b) s g t y →
      Completes (.or c d a b) s g t fun k => Wr.one d ((x k).val ||| (y k).val) (x k).tag) ∧
    (Begins (.xor c d a b) s g t → ReadsAny a (.xor c d a b) s g t x → ReadsAny b (.xor c d a b) s g t y →
      Completes (.xor c d a b) s g t fun k => Wr.one d ((x k).val ^^^ (y k).val) (x k).tag) ∧
    (Begins (.andn c d a b) s g t → ReadsAny a (.andn c d a b) s g t x → ReadsAny b (.andn c d a b) s g t y →
      Completes (.andn c d a b) s g t fun k => Wr.one d ((x k).val &&& ~~~(y k).val) (x k).tag) ∧
    (Begins (.not c d a) s g t → ReadsAny a (.not c d a) s g t x →
      Completes (.not c d a) s g t fun k => Wr.one d (~~~(x k).val) (x k).tag) ∧
    (Begins (.shl c d a b) s g t → ReadsAny a (.shl c d a b) s g t x → ReadsAny b (.shl c d a b) s g t y →
      Completes (.shl c d a b) s g t fun k => Wr.one d (BitVec.ofNat 32 ((x k).val.toNat * 2 ^ (y k).val.toNat)) (x k).tag) ∧
    (Begins (.shr c d a b) s g t → ReadsAny a (.shr c d a b) s g t x → ReadsAny b (.shr c d a b) s g t y →
      Completes (.shr c d a b) s g t fun k => Wr.one d (BitVec.ofNat 32 ((x k).val.toNat / 2 ^ (y k).val.toNat)) (x k).tag) ∧
    (Begins (.sha c d a b) s g t → ReadsAny a (.sha c d a b) s g t x → ReadsAny b (.sha c d a b) s g t y →
      Completes (.sha c d a b) s g t fun k => Wr.one d (BitVec.ofInt 32 ((x k).val.toInt / 2 ^ (y k).val.toNat)) (x k).tag) ∧
    (Begins (.rot c d a b) s g t → ReadsAny a (.rot c d a b) s g t x → ReadsAny b (.rot c d a b) s g t y →
      Completes (.rot c d a b) s g t fun k =>
        let n := (y k).val.toNat % 32
        Wr.one d (BitVec.ofNat 32 ((x k).val.toNat * 2 ^ n + (x k).val.toNat / 2 ^ (32 - n))) (x k).tag)

/-- R90, R92: the bit counts, the reversal, and the bit-field instructions with their control word. The counts are stated by what they count: bit 31 - n
is the highest set bit under clz n, bit n the lowest under ctz n, and 32 stands for no bit.
The model's choices in it: log 85. -/
def Obligations.BitCountsAndFields : Prop :=
  ∀ (s : State) (g : Gang) (t : Team) (c : Ctl) (ty : Sgn) (d : Dst) (a b z : Src) (x y r : Nat → Opd), NoSreg d →
    (Begins (.popc c d a) s g t → ReadsAny a (.popc c d a) s g t x →
      Completes (.popc c d a) s g t fun k => Wr.one d (BitVec.ofNat 32 ((List.range 32).countP fun j => (x k).val.getLsbD j)) .n32) ∧
    (Begins (.clz c d a) s g t → ReadsAny a (.clz c d a) s g t x → ∃ n : Nat → Nat,
      (∀ k, (∀ j, 32 - n k ≤ j → (x k).val.getLsbD j = false) ∧ (n k = 32 ∨ n k < 32 ∧ (x k).val.getLsbD (31 - n k) = true)) ∧
      Completes (.clz c d a) s g t fun k => Wr.one d (BitVec.ofNat 32 (n k)) .n32) ∧
    (Begins (.ctz c d a) s g t → ReadsAny a (.ctz c d a) s g t x → ∃ n : Nat → Nat,
      (∀ k, (∀ j, j < n k → (x k).val.getLsbD j = false) ∧ (n k = 32 ∨ n k < 32 ∧ (x k).val.getLsbD (n k) = true)) ∧
      Completes (.ctz c d a) s g t fun k => Wr.one d (BitVec.ofNat 32 (n k)) .n32) ∧
    (Begins (.brev c d a) s g t → ReadsAny a (.brev c d a) s g t x → ∃ v : Nat → Word,
      (∀ k j, j < 32 → (v k).getLsbD j = (x k).val.getLsbD (31 - j)) ∧
      Completes (.brev c d a) s g t fun k => Wr.one d (v k) (x k).tag) ∧
    (Begins (.bfx c ty d a b) s g t → ReadsAny a (.bfx c ty d a b) s g t x → ReadsAny b (.bfx c ty d a b) s g t y →
      Completes (.bfx c ty d a b) s g t fun k =>
        let pos := (y k).val.toNat % 32
        let w := min ((y k).val.toNat / 256 % 64) (32 - pos)
        let field := (x k).val.toNat / 2 ^ pos % 2 ^ w
        Wr.one d (match ty with
          | .n => BitVec.ofNat 32 field
          | .s => BitVec.ofInt 32 (if 0 < w ∧ 2 ^ (w - 1) ≤ field then (field : Int) - 2 ^ w else field)) (signTag ty)) ∧
    (Begins (.bfi c d a b z) s g t → ReadsAny a (.bfi c d a b z) s g t x → ReadsAny b (.bfi c d a b z) s g t y →
      ReadsAny z (.bfi c d a b z) s g t r → ∃ v : Nat → Word,
      (∀ k j, j < 32 →
        let pos := (r k).val.toNat % 32
        let w := min ((r k).val.toNat / 256 % 64) (32 - pos)
        (v k).getLsbD j = if pos ≤ j ∧ j < pos + w then (y k).val.getLsbD (j - pos) else (x k).val.getLsbD j) ∧
      Completes (.bfi c d a b z) s g t fun k => Wr.one d (v k) (x k).tag)

/-- R93 to R98: lea, addc, mov, sel, plog, movi and movw. -/
def Obligations.AddressesMovesAndImmediates : Prop :=
  ∀ (s : State) (g : Gang) (t : Team) (c : Ctl),
    (∀ (sh : Fin 5) (d : Dst64) (a : Op64) (b : Src) (x : Nat → DWord) (y : Nat → Opd), NoSreg64 d → Begins (.lea c sh d a b) s g t →
      ReadsWide a (.lea c sh d a b) s g t x → ReadsAny b (.lea c sh d a b) s g t y →
      (∀ k, (y k).any = true ∨ (y k).tag = .i32 ∨ (y k).tag = .n32) →
      Completes (.lea c sh d a b) s g t fun k =>
        let ext : DWord := if (y k).tag = .n32 then BitVec.ofNat 64 (y k).val.toNat else BitVec.ofInt 64 (y k).val.toInt
        Wr.wide d (x k + ext * 2 ^ sh.val) .p64l .p64h) ∧
    (∀ (d : Dst64) (a b : Op64) (x y : Nat → DWord), NoSreg64 d → Begins (.addc c d a b) s g t →
      ReadsWide a (.addc c d a b) s g t x → ReadsWide b (.addc c d a b) s g t y →
      Completes (.addc c d a b) s g t fun k => Wr.wide d (x k + y k) .p64l .p64h) ∧
    (∀ (d : Dst) (a : Src) (x : Nat → Opd), NoSreg d → Begins (.mov c d a) s g t → ReadsAny a (.mov c d a) s g t x →
      Completes (.mov c d a) s g t fun k => Wr.one d (x k).val (x k).tag) ∧
    (∀ (d : Dst) (p : Fin 16) (b z : Src) (x y : Nat → Opd) (q : Nat → Bool), NoSreg d → Begins (.sel c d p b z) s g t →
      ReadsAny b (.sel c d p b z) s g t x → ReadsAny z (.sel c d p b z) s g t y →
      (∀ lane f, Executes s g t (.sel c d p b z) lane f → predBit f.preds p.val = q f.fidx) →
      Completes (.sel c d p b z) s g t fun k => if q k then Wr.one d (x k).val (x k).tag else Wr.one d (y k).val (y k).tag) ∧
    (∀ (tt : Fin 16) (pd : Option (Fin 16)) (pa pb : Fin 16) (q r : Nat → Bool), Begins (.plog c tt pd pa pb) s g t →
      (∀ lane f, Executes s g t (.plog c tt pd pa pb) lane f → predBit f.preds pa.val = q f.fidx ∧ predBit f.preds pb.val = r f.fidx) →
      Completes (.plog c tt pd pa pb) s g t fun k =>
        Wr.pred pd ((BitVec.ofNat 4 tt.val).getLsbD (2 * (q k).toNat + (r k).toNat))) ∧
    (∀ (ty : MoviTag) (d : Dst) (imm : Word), NoSreg d → Begins (.movi c ty d imm) s g t →
      Completes (.movi c ty d imm) s g t fun _ =>
        Wr.one d imm (match ty with | .i32 => .i32 | .n32 => .n32 | .f32 => .f32 | .raw => .raw)) ∧
    (∀ (n : Fin 128) (imm : DWord), Begins (.movw c (.pair (some n)) imm) s g t →
      Completes (.movw c (.pair (some n)) imm) s g t fun _ => Wr.wide (.pair n) imm .p64l .p64h) ∧
    (∀ (m : MovwDst) (imm : DWord), m = .pair none ∨ m = .sreg none → Begins (.movw c m imm) s g t →
      Completes (.movw c m imm) s g t fun _ => Wr.wide .none imm .p64l .p64h)

/-- R100, R104: the FP32 instructions compute the exact result of their operation (Obligations.ExactOperations says what it is) and round it once in
their mode; frnd rounds to an integral value.
The model's choices in it: log 8. -/
def Obligations.FpArithmetic : Prop :=
  ∀ (s : State) (g : Gang) (t : Team) (c : Ctl) (m : Rm) (d : Dst) (a b z : Src) (x y r : Nat → Word), NoSreg d →
    let val (w : Word) : Xr := Fmt.f32.val w.toNat
    let out (v : Xr) : Wr := Wr.one d (BitVec.ofNat 32 (roundF .f32 m v)) .f32
    (Begins (.fadd c m d a b) s g t → ReadsTag .f32 a (.fadd c m d a b) s g t x → ReadsTag .f32 b (.fadd c m d a b) s g t y →
      Completes (.fadd c m d a b) s g t fun k => out (Xr.add m (val (x k)) (val (y k)))) ∧
    (Begins (.fsub c m d a b) s g t → ReadsTag .f32 a (.fsub c m d a b) s g t x → ReadsTag .f32 b (.fsub c m d a b) s g t y →
      Completes (.fsub c m d a b) s g t fun k => out (Xr.add m (val (x k)) (val (y k)).neg)) ∧
    (Begins (.fmul c m d a b) s g t → ReadsTag .f32 a (.fmul c m d a b) s g t x → ReadsTag .f32 b (.fmul c m d a b) s g t y →
      Completes (.fmul c m d a b) s g t fun k => out (Xr.mul (val (x k)) (val (y k)))) ∧
    (Begins (.ffma c m d a b z) s g t → ReadsTag .f32 a (.ffma c m d a b z) s g t x → ReadsTag .f32 b (.ffma c m d a b z) s g t y →
      ReadsTag .f32 z (.ffma c m d a b z) s g t r →
      Completes (.ffma c m d a b z) s g t fun k => out (Xr.add m (Xr.mul (val (x k)) (val (y k))) (val (r k)))) ∧
    (Begins (.fdiv c m d a b) s g t → ReadsTag .f32 a (.fdiv c m d a b) s g t x → ReadsTag .f32 b (.fdiv c m d a b) s g t y →
      Completes (.fdiv c m d a b) s g t fun k => out (Xr.div (val (x k)) (val (y k)))) ∧
    (Begins (.fsqrt c m d a) s g t → ReadsTag .f32 a (.fsqrt c m d a) s g t x →
      Completes (.fsqrt c m d a) s g t fun k => out (Xr.sqrt (val (x k)))) ∧
    (Begins (.frcp c m d a) s g t → ReadsTag .f32 a (.frcp c m d a) s g t x →
      Completes (.frcp c m d a) s g t fun k => out (Xr.div (Xr.ofInt 1 1) (val (x k)))) ∧
    (Begins (.fexp2 c m d a) s g t → ReadsTag .f32 a (.fexp2 c m d a) s g t x →
      Completes (.fexp2 c m d a) s g t fun k => out (Xr.exp2 (val (x k)))) ∧
    (Begins (.flog2 c m d a) s g t → ReadsTag .f32 a (.flog2 c m d a) s g t x →
      Completes (.flog2 c m d a) s g t fun k => out (Xr.log2 (val (x k)))) ∧
    (Begins (.frnd c m d a) s g t → ReadsTag .f32 a (.frnd c m d a) s g t x →
      Completes (.frnd c m d a) s g t fun k => out (match val (x k) with
        | .fin neg num den => .fin neg (roundInt m neg num den).natAbs 1
        | v => v))

/-- R100, R101: sums, products and quotients of values are exact, those of infinities are what IEEE 754 gives, a NaN operand gives NaN, and so do the
invalid operations; a zero sum keeps the sign of two zeros of one sign and else is −0 under rdn alone, a zero product or quotient takes the exclusive
OR of the signs. The root lies on the same side of every number of up to 26 bits as the exact root, so that each mode rounds the one as the other; the
powers of 2 and the logarithms are exact where R101 has them exact, and else lie within a part in 2^300 and within 2^-180 of the exact ones.

R50 to R52: exact accumulation is modulo 2^W and the same in any order and grouping; a contribution is its nearest whole multiple, ties to even; a
read converts the one value that the accumulator stands for. -/
def Obligations.ExactOperations : Prop :=
  (∀ (m : Rm) (x y : Xr), x.isNan = true ∨ y.isNan = true →
    (Xr.add m x y).isNan = true ∧ (Xr.mul x y).isNan = true ∧ (Xr.div x y).isNan = true) ∧
  (∀ (m : Rm) (n1 n2 : Bool) (a b c d : Nat), 0 < b → 0 < d →
    (Xr.add m (.fin n1 a b) (.fin n2 c d)).rat = some ((signed n1 a : ℚ) / b + (signed n2 c : ℚ) / d) ∧
    (Xr.mul (.fin n1 a b) (.fin n2 c d)).rat = some ((signed n1 a : ℚ) / b * ((signed n2 c : ℚ) / d)) ∧
    (0 < c → (Xr.div (.fin n1 a b) (.fin n2 c d)).rat = some ((signed n1 a : ℚ) / b / ((signed n2 c : ℚ) / d))) ∧
    (0 < a → Xr.div (.fin n1 a b) (.fin n2 0 d) = .inf (n1 != n2)) ∧
    (Xr.div (.fin n1 0 b) (.fin n2 0 d)).isNan = true ∧
    (Xr.mul (.inf n1) (.fin n2 0 d)).isNan = true ∧ (Xr.mul (.fin n2 0 d) (.inf n1)).isNan = true) ∧
  (∀ (m : Rm) (n : Bool), (Xr.add m (.inf n) (.inf !n)).isNan = true ∧ (Xr.div (.inf n) (.inf !n)).isNan = true ∧
    (Xr.div (.inf n) (.inf n)).isNan = true) ∧
  (∀ (m : Rm) (n1 n2 : Bool) (a d : Nat),
    Xr.add m (.inf n1) (.fin n2 a d) = .inf n1 ∧ Xr.add m (.fin n2 a d) (.inf n1) = .inf n1 ∧ Xr.add m (.inf n1) (.inf n1) = .inf n1 ∧
    Xr.mul (.inf n1) (.inf n2) = .inf (n1 != n2) ∧
    (0 < a → Xr.mul (.inf n1) (.fin n2 a d) = .inf (n1 != n2) ∧ Xr.mul (.fin n2 a d) (.inf n1) = .inf (n2 != n1)) ∧
    Xr.div (.inf n1) (.fin n2 a d) = .inf (n1 != n2) ∧ ∃ k, 0 < k ∧ Xr.div (.fin n2 a d) (.inf n1) = .fin (n2 != n1) 0 k) ∧
  (∀ (m : Rm) (n1 n2 : Bool) (a b c d : Nat), 0 < b → 0 < d →
    (signed n1 a * d + signed n2 c * b = 0 →
      ∃ k, 0 < k ∧ Xr.add m (.fin n1 a b) (.fin n2 c d) = .fin (if a = 0 ∧ n1 = n2 then n1 else decide (m = .rdn)) 0 k) ∧
    (a = 0 ∨ c = 0 → ∃ k, 0 < k ∧ Xr.mul (.fin n1 a b) (.fin n2 c d) = .fin (n1 != n2) 0 k) ∧
    (a = 0 → 0 < c → ∃ k, 0 < k ∧ Xr.div (.fin n1 a b) (.fin n2 c d) = .fin (n1 != n2) 0 k)) ∧
  (∀ (n : Bool) (d : Nat), (∃ k, 0 < k ∧ Xr.sqrt (.fin n 0 d) = .fin n 0 k) ∧ Xr.sqrt (.inf false) = .inf false ∧
    (Xr.sqrt (.inf true)).isNan = true ∧ (Xr.sqrt .nan).isNan = true ∧
    (∃ k, 0 < k ∧ Xr.exp2 (.inf true) = .fin false 0 k) ∧ Xr.exp2 (.inf false) = .inf false ∧ (Xr.exp2 .nan).isNan = true ∧
    Xr.log2 (.fin n 0 d) = .inf true ∧ Xr.log2 (.inf false) = .inf false ∧ (Xr.log2 (.inf true)).isNan = true ∧ (Xr.log2 .nan).isNan = true) ∧
  (∀ (a d : Nat), 0 < a → 0 < d → (Xr.sqrt (.fin true a d)).isNan = true ∧ (Xr.log2 (.fin true a d)).isNan = true ∧
    (∃ y : ℚ, (Xr.sqrt (.fin false a d)).rat = some y ∧ ∀ (k : Nat) (e : Int), k < 2 ^ 26 →
      let r : ℚ := k * 2 ^ e
      (r < y ↔ r * r < (a : ℚ) / d) ∧ (y < r ↔ (a : ℚ) / d < r * r)) ∧
    (∃ y : ℚ, (Xr.log2 (.fin false a d)).rat = some y ∧ |(y : ℝ) - Real.logb 2 ((a : ℝ) / d)| ≤ 1 / 2 ^ 180) ∧
    ∀ i : Int, (a : ℚ) / d = 2 ^ i → (Xr.log2 (.fin false a d)).rat = some (i : ℚ)) ∧
  (∀ (n : Bool) (a k : Nat) (i : Int), k ≤ 149 → -1000 ≤ i → i ≤ 1000 →
    let x : ℚ := (signed n a : ℚ) / 2 ^ k
    (x = i → (Xr.exp2 (.fin n a (2 ^ k))).rat = some (2 ^ i)) ∧
    ((i : ℚ) ≤ x → x < i + 1 → ∃ y : ℚ, (Xr.exp2 (.fin n a (2 ^ k))).rat = some y ∧
      |(y : ℝ) - (2 : ℝ) ^ (x : ℝ)| ≤ (2 : ℝ) ^ (x : ℝ) / 2 ^ 300)) ∧
  (∀ (k : EaKind) (a b c : Acc),
    let w := match k with | .ea160 => 160 | .ea320 => 320
    eaAdd k a b = eaAdd k b a ∧ eaAdd k (eaAdd k a b) c = eaAdd k a (eaAdd k b c) ∧
    ((eaAdd k a b).v - (a.v + b.v)) % 2 ^ w = 0 ∧ -2 ^ (w - 1) ≤ (eaAdd k a b).v ∧ (eaAdd k a b).v < 2 ^ (w - 1) ∧
    (eaAdd k a b).pinf = (a.pinf || b.pinf) ∧ (eaAdd k a b).ninf = (a.ninf || b.ninf) ∧ (eaAdd k a b).nan = (a.nan || b.nan)) ∧
  (∀ (k : EaKind) (n : Bool) (a d : Nat), 0 < d →
    let w := match k with | .ea160 => 160 | .ea320 => 320
    let fr : Nat := match k with | .ea160 => 64 | .ea320 => 160
    let x : ℚ := (signed n a : ℚ) / d * 2 ^ fr
    eaFrom k .nan = { v := 0, nan := true } ∧ eaFrom k (.inf false) = { v := 0, pinf := true } ∧ eaFrom k (.inf true) = { v := 0, ninf := true } ∧
    ∃ i v : Int, |x - i| ≤ 1 / 2 ∧ (|x - i| = 1 / 2 → i % 2 = 0) ∧ (v - i) % 2 ^ w = 0 ∧ -2 ^ (w - 1) ≤ v ∧ v < 2 ^ (w - 1) ∧
      eaFrom k (.fin n a d) = { v := v }) ∧
  (∀ (k : EaKind) (e : Elem) (m : Rm) (a : Acc),
    let fr : Nat := match k with | .ea160 => 64 | .ea320 => 160
    eaRead k e m a = e.conv m (if a.nan = true ∨ a.pinf = true ∧ a.ninf = true then .nan else if a.pinf = true then .inf false
      else if a.ninf = true then .inf true else .fin (decide (a.v < 0)) a.v.natAbs (2 ^ fr)))

/-- R102, R105: fmin and fmax return the minimumNumber and maximumNumber, with −0 below +0; fabs clears bit 31 and fneg inverts it but for a NaN; none of
them rounds; fcls sets the bit of the operand's class. -/
def Obligations.FpMinMaxSignAndClass : Prop :=
  ∀ (s : State) (g : Gang) (t : Team) (c : Ctl) (d : Dst) (a b : Src) (x y : Nat → Word), NoSreg d →
    let isNan (w : Word) : Bool := decide (0x7F800000 < w.toNat % 2 ^ 31)
    let below (v w : Word) : Bool := Xr.lt true (Fmt.f32.val v.toNat) (Fmt.f32.val w.toNat)
    (Begins (.fmin c d a b) s g t → ReadsTag .f32 a (.fmin c d a b) s g t x → ReadsTag .f32 b (.fmin c d a b) s g t y →
      Completes (.fmin c d a b) s g t fun k => Wr.one d
        (if isNan (x k) && isNan (y k) then 0x7FC00000 else if isNan (x k) then y k else if isNan (y k) then x k
          else if below (x k) (y k) then x k else y k) .f32) ∧
    (Begins (.fmax c d a b) s g t → ReadsTag .f32 a (.fmax c d a b) s g t x → ReadsTag .f32 b (.fmax c d a b) s g t y →
      Completes (.fmax c d a b) s g t fun k => Wr.one d
        (if isNan (x k) && isNan (y k) then 0x7FC00000 else if isNan (x k) then y k else if isNan (y k) then x k
          else if below (x k) (y k) then y k else x k) .f32) ∧
    (Begins (.fabs c d a) s g t → ReadsTag .f32 a (.fabs c d a) s g t x →
      Completes (.fabs c d a) s g t fun k => Wr.one d (if isNan (x k) then 0x7FC00000 else x k &&& 0x7FFFFFFF) .f32) ∧
    (Begins (.fneg c d a) s g t → ReadsTag .f32 a (.fneg c d a) s g t x →
      Completes (.fneg c d a) s g t fun k => Wr.one d (if isNan (x k) then 0x7FC00000 else x k ^^^ 0x80000000) .f32) ∧
    (Begins (.fcls c d a) s g t → ReadsTag .f32 a (.fcls c d a) s g t x → ∃ n : Nat → Nat,
      (∀ k, let w := (x k).toNat
        n k = if isNan (x k) then 0 else if w = 0xFF800000 then 1 else if 0x80800000 ≤ w then 2 else if 0x80000000 < w then 3
          else if w = 0x80000000 then 4 else if w = 0 then 5 else if w < 0x00800000 then 6 else if w < 0x7F800000 then 7 else 8) ∧
      Completes (.fcls c d a) s g t fun k => Wr.one d (BitVec.ofNat 32 (2 ^ n k)) .n32)

/-- R106, R107: the packed instructions work on each 16-bit element by itself, rounding once into the element format; hmax.t16 gives NaR where either
element is NaR. -/
def Obligations.PackedPairs : Prop :=
  ∀ (s : State) (g : Gang) (t : Team) (c : Ctl) (p : PFmt) (m : Rm) (d : Dst) (a b z : Src) (x y r : Nat → Word), NoSreg d →
    let tag : Tag := match p with | .b16 => .b16x2 | .h16 => .h16x2 | .t16 => .t16x2
    let el := tagElem tag
    let at_ (w : Word) (j : Nat) : Xr := el.val (elemAt tag w j)
    (Begins (.hadd c p m d a b) s g t → ReadsTag tag a (.hadd c p m d a b) s g t x → ReadsTag tag b (.hadd c p m d a b) s g t y → ∃ v : Nat → Word,
      (∀ k j, j < 2 → elemAt tag (v k) j = el.conv m (Xr.add m (at_ (x k) j) (at_ (y k) j)) % 2 ^ 16) ∧
      Completes (.hadd c p m d a b) s g t fun k => Wr.one d (v k) tag) ∧
    (Begins (.hmul c p m d a b) s g t → ReadsTag tag a (.hmul c p m d a b) s g t x → ReadsTag tag b (.hmul c p m d a b) s g t y → ∃ v : Nat → Word,
      (∀ k j, j < 2 → elemAt tag (v k) j = el.conv m (Xr.mul (at_ (x k) j) (at_ (y k) j)) % 2 ^ 16) ∧
      Completes (.hmul c p m d a b) s g t fun k => Wr.one d (v k) tag) ∧
    (Begins (.hfma c p m d a b z) s g t → ReadsTag tag a (.hfma c p m d a b z) s g t x → ReadsTag tag b (.hfma c p m d a b z) s g t y →
      ReadsTag tag z (.hfma c p m d a b z) s g t r → ∃ v : Nat → Word,
      (∀ k j, j < 2 → elemAt tag (v k) j = el.conv m (Xr.add m (Xr.mul (at_ (x k) j) (at_ (y k) j)) (at_ (r k) j)) % 2 ^ 16) ∧
      Completes (.hfma c p m d a b z) s g t fun k => Wr.one d (v k) tag) ∧
    (Begins (.hmax c p d a b) s g t → ReadsTag tag a (.hmax c p d a b) s g t x → ReadsTag tag b (.hmax c p d a b) s g t y → ∃ v : Nat → Word,
      (∀ k j, j < 2 → elemAt tag (v k) j = el.conv .rne
        (if (at_ (x k) j).isNan then (if p = .t16 then .nan else at_ (y k) j)
          else if (at_ (y k) j).isNan then (if p = .t16 then .nan else at_ (x k) j)
          else if Xr.lt true (at_ (x k) j) (at_ (y k) j) then at_ (y k) j else at_ (x k) j) % 2 ^ 16) ∧
      Completes (.hmax c p d a b) s g t fun k => Wr.one d (v k) tag)

/-- The magnitude that the low bits of an IEEE format stand for, with the exponents going on past the largest (R32). -/
def fmtMag (f : Fmt) (b : Nat) : ℚ :=
  let h := 2 ^ (f.prec - 1)
  if b / h = 0 then (b : ℚ) * 2 ^ f.emin else ((h + b % h : Nat) : ℚ) * 2 ^ (f.emin + ((b / h : Nat) - 1 : Int))

/-- Which of two neighbours b and b + 1, of magnitudes lo and hi, a mode gives for a magnitude x from lo on (R34). -/
def roundsUp (m : Rm) (neg : Bool) (b : Nat) (lo hi x : ℚ) : Prop :=
  match m with
  | .rne => lo + hi < 2 * x ∨ lo + hi = 2 * x ∧ b % 2 = 1
  | .rtz => False
  | .rdn => neg = true ∧ lo < x
  | .rup => neg = false ∧ lo < x

/-- The value of a tapered code (R36). -/
def tapMag (t : Tap) (m : Nat) : ℚ := ((t.val m).rat).getD 0

/-- R108 to R111: cvt converts every element, pack places one converted value and keeps the other elements, unpack takes one element out, and retag
changes the tag alone.

R35: Round_F gives the neighbour that the mode chooses, the largest finite value or infinity past the last, and keeps the sign. R39: the tapered rounding
takes the nearer neighbour, the one of even code at a tie, stops at the ends, and gives NaR for no number. R47: an integer target rounds by the mode,
saturates, and takes 0 for NaN and the ends for the infinities. -/
def Obligations.Conversions : Prop :=
  (∀ (s : State) (g : Gang) (t : Team) (c : Ctl) (src dst : Tag) (m : Rm) (d : Dst) (a z : Src) (j : Fin 5) (x y : Nat → Word),
    let conv (w : Word) (i : Nat) : Nat := (tagElem dst).conv m ((tagElem src).val (elemAt src w i))
    (NoSreg d → src.count = dst.count → Begins (.cvt c src dst m d a) s g t → ReadsTag src a (.cvt c src dst m d a) s g t x → ∃ v : Nat → Word,
      (∀ k i, i < dst.count → elemAt dst (v k) i = conv (x k) i % 2 ^ (tagElem dst).width) ∧
      Completes (.cvt c src dst m d a) s g t fun k => Wr.one d (v k) dst) ∧
    (NoSreg d → j.val < dst.count → Begins (.pack c src dst m d a j z) s g t → ReadsTag src a (.pack c src dst m d a j z) s g t x →
      ReadsTag dst z (.pack c src dst m d a j z) s g t y → ∃ v : Nat → Word,
      (∀ k i, i < dst.count → elemAt dst (v k) i = if i = j.val then conv (x k) 0 % 2 ^ (tagElem dst).width else elemAt dst (y k) i) ∧
      (∀ k, (v k).toNat < 2 ^ (dst.count * (tagElem dst).width)) ∧
      Completes (.pack c src dst m d a j z) s g t fun k => Wr.one d (v k) dst) ∧
    (NoSreg d → Begins (.unpack c src dst m d a j) s g t → ReadsTag src a (.unpack c src dst m d a j) s g t x →
      Completes (.unpack c src dst m d a j) s g t fun k =>
        Wr.one d (BitVec.ofNat 32 (conv (x k) j.val % 2 ^ (tagElem dst).width)) dst) ∧
    (∀ (tag : Tag) (n : Option (Fin 256)) (u : Nat → Opd), Begins (.retag c tag n a) s g t → ReadsAny a (.retag c tag n a) s g t u →
      Completes (.retag c tag n a) s g t fun k => Wr.opt n (u k).val tag)) ∧
  (∀ (f : Fmt) (m : Rm) (neg : Bool) (b num den : Nat), b < f.infBits → 0 < den →
    let s := if neg then f.signBit else 0
    let x : ℚ := (num : ℚ) / den
    (f.val (s + b)).rat = some (if neg then -fmtMag f b else fmtMag f b) ∧
    roundF f m .nan = f.nanBits ∧ roundF f m (.inf neg) = s + f.infBits ∧ roundF f m (.fin neg 0 den) = s ∧
    (0 < num → fmtMag f b ≤ x → x < fmtMag f (b + 1) ∨ b + 1 = f.infBits →
      (roundsUp m neg b (fmtMag f b) (fmtMag f (b + 1)) x → roundF f m (.fin neg num den) = s + (b + 1)) ∧
      (¬ roundsUp m neg b (fmtMag f b) (fmtMag f (b + 1)) x → roundF f m (.fin neg num den) = s + b))) ∧
  (∀ (t : Tap) (neg : Bool) (b num den : Nat), 0 < den →
    let h := 2 ^ (t.width - 1)
    let s := if neg then h else 0
    let x : ℚ := (num : ℚ) / den
    t.round .nan = h ∧ t.round (.inf neg) = h ∧ t.round (.fin neg 0 den) = 0 ∧
    (0 < num → x ≤ tapMag t 1 → t.round (.fin neg num den) = s + 1) ∧
    (tapMag t (h - 1) ≤ x → t.round (.fin neg num den) = s + (h - 1)) ∧
    (0 < b → b + 1 < h → tapMag t b ≤ x → x < tapMag t (b + 1) →
      (roundsUp .rne neg b (tapMag t b) (tapMag t (b + 1)) x → t.round (.fin neg num den) = s + (b + 1)) ∧
      (¬ roundsUp .rne neg b (tapMag t b) (tapMag t (b + 1)) x → t.round (.fin neg num den) = s + b))) ∧
  (∀ (sg : Bool) (w : Nat) (m : Rm) (neg : Bool) (num den : Nat), 0 < w → 0 < den →
    let lo : Int := if sg then -2 ^ (w - 1) else 0
    let hi : Int := if sg then 2 ^ (w - 1) - 1 else 2 ^ w - 1
    let x : ℚ := (signed neg num : ℚ) / den
    (Elem.int sg w).conv m .nan = 0 ∧ (Elem.int sg w).conv m (.inf neg) = wrapNat w (if neg then lo else hi) ∧
    ∃ i : Int, (Elem.int sg w).conv m (.fin neg num den) = wrapNat w (max lo (min hi i)) ∧
      (match m with
        | .rne => |x - i| ≤ 1 / 2 ∧ (|x - i| = 1 / 2 → i % 2 = 0)
        | .rtz => i = if neg then ⌈x⌉ else ⌊x⌋
        | .rdn => i = ⌊x⌋
        | .rup => i = ⌈x⌉))

/-- R113, R114: vdot8, vdot6 and vl2d8 form the exact sum of their products or squared differences with the accumulator and round it once, or clamp it
and take it modulo 2^32; vhamm adds a Hamming distance.
The model's choices in it: log 91. -/
def Obligations.NarrowDotProducts : Prop :=
  ∀ (s : State) (g : Gang) (t : Team) (c : Ctl) (m : Rm) (sat : Bool) (sg : Sgn) (d : Dst) (a b z : Src) (x y r : Nat → Word), NoSreg d →
    let tap (tag : Tag) (n : Nat) (sq : Bool) (u v w : Word) : Nat :=
      let ts := (List.range n).map fun j =>
        let p := (tagElem tag).val (elemAt tag u j)
        let q := (tagElem tag).val (elemAt tag v j)
        if sq then Xr.mul (Xr.add .rne p q.neg) (Xr.add .rne p q.neg) else Xr.mul p q
      roundF .f32 m (exactSum (Fmt.f32.val w.toNat :: ts))
    let tagI : Tag := match sg with | .s => .i8x4 | .n => .n8x4
    let nf : NFmt := match sg with | .s => .i8 | .n => .n8
    let int (sq : Bool) (u v w : Word) : Int := intVal sg w + ((List.range 4).map fun j =>
      let p := intOf (sg == .s) 8 (elemAt tagI u j)
      let q := intOf (sg == .s) 8 (elemAt tagI v j)
      if sq then (p - q) * (p - q) else p * q).sum
    (Begins (.vdot8 c .t8 (.rm m) d a b z) s g t → ReadsTag .t8x4 a (.vdot8 c .t8 (.rm m) d a b z) s g t x →
      ReadsTag .t8x4 b (.vdot8 c .t8 (.rm m) d a b z) s g t y → ReadsTag .f32 z (.vdot8 c .t8 (.rm m) d a b z) s g t r →
      Completes (.vdot8 c .t8 (.rm m) d a b z) s g t fun k => Wr.one d (BitVec.ofNat 32 (tap .t8x4 4 false (x k) (y k) (r k))) .f32) ∧
    (Begins (.vdot6 c m d a b z) s g t → ReadsTag .t6x5 a (.vdot6 c m d a b z) s g t x →
      ReadsTag .t6x5 b (.vdot6 c m d a b z) s g t y → ReadsTag .f32 z (.vdot6 c m d a b z) s g t r →
      Completes (.vdot6 c m d a b z) s g t fun k => Wr.one d (BitVec.ofNat 32 (tap .t6x5 5 false (x k) (y k) (r k))) .f32) ∧
    (Begins (.vl2d8 c .t8 (.rm m) d a b z) s g t → ReadsTag .t8x4 a (.vl2d8 c .t8 (.rm m) d a b z) s g t x →
      ReadsTag .t8x4 b (.vl2d8 c .t8 (.rm m) d a b z) s g t y → ReadsTag .f32 z (.vl2d8 c .t8 (.rm m) d a b z) s g t r →
      Completes (.vl2d8 c .t8 (.rm m) d a b z) s g t fun k => Wr.one d (BitVec.ofNat 32 (tap .t8x4 4 true (x k) (y k) (r k))) .f32) ∧
    (Begins (.vdot8 c nf (.sat sat) d a b z) s g t → ReadsTag tagI a (.vdot8 c nf (.sat sat) d a b z) s g t x →
      ReadsTag tagI b (.vdot8 c nf (.sat sat) d a b z) s g t y → ReadsInt z (.vdot8 c nf (.sat sat) d a b z) s g t r →
      Completes (.vdot8 c nf (.sat sat) d a b z) s g t fun k => Wr.one d (narrowed sg sat (int false (x k) (y k) (r k))) (signTag sg)) ∧
    (Begins (.vl2d8 c nf (.sat sat) d a b z) s g t → ReadsTag tagI a (.vl2d8 c nf (.sat sat) d a b z) s g t x →
      ReadsTag tagI b (.vl2d8 c nf (.sat sat) d a b z) s g t y → ReadsInt z (.vl2d8 c nf (.sat sat) d a b z) s g t r →
      Completes (.vl2d8 c nf (.sat sat) d a b z) s g t fun k => Wr.one d (narrowed sg sat (int true (x k) (y k) (r k))) (signTag sg)) ∧
    (∀ (u v : Nat → Opd), Begins (.vhamm c d a b z) s g t → ReadsAny a (.vhamm c d a b z) s g t u → ReadsAny b (.vhamm c d a b z) s g t v →
      ReadsInt z (.vhamm c d a b z) s g t r →
      Completes (.vhamm c d a b z) s g t fun k =>
        Wr.one d (BitVec.ofNat 32 ((r k).toNat + (List.range 32).countP fun j => ((u k).val ^^^ (v k).val).getLsbD j)) .n32)

/-- R115 to R118: vpqd adds four F32 entries of its scratchpad table to the accumulator and rounds once; vrand writes the mix of its counter and the
fibre's key, as an integer or scaled into [0, 1).
The model's choices in it: log 91. -/
def Obligations.TableDistanceAndRandom : Prop :=
  ∀ (s : State) (g : Gang) (t : Team) (c : Ctl) (d : Dst) (a : Src), NoSreg d →
    (∀ (grp : Fin 16) (sB : Fin 32) (z : Src) (x r : Nat → Word),
      let i : Instr := .vpqd c grp d a sB z
      let base : DWord := getD 0 sB.val (t.seen s.clock)
      let entry (codes : Word) (j : Nat) : Nat := base.toNat + 1024 * (4 * grp.val + j) + 4 * (codes.toNat / 2 ^ (8 * j) % 256)
      t.badS.contains sB.val = false → Begins i s g t → ReadsTag .n8x4 a i s g t x → ReadsTag .f32 z i s g t r → base.toNat % 4 = 0 →
      (∀ k j, j < 4 → entry (x k) j + 4 ≤ t.scrSize ∧ (s.core t.core).badAt (t.scrBase + entry (x k) j) 4 = none) →
      Performs i s g t s fun _ f =>
        { f := f.issuing, lat := some 10, w := Wr.one d (BitVec.ofNat 32 (roundF .f32 .rne (exactSum (Fmt.f32.val (r f.fidx).toNat ::
          (List.range 4).map fun j => Fmt.f32.val (leWord ((s.core t.core).bytes (t.scrBase + entry (x f.fidx) j) 4)))))) .f32 }) ∧
    (∀ (fl : Bool) (x : Nat → Word) (key : Nat → Word), Begins (.vrand c fl d a) s g t → ReadsInt a (.vrand c fl d a) s g t x →
      (∀ lane f, Executes s g t (.vrand c fl d a) lane f → key f.fidx = f.seed.setWidth 32 ^^^ (f.seed >>> 32).setWidth 32) →
      Completes (.vrand c fl d a) s g t fun k =>
        let x0 := x k ^^^ key k
        let x1 := x0 ^^^ (x0 >>> 16)
        let x2 := x1 * 0x2C9F85A1
        let x3 := x2 ^^^ (x2 >>> 13)
        let x4 := x3 * 0x6E3B5D27
        let mix := x4 ^^^ (x4 >>> 16)
        if fl then Wr.one d (BitVec.ofNat 32 (roundF .f32 .rne (.fin false (mix.toNat / 256) (2 ^ 24)))) .f32 else Wr.one d mix .n32)

/-! ## Control flow (R66, R119 to R128, R150) -/

/-- R66, R70, R120 to R122, R128: bra goes to its target; dbra counts down with the counter's tag kept and branches unless it reaches 0; jmp goes to the
address it reads; nop and a frame word reached in sequence only pass on. Each is stated for a gang that stays together. A branch that some fibres of
a gang take and others do not dissolves the gang (R150): every fibre is loose at its own next PC, those that take the branch with exit rank 1, the others with
rank 0. -/
def Obligations.Branches : Prop :=
  (∀ (s : State) (g : Gang) (t : Team) (gd : Guard) (pc : DWord),
    (∀ off, Issuing s (.bra gd off) g t pc → AllExecute (.bra gd off) s g t → Unbroken s t (pc + off.signExtend 64 * 8) →
      Performs (.bra gd off) s g t s fun _ f => { f := f.issuing, next := some (pc + off.signExtend 64 * 8) }) ∧
    (∀ (off : BitVec 34) (ctr : Fin 256) (x : Nat → Word), Issuing s (.dbra gd off ctr) g t pc → AllExecute (.dbra gd off ctr) s g t →
      ReadsInt (.v ctr) (.dbra gd off ctr) s g t x → (∀ k, x k ≠ 1) → Unbroken s t (pc + off.signExtend 64 * 8) →
      Performs (.dbra gd off ctr) s g t s fun _ f =>
        { f := f.issuing, w := { regs := [(ctr.val, ⟨x f.fidx - 1, (f.reg ctr.val).tag⟩)] }, next := some (pc + off.signExtend 64 * 8) }) ∧
    (∀ (off : BitVec 34) (ctr : Fin 256), Begins (.dbra gd off ctr) s g t → ReadsInt (.v ctr) (.dbra gd off ctr) s g t (fun _ => 1) →
      Performs (.dbra gd off ctr) s g t s fun _ f => { f := f.issuing, w := { regs := [(ctr.val, ⟨0, (f.reg ctr.val).tag⟩)] } }) ∧
    (∀ (a : Op64) (v : DWord), Issuing s (.jmp gd a) g t pc → AllExecute (.jmp gd a) s g t → ReadsWide a (.jmp gd a) s g t (fun _ => v) →
      v.toNat % 8 = 0 → Unbroken s t v →
      Performs (.jmp gd a) s g t s fun _ f => { f := f.issuing, next := some v }) ∧
    (Begins (.nop gd) s g t → Performs (.nop gd) s g t s fun _ f => { f := f.issuing }) ∧
    (∀ imm, Begins (.frameWord imm) s g t → Performs (.frameWord imm) s g t s fun _ f => { f := f.issuing })) ∧
  (∀ (s : State) (g : Gang) (t : Team) (gd : Guard) (pc : DWord) (off : BitVec 34),
      let i : Instr := .bra gd off
      let target := pc + off.signExtend 64 * 8
      Issuing s i g t pc → target ≠ pc + 8 → Unbroken s t target → Unbroken s t (pc + 8) →
      (∃ lane f, Executes s g t i lane f) → (∃ lane f, Member s g t lane f ∧ ¬ Executes s g t i lane f) →
      ∃ s', exec i s = .next s' ∧ s' = { s with fibres := s'.fibres, gangs := s'.gangs, issue := none } ∧
        (∀ h, h ∈ s'.gangs ↔ h ∈ s.gangs ∧ h.gid ≠ g.gid ∧ h.members ≠ []) ∧
        (∀ lane f, Executes s g t i lane f →
          s'.fibre (t.key f.fidx) = some { f.done i s t lane { f := f.issuing, next := some target } with st := .loose (g.issuedAt s.clock) 1 }) ∧
        (∀ lane f, Member s g t lane f → ¬ Executes s g t i lane f →
          s'.fibre (t.key f.fidx) = some { f.done i s t lane { f := f.issuing } with st := .loose (g.issuedAt s.clock) 0 }) ∧
        (∀ k, (∀ m ∈ g.members, k ≠ t.key m.2) → s'.fibre k = s.fibre k))

/-- R124 to R127: call and calli push the return address with the caller's window onto the return stack, shift the window and set the frame that the
callee's frame word declares; ret pops it all.

R126: a call that finds eight entries in the core stores the oldest to the fibre-local area, at the offset of its depth; a ret that finds none loads its
entry from there.

R124, R127: a target that is no multiple of 8 raises ALIGN, a callee that does not fit the window or a full depth FRAME_OVERFLOW, a ret without a call
ILLEGAL.
The model's choices in it: logs 14, 15, 31. -/
def Obligations.CallsAndReturns : Prop :=
  (∀ (s : State) (g : Gang) (t : Team) (gd : Guard) (pc : DWord),
    let called (target : DWord) (sh : Fin 33) (imm : Word) (f : Fibre) : Out :=
      { f := { f.issuing with
          stack := BitVec.ofNat 64 (f.fb / 8 * 2 ^ 59 + f.fs / 8 * 2 ^ 53 + (pc + 8).toNat / 8 % 2 ^ 53) :: f.stack,
          depth := f.depth + 1, fb := f.fb + 8 * sh.val, fs := imm.toNat },
        next := some target }
    let ready (i : Instr) (target : DWord) (sh : Fin 33) (imm : Word) : Prop :=
      Issuing s i g t pc ∧ AllExecute i s g t ∧ target.toNat % 8 = 0 ∧ Unbroken s t target ∧
      (∃ w, fetchWord s t.core (s.teamLaunch t).ctx (target - 8) 6 = .ok w ∧ decodeWords [w] = .ok (.frameWord imm)) ∧
      ∀ lane f, Member s g t lane f → f.fb + 8 * sh.val + imm.toNat ≤ t.w ∧ f.depth ≠ 65535 ∧ f.stack.length < 8
    (∀ off sh imm, ready (.call gd off sh) (pc + off.signExtend 64 * 8) sh imm →
      Performs (.call gd off sh) s g t s fun _ f => called (pc + off.signExtend 64 * 8) sh imm f) ∧
    (∀ a sh imm v, ready (.calli gd a sh) v sh imm → ReadsWide a (.calli gd a sh) s g t (fun _ => v) →
      Performs (.calli gd a sh) s g t s fun _ f => called v sh imm f) ∧
    (∀ (en : Nat → DWord) (rest : Nat → List DWord) (target : DWord), Issuing s (.ret gd) g t pc → AllExecute (.ret gd) s g t →
      Unbroken s t target →
      (∀ lane f, Member s g t lane f → f.depth ≠ 0 ∧ f.stack = en f.fidx :: rest f.fidx) →
      (∀ k, 1 ≤ (en k).toNat / 2 ^ 53 % 64 ∧ (en k).toNat / 2 ^ 53 % 64 ≤ 32 ∧
        8 * ((en k).toNat / 2 ^ 59) + 8 * ((en k).toNat / 2 ^ 53 % 64) ≤ t.w ∧ entryPc (en k) = target) →
      Performs (.ret gd) s g t s fun _ f =>
        { f := { f.issuing with stack := rest f.fidx, depth := f.depth - 1, fb := 8 * ((en f.fidx).toNat / 2 ^ 59),
                                fs := 8 * ((en f.fidx).toNat / 2 ^ 53 % 64) }, next := some target }) ∧
    (∀ (ra : DWord) (fb fs : Nat), canonical ra = true → ra.toNat % 8 = 0 → fb % 8 = 0 → fb < 256 → fs % 8 = 0 → fs < 512 →
      entryPc (stackEntry ra fb fs) = ra ∧ 8 * ((stackEntry ra fb fs).toNat / 2 ^ 59) = fb ∧ 8 * ((stackEntry ra fb fs).toNat / 2 ^ 53 % 64) = fs)) ∧
  (∀ (s : State) (g : Gang) (t : Team) (lane : Nat) (f : Fibre) (gd : Guard) (pa : Nat) (leaf : DWord),
    let k := s.site t f
    let spill (d : Nat) : DWord := BitVec.ofNat 64 k.lau.locF - BitVec.ofNat 64 (8 * (d + 1))
    let va (d : Nat) : DWord := k.lau.locB + BitVec.ofNat 64 (k.gfid * k.lau.locF) + spill d
    let there (d : Nat) : Prop := (spill d).toNat % 8 = 0 ∧ (va d).toNat % 8 = 0 ∧ (spill d).toNat + 8 ≤ k.lau.locF ∧
      s.walkWaits t.core k.ctx (va d) = false
    (∀ (i : Instr) (target : DWord) (sh : Fin 33),
      ((∃ off, i = .call gd off sh ∧ target = f.pc + off.signExtend 64 * 8) ∨
        ∃ a, i = .calli gd a sh ∧ readOp64 (envOf s t lane f.fidx) f a = .ok target) → Solo i s g t lane f →
      (target.toNat % 8 ≠ 0 → TakesTrap i s g t f { code := .align, faddr := target, aux := 1 } none) ∧
      ∀ (w : Nat) (imm : Word), target.toNat % 8 = 0 → fetchWord s t.core k.ctx (target - 8) 6 = .ok w → decodeWords [w] = .ok (.frameWord imm) →
        (t.w < f.fb + 8 * sh.val + imm.toNat ∨ f.depth = 65535 →
          TakesTrap i s g t f { code := .frameOverflow, faddr := target, aux := imm.toNat } none) ∧
        (f.fb + 8 * sh.val + imm.toNat ≤ t.w → f.depth ≠ 65535 → 8 ≤ f.stack.length → f.txn = none → there (f.depth - 8) →
          checkVa s t.core k.ctx (va (f.depth - 8)) { kind := 3, w := true, seals := true } = .ok (pa, leaf) → storeHeld s t.core (lineOf pa) = false →
          let s1 := storeLine (noteMiss s t.core k.ctx (va (f.depth - 8))) t.core f.key pa (leBytes (f.stack.getLastD 0).toNat 8)
          Unbroken s1 t target → Performs i s g t s1 fun _ f =>
            { f := { f.issuing with
                stack := BitVec.ofNat 64 (f.fb / 8 * 2 ^ 59 + f.fs / 8 * 2 ^ 53 + (f.pc + 8).toNat / 8 % 2 ^ 53) :: f.stack.dropLast,
                depth := f.depth + 1, fb := f.fb + 8 * sh.val, fs := imm.toNat },
              next := some target })) ∧
    (Solo (.ret gd) s g t lane f →
      (f.depth = 0 → TakesTrap (.ret gd) s g t f { code := .illegal } none) ∧
      ∀ (bs : List Byte) (lat : Nat), f.depth ≠ 0 → f.stack = [] → f.txn = none → there (f.depth - 1) →
        checkVa s t.core k.ctx (va (f.depth - 1)) { kind := 2, r := true } = .ok (pa, leaf) → loadWaits s t.core (lineOf pa) = false →
        loadLine s t.core pa 8 = (bs, none, lat) →
        let en := BitVec.ofNat 64 (leWord bs)
        let s1 := noteFill (noteMiss s t.core k.ctx (va (f.depth - 1))) t.core (lineOf pa)
          (1 + if leafSealed leaf || leafContrib leaf then 2 else 0)
        1 ≤ en.toNat / 2 ^ 53 % 64 → en.toNat / 2 ^ 53 % 64 ≤ 32 → 8 * (en.toNat / 2 ^ 59) + 8 * (en.toNat / 2 ^ 53 % 64) ≤ t.w →
        Unbroken s1 t (entryPc en) → Performs (.ret gd) s g t s1 fun _ f =>
          { f := { f.issuing with stack := [], depth := f.depth - 1, fb := 8 * (en.toNat / 2 ^ 59), fs := 8 * (en.toNat / 2 ^ 53 % 64) },
            next := some (entryPc en) }))

/-! ## Traps and system control (R26, R83, R341 to R348, R377 to R384) -/

/-- R378, R379, R83, R431: trap raises SOFTWARE with its operand; brk raises BREAKPOINT at itself, or is passed by a fibre that resumes at it; an unassigned
encoding raises FEATURE where the context's table names it, with its shim, and ILLEGAL otherwise.
The model's choices in it: logs 31, 78, 82. -/
def Obligations.TrapInstructions : Prop :=
  ∀ (s : State) (g : Gang) (t : Team) (lane : Nat) (f : Fibre) (gd : Guard),
    let again : Prop := ∃ r, f.lastBrk = some (r, f.pc) ∧ (if f.runPos = 0 then f.skipBrk = some f.pc ∧ r = f.pc else f.runPc = r)
    (∀ (a : Src) (o : Opd), Solo (.trap gd a) s g t lane f → readSrc (envOf s t lane f.fidx) f a = .ok o →
      TakesTrap (.trap gd a) s g t f { code := .software, aux := o.val.toNat } none) ∧
    (Solo (.brk gd) s g t lane f → ¬ again → (s.core t.core).fstop.getLsbD t.slot = false →
      TakesTrap (.brk gd) s g t f { code := .breakpoint, faddr := f.pc, aux := 0 } none) ∧
    (Solo (.brk gd) s g t lane f → again → Unbroken s t (f.pc + 8) →
      Performs (.brk gd) s g t s fun _ f => { f := f.issuing }) ∧
    (∀ (w : DWord), Solo (.unassignedMajor w) s g t lane f →
      (featureOf s (s.teamLaunch t).ctx (w.toNat / 2 ^ 57) (w.toNat / 2 ^ 51 % 64) = none →
        TakesTrap (.unassignedMajor w) s g t f { code := .illegal, aux := majorStep w.toNat } none) ∧
      (∀ b sh, featureOf s (s.teamLaunch t).ctx (w.toNat / 2 ^ 57) (w.toNat / 2 ^ 51 % 64) = some (b, sh) →
        TakesTrap (.unassignedMajor w) s g t f { code := .feature, aux := b } (some sh)))

/-- R345, R346: entry to a handler at h with frame size fh: the twelve words of the trap frame stand in the entries above the interrupted frame, the window
starts there with fh registers, the PC is h, and the return stack, the depth, the predicates, the seed and every register of the interrupted frame are as
they were.
The model's choices in it: log 69. -/
def Obligations.HandlerEntry : Prop :=
  ∀ (f : Fibre) (r : TrapRec) (h : DWord) (fh clk : Nat) (hand : Hand),
    let f' := enterHandler f r h fh clk hand
    f'.pc = h ∧ f'.fb = f.fb + f.fs ∧ f'.fs = fh ∧ f'.hand = hand ∧ f'.trap = none ∧ f'.st = .loose clk 0 ∧
    f'.stack = f.stack ∧ f'.depth = f.depth ∧ f'.preds = f.preds ∧ f'.seed = f.seed ∧ f'.status = f.status ∧
    (∀ n, n < f.fs → getD Reg.zero (f.fb + n) f'.regs = f.reg n) ∧
    f'.reg 0 = ⟨BitVec.ofNat 32 (r.trap.code.num + 2 ^ 8 * r.trap.detail +
      2 ^ 16 * (r.inRun.toNat + 2 * r.inTree.toNat + 4 * r.closed.toNat + 8 * (decide (hand = .shim)).toNat)), .n32⟩ ∧
    f'.reg 1 = ⟨BitVec.ofNat 32 (r.order + 2 ^ 16 * r.event), .n32⟩ ∧
    f'.reg 2 = ⟨BitVec.ofNat 32 (f.depth + 2 ^ 21 * (f.fs / 8) + 2 ^ 27 * (f.fb / 8)), .n32⟩ ∧
    f'.reg 3 = ⟨f.preds.setWidth 32, .n32⟩ ∧
    f'.reg 4 = ⟨r.rpc.setWidth 32, .p64l⟩ ∧ f'.reg 5 = ⟨(r.rpc >>> 32).setWidth 32, .p64h⟩ ∧
    f'.reg 6 = ⟨r.ipc.setWidth 32, .p64l⟩ ∧ f'.reg 7 = ⟨(r.ipc >>> 32).setWidth 32, .p64h⟩ ∧
    f'.reg 8 = ⟨r.trap.faddr.setWidth 32, .p64l⟩ ∧ f'.reg 9 = ⟨(r.trap.faddr >>> 32).setWidth 32, .p64h⟩ ∧
    f'.reg 10 = ⟨BitVec.ofNat 32 r.trap.aux, .n32⟩ ∧ f'.reg 11 = ⟨0, .n32⟩

/-- R13, R348, R380: rti takes the fibre out of the handler crew and back to the RPC of its frame, with the predicates, the window and the frame size that the
frame names; outside a handler, inside an attempt, or with a frame that fits no window it raises ILLEGAL, and so it does, with the register's selector, where a
word of the frame that it reads holds a reserved tag.
The model's choices in it: logs 31, 69, 84. -/
def Obligations.ReturnFromTrap : Prop :=
  ∀ (s : State) (g : Gang) (t : Team) (lane : Nat) (f : Fibre) (gd : Guard),
    let x (n : Nat) : Nat := (f.reg n).val.toNat
    let fs8 := x 2 / 2 ^ 21 % 64
    let fb8 := x 2 / 2 ^ 27
    let rpc : DWord := (f.reg 5).val ++ (f.reg 4).val
    let reserved (n : Nat) : Bool := reservedTag (f.reg n).tag
    let fits : Prop := x 2 % 2 ^ 16 = f.depth ∧ 1 ≤ fs8 ∧ fs8 ≤ 32 ∧ 8 * fb8 + 8 * fs8 ≤ t.w ∧ rpc.toNat % 8 = 0
    Solo (.rti gd) s g t lane f →
    (f.hand ≠ .none → f.txn = none → (∀ n ∈ [2, 3, 4, 5], reserved n = false) → fits →
      ∃ s', exec (.rti gd) s = .next s' ∧
        Left (s.setTeam t.id (t.leaveHandler f.fidx)) s' g
          { f.issuing with
            preds := BitVec.ofNat 16 (x 3) ||| 1, fb := 8 * fb8, fs := 8 * fs8, pc := rpc, runPc := rpc, runPos := 0, hand := .none,
            restart := f.restart.filter (·.origin == rpc), skipBrk := some rpc, st := .loose s.clock 0,
            latches := [], lAvail := [], runVs := [], runSs := [], runPs := [] }) ∧
    ((f.hand = .none ∨ f.txn ≠ none ∨ (∀ n ∈ [2, 3, 4, 5], reserved n = false) ∧ ¬ fits) → TakesTrap (.rti gd) s g t f { code := .illegal } none) ∧
    (∀ n ∈ [2, 3, 4, 5], f.hand ≠ .none → f.txn = none → reserved n = true → (∀ m ∈ [2, 3, 4, 5], m < n → reserved m = false) →
      TakesTrap (.rti gd) s g t f { code := .illegal, aux := 5 + 8 * n } none)

/-- R381 to R383: rdsys writes the system value of its code, as one N32 register or as two for the 64-bit values; wrsys writes the fibre's seed, or the
core's mark. -/
def Obligations.SystemValues : Prop :=
  ∀ (s : State) (g : Gang) (t : Team) (gd : Guard),
    let l := s.teamLaunch t
    let rds (code : Fin 19) (q : Fin 8) (n : Fin 256) (v : Nat → Fibre → Nat) : Prop := Begins (.rdsys gd (.v n) code q) s g t →
      Performs (.rdsys gd (.v n) code q) s g t s fun lane f =>
        let w : Wr := if code.val = 0 ∨ code.val = 12 ∨ code.val = 13 ∨ code.val = 16
          then { regs := [(n.val, ⟨BitVec.ofNat 32 (v lane f), .n32⟩), (n.val + 1, ⟨BitVec.ofNat 32 (v lane f / 2 ^ 32), .n32⟩)] }
          else Wr.one (.v n) (BitVec.ofNat 32 (v lane f)) .n32
        { f := f.issuing, w := w }
    (∀ n q, rds 0 q n fun _ f => gfidOf l t f.fidx) ∧ (∀ n q, rds 1 q n fun _ _ => t.cluster * l.clusterSize + t.index) ∧
    (∀ n q, rds 2 q n fun _ _ => t.cluster) ∧
    (∀ n q, rds 3 q n fun _ f =>
      ((t.crew q.val).bind fun c => (rankIn c f.fidx).filter fun r => c.live.getLsbD r).getD 0xFFFFFFFF) ∧
    (∀ n q, rds 4 q n fun _ _ => ((t.crew q.val).map (·.size)).getD 0) ∧ (∀ n q, rds 5 q n fun _ _ => l.gx) ∧
    (∀ n q, rds 6 q n fun _ _ => l.gy) ∧ (∀ n q, rds 7 q n fun _ _ => l.gz) ∧ (∀ n q, rds 8 q n fun _ _ => t.core / 128) ∧
    (∀ n q, rds 9 q n fun _ _ => t.core / 4 % 32) ∧ (∀ n q, rds 10 q n fun _ _ => t.core % 4) ∧
    (∀ n q, rds 11 q n fun _ f => f.fidx % 4) ∧ (∀ n q, rds 12 q n fun _ _ => s.clock - s.epoch) ∧ (∀ n q, rds 13 q n fun _ f => f.seed.toNat) ∧
    (∀ n q, rds 14 q n fun _ f => f.status.toNat) ∧ (∀ n q, rds 15 q n fun _ _ => if l.pool then 0xFFFFFFFF else l.resume) ∧
    (∀ n q, rds 16 q n fun _ _ => (s.core t.core).mark.toNat) ∧ (∀ n q, rds 17 q n fun _ _ => t.events) ∧
    (∀ n q, rds 18 q n fun _ _ => l.ctx) ∧
    (∀ (b : WrSrc) (v : Nat → DWord), Begins (.wrsys gd false b) s g t → Reads (fun e f => readWr e f b) (.wrsys gd false b) s g t v →
      Performs (.wrsys gd false b) s g t s fun _ f => { f := { f.issuing with seed := v f.fidx } }) ∧
    (∀ (lane : Nat) (f : Fibre) (b : WrSrc) (v : DWord), Solo (.wrsys gd true b) s g t lane f →
      readWr (envOf s t lane f.fidx) f b = .ok v → (s.core t.core).markAt.1 ≠ s.clock → Unbroken s t (f.pc + 8) →
      Performs (.wrsys gd true b) s g t
        (s.setCore t.core { s.core t.core with mark := v, markAt := (s.clock, gfidOf l t f.fidx + 1) }) fun _ f => { f := f.issuing })

/-! ## Fibres, crews, collectives and register budgets (R145, R159 to R179) -/

/-- R142, R163, R165: fork creates a fibre at the target with its parent's window and predicates under the lowest free fidx, each of the two reading the
other's fidx, or reads all ones where none is free; what its parent's accesses still await, the child awaits too. spawn appends one record to its launch's pool once
its release has nothing left to wait for; in a launch without a pool it raises ILLEGAL, and with a full pool ENGINE_FAULT of cause POOL_FULL.

R153, R164, R166: end takes the fibre out of the machine, of its gang and of its crews; yield passes on, and its gang goes behind the others of its slot;
both are yield points, which the slot notes. -/
def Obligations.ForkSpawnEndYield : Prop :=
  (∀ (s : State) (g : Gang) (t : Team) (lane : Nat) (f : Fibre) (gd : Guard) (off : BitVec 34),
     let l := s.teamLaunch t
     let target := f.pc + off.signExtend 64 * 8
     (∀ (vD : Fin 256) (j : Nat), Solo (.fork gd off vD) s g t lane f → freeFidx s t = some j → Unbroken s t (f.pc + 8) →
       Performs (.fork gd off vD) s g t
         ((inherit s t.core f.key (t.key j)).setFibre (t.key j) (Fibre.setReg
           { fidx := j, team := t.id, pc := target, runPc := target, seed := l.seed + BitVec.ofNat 64 (gfidOf l t j), st := .loose s.clock 0, fresh := true,
             preds := f.preds, fb := f.fb, fs := f.fs, regs := f.regs, badRegs := f.badRegs, await := f.await, accAt := f.accAt, doneAt := f.doneAt } vD.val ⟨BitVec.ofNat 32 f.fidx, .n32⟩))
         fun _ f => { f := f.issuing, w := { regs := [(vD.val, ⟨BitVec.ofNat 32 j, .n32⟩)] } }) ∧
     (∀ (vD : Fin 256), Begins (.fork gd off vD) s g t → freeFidx s t = none →
       Performs (.fork gd off vD) s g t s fun _ f => { f := f.issuing, w := { regs := [(vD.val, ⟨0xFFFFFFFF, .n32⟩)] } }) ∧
     (∀ (vA : Fin 128) (lo hi : Reg), Solo (.spawn gd off vA) s g t lane f → l.pool = true → l.held < l.capacity →
       readV f (2 * vA.val) = .ok lo → readV f (2 * vA.val + 1) = .ok hi → Released (.spawn gd off vA) s g t → Unbroken s t (f.pc + 8) →
       Performs (.spawn gd off vA) s g t
         (s.setLaunch l.id { l with held := l.held + 1, waiting := l.waiting ++
           [{ pc := target, lo := lo, hi := hi, born := s.clock, stamp := stampOf s (t.core / 128) }] })
         fun _ f => { f := f.issuing }) ∧
     (∀ (vA : Fin 128), Solo (.spawn gd off vA) s g t lane f →
       (l.pool = false → TakesTrap (.spawn gd off vA) s g t f { code := .illegal } none) ∧
       (l.pool = true → l.capacity ≤ l.held → TakesTrap (.spawn gd off vA) s g t f { code := .engineFault, detail := 7 } none))) ∧
  (∀ (s : State) (g : Gang) (t : Team) (gd : Guard),
     let noted : Core := { s.core g.core with
       last := upd g.slot (fun l => if l.gid = g.gid then { l with yielded := true } else l) (s.core g.core).last }
     (∀ (lane : Nat) (f : Fibre), Solo (.endF gd) s g t lane f →
       f.fidx < 1024 → (s.teamFibres t.id = [f] ∨
         ∃ k f', k ≠ f.key ∧ k / 1024 = t.id ∧ s.fibre k = some f' ∧ ∀ a b c d e h, f'.st ≠ .budget a b c d e false h) →
       ∃ s', exec (.endF gd) s = .next s' ∧
         s' = { s with fibres := del f.key s.fibres, gangs := s'.gangs, issue := none, cores := setD {} g.core noted s.cores,
                       teams := put t.id { t.dropMember f.fidx with ended := put f.fidx s.clock t.ended } s.teams } ∧
         ∀ h, h ∈ s'.gangs ↔ h ∈ s.gangs ∧ h.gid ≠ g.gid ∧ h.members ≠ []) ∧
     (Begins (.yield gd) s g t → (∃ lane f, Executes s g t (.yield gd) lane f) →
       ∃ s', exec (.yield gd) s = .next s' ∧
         s' = { s with fibres := s'.fibres, gangs := s'.gangs, issue := none, cores := setD {} g.core noted s.cores } ∧
         s'.gangs.getLast? = some (g.passed t s.clock) ∧
         (∀ lane f, Member s g t lane f → s'.fibre (t.key f.fidx) = some (f.done (.yield gd) s t lane { f := f.issuing })) ∧
         (∀ k, (∀ m ∈ g.members, k ≠ t.key m.2) → s'.fibre k = s.fibre k)))

/-- R145, R167: crew makes a crew of the executing fibres in fidx order, with every mask expecting all of them, or disbands a crew whose live members they
are; a crew register in use, or a wrong number of fibres, refuses it and changes nothing but the predicate. -/
def Obligations.CrewFormation : Prop :=
  ∀ (s : State) (g : Gang) (t : Team) (gd : Guard) (pd : Option (Fin 16)) (size : Fin 5) (q : Fin 8),
    let i : Instr := .crew gd pd size q
    let n := if size.val = 0 then 0 else 2 ^ (size.val + 1)
    let answer (b : Bool) (_ : Nat) (f : Fibre) : Out := { f := f.issuing, w := { preds := (pd.map fun p => (p.val, b)).toList } }
    Begins i s g t → AllExecute i s g t →
    (size.val ≠ 0 → t.crew q.val = none → g.members.length = n → (linked t g.ids).length ≤ 32 →
      let all : BitVec 32 := BitVec.ofNat 32 (2 ^ n - 1)
      let c : Crew :=
        { size := n, members := g.ids, live := all, masks := List.replicate 12 { expected := all, arrived := 0, phase := 0 }, version := 1 }
      let t1 := { t with crews := put q.val c t.crews }
      ∃ s', exec i s = .next s' ∧ Passed (s.setTeam t.id t1) s' g t1 (Fibre.goes i s t (answer true))) ∧
    (size.val = 0 → (∃ c, t.crew q.val = some c ∧ g.ids = liveOf c) →
      let t1 := { t with crews := del q.val t.crews }
      ∃ s', exec i s = .next s' ∧ Passed (s.setTeam t.id t1) s' g t1 (Fibre.goes i s t (answer true))) ∧
    (size.val ≠ 0 ∧ (t.crew q.val ≠ none ∨ g.members.length ≠ n) ∨ size.val = 0 ∧ (∀ c, t.crew q.val = some c → g.ids ≠ liveOf c) →
      Performs i s g t s (answer false))

/-- R168, R169: join marks the fibre as arrived at its mask and holds it in its gang until the clock's evaluation, or passes with a true predicate where the
mask does not expect it; leave takes the fibre out of a mask. A fibre that is no live member of the crew raises CREW_PARTIAL at either.
The model's choices in it: log 2. -/
def Obligations.JoinAndLeave : Prop :=
  (∀ (s : State) (g : Gang) (t : Team) (lane : Nat) (f : Fibre) (gd : Guard) (k : Fin 12) (q : Fin 8) (c : Crew) (r : Nat) (m : KMask),
    t.crew q.val = some c → rankIn c f.fidx = some r → c.live.getLsbD r = true → c.masks[k.val]? = some m →
    let with_ (m' : KMask) : Team := { t with crews := put q.val { c with masks := c.masks.set k.val m', version := c.version + 1 } t.crews }
    (∀ (pd : Option (Fin 16)) (dl : Option Src) (d : Option Nat), Solo (.join gd pd k dl q) s g t lane f →
      readDl (envOf s t lane f.fidx) f dl = .ok d →
      (m.expected.getLsbD r = true →
        let t1 := with_ { m with arrived := m.arrived ||| (1#32 <<< r) }
        ∃ s', exec (.join gd pd k dl q) s = .next s' ∧ Passed (s.setTeam t.id t1) s' g t1
          fun _ f => { f.issuing with st := .joining q.val k.val pd m.phase (d.map (s.clock + ·)) s.clock }) ∧
      (m.expected.getLsbD r = false → Unbroken s t (f.pc + 8) → Performs (.join gd pd k dl q) s g t s fun _ f =>
        { f := { f.issuing with status := 0 }, w := { preds := (pd.map fun p => (p.val, true)).toList } })) ∧
    (Solo (.leave gd k q) s g t lane f → Unbroken s t (f.pc + 8) →
      (m.expected.getLsbD r = true →
        let t1 := with_ { m with expected := m.expected &&& ~~~(1#32 <<< r), arrived := m.arrived &&& ~~~(1#32 <<< r) }
        ∃ s', exec (.leave gd k q) s = .next s' ∧
          Passed (s.setTeam t.id t1) s' g t1 (Fibre.goes (.leave gd k q) s t fun _ f => { f := f.issuing })) ∧
      (m.expected.getLsbD r = false → Performs (.leave gd k q) s g t s fun _ f => { f := f.issuing }))) ∧
  (∀ (s : State) (g : Gang) (t : Team) (lane : Nat) (f : Fibre) (gd : Guard) (k : Fin 12) (q : Fin 8),
    (∀ c r, t.crew q.val = some c → rankIn c f.fidx = some r → c.live.getLsbD r = false) →
    (∀ (pd : Option (Fin 16)) (dl : Option Src) (d : Option Nat), Solo (.join gd pd k dl q) s g t lane f → readDl (envOf s t lane f.fidx) f dl = .ok d →
      TakesTrap (.join gd pd k dl q) s g t f { code := .crewPartial, aux := q.val } none) ∧
    (Solo (.leave gd k q) s g t lane f → TakesTrap (.leave gd k q) s g t f { code := .crewPartial, aux := q.val } none))

/-- The rank of a fidx in a crew. -/
def rankAt (c : Crew) (k : Nat) : Nat := (rankIn c k).getD 0

/-- The reductions of a crew over the values x of some of its members in rank order: a sum of F32 values, exact and rounded once; a least or greatest F32
value; an integer operation; and a scan's value over them, the identity over none (R174 to R176). -/
def crewSum (x : Nat → Word) (m : Rm) (ks : List Nat) : Nat :=
  eaRead .ea320 (.ieee .f32) m (ks.foldl (fun v k => eaAdd .ea320 v (eaFrom .ea320 (Fmt.f32.val (x k).toNat))) {})
def crewBest (x : Nat → Word) (op : Xr → Xr → Xr) (ks : List Nat) : Nat := roundF .f32 .rne (ks.foldl (fun v k => op v (Fmt.f32.val (x k).toNat)) .nan)
def crewFold (x : Nat → Word) (op : RedOp) (ty : Sgn) (ks : List Nat) : Word := (ks.tail.map x).foldl (redOp op ty) ((ks.map x).headD 0)
def crewScan (x : Nat → Word) (op : ScanOp) (ty : ScanTy) (ks : List Nat) : Nat :=
  if ks = [] then scanUnit op ty else match ty, op with
    | .f, .add => crewSum x .rne ks | .f, .min => crewBest x xrMin ks | .f, .max => crewBest x xrMax ks
    | .s, .add => (crewFold x .add .s ks).toNat | .s, .min => (crewFold x .min .s ks).toNat | .s, .max => (crewFold x .max .s ks).toNat
    | .n, .add => (crewFold x .add .n ks).toNat | .n, .min => (crewFold x .min .n ks).toNat | .n, .max => (crewFold x .max .n ks).toNat

/-- R171 to R173: vote gives the members' predicates together or as a ballot by rank; shfl gives each member the value of its partner, or its own where no
live member has the partner's rank; cbcast gives all the value of one rank.

R174 to R176: credi and credf reduce the members' values in rank order, a sum of F32 values exactly and rounded once; cscan gives each member the
reduction over the ranks below it, with its own or without, and the identity over none.

R161: where the executing fibres are not the crew's live members, or some of them trap by themselves, all the others raise CREW_PARTIAL in the same event.
R173: ranks of cbcast that differ raise NONUNIFORM at all, and a rank that no live member has raises CREW_PARTIAL at all. -/
def Obligations.CrewCollectives : Prop :=
  (∀ (s : State) (g : Gang) (t : Team) (gd : Guard) (q : Fin 8) (c : Crew),
     (∀ (op : VoteOp) (ps : Fin 16) (p : Nat → Bool), Begins (.vote gd op ps q) s g t → WholeCrew (.vote gd op ps q) s g t q c →
       (∀ lane f, Member s g t lane f → predBit f.preds ps.val = p f.fidx) → (∀ n, op ≠ .ballot (.s n)) →
       Performs (.vote gd op ps q) s g t s fun _ f => { f := f.issuing, w := match op with
         | .any pd => { preds := (pd.map fun d => (d.val, (liveOf c).any p)).toList }
         | .all pd => { preds := (pd.map fun d => (d.val, (liveOf c).all p)).toList }
         | .ballot d => Wr.one d (BitVec.ofNat 32 ((liveOf c).map fun k => if p k then 2 ^ rankAt c k else 0).sum) .n32 }) ∧
     (∀ (m : ShflMode) (d : Dst) (a b : Src) (x : Nat → Opd) (u : Nat → Word), NoSreg d → Begins (.shfl gd m d a b q) s g t →
       WholeCrew (.shfl gd m d a b q) s g t q c → ReadsAny a (.shfl gd m d a b q) s g t x → ReadsInt b (.shfl gd m d a b q) s g t u →
       Performs (.shfl gd m d a b q) s g t s fun _ f =>
         let j : Int := match m with
           | .idx => (u f.fidx).toNat
           | .xor => ((rankAt c f.fidx) ^^^ (u f.fidx).toNat : Nat)
           | .up => (rankAt c f.fidx : Int) - (u f.fidx).toNat
           | .down => (rankAt c f.fidx : Int) + (u f.fidx).toNat
         let k := ((liveOf c).find? fun k => decide (j < 32) && decide ((rankAt c k : Int) = j)).getD f.fidx
         { f := f.issuing, w := Wr.one d (x k).val (x k).tag }) ∧
     (∀ (d : Dst) (a b : Src) (x : Nat → Opd) (u : Word) (k : Nat), NoSreg d → Begins (.cbcast gd d a b q) s g t →
       WholeCrew (.cbcast gd d a b q) s g t q c → ReadsAny a (.cbcast gd d a b q) s g t x → ReadsInt b (.cbcast gd d a b q) s g t (fun _ => u) →
       (liveOf c).find? (fun k => rankAt c k == u.toNat) = some k →
       Performs (.cbcast gd d a b q) s g t s fun _ f => { f := f.issuing, w := Wr.one d (x k).val (x k).tag })) ∧
  (∀ (s : State) (g : Gang) (t : Team) (gd : Guard) (q : Fin 8) (c : Crew) (d : Dst) (a : Src) (x : Nat → Word), NoSreg d →
     (∀ (op : RedOp) (ty : Sgn), Begins (.credi gd op ty d a q) s g t → WholeCrew (.credi gd op ty d a q) s g t q c →
       ReadsInt a (.credi gd op ty d a q) s g t x →
       Performs (.credi gd op ty d a q) s g t s fun _ f => { f := f.issuing, w := Wr.one d (crewFold x op ty (liveOf c)) (signTag ty) }) ∧
     (∀ (op : FRedOp), Begins (.credf gd op d a q) s g t → WholeCrew (.credf gd op d a q) s g t q c →
       ReadsTag .f32 a (.credf gd op d a q) s g t x →
       Performs (.credf gd op d a q) s g t s fun _ f => { f := f.issuing, w := Wr.one d (BitVec.ofNat 32 (match op with
         | .sum m => crewSum x m (liveOf c) | .min => crewBest x xrMin (liveOf c) | .max => crewBest x xrMax (liveOf c))) .f32 }) ∧
     (∀ (op : ScanOp) (excl : Bool) (ty : ScanTy), Begins (.cscan gd op excl ty d a q) s g t → WholeCrew (.cscan gd op excl ty d a q) s g t q c →
       (if ty = .f then ReadsTag .f32 a (.cscan gd op excl ty d a q) s g t x else ReadsInt a (.cscan gd op excl ty d a q) s g t x) →
       Performs (.cscan gd op excl ty d a q) s g t s fun _ f =>
         let ks := (liveOf c).filter fun k => rankAt c k < rankAt c f.fidx || (!excl && rankAt c k == rankAt c f.fidx)
         { f := f.issuing, w := Wr.one d (BitVec.ofNat 32 (crewScan x op ty ks)) (match ty with | .s => .i32 | .n => .n32 | .f => .f32) })) ∧
  (∀ (s : State) (g : Gang) (t : Team) (gd : Guard) (q : Fin 8) (i : Instr) (check : Env → Fibre → Except Trap Unit) (own : Nat → Option Trap) (pc : DWord),
     ((∃ op ps, i = .vote gd op ps q ∧ check = fun _ _ => .ok ()) ∨
      (∃ op ty d a, i = .credi gd op ty d a q ∧ check = fun e f => (readInt e f a).map fun _ => ()) ∨
      (∃ op d a, i = .credf gd op d a q ∧ check = fun e f => (readTag e f .f32 a).map fun _ => ()) ∨
      (∃ op excl ty d a, i = .cscan gd op excl ty d a q ∧
        check = fun e f => (if ty = .f then readTag e f .f32 a else readInt e f a).map fun _ => ()) ∨
      ∃ m d a b, (i = .shfl gd m d a b q ∨ i = .cbcast gd d a b q) ∧
        check = fun e f => match readInt e f b with | .ok _ => (readSrc e f a).map fun _ => () | .error x => .error x) →
     Issuing s i g t pc → AllExecute i s g t →
     (∀ lane f, Member s g t lane f → check (envOf s t lane f.fidx) f = match own f.fidx with | some x => .error x | none => .ok ()) →
     (∀ c, t.crew q.val = some c → g.ids = liveOf c → ∃ k ∈ g.ids, own k ≠ none) →
     TrapsWhole i s g t fun k => (own k).getD { code := .crewPartial, aux := q.val }) ∧
  (∀ (s : State) (g : Gang) (t : Team) (gd : Guard) (q : Fin 8) (c : Crew) (d : Dst) (a b : Src) (x : Nat → Opd) (u : Nat → Word) (pc : DWord),
     let i : Instr := .cbcast gd d a b q
     Issuing s i g t pc → WholeCrew i s g t q c → ReadsAny a i s g t x → ReadsInt b i s g t u →
     ((∃ j ∈ g.ids, ∃ k ∈ g.ids, u j ≠ u k) → TrapsWhole i s g t fun _ => { code := .nonuniform, aux := b.code }) ∧
     (∀ r : Word, (∀ k, u k = r) → (∀ k ∈ liveOf c, rankAt c k ≠ r.toNat) → TrapsWhole i s g t fun _ => { code := .crewPartial, aux := q.val }))

/-- A fibre that a wait leaves at an address: loose with this clock and exit rank 0, at the start of a run (R147). -/
def looseAt (f : Fibre) (pc : DWord) (clk : Nat) : Fibre :=
  { f with pc := pc, runPc := pc, runPos := 0, latches := [], runVs := [], runSs := [], runPs := [], lAvail := [], st := .loose clk 0 }

/-- A fibre that a join or the budget barrier lets go on at the next word, with its predicate and status (R168, R178). -/
def wentOn (f : Fibre) (pd : Option (Fin 16)) (ok : Bool) (status : Word) (clk : Nat) : Fibre :=
  looseAt { f with preds := match pd with | some p => setPred f.preds p.val ok | none => f.preds, status := status } (f.pc + 8) clk

/-- R177: the fibres of a team that execute a budget instruction stand at the barrier with what they ask for, and wait there while a live fibre of the
team does not. A size that the instruction does not take raises ILLEGAL. R177: fibres that ask for different things all raise NONUNIFORM once the last has
arrived, each with the selector of its own source b.

R178, R179, once all ask for the same: regrow to the present width lets every fibre go on with a true predicate and status 0; regrow to a larger one
leaves them at the barrier and their core with a request for the difference; regshrink gives the difference back, cuts the windows, and lets them go on,
or, where a fibre's frame lies above the new width, lets them go on with a false predicate and status NOGRANT and changes no width. Stated for fibres
listed in rising order.
The model's choices in it: logs 31, 105. -/
def Obligations.RegisterBudgets : Prop :=
  ∀ (s : State) (g : Gang) (t : Team) (gd : Guard) (pd : Option (Fin 16)) (b : Src) (dl : Option Src) (grow : Bool) (i : Instr) (pc : DWord)
    (size : Nat → Word) (lim : Nat → Option Nat),
    let takes (w : Nat) : Prop := 16 ≤ w ∧ w ≤ 256 ∧ w % 8 = 0 ∧ (if grow then t.w ≤ w else w ≤ t.w)
    let mine (f : Fibre) : Bool := g.members.any (·.2 == f.fidx)
    let standing (f : Fibre) : Fibre :=
      if mine f then { f.issuing with st := .budget grow (size f.fidx).toNat b.code (lim f.fidx) pd false s.clock } else f
    let asks (f : Fibre) : Option (Bool × Nat × Option Nat) := match (standing f).st with
      | .budget gr w _ d _ false _ => some (gr, w, d)
      | _ => none
    let source (f : Fibre) : Nat := match (standing f).st with | .budget _ _ sel _ _ _ _ => sel | _ => 0
    let released (ok : Bool) (status : Word) (f : Fibre) : Fibre := match f.st with
      | .budget _ _ _ _ p _ _ => wentOn f p ok status s.clock
      | _ => f
    let leaves (s1 : State) (out : Fibre → Fibre) : Prop := ∃ s', exec i s = .next s' ∧
      s' = { s1 with fibres := s'.fibres, gangs := s'.gangs, issue := none } ∧
      (∀ h, h ∈ s'.gangs ↔ h ∈ s.gangs ∧ h.gid ≠ g.gid ∧ h.members ≠ []) ∧
      (∀ f ∈ s.teamFibres t.id, s'.fibre f.key = some (out (standing f))) ∧ ∀ k, k / 1024 ≠ t.id → s'.fibre k = s.fibre k
    (i = .regrow gd pd b dl ∧ grow = true ∧ Reads (fun e f => readDl e f dl) i s g t lim ∨
      i = .regshrink gd pd b ∧ grow = false ∧ lim = fun _ => none) →
    ReadsInt b i s g t size → (∀ m ∈ g.members, m.2 < 1024) →
    (∀ lane f, Solo i s g t lane f → ¬ takes (size f.fidx).toNat → TakesTrap i s g t f { code := .illegal } none) ∧
    (Issuing s i g t pc → AllExecute i s g t → (∀ m ∈ g.members, takes (size m.2).toNat) → rising s.fibres = true →
      (∀ f ∈ s.teamFibres t.id, s.fibre f.key = some f ∧ f.team = t.id ∧ f.fidx < 1024) →
      ((∃ f ∈ s.teamFibres t.id, asks f = none) → leaves s id) ∧
      ((∀ f ∈ s.teamFibres t.id, asks f ≠ none) →
        ((∃ f ∈ s.teamFibres t.id, ∃ f' ∈ s.teamFibres t.id, asks f ≠ asks f') →
          ∃ s', exec i s = .next s' ∧ (s'.team t.id).map (·.w) = some t.w ∧ ∀ f ∈ s.teamFibres t.id, ∃ r,
            s'.fibre f.key = some (raiseTrap (standing f) r) ∧ r.ipc = f.pc ∧ r.trap = { code := .nonuniform, aux := source f }) ∧
        (∀ (w : Nat) (d : Option Nat), (∀ f ∈ s.teamFibres t.id, asks f = some (grow, w, d)) → (∀ f ∈ s.teamFibres t.id, Unbroken s t (f.pc + 8)) →
          let c := s.core t.core
          (grow = true → w = t.w → leaves s (released true 0)) ∧
          (grow = true → t.w < w → leaves
            (s.setCore t.core { c with allot := c.allot ++ [{ team := t.id, bytes := t.n * (w - t.w) * 4, w := w, deadline := d.map (s.clock + ·) }] })
            fun f => match f.st with
              | .budget gr w sel d p _ clk => { f with st := .budget gr w sel d p true clk }
              | _ => f) ∧
          (grow = false → (∃ f ∈ s.teamFibres t.id, w < f.fb + f.fs) → leaves s (released false 4)) ∧
          (grow = false → (∀ f ∈ s.teamFibres t.id, f.fb + f.fs ≤ w) →
            let bytes := t.n * (t.w - w) * 4
            let x := (s.teamLaunch t).express
            let was (n : Nat) : Nat := if c.freedAt = s.clock then n else 0
            let c' : Core := { c with freed := was c.freed + (if x then 0 else bytes), freedX := was c.freedX + (if x then bytes else 0),
                                      freedAt := s.clock }
            leaves ((s.setCore t.core c').setTeam t.id { t with w := w, regBytes := t.n * w * 4 })
              fun f => { released true 0 f with regs := f.regs.filter (·.1 < w), badRegs := f.badRegs.filter (· < w) }))))

/-! ## Memory (R129, R130, R189, R190, R196 to R204, R248 to R261) -/

/-- R129, R189, R248: a load from scratchpad writes the bytes at its address by its size and tag and changes nothing else; a store replaces exactly its bytes
of the team's carve-out. What the load writes goes by its size: bytes and halfwords are extended by the tag, 64 and 128 bits fill consecutive registers, and
T6X5 keeps its top bits zero.

R189, R190, R204, R248: the checks of the three spaces before translation, with the address and the access kind that their traps carry, and POISON at a load of
a granule of the store that an uncorrectable error has struck. -/
def Obligations.ScratchpadAccesses : Prop :=
  (∀ (s : State) (g : Gang) (t : Team) (lane : Nat) (f : Fibre) (sz : Size) (h : Hint) (ad : Addr) (ea : DWord),
    let a := t.scrBase + ea.toNat
    effAddr (envOf s t lane f.fidx) f sz.bytes ad = .ok ea → ea.toNat % sz.bytes = 0 → ea.toNat + sz.bytes ≤ t.scrSize → Unbroken s t (f.pc + 8) →
    (∀ (c : Ctl) (tag : Tag) (d : Dst), NoSreg d → Solo (.ld c sz .x h tag d ad) s g t lane f → (s.core t.core).badAt a sz.bytes = none →
      Performs (.ld c sz .x h tag d ad) s g t s fun _ f =>
        { f := f.issuing, w := ldWr sz tag d ((s.core t.core).bytes a sz.bytes), lat := some 10 }) ∧
    (∀ (gd : Guard) (x : StSrc) (bs : List Byte), Solo (.st gd sz .x h x ad) s g t lane f → stBytes sz x (envOf s t lane f.fidx) f = .ok bs →
      bs.length = sz.bytes →
      Performs (.st gd sz .x h x ad) s g t (s.setCore t.core ((s.core t.core).putBytes a bs)) (fun _ f => { f := f.issuing }) ∧
      (∀ n, ((s.core t.core).putBytes a bs).byte n = if a ≤ n ∧ n < a + sz.bytes then bs.getD (n - a) 0 else (s.core t.core).byte n)) ∧
    (∀ (c : Ctl) (tag : Tag) (d : Dst) (gr : Nat), Solo (.ld c sz .x h tag d ad) s g t lane f → (s.core t.core).badAt a sz.bytes = some gr →
      TakesTrap (.ld c sz .x h tag d ad) s g t f { code := .poison, faddr := BitVec.ofNat 64 (32 * gr - t.scrBase) } none)) ∧
  (∀ (k : Site) (ea : DWord) (n al kind : Nat),
    let here : DWord := k.lau.locB + BitVec.ofNat 64 (k.gfid * k.lau.locF) + ea
    (ea.toNat % al ≠ 0 → place k .g ea n al kind = .error { code := .align, faddr := ea, aux := kind } ∧
      place k .x ea n al kind = .error { code := .align, faddr := ea, aux := kind } ∧
      place k .f ea n al kind = .error { code := .align, faddr := here, aux := kind }) ∧
    (ea.toNat % al = 0 → place k .g ea n al kind = .ok (.glob ea) ∧
      (k.team.scrSize < ea.toNat + n → place k .x ea n al kind = .error { code := .protection, faddr := ea, aux := kind }) ∧
      (ea.toNat + n ≤ k.team.scrSize → place k .x ea n al kind = .ok (.scr ea.toNat)) ∧
      (here.toNat % al ≠ 0 → place k .f ea n al kind = .error { code := .align, faddr := here, aux := kind }) ∧
      (here.toNat % al = 0 → k.lau.locF < ea.toNat + n → place k .f ea n al kind = .error { code := .protection, faddr := here, aux := kind }) ∧
      (here.toNat % al = 0 → ea.toNat + n ≤ k.lau.locF → place k .f ea n al kind = .ok (.glob here)))) ∧
  (∀ (tag : Tag) (n : Fin 256) (bs : List Byte),
      let x := leWord bs
      (ldWr .b8 .i32 (.v n) bs).regs = [(n.val, ⟨(BitVec.ofNat 8 x).signExtend 32, .i32⟩)] ∧
      (ldWr .b16 .i32 (.v n) bs).regs = [(n.val, ⟨(BitVec.ofNat 16 x).signExtend 32, .i32⟩)] ∧
      (tag ≠ .i32 → (ldWr .b8 tag (.v n) bs).regs = [(n.val, ⟨BitVec.ofNat 32 x, tag⟩)] ∧
        (ldWr .b16 tag (.v n) bs).regs = [(n.val, ⟨BitVec.ofNat 32 x, tag⟩)]) ∧
      (tag ≠ .t6x5 → (ldWr .b32 tag (.v n) bs).regs = [(n.val, ⟨BitVec.ofNat 32 x, tag⟩)]) ∧
      (ldWr .b32 .t6x5 (.v n) bs).regs = [(n.val, ⟨BitVec.ofNat 32 (x % 2 ^ 30), .t6x5⟩)] ∧
      (ldWr .b64 .p64l (.v n) bs).regs =
        [(n.val, ⟨BitVec.ofNat 32 (x % 2 ^ 32), .p64l⟩), (n.val + 1, ⟨BitVec.ofNat 32 (x / 2 ^ 32 % 2 ^ 32), .p64h⟩)] ∧
      (tag ≠ .p64l → tag ≠ .t6x5 → (ldWr .b128 tag (.v n) bs).regs =
        (List.range 4).map fun i => (n.val + i, ⟨BitVec.ofNat 32 (x / 2 ^ (32 * i) % 2 ^ 32), tag⟩)))

/-- Instruction i accesses n bytes at the address ea of a space, as fibre f's operands give it, and needs of the page what `need` says; what it stores can
be read (R129, R130, R248, R249, R252 to R259). -/
def AccessOf (i : Instr) (e : Env) (f : Fibre) (sp : Space) (ea : DWord) (n : Nat) (need : Need) : Prop :=
  let load : Need := { kind := 2, r := true }
  let store : Need := { kind := 3, w := true, seals := true }
  let atomic : Need := { kind := 4, r := true, w := true, seals := true }
  (∃ c sz h tag d ad, i = .ld c sz sp h tag d ad ∧ effAddr e f sz.bytes ad = .ok ea ∧ n = sz.bytes ∧ need = load) ∨
  (∃ c sz h tag d p imm, i = .ldSplit c sz h tag d p imm ∧ splitEff f p imm = .ok ea ∧ sp = .g ∧ n = sz.bytes ∧ need = load) ∨
  (∃ gd sz h x ad bs, i = .st gd sz sp h x ad ∧ effAddr e f sz.bytes ad = .ok ea ∧ stBytes sz x e f = .ok bs ∧ n = sz.bytes ∧ need = store) ∨
  (∃ gd sz h x p imm bs, i = .stSplit gd sz h x p imm ∧ splitEff f p imm = .ok ea ∧ stBytes sz x e f = .ok bs ∧ sp = .g ∧ n = sz.bytes ∧ need = store) ∨
  (∃ gd op o sc sz d nw ad v, i = .atom gd op o sc sz sp d nw ad ∧ effAddr e f sz.bytes ad = .ok ea ∧ regsVal f d.val sz.bytes = .ok v ∧
    atomTagOk op sz f d.val = true ∧ n = sz.bytes ∧ need = atomic) ∨
  (∃ gd o sc sz d nw ad v w, i = .acas gd o sc sz sp d nw ad ∧ effAddr e f sz.bytes ad = .ok ea ∧ regsVal f d.val sz.bytes = .ok v ∧
    regsVal f (d.val + sz.bytes / 4) sz.bytes = .ok w ∧ n = sz.bytes ∧ need = atomic) ∨
  (∃ gd ek o sc d ad x, i = .eacc gd ek o sc sp d ad ∧ effAddr e f 4 ad = .ok ea ∧ readTag e f .f32 (.v d) = .ok x ∧ n = eaBytes ek ∧ need = atomic) ∨
  (∃ c ek m d ad, i = .earead c ek m sp d ad ∧ effAddr e f 4 ad = .ok ea ∧ n = eaBytes ek ∧ need = load) ∨
  (∃ c d ad, i = .ldver c sp d ad ∧ effAddr e f 4 ad = .ok ea ∧ n = 4 ∧ need = { kind := 4, r := true }) ∨
  (∃ gd sz d nw ad v w, i = .stv gd sz sp d nw ad ∧ effAddr e f sz.bytes ad = .ok ea ∧ regsVal f d.val sz.bytes = .ok v ∧
    readV f (d.val + sz.bytes / 4) = .ok w ∧ n = sz.bytes ∧ need = { kind := 4, w := true, seals := true }) ∨
  (∃ c kind pod d ad, i = .ldsum c kind pod d ad ∧ effAddr e f 4 ad = .ok ea ∧ sp = .g ∧ n = sumBytes kind ∧ need = load)

/-- R129, R130, R197, R248, R249: a load of global memory, or of the fibre-local area in it, outside an attempt returns the bytes that its core sees; a store outside an
attempt enters its core's combining buffer. The state with the miss and the fill noted, or with the bytes in the buffer, is all of the machine that changes; a load
changes no memory while its core has no unclaimed entry for the slice that it asks.

R131, R189, R190, R206, R208: a load, a store or an access at its home whose address fails the checks of its space raises that check's trap; one whose address has no
translation raises TRANSLATION, one that the page does not allow PROTECTION, a write to a sealed page SEALED_STORE, each with its address and its access kind.
R204: a load of a poisoned granule raises POISON with the granule's address.
The model's choices in it: logs 14, 15, 72. -/
def Obligations.GlobalAccesses : Prop :=
  ∀ (s : State) (g : Gang) (t : Team) (lane : Nat) (f : Fibre),
    let k := s.site t f
    let e := envOf s t lane f.fidx
    f.txn = none →
    (∀ (i : Instr) (sz : Size) (h : Hint) (va : DWord) (pa : Nat) (leaf : DWord), Solo i s g t lane f → s.walkWaits t.core k.ctx va = false →
      let reaches (kind : Nat) (sp : Space) (ea : DWord) : Prop := place k sp ea sz.bytes sz.bytes kind = .ok (.glob va)
      (∀ (tag : Tag) (d : Dst) (bs : List Byte) (lat : Nat), NoSreg d →
        ((∃ c sp ad ea, i = .ld c sz sp h tag d ad ∧ effAddr e f sz.bytes ad = .ok ea ∧ reaches 2 sp ea) ∨
          ∃ c p imm ea, i = .ldSplit c sz h tag d p imm ∧ splitEff f p imm = .ok ea ∧ reaches 2 .g ea) →
        checkVa s t.core k.ctx va { kind := 2, r := true } = .ok (pa, leaf) → loadWaits s t.core (lineOf pa) = false →
        (loadLine s t.core pa sz.bytes = (bs, none, lat) →
          let note := (if h = .stream then 0 else 1) + (if leafSealed leaf || leafContrib leaf then 2 else 0)
          let s1 := noteFill (noteMiss s t.core k.ctx va) t.core (lineOf pa) note
          Unbroken s1 t (f.pc + 8) →
          Performs i s g t s1 (fun _ f => { f := f.issuing, w := ldWr sz tag d bs, lat := some lat }) ∧
          ((∀ e ∈ (s.core t.core).wcb, e.claimed = true ∨ sameSlice e.line (lineOf pa) = false) → s1.mem = s.mem)) ∧
        (∀ gr, loadLine s t.core pa sz.bytes = (bs, some gr, lat) →
          TakesTrap i s g t f { code := .poison, faddr := BitVec.ofNat 64 (va.toNat - pa % 128 + 32 * gr) } none)) ∧
      (∀ (x : StSrc) (bs : List Byte),
        ((∃ gd sp ad ea, i = .st gd sz sp h x ad ∧ effAddr e f sz.bytes ad = .ok ea ∧ reaches 3 sp ea) ∨
          ∃ gd p imm ea, i = .stSplit gd sz h x p imm ∧ splitEff f p imm = .ok ea ∧ reaches 3 .g ea) →
        stBytes sz x e f = .ok bs →
        checkVa s t.core k.ctx va { kind := 3, w := true, seals := true } = .ok (pa, leaf) → storeHeld s t.core (lineOf pa) = false →
        let s1 := storeLine (noteMiss s t.core k.ctx va) t.core f.key pa bs
        Unbroken s1 t (f.pc + 8) → Performs i s g t s1 fun _ f => { f := f.issuing })) ∧
    (∀ (i : Instr) (sp : Space) (ea : DWord) (n : Nat) (need : Need), Solo i s g t lane f → AccessOf i e f sp ea n need →
      (∀ x, place k sp ea n n need.kind = .error x → TakesTrap i s g t f x none) ∧
      ∀ (va : DWord), place k sp ea n n need.kind = .ok (.glob va) → s.walkWaits t.core k.ctx va = false →
        (translate s t.core k.ctx va = none → TakesTrap i s g t f { code := .translation, faddr := va, aux := need.kind } none) ∧
        ∀ pa leaf, translate s t.core k.ctx va = some (pa, leaf) →
          let allowed : Prop := (need.r = true → leafR leaf = true) ∧ (need.w = true → leafW leaf = true)
          (¬ allowed → TakesTrap i s g t f { code := .protection, faddr := va, aux := need.kind } none) ∧
          (allowed → need.seals = true → leafSealed leaf = true → TakesTrap i s g t f { code := .sealedStore, faddr := va, aux := need.kind } none))

/-- R197, R198, R203: a core reads its own stores at once. After a store of bytes within one line, a load of those bytes by the same core returns them, a load of bytes of
the line outside them returns what it did before, and while a combining entry is free, or the line has one, no byte of memory has changed. A drain of a core whose
entries are all claimed writes exactly the masked bytes of its entry to memory; a home write raises the line's version by one when it changes a byte, and leaves it
where it changes nothing. -/
def Obligations.StoresAndHomeWrites : Prop :=
  (∀ (s : State) (core who pa : Nat) (bs : List Byte), pa % 128 + bs.length ≤ 128 →
    ((s.core core).entry (lineOf pa) ≠ none ∨ (s.core core).wcb.length < 8) →
    (∀ e ∈ (s.core core).wcb, ∀ e' ∈ (s.core core).wcb, e.line = e'.line → e = e') →
    let s' := storeLine s core who pa bs
    s'.mem = s.mem ∧ (loadLine s' core pa bs.length).1 = bs ∧
    (∀ o n, lineOf o = lineOf pa → o % 128 + n ≤ 128 → (o + n ≤ pa ∨ pa + bs.length ≤ o) →
      (loadLine s' core o n).1 = (loadLine s core o n).1) ∧
    (∀ c, c ≠ core → s'.core c = s.core c)) ∧
  (∀ (s : State) (line : Nat) (mask : BitVec 128) (data : BitVec 1024),
      let s' := homeWrite s line mask data
      let changed := ∃ j, j < 128 ∧ mask.getLsbD j = true ∧ byteOf data j ≠ s.byte (line * 128 + j)
      (∀ a, s'.byte a = if a / 128 = line ∧ mask.getLsbD (a % 128) = true then byteOf data (a % 128) else s.byte a) ∧
      (changed → (s'.line line).ver = ((s.line line).ver + 1) % 2 ^ 24) ∧
      (¬ changed → (s.line line).poison = 0 → s'.line line = s.line line) ∧
      (∀ l, l ≠ line → s'.line l = s.line l) ∧
      (∀ core e, (s.core core).entry line = some e → (∀ x ∈ (s.core core).wcb, x.claimed = true) → ∀ a, (drainLine s core line).byte a =
        if a / 128 = line ∧ e.mask.getLsbD (a % 128) = true then byteOf e.data (a % 128) else s.byte a))

/-- R199, R253: an access at a line's home, where no other store to its slice is under way, reads the bytes there and writes the operation's result in the same step;
every other byte of memory is as before. Where a granule of them is poisoned there, it raises POISON with the granule's address instead (R204).

R217, R252 to R255: atom, acas and eacc, whose release has nothing to wait for, complete with the state that their read-modify-write and their acquire leave, and, where
they return it, the old value in their data registers with the tags these had; eacc adds an F32 value to an exact cell. Where the access answers with a trap, the fibre
takes it. A data register of a tag that the operation does not take raises FORMAT_MISMATCH (R252).
The model's choices in it: logs 14, 72, 85. -/
def Obligations.HomeAtomics : Prop :=
  (∀ (s : State) (k : Site) (f : Fibre) (va : DWord) (n : Nat) (need : Need) (op : Nat → Nat) (pa : Nat) (leaf : DWord),
     checkVa s k.core k.ctx va need = .ok (pa, leaf) → pa % 128 + n ≤ 128 → s.reserved (lineOf pa) = false →
     (∀ e ∈ (s.core k.core).wcb, e.line ≠ lineOf pa ∧ (e.claimed = true ∨ sameSlice e.line (lineOf pa) = false)) →
     getD [] (lineOf pa) (s.die (dieOfLine (lineOf pa))).claims = [] → s.walkWaits k.core k.ctx va = false →
     (∀ gr, badGranule (s.line (lineOf pa)).poison (pa % 128) n = some gr →
       ∃ x, rmwAt s k f (.glob va) n need op = .trap x ∧ x = { code := .poison, faddr := BitVec.ofNat 64 (va.toNat - pa % 128 + 32 * gr) }) ∧
     (badGranule (s.line (lineOf pa)).poison (pa % 128) n = none → op (leWord (s.bytes pa n)) < 2 ^ (8 * n) →
       ∃ s1, rmwAt s k f (.glob va) n need op = .ok s1 f (leWord (s.bytes pa n), latOf s pa) ∧
         leWord (s1.bytes pa n) = op (leWord (s.bytes pa n)) ∧
         (∀ a, a < pa ∨ pa + n ≤ a → s1.byte a = s.byte a) ∧ s1.fibres = s.fibres ∧ s1.teams = s.teams)) ∧
  (∀ (s : State) (g : Gang) (t : Team) (lane : Nat) (f : Fibre) (gd : Guard) (o : Ord) (sc : Scope) (sp : Space) (sz : Size) (d : Fin 256)
     (nw : Bool) (ad : Addr) (ea : DWord) (p : Place) (s1 : State) (old lat : Nat),
     let k := s.site t f
     let reg (j : Nat) : Nat := (f.reg (d.val + j)).val.toNat
     let data (j : Nat) : Nat := if sz = .b64 then reg j + 2 ^ 32 * reg (j + 1) else reg j
     let result : Wr := if nw then {} else keepTags f d.val (wordsOfNat old sz.bytes)
     let need : Need := { kind := 4, r := true, w := true, seals := true }
     let post := afterOrd s1 k f.issuing o sc (s.clock + lat)
     let reached (i : Instr) (n scale : Nat) : Prop :=
       Released i s g t ∧ effAddr (envOf s t lane f.fidx) f scale ad = .ok ea ∧ place k sp ea n n 4 = .ok p ∧
       (∀ va, p = .glob va → ∃ r, checkVa s t.core k.ctx va need = .ok r) ∧ acqHeld s k o sc = false
     let accessed (i : Instr) (n scale : Nat) (op : Nat → Nat) : Prop :=
       reached i n scale ∧ rmwAt s k f.issuing p n need op = .ok s1 f.issuing (old, lat) ∧ Unbroken post.1 t (f.pc + 8)
     let struck (i : Instr) (n scale : Nat) (op : Nat → Nat) : Prop :=
       reached i n scale → ∀ x : Trap, rmwAt s k f.issuing p n need op = .trap x → x.code = .poison → TakesTrap i s g t f x none
     let readable : Prop := (sz = .b32 ∨ sz = .b64) ∧
       ∀ j, j < 4 → reservedTag (f.reg (d.val + j)).tag = false ∧ f.badRegs.contains (f.fb + (d.val + j)) = false
     (∀ (op : AOp), let i : Instr := .atom gd op o sc sz sp d nw ad
       let updated (v : Nat) : Nat := match op with
         | .add => (v + data 0) % 2 ^ (8 * sz.bytes)
         | .minN => min v (data 0) | .maxN => max v (data 0) | .and => v &&& data 0 | .or => v ||| data 0 | .exch => data 0
         | .minS => if intOf true (8 * sz.bytes) v ≤ intOf true (8 * sz.bytes) (data 0) then v else data 0
         | .maxS => if intOf true (8 * sz.bytes) v ≤ intOf true (8 * sz.bytes) (data 0) then data 0 else v
       readable → Solo i s g t lane f →
       (atomTagOk op sz f d.val = true → (accessed i sz.bytes sz.bytes updated →
           Performs i s g t post.1 fun _ _ => { f := post.2, w := result, lat := some lat }) ∧ struck i sz.bytes sz.bytes updated) ∧
       (atomTagOk op sz f d.val = false → effAddr (envOf s t lane f.fidx) f sz.bytes ad = .ok ea →
         TakesTrap i s g t f { code := .formatMismatch, aux := d.val + 512 * (f.reg d.val).tag.code } none)) ∧
     (let i : Instr := .acas gd o sc sz sp d nw ad;
       let updated (v : Nat) : Nat := if v = data 0 then data (sz.bytes / 4) else v
       readable → Solo i s g t lane f → (accessed i sz.bytes sz.bytes updated →
         Performs i s g t post.1 fun _ _ => { f := post.2, w := result, lat := some lat }) ∧ struck i sz.bytes sz.bytes updated) ∧
     (∀ (ek : EaKind) (x : Word), let i : Instr := .eacc gd ek o sc sp d ad
       let updated (v : Nat) : Nat := eaToNat ek (eaAdd ek (eaOfNat ek v) (eaFrom ek (Fmt.f32.val x.toNat)))
       Solo i s g t lane f → readTag (envOf s t lane f.fidx) f .f32 (.v d) = .ok x → (accessed i (eaBytes ek) 4 updated →
         Performs i s g t post.1 fun _ _ => { f := post.2, lat := some lat }) ∧ struck i (eaBytes ek) 4 updated))

/-- R256 to R260: earead and ldver read their line at its home; stv writes there where the line's version is the one expected and returns the version, with bit 31 where it
wrote nothing; ldsum drains its core's entry of the cell and posts a gather to the modules of its scope, whose result is outstanding; pfl asks for a line that the core's
die does not have near, and does nothing for an address that fails. A read of a poisoned granule raises POISON with its address (R204, R409), and an ldsum of a page
that is no contribution page PROTECTION.

R217, R218, R261: a fence at .quad or wider drains the core's entries, and as an acquire drops the L1 copies that are not exempt, at .pod the die's copies of other modules'
lines too; the fibre's later accesses wait for its earlier loads and for the answers to its writes; at .lane it does nothing, at .core it touches no buffer.
The model's choices in it: logs 14, 17, 20, 72, 81. -/
def Obligations.HomeReadsAndFences : Prop :=
  ∀ (s : State) (g : Gang) (t : Team) (lane : Nat) (f : Fibre) (gd : Guard) (c : Ctl) (sp : Space) (ad : Addr) (ea va : DWord) (pa : Nat) (leaf : DWord),
    let k := s.site t f
    let e := envOf s t lane f.fidx
    let line := lineOf pa
    let s0 := noteMiss s t.core k.ctx va
    let drained := drainLine s0 t.core line
    let read := freshen (coreAsk drained t.core line) t.core line
    let drains : Prop := s.walkWaits t.core k.ctx va = false ∧ ((s.core t.core).entry line = none ∨ s.blocked line = false)
    let poisoned (gr : Nat) : Trap := { code := .poison, faddr := BitVec.ofNat 64 (va.toNat - pa % 128 + 32 * gr) }
    (∀ (ek : EaKind) (m : Rm) (d : Option (Fin 256)), Solo (.earead c ek m sp d ad) s g t lane f → effAddr e f 4 ad = .ok ea →
      globAt s k sp ea (eaBytes ek) (eaBytes ek) { kind := 2, r := true } = .ok (va, pa, leaf) → s.asleep line = false → drains →
      (badGranule (read.line line).poison (pa % 128) (eaBytes ek) = none → Unbroken s t (f.pc + 8) →
        Performs (.earead c ek m sp d ad) s g t read fun _ f =>
          let v := roundF .f32 m (eaVal ek (eaOfNat ek (leWord (read.bytes pa (eaBytes ek)))))
          { f := f.issuing, w := Wr.opt d (BitVec.ofNat 32 v) .f32, lat := some (latOf read pa) }) ∧
      ∀ gr, badGranule (read.line line).poison (pa % 128) (eaBytes ek) = some gr → TakesTrap (.earead c ek m sp d ad) s g t f (poisoned gr) none) ∧
    (∀ (d : Option (Fin 256)), Solo (.ldver c sp d ad) s g t lane f → f.txn = none → effAddr e f 4 ad = .ok ea →
      globAt s k sp ea 4 4 { kind := 4, r := true } = .ok (va, pa, leaf) → s.asleep line = false → drains → Unbroken s t (f.pc + 8) →
      Performs (.ldver c sp d ad) s g t read fun _ f =>
        { f := f.issuing, w := Wr.opt d (BitVec.ofNat 32 (read.line line).ver) .n32, lat := some (latOf read pa) }) ∧
    (∀ (sz : Size) (d : Fin 256) (nw : Bool) (x : Nat) (ev : Reg), Solo (.stv gd sz sp d nw ad) s g t lane f → effAddr e f sz.bytes ad = .ok ea →
      regsVal f d.val sz.bytes = .ok x → readV f (d.val + sz.bytes / 4) = .ok ev →
      globAt s k sp ea sz.bytes sz.bytes { kind := 4, w := true, seals := true } = .ok (va, pa, leaf) → pa % 128 + sz.bytes ≤ 128 →
      s.reserved line = false → s.walkWaits t.core k.ctx va = false →
      (∀ e ∈ (s.core t.core).wcb, e.line ≠ line ∧ (e.claimed = true ∨ sameSlice e.line line = false)) →
      getD [] line (s.die (dieOfLine line)).claims = [] → Unbroken s t (f.pc + 8) →
      let ver := (s.line line).ver
      let same := ver = ev.val.toNat % 2 ^ 24
      let ver' := if same ∧ s.bytes pa sz.bytes ≠ leBytes x sz.bytes then (ver + 1) % 2 ^ 24 else ver
      ∃ s2, Performs (.stv gd sz sp d nw ad) s g t s2 (fun _ f =>
          { f := f.issuing, lat := some (latOf s2 pa),
            w := if nw then {} else { regs := [(d.val + sz.bytes / 4, ⟨BitVec.ofNat 32 (ver' + if same then 0 else 2 ^ 31), .n32⟩)] } }) ∧
        (s2.line line).ver = ver' ∧ (¬ same → s2.mem = s.mem) ∧
        (same → s2.bytes pa sz.bytes = leBytes x sz.bytes ∧ ∀ a, a < pa ∨ pa + sz.bytes ≤ a → s2.byte a = s.byte a)) ∧
    (∀ (kind : SumKind) (pod : Bool) (d : Option (Fin 256)), let i : Instr := .ldsum c kind pod d ad
      let asks := gatherAsks s pod pa
      Solo i s g t lane f → effAddr e f 4 ad = .ok ea →
      globAt s k .g ea (sumBytes kind) (sumBytes kind) { kind := 2, r := true } = .ok (va, pa, leaf) →
      (leafContrib leaf = false → TakesTrap i s g t f { code := .protection, faddr := va, aux := 2 } none) ∧
      (leafContrib leaf = true → drains →
        (∀ gr, badReplica drained pa (sumBytes kind) = some gr → TakesTrap i s g t f (poisoned gr) none) ∧
        (badReplica drained pa (sumBytes kind) = none → (∀ m ∈ asks, podRoom s m = true) → Unbroken s t (f.pc + 8) →
          let asked := asks.foldl podSend drained
          let posted : Gather := { id := drained.nextId, fibre := f.key, before := f.issuing, issued := g.issuedAt s.clock, pos := f.runPos, c := c.c, d := d,
                                   kind := kind, pod := pod, pa := pa, va := va, await := s.hub.modid :: asks }
          Performs i s g t { asked with nextId := drained.nextId + 1, gathers := s.gathers ++ [posted] } fun _ f =>
            { f := match d with | some n => { f.issuing with avail := put (f.fb + n.val) (s.clock + 2 ^ 40) f.avail } | none => f.issuing,
              lat := some (2 ^ 40) }))) ∧
    (∀ (h : Hint), Solo (.pfl gd sp h ad) s g t lane f → effAddr e f 1 ad = .ok ea → Unbroken s t (f.pc + 8) →
      (globAt s k sp ea 1 1 { kind := 2, r := true } = .ok (va, pa, leaf) →
        let near := dieOfLine line = t.core / 128 ∧ s.ownLine line = true ∧ farLine line = false
        let note := (if h = .keep then 1 else 0) + if leafSealed leaf || leafContrib leaf then 2 else 0
        let s1 := if near ∨ s.poisoned pa 1 = true then s0 else askFill s0 t.core line note
        Performs (.pfl gd sp h ad) s g t s1 (fun _ f => { f := f.issuing }) ∧
        (¬ near → s.poisoned pa 1 = false →
          look line (s1.core t.core).fills = some (getD 0 line (s.core t.core).fills ||| note))) ∧
      (∀ x, globAt s k sp ea 1 1 { kind := 2, r := true } = .error x → Performs (.pfl gd sp h ad) s g t s fun _ f => { f := f.issuing })) ∧
    (∀ (o : Ord) (sc : Scope), Solo (.fence gd o sc) s g t lane f → Unbroken s t (f.pc + 8) →
      let wide := sc ≠ .lane ∧ sc ≠ .core
      let s1 := if o = .acq then s else releaseAt s t.core sc
      let s2 := if o = .acq ∨ o = .ar then acquireAt s1 t.core sc else s1
      (wide → drainHeld s t.core = false) →
      Performs (.fence gd o sc) s g t s2 (fun _ f => { f :=
        if sc = .lane ∨ sc = .core ∧ o = .rlx then f.issuing
        else { f.issuing with accAt := max f.accAt f.doneAt, await := if wide then awaited s2 t.core f.issuing s.nextId else f.await ++ (s.gathers.filter fun x => x.isOf f.key).map (·.id) } }) ∧
      (¬ wide → s2 = s) ∧ (wide → (s2.core t.core).wcb = []) ∧
      (wide → o = .acq ∨ o = .ar → ∀ x ∈ (s2.core t.core).l1, x.2.exempt = true) ∧
      (sc = .pod → o = .acq ∨ o = .ar → ∀ x ∈ (s2.die (t.core / 128)).rdc, s.ownLine x.1 = true))

/-- R227 to R231, R258: in an attempt, a load of a line that the read set holds returns the image kept there with the attempt's own buffered bytes over it,
ldver the version kept; a store to a line of the write set joins it and leaves memory and the core's buffer alone; an access 2^23 clocks after the attempt opened, or later,
aborts it with TIMEOUT.

R208, R229, R231: the first read of a line drains the core's entry of it and goes to the home, where it visits the whole read set too: a version of the set that does not
stand aborts with CONFLICT, a thirty-third line with CAPACITY, a line beyond half of the core's L1 with NOGRANT; else the line joins the read set with its
version and image. A line of a sealed page is read and joins nothing. R230: the first store to a line joins the write set, which holds sixteen lines.
The model's choices in it: logs 14, 17, 72. -/
def Obligations.AccessesInAttempts : Prop :=
  ∀ (s : State) (g : Gang) (t : Team) (lane : Nat) (f : Fibre) (ad : Addr) (va : DWord) (pa : Nat) (leaf : DWord) (x : Txn),
    let k := s.site t f
    let e := envOf s t lane f.fidx
    let line := lineOf pa
    let s1 := noteMiss s t.core k.ctx va
    let failed (code : Nat) (_ : Nat) (f : Fibre) : Out :=
      { f := { f.issuing with txn := none, pc := x.lfail, status := BitVec.ofNat 32 (code + 2 ^ 4 * x.depth + 2 ^ 8 * x.rset.length) }, next := some x.lfail }
    f.txn = some x → s.walkWaits t.core k.ctx va = false →
    (g.issuedAt s.clock < x.opened + 2 ^ 23 → Unbroken s t (f.pc + 8) → Unbroken s t x.lfail →
      (∀ (c : Ctl) (sp : Space) (sz : Size) (h : Hint) (tag : Tag) (d : Dst) (ea : DWord), let i : Instr := .ld c sz sp h tag d ad
        NoSreg d → Solo i s g t lane f → effAddr e f sz.bytes ad = .ok ea → place k sp ea sz.bytes sz.bytes 2 = .ok (.glob va) →
        checkVa s t.core k.ctx va { kind := 2, r := true } = .ok (pa, leaf) →
        let gives (s1 : State) (x' : Txn) (img : BitVec 1024) : Prop := Performs i s g t s1 fun _ f =>
          { f := { f.issuing with txn := some x' }, w := ldWr sz tag d (imgBytes (txnImage x line img) (pa % 128) sz.bytes), lat := some (latOf s pa) }
        (∀ r : RLine, x.rset.find? (·.line == line) = some r → r.poison = 0 → gives s1 x r.img) ∧
        (x.rset.find? (·.line == line) = none → s.reserved line = false → (∀ r ∈ x.rset, s.reserved r.line = false) →
          let asked := freshen (coreAsk (drainLine s1 t.core line) t.core line) t.core line
          let visited := visitSet asked t.core x
          let stands : Prop := ∀ r ∈ x.rset, (visited.line r.line).ver = r.ver
          (leafSealed leaf = true → (asked.line line).poison = 0 → gives asked x (asked.image line)) ∧
          (leafSealed leaf = false →
            (¬ stands → Performs i s g t visited (failed 1)) ∧
            (stands → 32 ≤ x.rset.length → Performs i s g t visited (failed 2)) ∧
            (stands → x.rset.length < 32 → 16 * (256 - (visited.core t.core).ubL1) < txnLines visited t.core + 1 →
              Performs i s g t visited (failed 4)) ∧
            (stands → x.rset.length < 32 → txnLines visited t.core + 1 ≤ 16 * (256 - (visited.core t.core).ubL1) → (visited.line line).poison = 0 →
              let r : RLine := { line := line, ver := (visited.line line).ver, img := visited.image line, poison := 0 }
              gives visited { x with rset := x.rset ++ [r] } r.img)))) ∧
      (∀ (c : Ctl) (sp : Space) (d : Option (Fin 256)) (ea : DWord) (r : RLine), Solo (.ldver c sp d ad) s g t lane f →
        effAddr e f 4 ad = .ok ea → globAt s k sp ea 4 4 { kind := 4, r := true } = .ok (va, pa, leaf) → x.rset.find? (·.line == line) = some r →
        Performs (.ldver c sp d ad) s g t s1 fun _ f =>
          { f := f.issuing, w := Wr.opt d (BitVec.ofNat 32 r.ver) .n32, lat := some (latOf s pa) }) ∧
      (∀ (gd : Guard) (sp : Space) (sz : Size) (h : Hint) (src : StSrc) (bs : List Byte) (ea : DWord), let i : Instr := .st gd sz sp h src ad
        Solo i s g t lane f → effAddr e f sz.bytes ad = .ok ea → place k sp ea sz.bytes sz.bytes 3 = .ok (.glob va) → stBytes sz src e f = .ok bs →
        checkVa s t.core k.ctx va { kind := 3, w := true, seals := true } = .ok (pa, leaf) →
        let wrote (ws : List WLine) : Prop := Performs i s g t s1 fun _ f => { f := { f.issuing with txn := some { x with wset := ws } } }
        let joined (w : WLine) : WLine :=
          if w.line == line then { w with mask := w.mask ||| maskOf (pa % 128) bs.length, data := imgPut w.data (pa % 128) bs } else w
        (∀ w : WLine, x.wset.find? (·.line == line) = some w → wrote (x.wset.map joined)) ∧
        (x.wset.find? (·.line == line) = none →
          (16 ≤ x.wset.length → Performs i s g t s1 (failed 2)) ∧
          (x.wset.length < 16 → 16 * (256 - (s.core t.core).ubL1) < txnLines s t.core + 1 → Performs i s g t s1 (failed 4)) ∧
          (x.wset.length < 16 → txnLines s t.core + 1 ≤ 16 * (256 - (s.core t.core).ubL1) →
            wrote (x.wset ++ [{ line := line, mask := maskOf (pa % 128) bs.length, data := imgPut 0 (pa % 128) bs }]))))) ∧
    (x.opened + 2 ^ 23 ≤ g.issuedAt s.clock → Unbroken s t x.lfail → ∀ (ea : DWord),
      (∀ (c : Ctl) (sz : Size) (sp : Space) (h : Hint) (tag : Tag) (d : Dst), sp ≠ .x → Solo (.ld c sz sp h tag d ad) s g t lane f →
        effAddr e f sz.bytes ad = .ok ea → Performs (.ld c sz sp h tag d ad) s g t s (failed 3)) ∧
      (∀ (gd : Guard) (sz : Size) (sp : Space) (h : Hint) (src : StSrc), sp ≠ .x → Solo (.st gd sz sp h src ad) s g t lane f →
        effAddr e f sz.bytes ad = .ok ea → Performs (.st gd sz sp h src ad) s g t s (failed 3)))

/-! ## Transactions (R227 to R238, R262, R263) -/

/-- R227, R237, R238: tbegin opens an attempt with its addresses, its deadline counted from the first tbegin of the transaction, or aborts an open one with EXPLICIT.

R233 to R236, R238, R263: otherwise names the alternative of an attempt that has not taken its fourth; tabort aborts with its code; retry takes the alternative, or aborts with TIMEOUT at
its deadline, or sleeps on its read set, and passes a yield point each time; tstat reads the status word. Outside an attempt otherwise, tabort and retry only pass on.

R229 to R232, R263: a commit whose read set still stands writes exactly the bytes of its write set and ends the attempt with status 0; one whose read set
does not stand writes nothing of it and goes on at Lfail with CONFLICT; a late one goes on there with TIMEOUT; outside an attempt it raises ILLEGAL. Stated for a core and homes that hold no
other buffered store, and a commit whose release has nothing to wait for.
The model's choices in it: logs 31, 38, 79, 111. -/
def Obligations.AttemptControl : Prop :=
  (∀ (s : State) (g : Gang) (t : Team) (gd : Guard) (off : BitVec 34),
     let dest (f : Fibre) : DWord := f.pc + off.signExtend 64 * 8
     let aborted (x : Txn) (code acode : Nat) (f : Fibre) : Out :=
       { f := { f.issuing with txn := none, pc := x.lfail,
                               status := BitVec.ofNat 32 (code + 2 ^ 4 * x.depth + 2 ^ 8 * x.rset.length + 2 ^ 16 * acode) },
         next := some x.lfail }
     (∀ (dl : DlSrc) (d : Nat → Nat), let i : Instr := .tbegin gd off dl
       Begins i s g t →
       (∀ lane f, Executes s g t i lane f → readDeadline (envOf s t lane f.fidx) f dl = .ok (d f.fidx) ∧ f.txn = none) →
       Performs i s g t s fun _ f =>
         let deadline := match f.restart.find? (·.origin == f.pc) with
           | some r => r.deadline
           | none => if d f.fidx = 0 then none else some (s.clock + d f.fidx)
         { f := { f.issuing with
             restart := f.restart.filter (·.origin != f.pc),
             txn := some { origin := f.pc, lfail := dest f, deadline := deadline, opened := s.clock, depth := 1, succ := none, rset := [], wset := [] } } }) ∧
     (∀ (dl : DlSrc) (d lane : Nat) (f : Fibre) (x : Txn), Solo (.tbegin gd off dl) s g t lane f →
       readDeadline (envOf s t lane f.fidx) f dl = .ok d → f.txn = some x → Unbroken s t x.lfail →
       Performs (.tbegin gd off dl) s g t s fun _ f => aborted x 5 0 f) ∧
     (Begins (.otherwise gd off) s g t → Performs (.otherwise gd off) s g t s fun _ f =>
       { f := match f.txn with
           | some x => if x.depth < 4 then { f.issuing with txn := some { x with succ := some (dest f) } } else f.issuing
           | none => f.issuing }) ∧
     (∀ (a : Src) (v : Nat → Word), let i : Instr := .tabort gd a
       (∀ (lane : Nat) (f : Fibre) (x : Txn), Solo i s g t lane f → readInt (envOf s t lane f.fidx) f a = .ok (v f.fidx) → f.txn = some x →
         Unbroken s t x.lfail → Performs i s g t s fun _ f => aborted x 5 ((v f.fidx).toNat % 256) f) ∧
       (Begins i s g t → ReadsInt a i s g t v → (∀ lane f, Executes s g t i lane f → f.txn = none) →
         Performs i s g t s fun _ f => { f := f.issuing })) ∧
     (let i : Instr := .retry gd;
       let noted : Core := { s.core g.core with
         last := upd g.slot (fun l => if l.gid = g.gid then { l with yielded := true } else l) (s.core g.core).last }
       (Begins i s g t → (∀ lane f, Executes s g t i lane f → f.txn = none) → Performs i s g t s fun _ f => { f := f.issuing }) ∧
       (∀ (lane : Nat) (f : Fibre) (x : Txn), Solo i s g t lane f → f.txn = some x → x.depth ≤ 4 →
         let yielded (o : Out) : Prop := ∃ s', exec i s = .next s' ∧
           s' = { s with fibres := s'.fibres, gangs := s'.gangs, issue := none, cores := setD {} g.core noted s.cores } ∧
           s'.gangs.getLast? = some (g.passed t s.clock) ∧ s'.fibre f.key = some (f.done i s t lane o) ∧
           ∀ k, k ≠ f.key → s'.fibre k = s.fibre k
         (g.issuedAt s.clock < x.opened + 2 ^ 23 →
           (∀ l, x.depth < 4 → x.succ = some l → Unbroken s t l →
             yielded { f := { f.issuing with txn := some { x with wset := [], depth := x.depth + 1, succ := none } }, next := some l }) ∧
           ((x.depth = 4 ∨ x.succ = none) →
             (∀ d, x.deadline = some d → d ≤ s.clock → Unbroken s t x.lfail → yielded (aborted x 3 0 f)) ∧
             ((∀ d, x.deadline = some d → s.clock < d) →
               ∃ s', exec i s = .next s' ∧
                 s'.agenda = s.agenda ++ x.rset.map (fun r => .watch r.line r.ver (.fibre f.key)) ∧ s'.mem = s.mem ∧ s'.gang g.gid = none ∧
                 s'.fibre f.key =
                   some { f.issuing with txn := none, pc := x.origin, st := .sleeping x.origin x.lfail x.deadline x.depth x.rset.length }))) ∧
         (x.opened + 2 ^ 23 ≤ g.issuedAt s.clock → Unbroken s t x.lfail → yielded (aborted x 3 0 f)))) ∧
     (∀ (d : Dst) (ps : Fin 16), NoSreg d → Begins (.tstat gd d ps) s g t →
       Performs (.tstat gd d ps) s g t s fun _ f =>
         { f := f.issuing, w := { Wr.one d f.status .n32 with preds := [(ps.val, f.status.toNat % 16 == 0)] } })) ∧
  (∀ (s : State) (g : Gang) (t : Team) (lane : Nat) (f : Fibre) (gd : Guard), let i : Instr := .tcommit gd
     Solo i s g t lane f → (f.txn = none → TakesTrap i s g t f { code := .illegal } none) ∧
     ∀ x : Txn, f.txn = some x → Released i s g t →
       let status (code : Nat) : Word := BitVec.ofNat 32 (code + 2 ^ 4 * x.depth + 2 ^ 8 * x.rset.length)
       let failed (code : Nat) (_ : Nat) (f : Fibre) : Out :=
         { f := { f.issuing with txn := none, pc := x.lfail, status := status code }, next := some x.lfail }
       (x.opened + 2 ^ 23 ≤ g.issuedAt s.clock → Unbroken s t x.lfail → Performs i s g t s (failed 3)) ∧
       (g.issuedAt s.clock < x.opened + 2 ^ 23 → (s.core t.core).wcb = [] → (x.wset.map (·.line)).Nodup → (∀ r ∈ x.rset, s.asleep r.line = false) →
         (∀ w ∈ x.wset, s.reserved w.line = false ∧ getD [] w.line (s.die (dieOfLine w.line)).claims = []) →
         ((∀ r ∈ x.rset, (s.line r.line).ver = r.ver ∧ s.reserved r.line = false) → Unbroken s t (f.pc + 8) →
           ∃ s1 lat asked, Performs i s g t s1 (fun _ f =>
               { f := { f.issuing with txn := none, status := status 0, accAt := max f.accAt (s.clock + lat), await := asked }, lat := some lat }) ∧
             ∀ a, s1.byte a = (match x.wset.find? (·.line == a / 128) with
               | some w => if w.mask.getLsbD (a % 128) then byteOf w.data (a % 128) else s.byte a
               | none => s.byte a)) ∧
         ((∃ r ∈ x.rset, (s.line r.line).ver ≠ r.ver) → Unbroken s t x.lfail →
           ∃ s1, Performs i s g t s1 (failed 1) ∧ s1.mem = s.mem)))

/-- R227 to R238, R256 to R263: earead, stv, ldsum, pfl, fence, tbegin, otherwise, tabort, retry, tstat and tcommit complete. Under conditions on the state and the operands alone
each answers a next state, in which its fibre has passed it, with what it writes and where it goes on: the next word, Lfail after tabort in an attempt, the alternative
after retry.
The model's choices in it: logs 14, 17, 20, 72. -/
def Obligations.HomeAndAttemptFormsComplete : Prop :=
  ∀ (s : State) (g : Gang) (t : Team) (lane : Nat) (f : Fibre) (gd : Guard) (c : Ctl) (sp : Space) (ad : Addr) (ea va : DWord) (pa : Nat) (leaf : DWord),
    let k := s.site t f
    let e := envOf s t lane f.fidx
    let line := lineOf pa
    let drained := drainLine (noteMiss s t.core k.ctx va) t.core line
    let read := freshen (coreAsk drained t.core line) t.core line
    let drains : Prop := s.walkWaits t.core k.ctx va = false ∧ ((s.core t.core).entry line = none ∨ s.blocked line = false)
    let goesOn (i : Instr) (next : Option DWord) (w : Wr) : Prop :=
      ∃ s' o, exec i s = .next s' ∧ s'.fibre f.key = some (f.done i s t lane o) ∧ o.next = next ∧ o.w = w
    (∀ (ek : EaKind) (m : Rm) (d : Option (Fin 256)), Solo (.earead c ek m sp d ad) s g t lane f → effAddr e f 4 ad = .ok ea →
      globAt s k sp ea (eaBytes ek) (eaBytes ek) { kind := 2, r := true } = .ok (va, pa, leaf) → s.asleep line = false → drains →
      badGranule (read.line line).poison (pa % 128) (eaBytes ek) = none → Unbroken s t (f.pc + 8) →
      goesOn (.earead c ek m sp d ad) none (Wr.opt d (BitVec.ofNat 32 (roundF .f32 m (eaVal ek (eaOfNat ek (leWord (read.bytes pa (eaBytes ek))))))) .f32)) ∧
    (∀ (sz : Size) (d : Fin 256) (nw : Bool) (x : Nat) (ev : Reg), Solo (.stv gd sz sp d nw ad) s g t lane f → effAddr e f sz.bytes ad = .ok ea →
      regsVal f d.val sz.bytes = .ok x → readV f (d.val + sz.bytes / 4) = .ok ev →
      globAt s k sp ea sz.bytes sz.bytes { kind := 4, w := true, seals := true } = .ok (va, pa, leaf) → pa % 128 + sz.bytes ≤ 128 →
      s.reserved line = false → s.walkWaits t.core k.ctx va = false →
      (∀ e ∈ (s.core t.core).wcb, e.line ≠ line ∧ (e.claimed = true ∨ sameSlice e.line line = false)) →
      getD [] line (s.die (dieOfLine line)).claims = [] → Unbroken s t (f.pc + 8) →
      let ver := (s.line line).ver
      let same := ver = ev.val.toNat % 2 ^ 24
      let ver' := if same ∧ s.bytes pa sz.bytes ≠ leBytes x sz.bytes then (ver + 1) % 2 ^ 24 else ver
      goesOn (.stv gd sz sp d nw ad) none
        (if nw then {} else { regs := [(d.val + sz.bytes / 4, ⟨BitVec.ofNat 32 (ver' + if same then 0 else 2 ^ 31), .n32⟩)] })) ∧
    (∀ (kind : SumKind) (pod : Bool) (d : Option (Fin 256)), Solo (.ldsum c kind pod d ad) s g t lane f → effAddr e f 4 ad = .ok ea →
      globAt s k .g ea (sumBytes kind) (sumBytes kind) { kind := 2, r := true } = .ok (va, pa, leaf) → leafContrib leaf = true →
      badReplica drained pa (sumBytes kind) = none → (∀ m ∈ gatherAsks s pod pa, podRoom s m = true) → drains → Unbroken s t (f.pc + 8) →
      goesOn (.ldsum c kind pod d ad) none {}) ∧
    (∀ (h : Hint), Solo (.pfl gd sp h ad) s g t lane f → effAddr e f 1 ad = .ok ea → Unbroken s t (f.pc + 8) → goesOn (.pfl gd sp h ad) none {}) ∧
    (∀ (o : Ord) (sc : Scope), Solo (.fence gd o sc) s g t lane f → Unbroken s t (f.pc + 8) → (sc ≠ .lane → sc ≠ .core → drainHeld s t.core = false) →
      goesOn (.fence gd o sc) none {}) ∧
    (∀ (off : BitVec 34) (dl : DlSrc) (d : Nat), Solo (.tbegin gd off dl) s g t lane f → readDeadline e f dl = .ok d → f.txn = none → Unbroken s t (f.pc + 8) →
      goesOn (.tbegin gd off dl) none {}) ∧
    (∀ (off : BitVec 34), Solo (.otherwise gd off) s g t lane f → Unbroken s t (f.pc + 8) → goesOn (.otherwise gd off) none {}) ∧
    (∀ (a : Src) (v : Word), Solo (.tabort gd a) s g t lane f → readInt e f a = .ok v →
      (f.txn = none → Unbroken s t (f.pc + 8) → goesOn (.tabort gd a) none {}) ∧
      (∀ x, f.txn = some x → Unbroken s t x.lfail → goesOn (.tabort gd a) (some x.lfail) {})) ∧
    (Solo (.retry gd) s g t lane f →
      (f.txn = none → Unbroken s t (f.pc + 8) → goesOn (.retry gd) none {}) ∧
      (∀ x l, f.txn = some x → g.issuedAt s.clock < x.opened + 2 ^ 23 → x.depth < 4 → x.succ = some l → Unbroken s t l → goesOn (.retry gd) (some l) {})) ∧
    (∀ (d : Dst) (ps : Fin 16), NoSreg d → Solo (.tstat gd d ps) s g t lane f → Unbroken s t (f.pc + 8) →
      goesOn (.tstat gd d ps) none { Wr.one d f.status .n32 with preds := [(ps.val, f.status.toNat % 16 == 0)] }) ∧
    (∀ x : Txn, Solo (.tcommit gd) s g t lane f → Released (.tcommit gd) s g t → f.txn = some x → g.issuedAt s.clock < x.opened + 2 ^ 23 → (s.core t.core).wcb = [] →
      (x.wset.map (·.line)).Nodup → (∀ r ∈ x.rset, s.asleep r.line = false ∧ (s.line r.line).ver = r.ver ∧ s.reserved r.line = false) →
      (∀ w ∈ x.wset, s.reserved w.line = false ∧ getD [] w.line (s.die (dieOfLine w.line)).claims = []) → Unbroken s t (f.pc + 8) →
      goesOn (.tcommit gd) none {})

/-! ## Barriers and sealing (R208, R244, R264, R265) -/

/-- R244, R264, R265: bar, whose release has nothing to wait for, sends its arrival to the cell's home, which the claims that its core sent there reach first, its phase outstanding; seal and
unseal hand the sealing unit their range once every page of it passes its checks. A cell or a range that fails its checks raises the trap of the first that fails, and a
range of no pages ILLEGAL.
The model's choices in it: logs 14, 16, 31, 36, 72, 107. -/
def Obligations.BarriersAndSealing : Prop :=
  ∀ (s : State) (g : Gang) (t : Team) (lane : Nat) (f : Fibre) (gd : Guard) (a : Op64) (va : DWord),
    let k := s.site t f
    readOp64 (envOf s t lane f.fidx) f a = .ok va →
    (∀ (sc : Scope) (d : Dst) (pa : Nat), let i : Instr := .bar gd sc d a
      Solo i s g t lane f → Released i s g t → barCell s k va = .ok pa → s.reserved (lineOf pa) = false → Unbroken s t (f.pc + 8) →
      let s1 := sendAhead (noteMiss s t.core k.ctx va) t.core (lineOf pa)
      let unit := match sc with | .lane | .core => t.core | .quad => t.core / 4 | _ => t.core / 128
      let arrival : Arrival := { gfid := k.gfid, core := t.core, dst := d, va := va, issued := g.issuedAt s.clock, before := f.issuing }
      Performs i s g t { s1 with bars := barJoin s.bars pa sc.code unit s.clock arrival } fun _ f =>
        { f := match d with | .v n => { f.issuing with avail := put (f.fb + n.val) (s.clock + 2 ^ 40) f.avail } | _ => f.issuing,
          lat := some (latOf s1 pa) }) ∧
    (∀ (sc : Scope) (d : Dst), let i : Instr := .bar gd sc d a
      let struck (c : TrapCode) : Prop := TakesTrap i s g t f { code := c, faddr := va, aux := 4 } none
      Solo i s g t lane f → (va.toNat % 128 ≠ 0 → struck .align) ∧
      (va.toNat % 128 = 0 → (translate s t.core k.ctx va = none → struck .translation) ∧
        ∀ pa leaf, translate s t.core k.ctx va = some (pa, leaf) →
          let allowed : Prop := leafR leaf = true ∧ leafW leaf = true ∧ leafContrib leaf = false
          (¬ allowed → struck .protection) ∧ (allowed → leafSealed leaf = true → struck .sealedStore))) ∧
    (∀ (pod : Bool) (b : Src) (n : Word), readInt (envOf s t lane f.fidx) f b = .ok n → n ≠ 0 → Unbroken s t (f.pc + 8) →
      let op (isSeal : Bool) : SealOp := { ctx := k.ctx, die := k.die, isSeal := isSeal, pod := pod, start := va.toNat, pages := n.toNat, fibre := f.key }
      (Solo (.seal gd pod a b) s g t lane f → sealCheck s k.ctx true va n.toNat = none →
        Performs (.seal gd pod a b) s g t { s with sealQ := s.sealQ ++ [op true] } fun _ f => { f := f.issuing }) ∧
      (Solo (.unseal gd pod a b) s g t lane f → sealCheck s k.ctx false va n.toNat = none →
        Performs (.unseal gd pod a b) s g t { s with sealQ := s.sealQ ++ [op false] } fun _ f => { f := f.issuing })) ∧
    (∀ (pod : Bool) (b : Src) (n : Word) (isSeal : Bool), readInt (envOf s t lane f.fidx) f b = .ok n →
      let i : Instr := if isSeal then .seal gd pod a b else .unseal gd pod a b
      Solo i s g t lane f → (n = 0 → TakesTrap i s g t f { code := .illegal } none) ∧
        (n ≠ 0 → va.toNat % 4096 ≠ 0 → TakesTrap i s g t f { code := .align, faddr := va, aux := 3 } none) ∧
        ∀ x, n ≠ 0 → sealCheck s k.ctx isSeal va n.toNat = some x → TakesTrap i s g t f x none)

/-! ## Trees (R76 to R81, R133 to R137) -/

/-- R133 to R137: a walk that reaches a leaf commits its registers, predicates, loads and store, and goes where the leaf's code says: to the next word, to a
target slot, to the header again, or ends the fibre; a walk takes at each node the branch of its test, doing the arc's operation on its private view; an illegal
tree raises what its check finds and changes nothing. An arc's load and an arc's table distance are kept for the leaf, unseen by the rest of the walk, and its store is
done there; a trap of a test or of an arc ends the walk with that trap alone.
The model's choices in it: logs 31, 90, 93, 95, 102, 109. -/
def Obligations.TreeExecutes : Prop :=
  ∀ (s : State) (g : Gang) (t : Team) (lane : Nat) (f : Fibre) (tw : TreeWords),
    let i : Instr := .tree tw
    let h := treeHdr tw.header.toNat
    let k := s.site t f
    let e := envOf s t lane f.fidx
    (∀ x, Solo i s g t lane f → treeCheck tw f.issuing = some x → TakesTrap i s g t f x none) ∧
    (∀ (j : Nat) (w : Walking) (s1 : State) (f1 : Fibre), Solo i s g t lane f → treeCheck tw f.issuing = none →
      walkTree tw h k e h.depth 0 0 { s := s, v := f.issuing } = .leaf j w →
      (w.store = none ∧ s1 = w.s ∧ f1 = { f.issuing with txn := w.v.txn } ∨
        ∃ p bs, w.store = some (p, bs) ∧ storeAt w.s k { f.issuing with txn := w.v.txn } p bs = .ok s1 f1 ()) →
      let code := h.word / 2 ^ (31 - 3 * j) % 8
      let out (n : Option DWord) : Nat → Fibre → Out := fun _ _ =>
        { f := f1, w := wrJoin w.done w.loaded, next := n, rank := j, lat := some (max (4 + h.depth) w.lat) }
      (code = 0 → Unbroken s1 t (f.pc + BitVec.ofNat 64 (8 * words i)) → Performs i s g t s1 (out none)) ∧
      (code = 5 → f.fidx < 1024 → (s.teamFibres t.id = [f] ∨
          ∃ k f', k ≠ f.key ∧ k / 1024 = t.id ∧ s.fibre k = some f' ∧ ∀ a b c d e h, f'.st ≠ .budget a b c d e false h) →
        ∃ s', exec i s = .next s' ∧ s'.fibre f.key = none ∧ s'.gang g.gid = none ∧ s'.mem = s1.mem) ∧
      (code = 6 → Unbroken s1 t f.pc → Performs i s g t s1 (out (some f.pc))) ∧
      (1 ≤ code → code ≤ 4 →
        let half := (tw.targets.getD ((code - 1) / 2) 0).toNat / 2 ^ (32 * ((code - 1) % 2)) % 2 ^ 32
        let target := f.pc + (BitVec.ofNat 32 half).signExtend 64 * 8
        Unbroken s1 t target → Performs i s g t s1 (out (some target)))) ∧
    (∀ (fuel pos lvl : Nat) (w : Walking) (x : Test) (b : Bool), lvl < h.depth → h.has pos = true → decTest (nodeWord tw h pos) = .ok x →
      firstSome (tagCheck w.v) ((testSrcs x).flatMap oSrc) = none → testHolds x e w.v = .ok b →
      let next := if b then 2 * pos + 1 else 2 * pos + 2
      (h.arc pos b = false → walkTree tw h k e (fuel + 1) pos lvl w = walkTree tw h k e fuel next (lvl + 1) w) ∧
      (∀ op ev r, h.arc pos b = true → arcOp (arcWord tw h pos b) = .ok (some op) → aluOf op = some ev →
        firstSome (tagCheck w.v) (uses op).ops = none → ev e w.v = .ok r →
        walkTree tw h k e (fuel + 1) pos lvl w =
          walkTree tw h k e fuel next (lvl + 1) { w with v := w.v.write r, done := wrJoin w.done r }) ∧
      (∀ op, h.arc pos b = true → arcOp (arcWord tw h pos b) = .ok (some op) → firstSome (tagCheck w.v) (uses op).ops = none →
        let goesTo (w' : Walking) : Prop := walkTree tw h k e (fuel + 1) pos lvl w = walkTree tw h k e fuel next (lvl + 1) w'
        (∀ c sz sp hint tag d ad ea p s1 f1 bs lat, op = .ld c sz sp hint tag d ad → effAddr e w.v sz.bytes ad = .ok ea →
          (sp ≠ .x → lateTxn w.s w.v = false) → place k sp ea sz.bytes sz.bytes 2 = .ok p → loadAt w.s k w.v p sz.bytes hint = .ok s1 f1 (bs, lat) →
          goesTo { w with s := s1, v := f1, loaded := wrJoin w.loaded (ldWr sz tag d bs), lat := max w.lat lat }) ∧
        (∀ gd sz sp hint x ad ea p bs, op = .st gd sz sp hint x ad → effAddr e w.v sz.bytes ad = .ok ea →
          (sp ≠ .x → lateTxn w.s w.v = false) → place k sp ea sz.bytes sz.bytes 3 = .ok p → stBytes sz x e w.v = .ok bs →
          (∀ va, p = .glob va → ∃ r, checkVa w.s k.core k.ctx va { kind := 3, w := true, seals := true } = .ok r) →
          goesTo { w with store := some (p, bs) }) ∧
        (∀ c grp d a sB z r, op = .vpqd c grp d a sB z → pqEval (scrBytes w.s k.team) (scrBad w.s k.team) e w.v grp d a sB z = .ok r →
          goesTo { w with loaded := wrJoin w.loaded r, lat := max w.lat 10 }) ∧
        ∀ x, arcStep op k e w = .trap x → walkTree tw h k e (fuel + 1) pos lvl w = .trap x)) ∧
    (∀ x, Solo i s g t lane f → treeCheck tw f.issuing = none → walkTree tw h k e h.depth 0 0 { s := s, v := f.issuing } = .trap x →
      x.code ≠ .breakpoint → TakesTrap i s g t f x none) ∧
    (∀ (z : Src) (a : Src) (grp : Fin 16) (d : Dst) (sB : Fin 32) (x r : Word) (v : Fibre),
      let base := getD 0 sB.val e.sregs
      let entry (j : Nat) : Nat := base.toNat + 1024 * (4 * grp.val + j) + 4 * (x.toNat / 2 ^ (8 * j) % 256)
      e.badS.contains sB.val = false → readTag e v .n8x4 a = .ok x → readTag e v .f32 z = .ok r → base.toNat % 4 = 0 →
      (∀ j, j < 4 → entry j + 4 ≤ t.scrSize ∧ (s.core t.core).badAt (t.scrBase + entry j) 4 = none) →
      pqEval (scrBytes s t) (scrBad s t) e v grp d a sB z = .ok (Wr.one d (BitVec.ofNat 32 (roundF .f32 .rne (exactSum (Fmt.f32.val r.toNat ::
        (List.range 4).map fun j => Fmt.f32.val (leWord ((s.core t.core).bytes (t.scrBase + entry j) 4)))))) .f32)) ∧
    (∀ (c : ICond) (ty : Sgn) (a b : Src) (x y : Word) (imm : Int) (v : Fibre), readInt e v a = .ok x → readInt e v b = .ok y →
      testHolds (.int ty c a (.inl b)) e v = .ok (ICond.holds c (intVal ty x) (intVal ty y)) ∧
      testHolds (.int ty c a (.inr imm)) e v = .ok (ICond.holds c (intVal ty x) imm)) ∧
    (∀ (p : Fin 16) (want : Bool) (v : Fibre), testHolds (.pred p want) e v = .ok (predBit v.preds p.val == want))

/-! ## Tiles, copies, the sieve and the matrix requests (R191 to R194, R274, R297, R305 to R307, R314 to R333) -/

/-- R191, R317 to R319: talloc fills a free entry of the team's table and zeroes its bytes, which take a clock for every KiB; tfree empties an entry; tinfo gives
a tile's descriptor, and its two forms write its exponents to scratchpad, sign-extended to bytes, or take them from there.

R192, R315, R317: a handle beyond the team's table or of an EMPTY entry raises TILE_STATE with the handle, and so does talloc at an entry that is not EMPTY; a shape of
no format raises ILLEGAL, and one that does not fit or meets another tile PROTECTION. R161, R314: a crew that is not wholly there raises CREW_PARTIAL.
The model's choices in it: log 31. -/
def Obligations.TileTable : Prop :=
  (∀ (s : State) (g : Gang) (t : Team) (gd : Guard) (h : Fin 64), h.val < t.tblCount →
    let c := s.core t.core
    let ix := t.tblBase + h.val
    let tl := c.tile ix
    (∀ (q : Fin 8) (cr : Crew) (a b : Src) (x y : Word), let i : Instr := .talloc gd h q a b
      Begins i s g t → WholeCrew i s g t q cr → ReadsInt a i s g t (fun _ => x) → ReadsInt b i s g t (fun _ => y) →
      let e : Tile := { owner := t.slot, addr := t.tileBase + 128 * y.toNat, off := y.toNat, cols := x.toNat / 2 ^ 8 % 2 ^ 7, rows := x.toNat % 2 ^ 7,
                        fmt := x.toNat / 2 ^ 16 % 2 ^ 4, st := .filling }
      e.fmt < 10 → tl.st = .empty → 128 * y.toNat + e.extent ≤ t.tileSize →
      (∀ j, j < t.tblCount → (c.tile (t.tblBase + j)).st = .empty ∨ e.addr + e.extent ≤ (c.tile (t.tblBase + j)).addr ∨
        (c.tile (t.tblBase + j)).addr + (c.tile (t.tblBase + j)).extent ≤ e.addr) →
      ∃ c' : Core, Performs i s g t (s.setCore t.core c') (fun _ f => { f := f.issuing }) ∧
        c' = { c with store := c'.store, scrPoison := c'.scrPoison, tiles := c'.tiles } ∧
        c'.tile ix = { e with zeroed := some (s.clock + max 1 ((e.extent + 1023) / 1024)) } ∧ (∀ j, j ≠ ix → c'.tile j = c.tile j) ∧
        ∀ n, c'.byte n = if e.addr ≤ n ∧ n < e.addr + e.extent then 0 else c.byte n) ∧
    (∀ (q : Fin 8) (cr : Crew), let i : Instr := .tfree gd h q
      Begins i s g t → WholeCrew i s g t q cr → tl.st = .ready →
      Performs i s g t (s.setCore t.core (c.setTile ix {})) fun _ f => { f := f.issuing }) ∧
    (∀ (d : Dst64), let i : Instr := .tinfo gd h d
      NoSreg64 d → Begins i s g t → tl.st = .ready →
      Performs i s g t s fun _ f => { f := f.issuing, w := Wr.wide d (BitVec.ofNat 64
        (tl.owner * 2 ^ 42 + tl.off * 2 ^ 29 + tl.cols * 2 ^ 22 + tl.rows * 2 ^ 15 + tl.fmt * 2 ^ 11 + 2)) .n32 .n32 }) ∧
    (∀ (lane : Nat) (f : Fibre) (a : Src) (o : Word), readInt (envOf s t lane f.fidx) f a = .ok o → o.toNat % 8 = 0 →
      o.toNat + 256 ≤ t.scrSize → tl.st = .ready → Unbroken s t (f.pc + 8) →
      let at_ := t.scrBase + o.toNat
      (Solo (.tinfoGetexp gd h a) s g t lane f → ∃ c' : Core,
        Performs (.tinfoGetexp gd h a) s g t (s.setCore t.core c') (fun _ f => { f := f.issuing }) ∧
        c' = { c with store := c'.store, scrPoison := c'.scrPoison } ∧
        ∀ n, c'.byte n = if at_ ≤ n ∧ n < at_ + 128 then (getD 0 (n - at_) tl.rowExp).signExtend 8
          else if at_ + 128 ≤ n ∧ n < at_ + 256 then (getD 0 (n - at_ - 128) tl.colExp).signExtend 8 else c.byte n) ∧
      (Solo (.tinfoSetexp gd h a) s g t lane f → c.badAt at_ 256 = none → ∃ re ce,
        Performs (.tinfoSetexp gd h a) s g t (s.setCore t.core (c.setTile ix { tl with rowExp := re, colExp := ce })) (fun _ f => { f := f.issuing }) ∧
        ∀ n, n < 128 → getD 0 n re = (c.byte (at_ + n)).setWidth 5 ∧ getD 0 n ce = (c.byte (at_ + 128 + n)).setWidth 5))) ∧
  (∀ (s : State) (g : Gang) (t : Team) (gd : Guard) (h : Fin 64) (q : Fin 8) (cr : Crew) (pc : DWord),
    let st := ((s.core t.core).tile (t.tblBase + h.val)).st
    let absent : Prop := t.tblCount ≤ h.val ∨ st = .empty
    let rests : Prop := t.tblCount ≤ h.val ∨ st ≠ .filling ∧ st ≠ .draining
    let tileState : Trap := { code := .tileState, aux := h.val }
    let whole (i : Instr) : Prop := Issuing s i g t pc ∧ WholeCrew i s g t q cr
    (∀ (a b : Src) (x y : Word), let i : Instr := .talloc gd h q a b
      whole i → ReadsInt a i s g t (fun _ => x) → ReadsInt b i s g t (fun _ => y) →
      let e : Tile := { owner := t.slot, addr := t.tileBase + 128 * y.toNat, off := y.toNat, cols := x.toNat / 2 ^ 8 % 2 ^ 7, rows := x.toNat % 2 ^ 7,
                        fmt := x.toNat / 2 ^ 16 % 2 ^ 4, st := .filling }
      (10 ≤ e.fmt → TrapsWhole i s g t fun _ => { code := .illegal }) ∧
      (e.fmt < 10 → (t.tblCount ≤ h.val ∨ st ≠ .empty) → TrapsWhole i s g t fun _ => tileState) ∧
      (e.fmt < 10 → h.val < t.tblCount → st = .empty → (t.tileSize < 128 * y.toNat + e.extent ∨
          ∃ j, j < t.tblCount ∧ ((s.core t.core).tile (t.tblBase + j)).st ≠ .empty ∧ e.addr < ((s.core t.core).tile (t.tblBase + j)).addr +
            ((s.core t.core).tile (t.tblBase + j)).extent ∧ ((s.core t.core).tile (t.tblBase + j)).addr < e.addr + e.extent) →
        TrapsWhole i s g t fun _ => { code := .protection, faddr := BitVec.ofNat 64 (128 * y.toNat), aux := 5 })) ∧
    (absent → (whole (.tfree gd h q) → TrapsWhole (.tfree gd h q) s g t fun _ => tileState) ∧
      (whole (.mlds gd h q) → TrapsWhole (.mlds gd h q) s g t fun _ => tileState) ∧
      (∀ sw acc a (w : Word), whole (.mma gd sw none h q acc a) → ReadsInt a (.mma gd sw none h q acc a) s g t (fun _ => w) →
        TrapsWhole (.mma gd sw none h q acc a) s g t fun _ => tileState) ∧
      (∀ acc d a (w : Word), whole (.acsnap gd h q acc d a) → ReadsInt a (.acsnap gd h q acc d a) s g t (fun _ => w) →
        TrapsWhole (.acsnap gd h q acc d a) s g t fun _ => tileState) ∧
      (∀ acc m, whole (.acdrain gd q acc (.tile h m)) → TrapsWhole (.acdrain gd q acc (.tile h m)) s g t fun _ => tileState) ∧
      ∀ lane f, (∀ d, Solo (.tinfo gd h d) s g t lane f → TakesTrap (.tinfo gd h d) s g t f tileState none) ∧
        ∀ a o, readInt (envOf s t lane f.fidx) f a = .ok o →
          (Solo (.tinfoGetexp gd h a) s g t lane f → TakesTrap (.tinfoGetexp gd h a) s g t f tileState none) ∧
          (Solo (.tinfoSetexp gd h a) s g t lane f → TakesTrap (.tinfoSetexp gd h a) s g t f tileState none)) ∧
    (∀ (i : Instr), Issuing s i g t pc → AllExecute i s g t → rests → (∀ c, t.crew q.val = some c → g.ids ≠ liveOf c) →
      i = .tfree gd h q ∨ i = .mlds gd h q ∨ (∃ acc m, i = .acdrain gd q acc (.tile h m)) →
      TrapsWhole i s g t fun _ => { code := .crewPartial, aux := q.val }))

/-- R223, R297, R316, R320, R333: xcopy, xchain, tmove and fwalk check their operands, let the core's buffered stores drain, and queue one command of their crew at the
core's copy engine or the quad's index engine, with the answers that its first access awaits.

R305 to R307, R330 to R332: sieveset opens a stream with an empty list, or turns it off; sift adds the pairs of the executing fibres, which a sieveget of a later
clock sees; sieveget writes the first 32 bytes of the K places of the list to scratchpad, unused places as the sentinel pair, and leaves the others to the next clocks.
The list keeps at most K pairs of those pushed, and under an integer key it stays in rank order. A stream that is off or another team's raises ENGINE_FAULT of cause
SIEVE_STATE; operands that differ raise NONUNIFORM, a crew that is not wholly there CREW_PARTIAL.
The model's choices in it: logs 17, 29, 31, 112. -/
def Obligations.EngineCommands : Prop :=
  (∀ (s : State) (g : Gang) (t : Team) (gd : Guard) (q : Fin 8) (cr : Crew) (a : Src) (b : Op64) (x : Word) (cell : DWord) (pa : Nat × DWord),
     let s0 := drainAll s t.core
     let c := s0.core t.core
     let asked (i : Instr) : List Nat := dedupe ((gather s t g i).flatMap fun e => awaited s0 t.core e.f s.nextId)
     let begun (i : Instr) : Prop := Begins i s g t ∧ WholeCrew i s g t q cr ∧ ReadsInt a i s g t (fun _ => x) ∧ ReadsWide b i s g t (fun _ => cell)
     let queued (i : Instr) (kind : CopyKind) : State := ({ s0 with nextId := s0.nextId + 1 } : State).setCore t.core { c with copyQ := c.copyQ ++
       [{ id := s0.nextId, team := t.id, crew := q.val, kind := kind, base := x.toNat, cell := cell, acks := asked i }] }
     cell.toNat % 16 = 0 → checkVa s t.core (s.teamLaunch t).ctx cell { kind := 5, w := true, seals := true } = .ok pa →
     drainHeld s t.core = false →
     (x.toNat % 32 = 0 → x.toNat + 32 ≤ t.scrSize → (s.core t.core).copyQ.length < 16 →
       (begun (.xcopy gd q a b) → Performs (.xcopy gd q a b) s g t (queued (.xcopy gd q a b) .xcopy) fun _ f => { f := f.issuing }) ∧
       (begun (.xchain gd q a b) → Performs (.xchain gd q a b) s g t (queued (.xchain gd q a b) .xchain) fun _ f => { f := f.issuing }) ∧
       (begun (.tmove gd q a b) → Performs (.tmove gd q a b) s g t (queued (.tmove gd q a b) .tmove) fun _ f => { f := f.issuing })) ∧
     (begun (.fwalk gd q a b) → (s.quad (t.core / 4)).walks.length < 16 →
       let qd := s0.quad (t.core / 4)
       Performs (.fwalk gd q a b) s g t
         (({ s0 with nextId := s0.nextId + 1 } : State).setQuad (t.core / 4)
           { qd with walks := qd.walks ++ [{ id := s0.nextId, team := t.id, core := t.core, off := x.toNat, cell := cell, acks := asked (.fwalk gd q a b) }] })
         fun _ f => { f := f.issuing }) ∧
     c.wcb = []) ∧
  (∀ (s : State) (g : Gang) (t : Team) (gd : Guard) (n : Fin 8) (q : Fin 8) (cr : Crew) (a b : Src),
     let c := s.core t.core
     let v := c.sieve n.val
     (∀ x : Word, let i : Instr := .sieveset gd n q a
       let k := x.toNat % 2 ^ 9
       Begins i s g t → WholeCrew i s g t q cr → ReadsInt a i s g t (fun _ => x) → k ≤ 256 → (v.k = 0 ∨ v.team = t.id) →
       Performs i s g t (s.setCore t.core (c.setSieve n.val 
         { key := x.getLsbD 10, order := x.getLsbD 9, k := k, owner := t.slot, team := t.id, held := [], new := [], newClk := 0 }))
         fun _ f => { f := f.issuing }) ∧
     (∀ (sc ids : Nat → Word), let i : Instr := .sift gd n a b
       Begins i s g t → AllExecute i s g t → Reads (fun e f => readScore e f v.key a) i s g t sc → ReadsInt b i s g t ids →
       v.k ≠ 0 → v.team = t.id → c.siftAt ≠ some s.clock →
       let v' := v.push s.clock (g.ids.map fun k => (sc k, ids k))
       Performs i s g t (s.setCore t.core { c.setSieve n.val v' with siftAt := some s.clock }) (fun _ f => { f := f.issuing }) ∧
       v'.seen s.clock = v.seen s.clock ∧ (v.newClk < s.clock → ∀ clk, s.clock < clk →
         v'.seen clk = mergePairs { v' with held := v.seen s.clock } (g.ids.map fun k => (sc k, ids k)))) ∧
     (∀ o : Word, let i : Instr := .sieveget gd n q a
       Begins i s g t → WholeCrew i s g t q cr → ReadsInt a i s g t (fun _ => o) → v.k ≠ 0 → v.team = t.id → o.toNat % 8 = 0 →
       o.toNat + 8 * v.k ≤ t.scrSize →
       let a := t.scrBase + o.toNat
       ∃ (bs : List Byte) (c' : Core), bs.length = 8 * v.k ∧
         (∀ j, j < v.k →
           let p := (v.seen s.clock).getD j (if v.key then 0xFFFFFFFF else 0x7FC00000, 0xFFFFFFFF)
           leWord ((bs.drop (8 * j)).take 4) = p.1.toNat ∧ leWord ((bs.drop (8 * j + 4)).take 4) = p.2.toNat) ∧
         c' = { c with store := c'.store, scrPoison := c'.scrPoison } ∧
         (∀ m, c'.byte m = if a ≤ m ∧ m < a + min 32 (8 * v.k) then bs.getD (m - a) 0 else c.byte m) ∧
         Performs i s g t (s.setCore t.core { c' with
           sieveBusy := c.sieveBusy ++ [{ team := t.id, crew := q.val, clk := s.clock + (v.k + 3) / 4, at_ := a + 32, rest := bs.drop 32 }] })
           fun _ f => { f := f.issuing }) ∧
     (∀ (x : Word) (pc : DWord), let sieveState : Trap := { code := .engineFault, detail := 6 }
       let whole (i : Instr) : Prop := Issuing s i g t pc ∧ WholeCrew i s g t q cr ∧ ReadsInt a i s g t fun _ => x
       (whole (.sieveset gd n q a) → (256 < x.toNat % 2 ^ 9 → TrapsWhole (.sieveset gd n q a) s g t fun _ => { code := .illegal }) ∧
         (x.toNat % 2 ^ 9 ≤ 256 → v.k ≠ 0 → v.team ≠ t.id → TrapsWhole (.sieveset gd n q a) s g t fun _ => sieveState)) ∧
       (v.k = 0 ∨ v.team ≠ t.id →
         (whole (.sieveget gd n q a) → TrapsWhole (.sieveget gd n q a) s g t fun _ => sieveState) ∧
         (Issuing s (.sift gd n a b) g t pc → AllExecute (.sift gd n a b) s g t → c.siftAt ≠ some s.clock →
           TrapsWhole (.sift gd n a b) s g t fun _ => sieveState)) ∧
       (∀ i y, i = .sieveset gd n q a ∨ i = .sieveget gd n q a → Issuing s i g t pc → AllExecute i s g t → ReadsInt a i s g t y →
         ((∀ c, t.crew q.val = some c → g.ids ≠ liveOf c) → TrapsWhole i s g t fun _ => { code := .crewPartial, aux := q.val }) ∧
         (WholeCrew i s g t q cr → (∃ j ∈ g.ids, ∃ k ∈ g.ids, y j ≠ y k) → TrapsWhole i s g t fun _ => { code := .nonuniform, aux := a.code }))) ∧
     (∀ (u : Sieve) (ps : List (Word × Word)),
       (mergePairs u ps).length = min u.k (u.held.length + ps.length) ∧ (∀ p ∈ mergePairs u ps, p ∈ u.held ∨ p ∈ ps) ∧
       (u.key = true → u.held.Pairwise (fun x y => ranksBefore u y x = false) →
         (mergePairs u ps).Pairwise fun x y => ranksBefore u y x = false)))

/-- R223, R274, R314 to R316, R321 to R329: each matrix request checks its tiles, lets the core's buffered stores drain, marks the tiles it reads as DRAINING and those it
writes as FILLING, and enters its partition's reservation table in posting order with the answers that its first access awaits; nothing of the partition's planes or accumulators changes yet. The formats that the planes will hold follow the requests in posting order, those of one clock by
core and crew whatever order they issue in. A tile whose format the request does not take, or that is not paired with its plane's, raises FORMAT_MISMATCH with the
handle, and a team without a partition ENGINE_FAULT of cause NO_CONTEXT.
The model's choices in it: logs 17, 22. -/
def Obligations.MatrixRequests : Prop :=
  (∀ (s : State) (g : Gang) (t : Team) (gd : Guard) (q : Fin 8) (cr : Crew) (acc : Bool) (pn : Nat),
    let qn := t.core / 4
    let tile (h : Fin 64) : Tile := (s.core t.core).tile (t.tblBase + h.val)
    let ready (h : Fin 64) : Prop := h.val < t.tblCount ∧ (tile h).st = .ready
    let ix (h : Fin 64) : Nat := t.tblBase + h.val
    let begun (i : Instr) : Prop := Begins i s g t ∧ WholeCrew i s g t q cr
    let posted (i : Instr) (kind : ReqKind) (writes reads : List (Fin 64)) (f : Part → Part) : State :=
      let s0 := drainAll s t.core
      let s1 := writes.foldl (fun s h => setTileSt s t.core (ix h) .filling) s0
      let s2 := reads.foldl (fun s h => setTileSt s t.core (ix h) .draining) s1
      ({ s2 with nextId := s2.nextId + 1 } : State).setPart qn pn ((f (s.part qn pn)).post
        { id := s2.nextId, team := t.id, core := t.core, crew := q.val, cls := (s.teamLaunch t).reqClass, posted := s.clock, kind := kind,
          acks := dedupe ((gather s t g i).flatMap fun e => awaited s0 t.core e.f s.nextId) })
    let place := t.core % 4 * 8 + q.val
    let swapped (sw : Bool) (p : Part) : Part := if sw then p.postStep s.clock place .swap else p
    let will := (s.part qn pn).fmtsAt s.clock place
    let pairs (sw : Bool) (h : Fin 64) : Prop := ∀ w, (if sw then will.2 else will.1) = some w →
      (tile h).fmt = w ∨ ((tile h).fmt = 2 ∨ (tile h).fmt = 3) ∧ (w = 2 ∨ w = 3)
    let pass : Nat → Fibre → Out := fun _ f => { f := f.issuing }
    t.part = some pn → (s.part qn pn).reqs.length < 8 → drainHeld s t.core = false →
    (∀ h, begun (.mlds gd h q) → ready h → (tile h).fmt ≤ 4 →
      Performs (.mlds gd h q) s g t (posted (.mlds gd h q) (.mlds (ix h)) [] [h] fun p => p.postStep s.clock place (.load (tile h).fmt)) pass) ∧
    (∀ sw h a (w : Word), begun (.mma gd sw none h q acc a) → ReadsInt a (.mma gd sw none h q acc a) s g t (fun _ => w) → ready h → (tile h).fmt ≤ 4 →
      pairs sw h →
      Performs (.mma gd sw none h q acc a) s g t (posted (.mma gd sw none h q acc a) (.pass sw none (ix h) none acc w.toNat) [] [h] (swapped sw)) pass) ∧
    (∀ sw h ad a (w : Word), begun (.mma gd sw (some ad) h q acc a) → ReadsInt a (.mma gd sw (some ad) h q acc a) s g t (fun _ => w) → ready h →
      ready ad → (tile h).fmt ≤ 4 → (tile ad).fmt = 8 → (tile ad).rows = 0 → (tile ad).cols = 127 → pairs sw h →
      Performs (.mma gd sw (some ad) h q acc a) s g t (posted (.mma gd sw (some ad) h q acc a) (.pass sw (some (ix ad)) (ix h) none acc w.toNat) [] [h, ad] (swapped sw)) pass) ∧
    (∀ sw pat ha hb hc a (w : Word), let i : Instr := .mmas gd sw pat ha hb hc q acc a
      begun i → ReadsInt a i s g t (fun _ => w) → ready ha → ready hb → ready hc → (tile ha).fmt ≤ 4 →
      (tile hb).fmt = (tile ha).fmt → (tile hb).rows = (tile ha).rows → (tile hc).fmt = 9 → (tile hc).rows = 127 → (tile hc).cols = 127 → pairs sw ha →
      Performs i s g t (posted i (.pass sw none (ix ha) (some (pat, ix hb, ix hc)) acc w.toNat) [] [ha, hb, hc] (swapped sw)) pass) ∧
    (∀ h (n : Fin 256) a (row : Word) (fb : Nat → Nat), let i : Instr := .acsnap gd h q acc (.v n) a
      begun i → ReadsInt a i s g t (fun _ => row) → (∀ lane f, Member s g t lane f → f.fb = fb f.fidx) → ready h → (tile h).fmt = 7 →
      (tile h).cols = 127 → row.toNat % 128 ≤ (tile h).rows →
      Performs i s g t (posted i (.snap (ix h) acc (row.toNat % 128) ((liveOf cr).map fun k => (t.key k, fb k + n.val)) none) [h] [] id) fun _ f =>
        { f := { f.issuing with avail := put (f.fb + n.val) (s.clock + 2 ^ 40) f.avail } }) ∧
    (∀ h m, begun (.acdrain gd q acc (.tile h m)) → ready h → (tile h).fmt ≤ 7 →
      ((tile h).fmt = 0 ∨ (tile h).fmt = 1 ∨ (tile h).fmt = 4 → m = .rne) →
      Performs (.acdrain gd q acc (.tile h m)) s g t (posted (.acdrain gd q acc (.tile h m)) (.drainTile (ix h) acc m) [h] [] id) pass) ∧
    (∀ (x y : Op64) (va cell : DWord) (pa : Nat × DWord) (dk : DrainKind) (kind align : Nat) (m : Rm), let i : Instr := .acdrain gd q acc dk
      (dk = .f32 x y m ∧ kind = 1 ∧ align = 128 ∨ dk = .add160 x y ∧ kind = 2 ∧ align = 32 ∧ m = .rne ∨ dk = .add320 x y ∧ kind = 3 ∧ align = 64 ∧ m = .rne) →
      begun i → ReadsWide x i s g t (fun _ => va) → ReadsWide y i s g t (fun _ => cell) → va.toNat % align = 0 → cell.toNat % 16 = 0 →
      checkVa s t.core (s.teamLaunch t).ctx cell { kind := 5, w := true, seals := true } = .ok pa →
      Performs i s g t (posted i (.drainMem acc kind m va cell) [] [] id) pass) ∧
    (∀ all k, begun (.acclr gd all k q acc) → Performs (.acclr gd all k q acc) s g t (posted (.acclr gd all k q acc) (.clr all k acc) [] [] id) pass) ∧
    (∀ a b (x y : Word), let i : Instr := .adload gd q a b
      begun i → ReadsInt a i s g t (fun _ => x) → ReadsInt b i s g t (fun _ => y) →
      Performs i s g t (posted i (.adload x.toNat y.toNat) [] [] id) pass) ∧
    (begun (.adinv gd q none) → Performs (.adinv gd q none) s g t (posted (.adinv gd q none) (.adinv none) [] [] id) pass) ∧
    (∀ a (x : Word), begun (.adinv gd q (some a)) → ReadsInt a (.adinv gd q (some a)) s g t (fun _ => x) →
      Performs (.adinv gd q (some a)) s g t (posted (.adinv gd q (some a)) (.adinv (some x.toNat)) [] [] id) pass) ∧
    (∀ pat hi ha hb hc a b (x y : Word) (num den m : Nat) (f : Fibre), let i : Instr := .vprune gd pat hi ha hb hc q a b
      begun i → ReadsInt a i s g t (fun _ => x) → ReadsTag .f32 b i s g t (fun _ => y) → Fmt.f32.val y.toNat = .fin false num den → num ≠ 0 →
      ready ha → ready hb → ready hc → (tile ha).fmt ≤ 4 → (tile hb).fmt = (tile ha).fmt → (tile hb).cols = (tile ha).cols → (tile hb).rows = 127 →
      (tile hc).fmt = 9 → (tile hc).cols = (tile hb).cols → (tile hc).rows = (tile hb).rows → ha ≠ hb → ha ≠ hc → hb ≠ hc →
      cr.live.getLsbD 0 = true → cr.members.head? = some m → s.fibre (t.key m) = some f →
      Performs i s g t (posted i (.vprune pat hi (ix ha) (ix hb) (ix hc) x y (f.seed.setWidth 32 ^^^ (f.seed >>> 32).setWidth 32)) [hb, hc] [ha] id) pass)) ∧
  (∀ (p : Part) (clk a b : Nat) (x y : PlaneStep),
    let done (v : Option Nat × Option Nat) (x : PlaneStep) : Option Nat × Option Nat := match x with
      | .load fmt => (v.1, some fmt)
      | .swap => (v.2, v.1)
    let planes (p : Part) : Option Nat × Option Nat := (p.fmtA, p.fmtS)
    p.fmtClk ≠ clk → p.fmtsAt clk a = planes p ∧ planes (p.postStep clk a x) = done (planes p) x ∧ (p.postStep clk a x).acc = p.acc ∧
      (p.postStep clk a x).reqs = p.reqs ∧
      (a < b → planes ((p.postStep clk a x).postStep clk b y) = done (done (planes p) x) y ∧
        planes ((p.postStep clk b y).postStep clk a x) = done (done (planes p) x) y ∧
        (p.postStep clk b y).fmtsAt clk a = planes p ∧ (p.postStep clk a x).fmtsAt clk b = done (planes p) x)) ∧
  (∀ (s : State) (g : Gang) (t : Team) (gd : Guard) (q : Fin 8) (cr : Crew) (acc : Bool) (h : Fin 64) (pc : DWord) (i : Instr),
    let tl := (s.core t.core).tile (t.tblBase + h.val)
    Issuing s i g t pc → WholeCrew i s g t q cr →
    (∀ sw a (w : Word), i = .mma gd sw none h q acc a → ReadsInt a i s g t (fun _ => w) → h.val < t.tblCount → tl.st = .ready →
      let bad : Trap := { code := .formatMismatch, aux := h.val + 512 * tl.fmt + 8192 }
      (4 < tl.fmt → TrapsWhole i s g t fun _ => bad) ∧
      (tl.fmt ≤ 4 → ∀ pn w, t.part = some pn → let will := (s.part (t.core / 4) pn).fmtsAt s.clock (t.core % 4 * 8 + q.val)
        (if sw then will.2 else will.1) = some w → tl.fmt ≠ w → ¬ ((tl.fmt = 2 ∨ tl.fmt = 3) ∧ (w = 2 ∨ w = 3)) → TrapsWhole i s g t fun _ => bad)) ∧
    (i = .mlds gd h q → h.val < t.tblCount → tl.st = .ready → 4 < tl.fmt →
      TrapsWhole i s g t fun _ => { code := .formatMismatch, aux := h.val + 512 * tl.fmt + 8192 }) ∧
    (t.part = none → (i = .mlds gd h q ∧ h.val < t.tblCount ∧ tl.st = .ready ∧ tl.fmt ≤ 4 ∨ (∃ all k, i = .acclr gd all k q acc) ∨ i = .adinv gd q none) →
      TrapsWhole i s g t fun _ => { code := .engineFault, detail := 1 }))

/-! ## Results in s-registers (R84, R160) -/

/-- R84, R160: where loads, system values, wide immediates, status reads and collectives give every fibre of the gang the same result, an s-register destination takes
it, a 32-bit one extended to 64 bits by its tag. The register of an acsnap is outstanding until the count of its row is written (R325).
The model's choices in it: logs 14, 15, 22, 72. -/
def Obligations.SregDestinations : Prop :=
  ∀ (s : State) (g : Gang) (t : Team) (n : Fin 32), t.swClk ≠ s.clock →
    let ext (v : Word) (tag : Tag) : DWord := if tag = .i32 then v.signExtend 64 else v.setWidth 64
    let gives (i : Instr) (w : Wr) (v : DWord) : Prop := PerformsSreg i s g t s (fun _ f => { f := f.issuing, w := w }) n.val v
    (∀ (c : Ctl) (imm : DWord), let i : Instr := .movw c (.sreg (some n)) imm
      Begins i s g t → AllExecute i s g t → gives i (Wr.wide (.s n) imm .p64l .p64h) imm) ∧
    (∀ (gd : Guard) (ps : Fin 16) (lane : Nat) (f : Fibre), let i : Instr := .tstat gd (.s n) ps
      Solo i s g t lane f → Unbroken s t (f.pc + 8) →
      gives i { Wr.one (.s n) f.status .n32 with preds := [(ps.val, f.status.toNat % 16 == 0)] } (f.status.setWidth 64)) ∧
    (∀ (gd : Guard) (q : Fin 8), let i : Instr := .rdsys gd (.s n) 8 q
      Begins i s g t → AllExecute i s g t → gives i (Wr.one (.s n) (BitVec.ofNat 32 (t.core / 128)) .n32) (BitVec.ofNat 64 (t.core / 128 % 2 ^ 32))) ∧
    (∀ (c : Ctl) (tag : Tag) (h : Hint) (ad : Addr) (ea : DWord) (lane : Nat) (f : Fibre), let i : Instr := .ld c .b32 .x h tag (.s n) ad
      Solo i s g t lane f → effAddr (envOf s t lane f.fidx) f 4 ad = .ok ea → ea.toNat % 4 = 0 → ea.toNat + 4 ≤ t.scrSize →
      (s.core t.core).badAt (t.scrBase + ea.toNat) 4 = none → tag ≠ .t6x5 → Unbroken s t (f.pc + 8) →
      let v : Word := BitVec.ofNat 32 (leWord ((s.core t.core).bytes (t.scrBase + ea.toNat) 4))
      PerformsSreg i s g t s (fun _ f => { f := f.issuing, w := Wr.one (.s n) v tag, lat := some 10 }) n.val (ext v tag)) ∧
    (∀ (c : Ctl) (tag : Tag) (h : Hint) (ad : Addr) (va : DWord) (pa : Nat) (leaf : DWord) (bs : List Byte) (lat lane : Nat) (f : Fibre),
      let i : Instr := .ld c .b64 .g h tag (.s n) ad
      Solo i s g t lane f → f.txn = none → effAddr (envOf s t lane f.fidx) f 8 ad = .ok va → va.toNat % 8 = 0 →
      s.walkWaits t.core (s.teamLaunch t).ctx va = false → checkVa s t.core (s.teamLaunch t).ctx va { kind := 2, r := true } = .ok (pa, leaf) → loadWaits s t.core (lineOf pa) = false →
      loadLine s t.core pa 8 = (bs, none, lat) → Unbroken s t (f.pc + 8) →
      let note := (if h = .stream then 0 else 1) + if leafSealed leaf || leafContrib leaf then 2 else 0
      let v : DWord := BitVec.ofNat 64 (leWord bs)
      PerformsSreg i s g t (noteFill (noteMiss s t.core (s.teamLaunch t).ctx va) t.core (lineOf pa) note)
        (fun _ f => { f := f.issuing, w := Wr.wide (.s n) v .p64l .p64h, lat := some lat }) n.val v) ∧
    (∀ (gd : Guard) (q : Fin 8) (c : Crew) (a : Src) (x : Nat → Word) (op : RedOp) (ty : Sgn), let i : Instr := .credi gd op ty (.s n) a q
      Begins i s g t → WholeCrew i s g t q c → ReadsInt a i s g t x →
      let v := crewFold x op ty (liveOf c)
      gives i (Wr.one (.s n) v (signTag ty)) (ext v (signTag ty))) ∧
    (∀ (gd : Guard) (q : Fin 8) (c : Crew) (a b : Src) (x : Nat → Opd) (u : Word) (k : Nat), let i : Instr := .cbcast gd (.s n) a b q
      Begins i s g t → WholeCrew i s g t q c → ReadsAny a i s g t x → ReadsInt b i s g t (fun _ => u) →
      (liveOf c).find? (fun k => rankAt c k == u.toNat) = some k →
      gives i (Wr.one (.s n) (x k).val (x k).tag) (ext (x k).val (x k).tag)) ∧
    (∀ (gd : Guard) (q : Fin 8) (c : Crew) (ps : Fin 16) (p : Nat → Bool), let i : Instr := .vote gd (.ballot (.s n)) ps q
      Begins i s g t → WholeCrew i s g t q c → (∀ lane f, Member s g t lane f → predBit f.preds ps.val = p f.fidx) →
      let v : Word := BitVec.ofNat 32 ((liveOf c).map fun k => if p k then 2 ^ rankAt c k else 0).sum
      gives i (Wr.one (.s n) v .n32) (v.setWidth 64)) ∧
    (∀ (gd : Guard) (q : Fin 8) (c : Crew) (m : ShflMode) (a b : Src) (o : Opd) (u : Nat → Word), let i : Instr := .shfl gd m (.s n) a b q
      Begins i s g t → WholeCrew i s g t q c → Reads (fun e f => (readSrc e f a).map fun r => (r.val, r.tag)) i s g t (fun _ => (o.val, o.tag)) →
      ReadsInt b i s g t u → gives i (Wr.one (.s n) o.val o.tag) (ext o.val o.tag)) ∧
    (∀ (gd : Guard) (q : Fin 8) (c : Crew) (a : Src) (x : Nat → Word) (op : FRedOp), let i : Instr := .credf gd op (.s n) a q
      Begins i s g t → WholeCrew i s g t q c → ReadsTag .f32 a i s g t x →
      let v : Word := BitVec.ofNat 32 (match op with
        | .sum m => crewSum x m (liveOf c) | .min => crewBest x xrMin (liveOf c) | .max => crewBest x xrMax (liveOf c))
      gives i (Wr.one (.s n) v .f32) (v.setWidth 64)) ∧
    (∀ (gd : Guard) (q : Fin 8) (c : Crew) (a : Src) (x : Nat → Word) (op : ScanOp) (excl : Bool) (ty : ScanTy) (v : Nat),
      let i : Instr := .cscan gd op excl ty (.s n) a q
      let tag : Tag := match ty with | .s => .i32 | .n => .n32 | .f => .f32
      Begins i s g t → WholeCrew i s g t q c → (if ty = .f then ReadsTag .f32 a i s g t x else ReadsInt a i s g t x) →
      (∀ k ∈ liveOf c, crewScan x op ty ((liveOf c).filter fun j => rankAt c j < rankAt c k || (!excl && rankAt c j == rankAt c k)) = v) →
      gives i (Wr.one (.s n) (BitVec.ofNat 32 v) tag) (ext (BitVec.ofNat 32 v) tag)) ∧
    (∀ (gd : Guard) (h : Fin 64), let i : Instr := .tinfo gd h (.s n)
      let tl := (s.core t.core).tile (t.tblBase + h.val)
      let v : DWord := BitVec.ofNat 64 (tl.owner * 2 ^ 42 + tl.off * 2 ^ 29 + tl.cols * 2 ^ 22 + tl.rows * 2 ^ 15 + tl.fmt * 2 ^ 11 + 2)
      Begins i s g t → AllExecute i s g t → h.val < t.tblCount → tl.st = .ready → gives i (Wr.wide (.s n) v .n32 .n32) v) ∧
    (∀ (gd : Guard) (q : Fin 8) (c : Crew) (h : Fin 64) (acc : Bool) (a : Src) (row : Word) (pn : Nat), let i : Instr := .acsnap gd h q acc (.s n) a
      let tl := (s.core t.core).tile (t.tblBase + h.val)
      Begins i s g t → WholeCrew i s g t q c → ReadsInt a i s g t (fun _ => row) → h.val < t.tblCount → tl.st = .ready → tl.fmt = 7 → tl.cols = 127 →
      row.toNat % 128 ≤ tl.rows → t.part = some pn → (s.part (t.core / 4) pn).reqs.length < 8 → drainHeld s t.core = false →
      ∃ (s' : State) (t' : Team) (s1 : State), exec i s = .next s' ∧
        t' = { t with swClk := s.clock, swlog := t'.swlog, sAvail := put n.val (s.clock + 2 ^ 40) t.sAvail } ∧
        Passed (s1.setTeam t.id t') s' g t' (Fibre.goes i s t fun _ f => { f := f.issuing }) ∧ s1.mem = (drainAll s t.core).mem ∧
        ∃ r ∈ (s1.part (t.core / 4) pn).reqs, r.kind = .snap (t.tblBase + h.val) acc (row.toNat % 128) [] (some n.val))

/-! ## Steps of a core (R147 to R157, R168, R178, R194, R209, R236 to R242, R307) -/

/-- An event that a free draw may put off (log 3) answers a next state: that of the draw alone where it is put off, else one of which P holds. -/
def drawn (s : State) (e : Instr) (P : State → Prop) : Prop :=
  ∃ s', exec e s = .next s' ∧ if Config.stall s.free then s' = { s with free := s.free + 1 } else P s'

/-- R4, R147 to R154: a gang whose access has not been served is tried again in each clock before its slot selects; else a slot selects a ready gang of its highest
class: under a greedy launch the gang it issued last, unless that yielded, else the oldest; under round-robin the next of that class after the place of the gang it issued
last; a slot without a ready gang selects nothing; the watchdog halts the team that issued while another gang waited; a window comes at every fourth clock of the core's
count, and forms a gang of a loose fibre.
The model's choices in it: logs 75, 103, 106. -/
def Obligations.SlotSteps : Prop :=
  ∀ (s : State) (core slot : Nat),
    let ours (g : Gang) : Prop := g ∈ s.gangs ∧ g.core = core ∧ g.slot = slot
    let served (g : Gang) : Prop := ∃ p, g.pend = some p ∧ p.2 < s.clock
    let order := s.gangs.filter fun h => h.core == core && h.slot == slot
    let best (h : Gang) : Bool := readyGang s h && order.all fun x => !readyGang s x || decide (gangClass s h ≤ gangClass s x)
    let last := look slot (s.core core).last
    let rrOf (team : Nat) : Option Bool := (s.team team).map fun t => (s.teamLaunch t).rr
    let rr : Bool := match last.bind fun l => rrOf l.team with
      | some b => b
      | none => ((order.find? (readyGang s)).bind fun h => rrOf h.team).getD false
    let due : Option Gang := match last with
      | none => order.find? best
      | some l =>
        let after := match order.findIdx? (·.gid == l.gid) with | some n => n + 1 | none => l.place
        if rr then (order.drop after ++ order.take after).find? best
        else if l.yielded then order.find? best
        else (order.find? fun h => best h && h.gid == l.gid).or (order.find? best)
    ((∃ g, ours g ∧ served g) → ∃ g s', exec (.issueSelect core slot) s = .next s' ∧ ours g ∧ served g ∧ s'.issue = some g.gid ∧
      s'.agenda = .issueSelect core slot :: s.agenda ∧ s'.fibres = s.fibres ∧ s'.mem = s.mem) ∧
    ((∀ g, ours g → ¬served g) → (s.gangs.map (·.gid)).Nodup → (∀ g, ours g → gangClass s g ≤ 4) → (∃ g, ours g ∧ readyGang s g = true) →
      ∃ g s', exec (.issueSelect core slot) s = .next s' ∧ s'.issue = some g.gid ∧ due = some g ∧ ours g ∧ readyGang s g = true ∧
        (∀ h, ours h → readyGang s h = true → gangClass s g ≤ gangClass s h) ∧
        (∀ l t h, look slot (s.core core).last = some l → l.yielded = false → s.team l.team = some t → (s.teamLaunch t).rr = false → ours h →
          readyGang s h = true → h.gid = l.gid → (∀ x, ours x → readyGang s x = true → gangClass s h ≤ gangClass s x) → g = h) ∧
        s'.fibres = s.fibres ∧ s'.teams = s.teams ∧ s'.mem = s.mem) ∧
    ((∀ g, ours g → ¬served g) → (∀ g, ours g → readyGang s g = false) → ∃ s', exec (.issueSelect core slot) s = .next s' ∧ s'.issue = s.issue ∧ s'.fibres = s.fibres) ∧
    (∀ (g : Gang) (l : LastIssue) (t : Team), ours g → 2 ^ 22 ≤ g.waited → look slot (s.core core).last = some l → s.team l.team = some t →
      t.id = l.team → t.asyncTrap = none →
      ∃ s', exec (.slotWatchdog core slot) s = .next s' ∧
        s'.team t.id = some { t with asyncTrap := some { code := .slotWatchdog, aux := slot }, halt := some (t.halt.getD { clk := s.clock }) } ∧
        s'.fibres = s.fibres) ∧
    ((s.clock - s.epoch) % 4 ≠ 0 → exec (.colanderWindow core slot) s = .next s) ∧
    (∀ (t : Team) (f : Fibre) (clk rank : Nat), (s.clock - s.epoch) % 4 = 0 → s.gangs = [] → s.teams = [(t.id, t)] → t.core = core → t.halt = none → t.pendEv = [] →
      t.held s = false → s.fibres = [(f.key, f)] → f.team = t.id → f.fidx < 1024 → f.fidx % 4 = slot → f.st = .loose clk rank →
      ∃ s', exec (.colanderWindow core slot) s = .next s' ∧ s'.fibres = [(f.key, { f with st := .ganged })] ∧
        s'.gangs = [{ gid := s.nextId, core := core, slot := slot, team := t.id, members := [(0, f.fidx)], formed := s.clock }])

/-- R157, R168, R178, R194, R307, R317: the evaluation of a clock completes a mask whose expected members have arrived and lets a waiting member go on with a true
predicate, or ends its wait at its deadline with a false one and status TIMEOUT; the allotment unit grants a request that its pool covers, and fails the requests of a
pool on which every team waits; a free pool that has grown changes the version of the allotment cell; a granted request's copy, or its deadline, lets the team go on; a tile that talloc zeroes becomes READY; a sieveget's next bytes are written,
and after the last it ends.
The model's choices in it: logs 3, 29, 61. -/
def Obligations.CoreSteps : Prop :=
  ∀ (s : State) (core : Nat) (t : Team) (f : Fibre), t.core = core → s.team t.id = some t → f.team = t.id → s.fibre f.key = some f → f.fidx < 1024 →
    let alone : Prop := s.teamFibres t.id = [f]
    (∀ (q k : Nat) (c : Crew) (m : KMask) (pd : Option (Fin 16)) (deadline : Option Nat) (issued : Nat), alone → coreTeams s core = [t] →
      t.crews = [(q, c)] → t.kept = none → f.st = .joining q k pd m.phase deadline issued → issued ≠ s.clock → c.masks[k]? = some m →
      Unbroken s t (f.pc + 8) →
      let crewOf (s' : State) (m' : KMask) : Prop := ∃ c', s'.team t.id = some { t with crews := [(q, c')] } ∧ c'.masks[k]? = some m' ∧
        c'.live = c.live ∧ c'.members = c.members
      (m.expected &&& ~~~m.arrived = 0 → ∃ s', exec (.crewEvaluate core) s = .next s' ∧ s'.fibre f.key = some (wentOn f pd true 0 s.clock) ∧
        crewOf s' { expected := c.live, arrived := 0, phase := m.phase + 1 }) ∧
      (∀ d r, m.expected &&& ~~~m.arrived ≠ 0 → deadline = some d → d ≤ s.clock → rankIn c f.fidx = some r →
        ∃ s', exec (.crewEvaluate core) s = .next s' ∧ s'.fibre f.key = some (wentOn f pd false 3 s.clock) ∧
          crewOf s' { m with arrived := m.arrived &&& ~~~(1#32 <<< r) })) ∧
    (∀ a : Allot, (s.core core).allot = [a] → a.team = t.id → (s.teamLaunch t).express = false →
      (a.bytes ≤ poolBytes s core false → rising s.teams = true → (∀ e ∈ s.teams, e.2.id = e.1) →
        ∃ s' base, exec (.allotmentStep core) s = .next s' ∧ (s'.core core).allot = [] ∧ s'.fibres = s.fibres ∧
          s'.team t.id = some { t with w := a.w, regBytes := t.n * a.w * 4, regBase := base, copying := true } ∧
          ∀ k x, k ≠ t.id → s.team k = some x → ∃ b, s'.team k = some { x with regBase := b }) ∧
      (∀ grow w sel dl pd pend clk, poolBytes s core false < a.bytes → coreTeams s core = [t] → alone → f.st = .budget grow w sel dl pd pend clk →
        Unbroken s t (f.pc + 8) → ∃ s', exec (.allotmentStep core) s = .next s' ∧ (s'.core core).allot = [] ∧
          s'.fibre f.key = some (wentOn f pd false 4 s.clock)) ∧
      (∀ grow w sel dl pd pend clk d, a.deadline = some d → d ≤ s.clock → alone → f.st = .budget grow w sel dl pd pend clk → Unbroken s t (f.pc + 8) →
        ∃ s', exec (.regrowDeadline t.id) s = .next s' ∧ (s'.core core).allot = [] ∧ s'.fibre f.key = some (wentOn f pd false 3 s.clock))) ∧
    ((s.core core).allot = [] →
      let c := s.core core
      let free := poolBytes s core false
      ∃ s', exec (.allotmentStep core) s = .next s' ∧ s' = { s with cores := s'.cores } ∧ (∀ k, k ≠ core → s'.core k = s.core k) ∧
        s'.core core = { c with poolWas := free, allotVer := c.allotVer + if c.poolWas < free then 1 else 0 }) ∧
    (∀ grow w sel dl pd pend clk, t.copying = true → alone → f.st = .budget grow w sel dl pd pend clk → Unbroken s t (f.pc + 8) →
      drawn s (.regrowCopyComplete t.id) fun s' => s'.team t.id = some { t with copying := false } ∧
        s'.fibre f.key = some (wentOn f pd true 0 s.clock)) ∧
    (∀ ix clk, ((s.core core).tile ix).zeroed = some clk → clk ≤ s.clock → ((s.core core).tile ix).st = .filling →
      exec (.tileZeroDone core ix) s = .next (s.setCore core ((s.core core).setTile ix { (s.core core).tile ix with st := .ready, zeroed := none }))) ∧
    (∀ b : SieveBusy, (s.core core).sieveBusy.filter (fun x => x.team == t.id) = [b] →
      let n := if b.clk ≤ s.clock then b.rest.length else min 32 b.rest.length
      let goesOn : SieveBusy := { b with at_ := b.at_ + 32, rest := b.rest.drop 32 }
      ∃ c', exec (.sievegetDone core t.id) s = .next (s.setCore core c') ∧ c' = { s.core core with sieveBusy := c'.sieveBusy, store := c'.store, scrPoison := c'.scrPoison } ∧
        (∀ a, c'.byte a = if b.at_ ≤ a ∧ a < b.at_ + n then b.rest.getD (a - b.at_) 0 else (s.core core).byte a) ∧
        ∀ x, x ∈ c'.sieveBusy ↔ x ∈ (s.core core).sieveBusy ∧ x.team ≠ t.id ∨ x = goesOn ∧ s.clock < b.clk)

/-- R209, R236, R239 to R242, R265: a watch is kept where its version still stands and the slice has room, with its watcher's die and module; in a full slice its watcher
goes to the bucket of the line, or, where that is full, wakes at once and is counted; it wakes at once where the version no longer stands; a wake runs a sleeping
transaction again from its origin, with its deadline kept, once its die has caught up with the wake's stamp; a deadline ends its sleep at Lfail with TIMEOUT; a cancelled watch is gone; the sealing unit applies its
oldest operation, changing bit 58 of every entry of the leaf.
The model's choices in it: logs 17, 38, 39, 40. -/
def Obligations.WakesWatchesAndSealing : Prop :=
  ∀ (s : State) (t : Team) (f : Fibre), s.team t.id = some t → f.team = t.id → s.fibre f.key = some f →
    (∀ (line ver : Nat),
      let s1 := coreAsk s t.core line
      let d := s1.die (dieOfLine line)
      let held := d.watches.filter fun w => s.ownLine w.line && sliceOf w.line == sliceOf line
      let b := bucketOf line
      let wake := wakeOf s1 line (.fibre f.key)
      ((s1.line line).ver ≠ ver → exec (.watch line ver (.fibre f.key)) s = .next { s1 with wakes := s1.wakes ++ [wake] }) ∧
      ((s1.line line).ver = ver → s.ownLine line = false ∨ held.length < 4096 →
        exec (.watch line ver (.fibre f.key)) s = .next (s1.setDie (dieOfLine line)
          { d with watches := d.watches ++ [{ line := line, ver := ver, who := .fibre f.key, die := t.core / 128, mod := s.hub.modid }] })) ∧
      ((s1.line line).ver = ver → s.ownLine line = true → 4096 ≤ held.length →
        ((getD [] b d.buckets).length < 16 → exec (.watch line ver (.fibre f.key)) s = .next (s1.setDie (dieOfLine line)
          { d with buckets := put b (getD [] b d.buckets ++ [.fibre f.key]) d.buckets, bucketed := (d.bucketed + 1) % 65536 })) ∧
        (16 ≤ (getD [] b d.buckets).length → ∃ s', exec (.watch line ver (.fibre f.key)) s = .next s' ∧
          s'.wakes = s1.wakes ++ [wake] ∧ s'.die (dieOfLine line) = { d with refused := (d.refused + 1) % 65536 }))) ∧
    (∃ s', exec (.watchCancel (.fibre f.key)) s = .next s' ∧ s' = { s with dies := s'.dies } ∧
      ∀ d w, w ∈ (s'.die d).watches → w.who ≠ .fibre f.key) ∧
    (∀ (o lfail : DWord) (dl : Option Nat) (depth n : Nat), f.st = .sleeping o lfail dl depth n →
      (∀ w, s.wakes.find? (fun x => x.who == .fibre f.key) = some w → Unbroken s t o →
        ∃ s', exec (.wake f.key) s = .next s' ∧ s'.wakes = s.wakes.erase w ∧
          s'.fibre f.key = some (looseAt { f with restart := ⟨o, dl⟩ :: f.restart } o s.clock) ∧ s'.agenda = s.agenda ++ [.watchCancel (.fibre f.key)] ∧
          (w.stamp ≠ [] → w.die ≠ t.core / 128 → ∀ k, k < 8 → k ≠ t.core / 128 →
            (s'.die (t.core / 128)).clockOf k = vcMax ((s.die (t.core / 128)).clockOf k) (w.stamp.getD k 0))) ∧
      (∀ d, dl = some d → d ≤ s.clock → Unbroken s t lfail → ∃ s', exec (.txnDeadline f.key) s = .next s' ∧
        s'.fibre f.key = some (looseAt { f with status := BitVec.ofNat 32 (3 + 2 ^ 4 * depth + 2 ^ 8 * n) } lfail s.clock) ∧
        s'.agenda = s.agenda ++ [.watchCancel (.fibre f.key)])) ∧
    (∀ (o : SealOp) (rest : List SealOp) (va ea bits : Nat) (leaf : DWord), s.sealQ = o :: rest → sealLeaves s o = [(va, leaf, ea, bits)] →
      sealWaits s (sealLeaves s o) = false → (∀ c, (s.core c).wcb = []) → ea % 8 = 0 → (∀ x ∈ leafEntries leaf ea, s.outcast (lineOf x) = false) →
      let mark (x : DWord) : DWord := if o.isSeal then x ||| (1#64 <<< 58) else x &&& ~~~(1#64 <<< 58)
      ∃ s', exec .sealingUnitApply s = .next s' ∧ s'.sealQ = rest ∧
        ∀ x ∈ leafEntries leaf ea, BitVec.ofNat 64 (s'.dword x) = mark (BitVec.ofNat 64 (s.dword x))) ∧
    (s.sealQ = [] → exec .sealingUnitApply s = .next s)

/-! ## Clusters, halts, faults and debug control (R141 to R143, R293, R342 to R344, R350, R353 to R356, R408) -/

/-- R141 to R143, R198, R408: the next cluster of a launch starts with all fibres of its team at the entry point, in a clean place, its arguments in the s-registers; a
team whose fibres and engine operations are done leaves the machine, counted by its launch; the report of a retired cluster advances the launch's count over the
positions that follow it. Admission is stated for a cluster of one team.
The model's choices in it: logs 2, 61. -/
def Obligations.ClusterLifetimes : Prop :=
  ∀ (s : State) (l : Launch), s.launch l.id = some l →
    (∀ (core p : Nat) (x : Launch) (r : Room), nextCluster s (core / 128) l.express = some (x, p) → x.id = l.id → core < 1024 → l.clusterSize = 1 →
      l.pool = false → l.isMatrix = false → roomOn s core l = some r →
      let t : Team := { id := s.nextId, core := core, slot := r.slot, launch := l.id, cluster := clusterAt l p, index := 0, pos := p, n := l.n, w := l.w,
                        regBytes := l.n * l.w * 4, regBase := r.reg, scrBase := r.scr, scrSize := l.scratch, tileBase := r.tile, tileSize := l.tileBytes, tblBase := r.tbl,
                        tblCount := l.tiles, sregs := l.args }
      let fibreAt (i : Nat) : Fibre := { fidx := i, team := t.id, pc := l.entry, runPc := l.entry, fs := l.regs,
                                         seed := l.seed + BitVec.ofNat 64 (clusterAt l p * l.n + i), st := .loose s.clock 0, fresh := true }
      ∃ s', exec (.clusterAdmit l.id [core]) s = .next s' ∧ s'.team s.nextId = some t ∧
        (∀ i, i < l.n → s'.fibre (t.key i) = some (fibreAt i)) ∧
        (∀ a, r.scr ≤ a → a < r.scr + l.scratch → (s'.core core).byte a = 0) ∧
        (∃ ds, s'.launch l.id = some { l with admitted := l.admitted ++ [p], dies := ds } ∧ core / 128 ∈ ds) ∧
        ((s.ctx l.ctx).st = .idle → (s'.ctx l.ctx).st = .running)) ∧
    (∀ (t : Team), s.team t.id = some t → t.launch = l.id → mayRetire s t = true →
      ∃ s', exec (.teamRetire t.id) s = .next s' ∧ s'.team t.id = none ∧ (s'.core t.core).wcb = [] ∧
        s'.launch l.id = some { l with retired := l.retired + 1, held := l.held - t.recs.length } ∧
        (l.pool = false → .clusterRetireReport l.id t.pos ∈ s'.agenda) ∧
        ((∀ e ∈ s.teams, e.1 ≠ t.id → (s.teamLaunch e.2).ctx ≠ l.ctx) → (s.ctx l.ctx).st = .running → (s'.ctx l.ctx).st = .idle)) ∧
    (∀ (pos : Nat), l.pool = false → pos ∈ l.admitted → pos ∉ l.bits → l.recorded ≤ pos →
      (∀ e ∈ s.teams, ¬(e.2.launch = l.id ∧ e.2.pos = pos)) →
      ∃ l', exec (.clusterRetireReport l.id pos) s = .next (s.setLaunch l.id l') ∧ l' = { l with recorded := l'.recorded, bits := l'.bits } ∧
        l.recorded ≤ l'.recorded ∧ (∀ p, l.recorded ≤ p → p < l'.recorded → p = pos ∨ p ∈ l.bits) ∧ l'.recorded ≠ pos ∧ l'.recorded ∉ l.bits ∧
        ∀ p, p ∈ l'.bits ↔ (p = pos ∨ p ∈ l.bits) ∧ ¬(l.recorded ≤ p ∧ p < l'.recorded))

/-- R340, R342 to R344, R350, R356: a trap's halt numbers the event and holds the team from the clock of the trap; a record of each of its gangs is taken once every gang
has stopped; a fault that no handler takes is reported with the frame of its fibre, a nested one as NESTED_FAULT, and its running context is faulted; an engine's fault halts the team; the debugger stops a team, lets a stopped one go on at its
resume address, and one that a reported breakpoint holds at its RPC unless another trap still holds it, and sets the fibre-stop slots.
The model's choices in it: log 46. -/
def Obligations.HaltsAndDebug : Prop :=
  ∀ (s : State) (t : Team), s.team t.id = some t →
    (∀ (e : TrapEvent) (f : Fibre) (r : TrapRec), t.halt = none → t.pendEv = [e] → e.num = none → e.clk < s.clock → e.fibres = [f.fidx] → f.team = t.id →
      s.fibre f.key = some f → f.trap = some r →
      let n := (t.events + 1) % 65536
      ∃ s', exec (.halt t.id) s = .next s' ∧
        s'.team t.id = some { t with pendEv := [{ e with num := some n }], events := n, halt := some { clk := e.clk } } ∧
        (∀ g ∈ s'.gangs, g.team = t.id → g.skid = 0) ∧ s'.fibre f.key = some { f with trap := some { r with event := n } }) ∧
    (∀ (h : Halt), t.halt = some h → h.recorded = false → h.clk + 2 ≤ s.clock → gangsStopped s t = true → t.frozen s = false →
      let recOf (g : Gang) : HaltRec := { pc := (gangPc s g).getD 0, slot := g.slot, skid := g.skid, fidx0 := (g.members.map (·.2)).foldl min 1023,
                                          count := g.members.length, kind := if g.remainder then 1 else 0 }
      ∃ s', exec (.haltRecords t.id) s = .next s' ∧
        s'.team t.id = some { t with halt := some { h with recorded := true }, haltRecs := (s.gangs.filter fun g => g.team == t.id).map recOf } ∧
        ∀ g ∈ s'.gangs, g.team = t.id → g.skid = 0 ∧ g.remainder = false) ∧
    (∀ (h : Halt) (x : Report), t.halt = some h → h.recorded = true → t.report = none → t.frozen s = false →
      ((∃ a, t.asyncTrap = some a ∧ x = { code := a.code, detail := a.detail, event := none }) ∨
       (∃ e f r, t.asyncTrap = none ∧ t.pendEv = [e] ∧ t.kept = none ∧ r.shim = none ∧ (s.teamLaunch t).h = 0 ∧ e.fibres = [f.fidx] ∧ f.team = t.id ∧
         s.fibre f.key = some f ∧ f.hand = .none ∧ f.trap = some r ∧
         x = { code := r.trap.code, detail := r.trap.detail, faddr := r.trap.faddr, event := some e, frames := [frameWords f r false] }) ∨
       (∃ e f r, t.asyncTrap = none ∧ t.pendEv = [e] ∧ e.fibres = [f.fidx] ∧ f.team = t.id ∧ s.fibre f.key = some f ∧ f.hand ≠ .none ∧ f.trap = some r ∧
         x = { code := .nestedFault, detail := r.trap.code.num, faddr := r.trap.faddr, event := some e,
               frames := [frameWords f { r with trap := { code := .nestedFault, faddr := r.trap.faddr, detail := r.trap.code.num } } false] })) →
      ∃ s', exec (.nestedFault t.id) s = .next s' ∧ s'.team t.id = some { t with report := some x } ∧
        (s'.ctx (s.teamLaunch t).ctx).reason = x.code.num ∧
        ((s.ctx (s.teamLaunch t).ctx).st = .running → (s'.ctx (s.teamLaunch t).ctx).st = .faulted)) ∧
    (∀ (cause : Nat), t.halt = none → t.asyncTrap = none →
      ∃ s', exec (.asyncEngineFault t.id cause) s = .next s' ∧
        s'.team t.id = some { t with asyncTrap := some { code := .engineFault, detail := cause }, halt := some { clk := s.clock } }) ∧
    (∀ (slots : BitVec 16), coreTeams s t.core = [t] → slots.getLsbD t.slot = true →
      (∀ (f : Fibre) (h : Halt), s.teamFibres t.id = [f] → f.st = .stopped → t.report = none → t.halt = some h → h.debug = true → t.pendEv = [] →
        t.asyncTrap = none →
        ∃ s', exec (.dbgRelease t.core slots) s = .next s' ∧ s'.team t.id = some { t with halt := none } ∧
          s'.fibre f.key = some { f with st := .loose s.clock 0, trap := none, runPc := f.pc, runPos := 0, skipBrk := some f.pc }) ∧
      (∀ (f : Fibre) (h : Halt) (x : Report) (e : TrapEvent) (r : TrapRec), s.teamFibres t.id = [f] → f.team = t.id → s.fibre f.key = some f →
        f.st = .trapped → f.trap = some r → t.halt = some h → t.report = some x → x.code = .breakpoint → x.event = some e → t.pendEv = [e] → e.fibres = [f.fidx] →
        ∃ s', exec (.dbgRelease t.core slots) s = .next s' ∧
          s'.team t.id = some { t with report := none, pendEv := [], halt := if t.asyncTrap.isSome then some { h with debug := false } else none } ∧
          s'.fibre f.key = some { f with st := .loose s.clock 0, trap := none, pc := r.rpc, runPc := r.rpc, runPos := 0, skipBrk := some r.rpc }) ∧
      (t.halt = none → ∃ s', exec (.dbgHaltreq t.core slots) s = .next s' ∧
        s'.team t.id = some { t with events := (t.events + 1) % 65536, halt := some { clk := s.clock, debug := true } })) ∧
    (∀ (slots : BitVec 16), exec (.dbgFstop t.core slots) s = .next (s.setCore t.core { s.core t.core with fstop := slots }))

/-! ## Homes, buffers, caches, links and translation (R195 to R207, R217 to R222, R232, R239 to R244, R257, R398 to R404) -/

/-- R197 to R199, R203, R232, R244: a claim is recorded at its home, or its entry drains; an entry drains 64 clocks after its last merge, and when its home recalls it, and
its bytes are then in memory, unless the home's module has left the membership, where they are discarded; a write and an atomic of another agent act on the line's bytes at its home, the atomic after the line's claimed entries have drained; a
foreign commit's reservation stands on the line until its bytes are written and it is given back; an arrival adds one to a barrier cell, and the last one expected
starts its next phase; the arriving fibre's destination, a window entry or an s-register, receives the phase.
The model's choices in it: logs 2, 67. -/
def Obligations.HomeSteps : Prop :=
  ∀ (s : State),
    (∀ (core line : Nat) (e : Wcb), (s.core core).entry line = some e →
      let sent := (s.core core).wcb.filter fun x => !x.claimed && sameSlice x.line line
      let merged (s' : State) : Prop := ∀ a, s'.byte a = if a / 128 = line ∧ e.mask.getLsbD (a % 128) = true then byteOf e.data (a % 128) else s.byte a
      (sent = [e] → claimRoom s line = true → ∃ s', exec (.claim core line) s = .next s' ∧ s'.mem = s.mem ∧
        (s'.core core).entry line = some { e with claimed := true } ∧
        getD [] line (s'.die (dieOfLine line)).claims = getD [] line (s.die (dieOfLine line)).claims ++ [core]) ∧
      (s.blocked line = false → s.outcast line = false →
        (sent = [e] → claimRoom s line = false → ∃ s', exec (.claim core line) s = .next s' ∧ (s'.core core).entry line = none ∧ merged s') ∧
        (e.merged + 64 ≤ s.clock → exec (.wcbDrainTimeout core line) s = .next (drainLine s core line)) ∧
        (e.recalled = true → exec (.wcbDrain core line) s = .next (drainLine s core line))) ∧
      ((drainLine s core line).core core).entry line = none ∧ (sent = [] ∨ sent = [e] → s.outcast line = false → merged (drainLine s core line)) ∧
      (sent = [] ∨ sent = [e] → s.outcast line = true → (drainLine s core line).mem = s.mem)) ∧
    (∀ (host : Bool) (off pa : Nat) (bs : List Byte), bs ≠ [] → pa % 128 + bs.length ≤ 128 → isMemory pa = true → s.reserved (lineOf pa) = false →
      (host = false ∧ off = pa ∨ host = true ∧ (∀ at' bs', .homeWrite true at' bs' ∉ s.postponed) ∧ s.hub.hostEn = true ∧ farLine (lineOf s.hub.hostwin) = true ∧ isMemory s.hub.hostwin = true ∧
        off < 2 ^ 30 ∧ pa = s.hub.hostwin + off) →
      ∃ s', exec (.homeWrite host off bs) s = .next s' ∧
        ∀ a, s'.byte a = if pa ≤ a ∧ a < pa + bs.length then bs.getD (a - pa) 0 else s.byte a) ∧
    (∀ (op : AOp) (pa len : Nat) (x : DWord), len = 4 ∨ len = 8 → pa % len = 0 → isMemory pa = true → s.reserved (lineOf pa) = false →
      let cs := (getD [] (lineOf pa) (s.die (dieOfLine (lineOf pa))).claims).filter fun c => ((s.core c).entry (lineOf pa)).isSome
      (cs = [] → badGranule (s.line (lineOf pa)).poison (pa % 128) len = none → ∃ s', exec (.farAtomic op pa len x) s = .next s' ∧
        leWord (s'.bytes pa len) = atomOp op len (leWord (s.bytes pa len)) (x.toNat % 2 ^ (8 * len)) ∧
        ∀ a, a < pa ∨ pa + len ≤ a → s'.byte a = s.byte a) ∧
      (cs ≠ [] → ∃ s', exec (.farAtomic op pa len x) s = .next s' ∧ s'.mem = s.mem ∧
        s'.agenda = cs.map (Instr.wcbDrain · (lineOf pa)) ++ [.farAtomic op pa len x] ++ s.agenda ∧
        ∀ c ∈ cs, ∀ e, (s'.core c).entry (lineOf pa) = some e → e.recalled = true)) ∧
    (∀ (line m : Nat) (mask : BitVec 128) (data : BitVec 1024),
      ((s.line line).resv.isSome = true → s.asleep line = false → ∃ s', exec (.commitReserve line (.write mask data)) s = .next s' ∧
        (s'.line line).resv = none ∧
        ∀ a, s'.byte a = if a / 128 = line ∧ mask.getLsbD (a % 128) = true then byteOf data (a % 128) else s.byte a) ∧
      (s.reserved line = false → isMemory (line * 128) = true → m ≠ s.hub.modid → getD [] line (s.die (dieOfLine line)).claims = [] →
        exec (.commitReserve line (.take m)) s = .next (s.setLine line { s.line line with resv := some m }))) ∧
    (∀ (pa : Nat), pa % 128 = 0 → s.reserved (lineOf pa) = false → getD [] (lineOf pa) (s.die (dieOfLine (lineOf pa))).claims = [] →
      (s.line (lineOf pa)).poison.getLsbD 0 = false →
      let word (s : State) (i : Nat) : Nat := leWord (s.bytes (pa + 4 * i) 4)
      let arrived (s' : State) : Prop := word s' 0 = word s 0 ∧
        (word s 0 ≤ word s 1 + 1 → word s' 1 = 0 ∧ word s' 2 = (word s 2 + 1) % 2 ^ 32) ∧
        (word s 1 + 1 < word s 0 → word s' 1 = word s 1 + 1 ∧ word s' 2 = word s 2)
      (isMemory pa = true → ∃ s', exec (.barArrival (some (pa, 1))) s = .next s' ∧ arrived s') ∧
      (∀ (m : BarMsg) (a : Arrival) (n : Fin 256) (f : Fibre), s.bars = [m] → m.pa = pa → m.arrivals = [a] → a.dst = .v n →
        s.fibre a.before.key = some f → s.clock + 2 ^ 39 ≤ getD 0 (a.before.fb + n.val) f.avail →
        ∃ s' f', exec (.barArrival none) s = .next s' ∧ s'.bars = [] ∧ arrived s' ∧ s'.fibre f.key = some f' ∧
          getD Reg.zero (a.before.fb + n.val) f'.regs = ⟨BitVec.ofNat 32 (word s 2), .n32⟩) ∧
      (∀ (m : BarMsg) (a : Arrival) (n : Fin 32) (t : Team), s.bars = [m] → m.pa = pa → m.arrivals = [a] → a.dst = .s n → s.team a.before.team = some t →
        t.swClk ≠ s.clock →
        ∃ s' t', exec (.barArrival none) s = .next s' ∧ s'.bars = [] ∧ arrived s' ∧ s'.team a.before.team = some t' ∧
          getD 0 n.val t'.sregs = BitVec.ofNat 64 (word s 2) ∧ ∀ k, k ≠ n.val → getD 0 k t'.sregs = getD 0 k t.sregs))

/-- R195, R196, R200, R217, R219, R222, R257, R401 to R403, R409: a line comes into the L1 of its core, a far one into its L2 slice, and one of another home into the RDC of
the die, which the home then knows; a push brings a copy to the next version; an acknowledgement of one of a core's writes comes; copies end after 4,096 clocks, an RDC's remote ones as well; a message is delivered once its
stamp is covered; a gather adds the cell's replicas, in this module at one instant and then the other modules' answers, and a poisoned one raises POISON at the ldsum.

R205 to R207: a walk that ends fills the translation of its page into the TLBs of its die and of the cores that wait, and lets its miss go; a write of the invalidation register sets its
operation going, unless one is in progress; when it is done, no entry that it names is left.
The model's choices in it: logs 3, 13, 63, 81, 99. -/
def Obligations.CopiesMessagesTranslation : Prop :=
  (∀ (s : State),
     (∀ (core line note : Nat), look line (s.core core).fills = some note → s.asleep line = false → look line (s.die (core / 128)).rdc = none →
       let copy : Copy := { img := s.image line, poison := (s.line line).poison, ver := (s.line line).ver, filled := s.clock, exempt := note / 2 % 2 == 1 }
       drawn s (.loadResponse core line) fun s' => look line (s'.core core).fills = none ∧ s'.mem = s.mem ∧
         (s.ownLine line = true → dieOfLine line = core / 128 → note % 2 = 1 → (s.core core).ubL1 < 256 → (s.core core).entry line = none →
           look line (s'.core core).l1 = some copy) ∧
         (s.ownLine line = true → farLine line = true → line ∈ (s'.die (dieOfLine line)).l2) ∧
         (s.ownLine line = false ∨ dieOfLine line ≠ core / 128 → look line (s'.die (core / 128)).rdc = some copy ∧
           (s.ownLine line = true → note / 2 % 2 = 0 → core / 128 ∈ getD [] line (s'.die (dieOfLine line)).sharers))) ∧
     (∀ (die line ver : Nat) (mask : BitVec 128) (data : BitVec 1024) (poison : BitVec 4) (c : Copy),
       (look line (s.die die).rdc = some c → ver = (c.ver + 1) % 2 ^ 24 →
         let own := c.own &&& ~~~(coveredGranules mask)
         let c' : Copy := { c with img := imgMerge c.img mask data, poison := poison ||| own, own := own, ver := ver }
         exec (.rdcPush die line ver mask data poison) s = .next (s.setDie die { s.die die with rdc := put line c' (s.die die).rdc })) ∧
       (look line (s.die die).rdc = none → exec (.rdcPush die line ver mask data poison) s = .next s ∧
         ∃ s', exec (.rdcDropNotice die line) s = .next s' ∧ die ∉ getD [] line (s'.die (dieOfLine line)).sharers) ∧
       (look line (s.die die).rdc = some c → s.ownLine line = false → c.filled + 4096 ≤ s.clock →
         exec (.rdcRemoteExpiry die line) s = .next (s.setDie die { s.die die with rdc := del line (s.die die).rdc }))) ∧
     (∀ (core line : Nat) (c : Copy), look line (s.core core).l1 = some c → c.filled + 4096 ≤ s.clock →
       exec (.l1CopyExpiry core line) s = .next (s.setCore core { s.core core with l1 := del line (s.core core).l1 })) ∧
     (∀ (core : Nat), drawn s (.writeAcknowledge core) fun s' => ∃ n, ((s.core core).acks ≠ [] → n < (s.core core).acks.length) ∧
       s' = ({ s with free := s.free + 2 } : State).setCore core { s.core core with acks := (s.core core).acks.eraseIdx n }) ∧
     (∀ (die src : Nat) (m : Msg) (rest : List Msg), (s.die die).inbox = m :: rest → m.src = src →
       (∀ k, k < 8 → k ≠ src → vcGe ((s.die die).clockOf k) (m.stamp.getD k 0) = true) →
       drawn s (.messageDeliver die src) fun s' =>
         s'.agenda = m.pushes.map (fun p => .rdcPush die p.line p.ver p.mask p.data p.poison) ++ s.agenda ∧ (s'.die die).inbox = rest ∧
         ∀ k, k < 8 → (s'.die die).clockOf k = vcMax ((s.die die).clockOf k) (m.stamp.getD k 0)) ∧
     (∀ (g : Gather) (f : Fibre) (n : Fin 256), s.gathers = [g] → g.kind = .int → g.d = some n → g.c = false → s.fibre g.fibre = some f →
       s.clock + 2 ^ 39 ≤ getD 0 (g.before.fb + n.val) f.avail →
       let here := ((List.range 8).map fun d => leWord (s.bytes (replicaOf s g.pa d) 4)).sum
       let receives (s' : State) (v : Word) : Prop := s'.gathers = [] ∧ ∃ f', s'.fibre g.fibre = some f' ∧
         getD Reg.zero (g.before.fb + n.val) f'.regs = ⟨v, .i32⟩
       (g.await = [s.hub.modid] → g.sums = [] → (∀ d, d < 8 → s.asleep (lineOf (replicaOf s g.pa d)) = false) →
         ((∀ d, d < 8 → s.poisoned (replicaOf s g.pa d) 4 = false) → drawn s (.ldsumGather g.id none) fun s' => receives s' (BitVec.ofNat 32 here)) ∧
         (∀ t, f.st = .ganged → f.hand = g.before.hand → g.before.key = g.fibre → f.team = g.before.team → s.team f.team = some t → t.id = f.team → g.pa % 4 = 0 →
           (∃ d, d < 8 ∧ s.poisoned (replicaOf s g.pa d) 4 = true) → drawn s (.ldsumGather g.id none) fun s' => s'.gathers = [] ∧
             ∃ f', s'.fibre g.fibre = some f' ∧ f'.st = .trapped ∧ f'.regs = g.before.regs ∧ f'.trap.map (·.trap) =
               some { code := .poison, faddr := BitVec.ofNat 64 (g.va.toNat - g.pa % 128 + 32 * (g.pa % 128 / 32)) })) ∧
       (∀ m v own, m ≠ s.hub.modid → g.await = [m] → g.sums = [(s.hub.modid, own, 0)] →
         ∃ s', exec (.ldsumGather g.id (some (m, v, 0, 0))) s = .next s' ∧ receives s' (BitVec.ofInt 32 (own.v + v))) ∧
       (∀ m v, m ≠ s.hub.modid → m ∈ g.await → (∃ x ∈ g.await, x ≠ m) → ∃ s' g', exec (.ldsumGather g.id (some (m, v, 0, 0))) s = .next s' ∧
         s'.gathers = [g'] ∧ (∀ x, x ∈ g'.await ↔ x ∈ g.await ∧ x ≠ m) ∧ s'.fibre g.fibre = some f))) ∧
  (∀ (s : State) (die : Nat),
     let d := s.die die
     (∀ (m : Miss) (leaf : DWord) (ea bits : Nat), m ∈ d.misses.take 64 → d.misses.length ≤ 1024 → d.tlb.length < 16384 →
       let va : DWord := (BitVec.ofNat 56 (m.page * 4096)).signExtend 64
       let e : TlbEnt := { ctx := m.ctx, base := va.toNat / 2 ^ bits * 2 ^ bits, bits := bits, leaf := leaf }
       walk s m.ctx va = some (leaf, ea, bits) →
       drawn s (.walkComplete die m.ctx m.page) fun s' => (∀ x ∈ (s'.die die).misses, x.ctx = m.ctx → x.page ≠ m.page) ∧ s'.mem = s.mem ∧
         e ∈ (s'.die die).tlb ∧ (∀ x ∈ d.tlb, x ∈ (s'.die die).tlb) ∧ ∀ c ∈ m.cores, e ∈ (s'.core c).tlb) ∧
     (∀ (va ctx : Nat), d.inv = none →
       exec (.tlbinvPage die va ctx) s = .next (s.setDie die { d with inv := some { kind := 0, va := va % 2 ^ 56 / 4096 * 4096, ctx := ctx % 256 } }) ∧
       exec (.tlbinvContext die ctx) s = .next (s.setDie die { d with inv := some { kind := 1, va := 0, ctx := ctx % 256 } }) ∧
       exec (.tlbinvAll die) s = .next (s.setDie die { d with inv := some { kind := 2, va := 0, ctx := 0 } })) ∧
     (∀ (va ctx : Nat) (x : TlbInv), d.inv = some x → exec (.tlbinvPage die va ctx) s = .next s ∧ exec (.tlbinvContext die ctx) s = .next s ∧
       exec (.tlbinvAll die) s = .next s ∧
       drawn s (.tlbinvDone die) fun s' => (s'.die die).inv = none ∧ s'.mem = s.mem ∧
         ∀ e : TlbEnt, (x.kind = 2 ∨ x.kind = 1 ∧ e.ctx = x.ctx ∨
             x.kind = 0 ∧ e.ctx = x.ctx ∧ ((BitVec.ofNat 56 x.va).signExtend 64).toNat / 2 ^ e.bits = e.base / 2 ^ e.bits) →
           e ∉ (s'.die die).tlb ∧ (∀ q, q / 32 = die → e ∉ (s'.quad q).tlb) ∧ ∀ c, c / 128 = die → e ∉ (s'.core c).tlb))

/-! ## The matrix engine's steps (R271 to R295, R321 to R329) -/

/-- R275 to R278, R281, R284 to R286, R292, R322, R325, R327 to R329: a request at the head of its table starts once the writes that its fork edge awaits are acknowledged; a waiting pass rises by a class; a pass is granted the free
array with its plane and sends its first row; a row's addition adds its column sums to its accumulator row and counts a step; a completed request leaves its entry, its tiles
READY; an add-on-store adds its cells to memory in one update, or writes its F32 values, and reports.

R287 to R291: a fetched slice enters the cache; a slice that cannot be fetched completes the rows that wait for it, marked failed, and their team faults; a replay entry passes
the side array when its slices are present, and its row is added 64 clocks later and 256 clocks after its entry at the earliest, a failed one with the NAN bit in its row.
The model's choices in it: logs 3, 23, 25. -/
def Obligations.MatrixEngineSteps : Prop :=
  (∀ (s : State) (qn pn : Nat) (r : MReq), pn < 4 →
     let p := s.part qn pn
     let c := s.core r.core
     let freed (ix : Nat) : TileSt := if (c.tile ix).st = .empty then .empty else .ready
     (p.reqs = [r] → r.started = none →
       let startedAt (due : Nat) : MReq := { r with started := some s.clock, due := some due }
       (∀ all k acc, r.kind = .clr all k acc → r.mayAccess s = true →
         exec (.requestStart qn pn) s = .next (s.setPart qn pn { p.clr all k acc with reqs := [] })) ∧
       (r.isSnap = false → r.mayAccess s = false → exec (.requestStart qn pn) s = .next s) ∧
       (∀ t, r.kind = .mlds t → r.failed = false → r.mayAccess s = true →
         exec (.requestStart qn pn) s = .next (s.setPart qn pn { p with reqs := [startedAt (s.clock + 128)] })) ∧
       (∀ tc acc m, r.kind = .drainTile tc acc m → r.failed = false → r.mayAccess s = true → (acc && p.ea320) = false →
         exec (.requestStart qn pn) s = .next (s.setPart qn pn { p with reqs := [startedAt (s.clock + ((c.tile tc).rows + 1))] })) ∧
       (∀ acc kind m va cell, r.kind = .drainMem acc kind m va cell → r.failed = false → r.mayAccess s = true → ((acc || kind == 2) && p.ea320) = false →
         exec (.requestStart qn pn) s = .next (s.setPart qn pn { p with reqs := [startedAt (s.clock + 128)] })) ∧
       (∀ tc acc row, r.kind = .snap tc acc row [] none → r.posted < s.clock → (acc && p.ea320) = false →
         exec (.requestStart qn pn) s = .next ((s.setPart qn pn { p with reqs := [startedAt (s.clock + 1)] }).setCore r.core
           (c.putRow (c.tile tc) row ((List.range 128).map fun j => eaRead p.kind (.ieee .f32) .rne (p.elem acc row j))))) ∧
       (∀ x, r.pass = some x → r.mayAccess s = true → (∀ k, k < 4 → k ≠ pn → (s.part qn k).reqs = []) → p.clearing = false → r.failed = false → r.entered = [] →
         mayGrant s p = true → (s.quad qn).arrayFree ≤ s.clock → grantFault s p r x = none →
         ∃ s' r', exec (.arbiterGrant qn) s = .next s' ∧ (s'.part qn pn).reqs = [r'] ∧ r'.id = r.id ∧ r'.started = some s.clock ∧
           r'.m = (c.tile x.ta).rows + 1 ∧ r'.plane = (if x.swap then p.shadow else p.active) ∧ (s'.part qn pn).active = r'.plane ∧
           (s'.part qn pn).shadow = (if x.swap then p.active else p.shadow) ∧ (x.swap = true → r'.entered = []) ∧
           (x.swap = false → x.ids = none → (∀ e ∈ (s.quad qn).replay, e.part ≠ pn) → (0, s.clock) ∈ r'.entered))) ∧
     (∀ n, p.head = some r → r.isPass = true → r.next = some n → 1 < r.effCls → n + 4096 * (r.promo + 1) ≤ s.clock →
       exec (.passPromotion qn pn) s = .next (s.setPart qn pn (p.setReq { r with promo := r.promo + 1 }))) ∧
     (∀ x row clk, p.req r.id = some r → r.pass = some x → x.ids = none → x.sparse = none → row < 128 → look row r.entered = some clk → clk + 256 ≤ s.clock →
       row ∉ r.added → (∀ e ∈ (s.quad qn).replay, e.req ≠ r.id) →
       let ta := c.tile x.ta
       let sumAt (j : Nat) : Acc := chainAcc p.kind (dot (actRow c ta row) ((List.range 128).map fun k => r.plane.op k j)) (2 * opFrac ta.fmt)
         (expOf ta.rowExp row + expOf r.plane.colExp j)
       ∃ s', exec (.rowAddition qn pn r.id row) s = .next s' ∧ s'.cores = s.cores ∧ s'.mem = s.mem ∧
         (∀ a i j, i < 128 → j < 128 →
           (s'.part qn pn).elem a i j = if a = x.acc ∧ i = row then eaAdd p.kind (p.elem a i j) (sumAt j) else p.elem a i j) ∧
         getD 0 (stepKey x.acc row) (s'.part qn pn).steps = (getD 0 (stepKey x.acc row) p.steps + 1) % 65536) ∧
     (∀ d, p.reqs = [r] → r.due = some d → d ≤ s.clock →
       (∀ x, r.pass = some x → ∃ s', exec (.passComplete qn pn r.id) s = .next s' ∧ s'.part qn pn = { p with reqs := [] } ∧
         ((s'.core r.core).tile x.ta).st = freed x.ta) ∧
       (∀ t, r.kind = .mlds t → ∃ s', exec (.nonpassRequestComplete qn pn r.id) s = .next s' ∧
         s'.part qn pn = { p with reqs := [], shadow := planeOf c (c.tile t) } ∧ ((s'.core r.core).tile t).st = freed t) ∧
       (∀ id w, r.kind = .adload id w → exec (.nonpassRequestComplete qn pn r.id) s = .next (s.setPart qn pn { p with reqs := [] }))) ∧
     (∀ pat hi ia ib ic base theta key, p.reqs = [r] → r.started.isSome = true → r.kind = .vprune pat hi ia ib ic base theta key →
       ∃ s', exec (.pruneComplete qn pn) s = .next s' ∧ s'.part qn pn = { p with reqs := [] } ∧ ((s'.core r.core).tile ia).st = freed ia ∧
         ((s'.core r.core).tile ib).st = freed ib ∧ ((s'.core r.core).tile ic).st = freed ic) ∧
     (∀ (a : AddOn) (pa : Nat) (v : Acc), p.adds = [a] → a.cells = [(pa, v)] →
       let k : EaKind := if a.wide then .ea320 else .ea160
       s.reserved (lineOf pa) = false → getD [] (lineOf pa) (s.die (dieOfLine (lineOf pa))).claims = [] →
       ∃ s', exec (.addOnStore qn pn) s = .next s' ∧ (s'.part qn pn).adds = [] ∧
         (a.f32 = none → pa % eaBytes k = 0 →
           leWord (s'.bytes pa (eaBytes k)) = eaToNat k (eaAdd k (eaOfNat k (leWord (s.bytes pa (eaBytes k)))) v)) ∧
         (∀ e m, a.f32 = some (e, m) → pa % 4 = 0 → leWord (s'.bytes pa 4) = eaRead e (.ieee .f32) m v) ∧
         ∃ x ∈ s'.records, x.team = a.team ∧ x.cell = a.cell ∧ x.status = 0 ∧ x.index = 128)) ∧
  (∀ (s : State) (qn : Nat) (t : SliceTag),
     let q := s.quad qn
     (∀ fe, q.fetches.find? (·.tag == t) = some fe →
       (∀ d x, (∀ r ∈ (q.part t.part).reqs, r.loads t.part t = none) → readDir s qn t.part fe.ctx t.id = .ok d → t.proj < d.nproj →
         (∀ w ∈ wordsWaiting q t, d.has w = true) → fetchSlice s qn fe.ctx t = .ok x → (cacheSlice (pinned s qn) q.cache x).isSome = true →
         ∃ s', exec (.adapterSliceArrival qn t.part t.id t.proj t.kstep t.nstep) s = .next s' ∧ x ∈ (s'.quad qn).cache ∧
           (∀ f ∈ (s'.quad qn).fetches, f.tag ≠ t) ∧ s'.mem = s.mem) ∧
       (∀ e r cause, e ∈ q.replay → e.waits (q.part e.part) t = true → (q.part e.part).req e.req = some r →
         waitFault s qn fe (e.word (q.part e.part)) = some cause →
         ∃ s', exec (.adapterFault qn t.part t.id t.proj t.kstep t.nstep) s = .next s' ∧ .asyncEngineFault r.team cause ∈ s'.agenda ∧
           (s'.quad qn).replay = q.replay.map fun e =>
             if e.waits (q.part e.part) t && (waitFault s qn fe (e.word (q.part e.part))).isSome then { e with failed := true } else e)) ∧
     (∀ e, nextSide q = some e → (∀ x ∈ q.replay, x.sidePass ≠ some s.clock) → (∀ u ∈ e.tags (q.part e.part), (sliceIn q.cache u).isSome = true) →
       ∃ s', exec (.replaySidePass qn e.part e.req e.row) s = .next s' ∧ ({ e with sidePass := some s.clock } : Replay) ∈ (s'.quad qn).replay) ∧
     (∀ e r x, q.replay = [e] → (q.part e.part).req e.req = some r → r.pass = some x → e.entry + 256 ≤ s.clock →
       (e.failed = true ∨ ∃ c, e.sidePass = some c ∧ c + 64 ≤ s.clock) →
       ∃ s', exec (.replayAddition qn e.part e.req e.row) s = .next s' ∧ (s'.quad qn).replay = [] ∧
         getD 0 (stepKey x.acc e.row) (s'.part qn e.part).steps = (getD 0 (stepKey x.acc e.row) (q.part e.part).steps + 1) % 65536 ∧
         (e.failed = true → ∀ j, j < 128 → ((s'.part qn e.part).elem x.acc e.row j).nan = true)))

/-! ## The copy engine's and the index engine's steps (R202, R297 to R304, R308 to R310, R333) -/

/-- R202, R297, R299 to R304: the entries of a chain in progress. A COPY moves its bytes a chunk at a time, a COPYMMA also posts its pass, a TMOVE moves its page a line at a time
and, after the last line, writes every entry of its leaf, a PREFETCH goes over its lines one at a time and changes no memory, a LOOP opens its body, a SKIPIF on the index goes past its entries where the comparison holds,
a SIGNAL writes its value and increments its count, END completes the command; a completion record is one write to its cell.

R308 to R310, R333: a walk starts with its command and its descriptor as read; a sample that has finished has its output written, and after the last one the walk reports
the lowest failure, or none.
The model's choices in it: logs 3, 9, 27, 28, 29. -/
def Obligations.ChainEntries : Prop :=
  ∀ (s : State),
    (∀ (core : Nat) (c : CopyCmd) (t : Team) (w0 w1 w2 w3 : Nat), (s.core core).cmd c.id = some c → s.team c.team = some t → t.core = core →
      (s.core core).active c.id = true → c.kind = .xchain → c.lp = none → c.work = none → s.owes core c.acks = false →
      (s.ctx (s.teamLaunch t).ctx).resetting = false → c.skipped < 65536 → entryAt s t c c.pos = some (w0, w1, w2, w3) →
      let s1 := syncDie s (core / 128)
      let k := siteOfTeam s1 t
      let at' (s' : State) (pos : Nat) : Prop := (s'.core core).cmd c.id = some { c with pos := pos }
      (w0 % 256 = 1 → fld w0 8 1 = 0 → fld w0 10 2 = 1 → fld w0 12 2 = 1 → fld w0 14 2 = 0 → fld w3 56 8 = 0 → fld w3 16 16 = 0 →
        let n := fld w3 0 16 + 1
        let m := min n (128 - w2 % 128)
        w1 + n ≤ t.scrSize → w2 + n ≤ t.scrSize →
        ∃ s', exec (.copyEntryCopy core c.id) s = .next s' ∧ s'.mem = s.mem ∧
          (∀ i, i < m → (s'.core core).byte (t.scrBase + w2 + i) = (s.core core).byte (t.scrBase + w1 + i)) ∧
          (m = n → at' s' (c.pos + 1)) ∧
          (m < n → ∃ wk, (s'.core core).cmd c.id = some { c with work := some wk } ∧ wk.todo = chunksOf (w1 + m) (w2 + m) 514 (n - m))) ∧
      (∀ (e : Nat × Nat × Nat × Nat) (i : Instr) (s2 s3 : State), w0 % 256 = 2 → entryAt s1 t c (c.pos + 1) = some e → extension e = some (.ok i) →
        copyEntry t c (w0, w1, w2, w3) true 2 s1 = (s2, .go (c.pos + 2) none 0) →
        postExt (freeTilesOf s2 core c.id) t i (e.2.1 % 2 ^ 32) = .ok (some s3) →
        ∃ s' pn r, exec (.copyEntryCopymma core c.id) s = .next s' ∧ at' s' (c.pos + 2) ∧ r ∈ (s'.part (core / 4) pn).reqs ∧ r.team = t.id ∧
          r.posted = s.clock ∧ r.isPass = true) ∧
      (∀ (bits : Nat) (m : PageMove), w0 % 256 = 3 → pageBits (fld w0 8 3) = some bits → fld w0 11 53 = 0 → w3 = 0 → w1 % 2 ^ bits = 0 → w2 % 2 ^ bits = 0 →
        (s.moves = [] ∧ walk s1 k.ctx (BitVec.ofNat 64 w1) = some (m.leaf, m.ea, bits) ∧ leafContrib m.leaf = false ∧ granted s1 k.ctx w2 (2 ^ bits) = true ∧
            m = { core := core, cmd := c.id, ctx := k.ctx, va := BitVec.ofNat 64 w1, leaf := m.leaf, ea := m.ea, bits := bits, old := leafAddr m.leaf, new := w2 } ∨
          s.moves = [m] ∧ m.core = core ∧ m.cmd = c.id ∧ m.old % 128 = 0 ∧ m.new % 128 = 0) →
        (∀ e ∈ s.lines, e.2.resv = none) → (∀ n, (s.core n).wcb = []) → Memory.wf s.mem = true →
        let src := m.old + 128 * m.done
        let dst := m.new + 128 * m.done
        let lineMoved (a : Nat) : Byte := if dst ≤ a ∧ a < dst + 128 then s.byte (a - dst + src) else s.byte a
        (m.done + 1 < 2 ^ m.bits / 128 → ∃ s', exec (.copyEntryTmove core c.id) s = .next s' ∧ (s'.core core).cmd c.id = some c ∧
          s'.moves = [{ m with done := m.done + 1 }] ∧ ∀ a, s'.byte a = lineMoved a) ∧
        (m.done + 1 = 2 ^ m.bits / 128 → m.ea % 8 = 0 →
          (∀ x ∈ leafEntries m.leaf m.ea, ¬(dst ≤ x ∧ x < dst + 128) ∧ s.outcast (lineOf x) = false) →
          ∃ s', exec (.copyEntryTmove core c.id) s = .next s' ∧ at' s' (c.pos + 1) ∧ s'.moves = [] ∧
            (∀ x ∈ leafEntries m.leaf m.ea,
              BitVec.ofNat 64 (s'.dword x) = BitVec.ofNat 64 (m.new + (BitVec.ofNat 64 (s.dword x) &&& 0xFC00000000000FFF#64).toNat)) ∧
            ∀ a, (∀ x ∈ leafEntries m.leaf m.ea, a < x ∨ x + 8 ≤ a) → s'.byte a = lineMoved a)) ∧
      (w0 = 4 → 0 < w2 → w2 ≤ 2 ^ 32 → w3 = 0 → (∀ e ∈ (s.core core).wcb, e.claimed = true) →
        ∃ s', exec (.copyEntryPrefetch core c.id) s = .next s' ∧ s'.mem = s.mem ∧
          (w1 % 128 + w2 ≤ 128 → at' s' (c.pos + 1)) ∧
          (128 < w1 % 128 + w2 → ∃ wk, (s'.core core).cmd c.id = some { c with work := some wk } ∧ wk.todo.length + 1 = (w1 % 128 + w2 + 127) / 128)) ∧
      (∀ n m, 0 < n → n < 256 → 0 < m → m < 2 ^ 32 → w0 = 5 + 2 ^ 8 * n + 2 ^ 32 * m → w3 = 0 →
        ∃ s', exec (.copyEntryLoop core c.id) s = .next s' ∧ s'.mem = s.mem ∧
          let lp : CopyLoop := { first := c.pos + 1, n := n, k := m, j := 0, srcStride := BitVec.ofNat 64 w1, dstStride := BitVec.ofNat 64 w2 }
          (s'.core core).cmd c.id = some { c with pos := c.pos + 1, lp := some lp }) ∧
      (∀ n, 0 < n → n < 256 → w3 = 0 → w2 < 2 ^ 32 →
        (w0 = 6 + 2 ^ 8 * n + 2 ^ 16 * 4 → ∃ s', exec (.copyEntrySkipif core c.id) s = .next s' ∧ s'.mem = s.mem ∧
          at' s' (c.pos + 1 + if w2 = 0 then n else 0)) ∧
        (w0 = 6 + 2 ^ 8 * n + 2 ^ 16 * 5 → ∃ s', exec (.copyEntrySkipif core c.id) s = .next s' ∧ s'.mem = s.mem ∧
          at' s' (c.pos + 1 + if w2 = 0 then 0 else n))) ∧
      (∀ (pa : Nat) (leaf : DWord), w0 = 7 → w3 = 0 → w1 % 16 = 0 →
        checkVa s1 core k.ctx (BitVec.ofNat 64 w1) { kind := 5, w := true, seals := true } = .ok (pa, leaf) → pa % 16 = 0 →
        s1.reserved (lineOf pa) = false → getD [] (lineOf pa) (s1.die (dieOfLine (lineOf pa))).claims = [] →
        ∃ s', exec (.copyEntrySignal core c.id) s = .next s' ∧ at' s' (c.pos + 1) ∧ s'.dword pa = w2 ∧ s'.dword (pa + 8) = (s.dword (pa + 8) + 1) % 2 ^ 64) ∧
      (w0 = 0 → w1 = 0 → w2 = 0 → w3 = 0 → ∃ s' x, exec (.copyEntryEnd core c.id) s = .next s' ∧ (s'.core core).cmd c.id = none ∧ s'.mem = s.mem ∧
        s'.records = s.records ++ [x] ∧ x.cell = c.cell ∧ x.status = 0 ∧ x.skipped = c.skipped ∧ x.index = c.pos % 65536)) ∧
    (∀ (x : Record) (pa : Nat) (leaf : DWord), s.records.find? (·.id == x.id) = some x → (s.ctx x.ctx).resetting = false →
      checkVa s x.core x.ctx x.cell { kind := 5, w := true, seals := true } = .ok (pa, leaf) → pa % 16 = 0 → s.reserved (lineOf pa) = false →
      ∃ s', exec (.completionRecord x.id) s = .next s' ∧ s'.records = s.records.filter (·.id != x.id) ∧
        s'.dword pa = (x.status + 2 ^ 8 * x.detail + 2 ^ 16 * x.index + 2 ^ 32 * x.skipped) % 2 ^ 64 ∧ s'.dword (pa + 8) = x.faddr.toNat) ∧
    (∀ (qn : Nat) (w : Walk) (t : Team), s.team w.team = some t →
      let k := siteOfTeam s t
      (s.ctx k.ctx).resetting = false →
      (∀ bs, (s.quad qn).walks.find? (fun w => !w.started) = some w → w.off % 32 = 0 → w.off + 32 ≤ t.scrSize → s.owes w.core w.acks = false →
        let word (i : Nat) : Nat := scrWord s t w.off i
        word 0 % 32 = 0 → word 1 % 4 = 0 → word 2 % 4 = 0 → 0 < word 3 → word 3 < 65536 →
        engineRead (syncDie s k.die) k.core k.ctx (BitVec.ofNat 64 (word 0)) 32 = .ok bs →
        let w' : Walk := { w with started := true, desc := BitVec.ofNat 64 (word 0), forest := leWord (bs.map (·.1)), ents := BitVec.ofNat 64 (word 1),
                                  outs := BitVec.ofNat 64 (word 2), n := word 3 }
        ∃ s', exec (.indexWalkStart qn w.id) s = .next s' ∧ s'.mem = s.mem ∧ w' ∈ (s'.quad qn).walks) ∧
      (∀ (pa v : Nat) (leaf : DWord) (x : Sample) (f : Fail), (s.quad qn).walk w.id = some w → w.flight.find? (·.out.isSome) = some x → x.out = some (v, f) →
        checkVa s k.core k.ctx (w.outs + BitVec.ofNat 64 (4 * x.ix)) { kind := 5, w := true, seals := true } = .ok (pa, leaf) → pa % 4 = 0 →
        s.reserved (lineOf pa) = false →
        let left := w.flight.filter (·.ix != x.ix)
        ∃ s', exec (.indexSampleDone qn w.id) s = .next s' ∧ leWord (s'.bytes pa 4) = v % 2 ^ 32 ∧
          (w.next < w.n ∨ left ≠ [] → s'.records = s.records ∧ ∃ y ∈ (s'.quad qn).walks, y.id = w.id ∧ y.flight = left) ∧
          (w.n ≤ w.next → left = [] → (∀ y ∈ (s'.quad qn).walks, y.id ≠ w.id) ∧ ∃ r, s'.records = s.records ++ [r] ∧ r.cell = w.cell ∧
            (w.fail = none → f = none → r.status = 0 ∧ r.index = w.n) ∧
            (∀ j st fa, w.fail = some (j, st, fa) → f = none ∨ j ≤ x.ix → r.index = j ∧ r.status = st ∧ r.faddr = fa) ∧
            (∀ st fa, f = some (st, fa) → (∀ a, w.fail = some a → x.ix < a.1) → r.index = x.ix ∧ r.status = st ∧ r.faddr = fa))))

/-! ## Contexts (R303, R311, R360 to R371) -/

/-- R360 to R368, R371: the kernel's commands. PREEMPT drains a context, whose drain ends stopped when no team is left; RESET leaves none of its teams and the state RESET; FREEZE, in every state but FROZEN,
takes its engine commands into the ladle, lets a page's move end, and changes neither its teams nor its fibres; THAW gives back the state it had; START makes it idle with its queues, of which one
whose error stands is in ERROR again; RESUME reloads
the reported team and runs; a command that the state does not accept is counted and does nothing else; CTXSAVE is written while no team is resident.
The model's choices in it: logs 6, 28, 45, 58, 101. -/
def Obligations.ContextCommands : Prop :=
  ∀ (s : State) (n : Nat),
    let c := s.ctx n
    let ignores (e : Instr) : Prop := exec e s = .next (s.setCtx n { c with ignored := (c.ignored + 1) % 256 })
    let still : Prop := ∀ m ∈ s.moves, m.ctx ≠ n
    (c.st = .frozen → ignores (.freeze n)) ∧
    (c.st ≠ .frozen → ∃ s', exec (.freeze n) s = .next s' ∧ (s'.ctx n).st = .frozen ∧ (s'.ctx n).frozenFrom = some c.st ∧
      (s'.ctx n).frozenAt = s.clock ∧ s'.teams = s.teams ∧ (still → s'.fibres = s.fibres) ∧ (∀ m ∈ s'.moves, m.ctx ≠ n) ∧
      ∀ core, ∀ x ∈ (s'.core core).copyQ, ofCtx s n x.team = false) ∧
    (c.resetting = false →
    (∀ us, c.st = .running ∨ c.st = .faulted → exec (.preempt n us) s =
      .next (s.setCtx n { c with st := .draining, drainAt := some (s.clock + (if us = 0 then 2000 else us) * 1500) })) ∧
    (∀ us, c.st = .idle → ignores (.preempt n us) ∧ ignores (.resetCtx n) ∧ ignores (.thaw n) ∧ ignores (.start n) ∧ ignores (.resume n)) ∧
    (c.st = .draining → resident s n = false → unfinished s n = [] → ∃ s', exec (.drainDeadline n) s = .next s' ∧
      s'.ctx n = { c with st := .stopped, drainAt := none } ∧
      ∀ q, q < 32 → c.queues.getLsbD q = true → (s'.queue q).st = .stopped) ∧
    (c.st = .running ∨ c.st = .draining ∨ c.st = .frozen ∨ c.st = .faulted → still → resetWaits s n = false →
      ∃ s', exec (.resetCtx n) s = .next s' ∧ (s'.ctx n).st = .reset ∧ (s'.ctx n).ladle = {} ∧
        ∀ t, s.team t.id = some t → (s.teamLaunch t).ctx = n → s'.team t.id = none) ∧
    (∀ st, c.st = .frozen → c.frozenFrom = some st → c.ladle = {} → exec (.thaw n) s =
      .next (s.setCtx n { c with st := st, frozenFrom := none, thawing := false, drainAt := c.drainAt.map (· + (s.clock - c.frozenAt)) })) ∧
    (c.st = .stopped ∨ c.st = .reset → ∃ s', exec (.start n) s = .next s' ∧ s'.ctx n = { c with st := .idle, ended := [] } ∧
      ∀ q, q < 32 → c.queues.getLsbD q = true → (s.queue q).st = .stopped →
        s'.queue q = { s.queue q with st := if (s.queue q).error = 0 then .idle else .error }) ∧
    (∀ t, c.st = .faulted → ((ctxTeams s n).filter fun t => t.report.isSome) = [t] → (resumeTeam s c t).isSome = true →
      ∃ s', exec (.resume n) s = .next s' ∧ (s'.ctx n).st = .running ∧
        s'.team t.id = some { t with halt := none, report := none, asyncTrap := none, pendEv := [] }) ∧
    (∀ (val : DWord) (root : Nat) (queues : BitVec 32) (frames : List (Nat × Nat)), n < 256 → resident s n = false →
      exec (.ctxsaveWrite n val root queues frames) s = .next (s.setCtx n { c with saveBase := (val &&& 0x03FFFFFFFFFFF000#64).toNat,
                                                                                   saveSize := val.toNat % 64, root := root,
                                                                                   queues := queues, frames := frames })))

/-! ## Queues, packets, launches and pools (R372, R373, R410 to R428) -/

/-- R359, R362, R411 to R416, R423 to R428: a submission raises the write index, with the bound of R359 where the queue is at rest, or is counted as stale; QP_QCB takes a base and repairs an interrupted update from its shadow; a thread
takes the next packet and names it in its QCB, then hands it to the dispatch unit, answers one that had stopped its queue with that error again, and takes none for a context that is STOPPED or RESET; a SIGNAL, a MARKER and a DIGEST write their cells; a WAIT completes when its test holds,
watches its line when it does not, and stops its queue at its deadline; a thread without progress restarts the firmware, which gives up what the threads hold.
The model's choices in it: logs 3, 48, 51, 94. -/
def Obligations.QueuesAndPackets : Prop :=
  ∀ (s : State) (q : Nat), q < 32 →
    let x := s.queue q
    let word (s : State) (i : Nat) : Nat := s.dword (x.qcb + 8 * i)
    let atRest : Prop := x.accepted = x.wridx ∧ x.hand = none ∧ x.unit = none ∧ (∀ e ∈ s.launches, e.2.queue ≠ q) ∧
      ∀ e ∈ s.teams, (s.teamLaunch e.2).express = false
    (∀ val, (x.wridx < val → (atRest → exec (.qpSubmit q val) s = .next (s.setQueue q { x with wridx := val, bound := some (x.wridx.toNat, s.clock) })) ∧
        (¬atRest → exec (.qpSubmit q val) s = .next (s.setQueue q { x with wridx := val }))) ∧
      (¬ x.wridx < val → exec (.qpSubmit q val) s = .next (s.setQueue q { x with stale := x.stale + 1 }))) ∧
    (∀ val, exec (.qpStatClear q val) s = .next (s.setQueue q { x with stale := x.stale &&& ~~~(val.extractLsb' 32 16) })) ∧
    (∀ val, x.st ≠ .serving →
      let base := (val &&& 0x03FFFFFFFFFFFF80#64).toNat
      let x' : Queue := { x with qcb := base, error := 0, st := if x.st = .error then .idle else x.st, hand := none, progress := s.clock }
      (s.dword base % 2 = 0 → exec (.qpQcbWrite q val) s = .next (s.setQueue q x')) ∧
      (s.dword base % 2 = 1 → isMemory base = true → ∃ s', exec (.qpQcbWrite q val) s = .next s' ∧ s'.queue q = x' ∧
        s'.bytes (base + 8) 56 = s.bytes (base + 64) 56 ∧ s'.dword base = (s.dword base + 1) % 2 ^ 64)) ∧
    (∀ (b : Qcb), threadRuns s q = true → s.asleep (lineOf x.qcb) = false → readQcb s q = .ok b → x.finished = [] → x.st = .idle ∨ x.st = .serving →
      x.qcb % 128 = 0 →
      let stops : Prop := (s.ctx b.ctx).st = .stopped ∨ (s.ctx b.ctx).st = .reset
      (x.hand = none → stops → exec (.packetTake q) s = .next (s.setQueue q { x with st := .stopped })) ∧
      (∀ ws, ¬stops → x.hand = none → b.on = true → b.active = noIndex → b.read.toNat < x.wridx.toNat → x.wridx.toNat ≤ b.doneIdx.toNat + 2 ^ b.size →
        hubWords s b.ctx (b.ring + BitVec.ofNat 64 (64 * (b.read.toNat % 2 ^ b.size))) 8 = .ok ws →
        hubWaits s b.ctx [(b.ring + BitVec.ofNat 64 (64 * (b.read.toNat % 2 ^ b.size)), 64)] = false →
        let p : Packet := { index := b.read.toNat, ctx := b.ctx, words := ws }
        packetOk p = true → ∃ s', exec (.packetTake q) s = .next s' ∧ s'.queue q = { x with st := .serving, hand := some p, progress := s.clock } ∧
          word s' 1 = p.index + 1 ∧ word s' 4 = p.index ∧ word s' 5 = 0 ∧ word s' 0 = (word s 0 + 2) % 2 ^ 64) ∧
      (¬stops → x.hand = none → x.wridx = b.read → b.active = noIndex → exec (.packetTake q) s = .next (s.setQueue q { x with st := .idle, progress := s.clock })) ∧
      (∀ p, x.hand = some p → p.handed = false → (p.words.getD 0 0).getLsbD 11 = false → p.type ≠ 5 → x.accepted.toNat ≤ p.index →
        exec (.packetTake q) s = .next (s.setQueue q { x with hand := some { p with handed := true }, progress := s.clock, unit := some p })) ∧
      (∀ p code, x.hand = some p → p.handed = true → x.unit = none → look p.index x.failed = some code →
        ∃ s', exec (.packetTake q) s = .next s' ∧ s'.queue q = { x with st := .error, error := code, hand := none })) ∧
    (∀ (p : Packet), x.unit = some p →
      let done : Queue := { x with unit := none, accepted := BitVec.ofNat 64 (p.index + 1), finished := dedupe (x.finished ++ [p.index]),
                                   waitDl := none, watching := none }
      (∀ pa, signalCell s p.ctx (p.words.getD 1 0) true = some pa → pa % 16 = 0 → s.reserved (lineOf pa) = false →
        getD [] (lineOf pa) (s.die (dieOfLine (lineOf pa))).claims = [] →
        let signalled (s' : State) (val : DWord) : Prop := s'.queue q = done ∧ s'.dword pa = val.toNat ∧
          s'.dword (pa + 8) = (s.dword (pa + 8) + 1) % 2 ^ 64
        (p.type = 4 → ∃ s', exec (.signal q) s = .next s' ∧ signalled s' (p.words.getD 2 0)) ∧
        (p.type = 5 → ∃ s', exec (.marker q) s = .next s' ∧ signalled s' (BitVec.ofNat 64 p.index))) ∧
      (∀ (l : Launch) (pa : Nat) (leaf : DWord),
        let l0 : Launch := { id := 0, queue := q, index := p.index, ctx := p.ctx, cls := 2, n := 1, entry := 0, regs := 16, w := 16 }
        p.type = 6 → p.word 1 ≠ 0 → hubWaits s p.ctx [(p.words.getD 1 0, 256)] = false → digestWaits s p.ctx l.digest l.ranges = false → withExt s l0 (p.words.getD 1 0) = some l → l.digest ≠ 0 →
        hubVa s p.ctx l.digest = some (pa, leaf) → leafW leaf = true → leafSealed leaf = false → pa % 128 = 0 →
        let s1 := s.setQueue q { x with accepted := BitVec.ofNat 64 (p.index + 1) }
        ∃ s', exec (.digest q) s = .next s' ∧ s'.queue q = done ∧ s'.bytes pa 128 = digestCell s1 p.ctx l.ranges) ∧
      (∀ (pa : Nat) (leaf : DWord), p.type = 3 → hubVa s p.ctx (p.words.getD 1 0) = some (pa, leaf) → leafR leaf = true →
        (p.words.getD 1 0).toNat % 8 = 0 → s.asleep (lineOf pa) = false →
        let holds := waitHolds p (s.dword pa) (s.line (lineOf pa)).ver
        let ended (s' : State) : Prop := (s'.queue q).unit = none ∧ (s'.queue q).waitDl = none ∧ (s'.queue q).finished = done.finished
        (x.watching = none → ∃ s', exec (.wait q) s = .next s' ∧ (holds = true → ended s') ∧
          (holds = false → (s'.queue q).unit = some p ∧ (s'.queue q).watching = some (lineOf pa) ∧
            (s'.queue q).waitDl = x.waitDl.or (if fld (p.word 0) 32 32 = 0 then none else some (s.clock + fld (p.word 0) 32 32 * 1500)))) ∧
        (x.watching.isSome = true → (∃ w ∈ s.wakes, w.who = .thread q) → holds = true → ∃ s', exec (.waitPacketWake q) s = .next s' ∧ ended s')) ∧
      (∀ d, x.waitDl = some d → d ≤ s.clock → ∃ s', exec (.waitDeadline q) s = .next s' ∧ (s'.queue q).st = .error ∧ (s'.queue q).error = 4 ∧
        (s'.queue q).unit = none ∧ (p.index < x.accepted.toNat → look p.index (s'.queue q).failed = some 4))) ∧
    (s.hub.fwRestart = none → x.st = .serving → (∀ p, x.hand = some p → p.type ≠ 3) → x.progress + 1500000 ≤ s.clock →
      exec (.shawmWatchdog q) s = .next { s with hub := { s.hub with fwRestart := some s.clock } }) ∧
    (∀ c, s.hub.fwRestart = some c → c + 300000 ≤ s.clock → ∃ s', exec .firmwareRestart s = .next s' ∧ s'.hub.fwRestart = none ∧
      (s'.queue q).hand = none ∧ (s'.queue q).unit = x.unit ∧ (s'.queue q).st = if x.st = .serving then .idle else x.st)

/-- R408, R410, R417 to R422: an accepted LAUNCH or POOL enters with the fields of its packet, descriptor, arguments and record, one that is too large with status 3 and
nothing to run; a ripe bin of a pool starts its records as a team; when every team has retired the dies that ran one are to flush, and when they have answered the launch
signals its index, status and count, and is gone.
The model's choices in it: logs 52, 55, 56. -/
def Obligations.LaunchesAndPools : Prop :=
  ∀ (s : State),
    (∀ (q : Nat) (p : Packet) (l : Launch), (s.queue q).unit = some p → (signalCell s p.ctx (p.words.getD 6 0) true).isSome = true →
      let taken (s' : State) : Prop := s'.queue q = { s.queue q with unit := none, accepted := BitVec.ofNat 64 (p.index + 1) }
      let w3 := p.word 3
      let clusters := fld w3 0 16 * fld w3 16 16 * fld w3 32 16
      hubWaits s p.ctx (launchReads p ++ [(p.words.getD 3 0, if p.type = 2 then 32 * fld (p.word 5) 32 32 else 0)]) = false →
      (p.type = 1 → 0 < clusters → clusters ≤ 2 ^ 24 → fld (p.word 0) 32 32 < clusters → readLaunch s (launchOf s q p) p (fld (p.word 0) 8 2) = some l →
        l.gridsync = false →
        (tooLarge l = false → ∃ s', exec (.launch q) s = .next s' ∧ taken s' ∧ s'.launch l.id = some l ∧ l.id = s.nextId) ∧
        (tooLarge l = true → ∃ s', exec (.launch q) s = .next s' ∧ taken s' ∧ s'.launch l.id = some { l with status := 3, flush := some [] })) ∧
      (∀ bs, p.type = 2 →
        let cap := fld (p.word 5) 0 32
        let n := fld (p.word 5) 32 32
        let store := p.words.getD 3 0
        let l0 : Launch := { id := s.nextId, queue := q, index := p.index, ctx := p.ctx, cls := 0, pool := true, pod := fld (p.word 0) 10 1 == 1, n := 32,
                             entry := 0, regs := 16, w := 16, seed := p.words.getD 4 0, sig := p.words.getD 6 0, store := store, capacity := cap,
                             accepted := s.clock }
        0 < cap → cap ≤ 2 ^ 24 → n ≤ cap → store.toNat % 32 = 0 → readLaunch s l0 p (fld (p.word 0) 8 2) = some l →
        hubBytes s p.ctx store (32 * n) false = .ok bs → l.clusterSize = 1 → l.gridsync = false → tooLarge l = false →
        ∃ s', exec (.pool q) s = .next s' ∧ taken s' ∧
          s'.launch l.id = some { l with held := n, waiting := (List.range n).map fun i => recOf ((bs.drop (32 * i)).take 32) s.clock })) ∧
    (∀ (l : Launch), s.launch l.id = some l →
      (∀ (pc : DWord) (core : Nat) (b : Bin) (r : Room), l.pool = true → l.waiting = [] → l.bins.find? (fun b => b.pc == pc && b.ripe s.clock) = some b →
        roomOn s core l = some r → l.isMatrix = false → poolTurn s l (core / 128) = true → core < 1024 →
        ∃ s' t ds, exec (.poolBinForm l.id pc core) s = .next s' ∧ s'.team s.nextId = some t ∧ t.launch = l.id ∧ t.core = core ∧ t.recs = b.recs ∧
          s'.launch l.id = some { l with bins := l.bins.filter (fun b => b.pc != pc), formed := l.formed + 1, dies := ds } ∧
          ∀ i rec', b.recs[i]? = some rec' → ∃ f, s'.fibre (s.nextId * 1024 + i) = some f ∧ f.pc = rec'.pc &&& ~~~7#64 ∧
            getD Reg.zero 0 f.regs = rec'.lo ∧ getD Reg.zero 1 f.regs = rec'.hi) ∧
      (l.pool = true → l.held = 0 → l.flush = none → (∀ e ∈ s.teams, e.2.launch ≠ l.id) →
        exec (.poolEnd l.id) s = .next (s.setLaunch l.id { l with flush := some l.dies })) ∧
      (l.pool = false → l.flush = none → (l.clusters - l.resume) * l.clusterSize ≤ l.retired →
        exec (.launchFlush l.id) s = .next (s.setLaunch l.id { l with flush := some l.dies })) ∧
      (∀ ds die, l.flush = some ds → die ∈ ds → (∀ e ∈ s.cores, e.1 / 128 = die → e.2.acks = []) →
        ∃ s', exec (.flushAnswer l.id die) s = .next s' ∧ s'.launch l.id = some { l with flush := some (ds.filter (· != die)) } ∧ s'.mem = s.mem) ∧
      (∀ pa, l.flush = some [] → signalCell s l.ctx l.sig false = some pa → pa % 16 = 0 → s.reserved (lineOf pa) = false → l.digest = 0 →
        getD [] (lineOf pa) (s.die (dieOfLine (lineOf pa))).claims = [] →
        ∃ s', exec (.launchComplete l.id) s = .next s' ∧ s'.launch l.id = none ∧ l.index ∈ (s'.queue l.queue).finished ∧
          s'.dword pa = (l.index % 2 ^ 56 + 2 ^ 56 * l.status) % 2 ^ 64 ∧ s'.dword (pa + 8) = (s.dword (pa + 8) + 1) % 2 ^ 64))

/-! ## The control space (R187, R188, R273, R409, R447, R448, R450 to R453) -/

/-- The writes of the resident kernel to registers with events of their own, the layers' re-encoding, the kernel's stop, and the control space's stores without an event.
The model's choices in it: logs 19, 62, 65, 66. -/
def Obligations.ControlRegisters : Prop :=
  ∀ (s : State) (val : DWord),
    (∀ (core v : Nat), core < 1024 → coreTeams s core = [] → v < 512 →
      let c := s.core core
      (16 ≤ v → v ≤ c.ubTiles → c.ubTiles ≤ c.ubL1 → c.ubL1 ≤ 252 → exec (.ubWrite core 0 v) s = .next (s.setCore core { c with ubScratch := v })) ∧
      (16 ≤ c.ubScratch → c.ubScratch ≤ v → v ≤ c.ubL1 → c.ubL1 ≤ 252 → exec (.ubWrite core 1 v) s = .next (s.setCore core { c with ubTiles := v })) ∧
      (16 ≤ c.ubScratch → c.ubScratch ≤ c.ubTiles → c.ubTiles ≤ v → v ≤ 252 → v ≠ c.ubL1 →
        exec (.ubWrite core 2 v) s = .next (s.setCore core { c with ubL1 := v, l1 := [] }))) ∧
    (∀ (core : Nat) (which : Fin 3) (v : Nat), coreTeams s core ≠ [] → exec (.ubWrite core which v) s = .next s) ∧
    (∀ (quad : Nat) (part : Fin 4), quad < 256 →
      ((s.part quad part.val).owner = none → exec (.mxdirWrite quad part val) s =
        .next (s.setQuad quad { s.quad quad with mxdir := setD 0 part.val (val &&& 0x00FFFFFFFFFFFFE0#64) (s.quad quad).mxdir })) ∧
      ((s.part quad part.val).owner.isSome = true → exec (.mxdirWrite quad part val) s = .next s)) ∧
    (∀ (die : Nat) (layer : Fin 4), die < 8 →
      let d := s.die die
      (dieBusy s die = false → d.busy = 0 → ∃ s', exec (.retctlWrite die val) s = .next s' ∧ (s'.die die).ret = val.setWidth 4 ∧ (s'.die die).enc = d.enc ∧
        (val.setWidth 4 = d.enc → (s'.die die).busy = 0) ∧
        ((val.setWidth 4).getLsbD layer.val ≠ d.enc.getLsbD layer.val →
          (∀ i, i < layer.val → (val.setWidth 4).getLsbD i = d.enc.getLsbD i) →
          (s'.die die).busy = BitVec.ofNat 4 (2 ^ layer.val) ∧ (s'.die die).encAt = s.clock + 60000)) ∧
      (d.busy.getLsbD layer.val = true → d.encAt ≤ s.clock → ∃ s', exec (.retentionReencodeDone die layer) s = .next s' ∧
        (s'.die die).enc = d.enc ^^^ d.busy ∧ (s'.die die).ret = d.ret ∧ (d.ret = d.enc ^^^ d.busy → (s'.die die).busy = 0))) ∧
    (exec (.qenableWrite val) s = .next { s with hub := { s.hub with qenable := val.setWidth 32 } }) ∧
    (let timer := if val.setWidth 32 = s.hub.kheart then s.hub.kTimer else s.hub.kTimer.map fun _ => s.clock + 150000000
     exec (.kheartWrite val) s = .next { s with hub := { s.hub with kheart := val.setWidth 32, kTimer := timer } }) ∧
    (∀ fatal, s.power = true → s.hub.boot = .booted → s.hub.reboot = false → (fatal = true ∨ ∃ d, s.hub.kTimer = some d ∧ d ≤ s.clock) →
      ∃ s', exec (.kernelStop fatal) s = .next s' ∧ s'.hub.reboot = true ∧ s'.hub.kTimer = none ∧ s'.teams = s.teams ∧ (s.moves = [] → s'.fibres = s.fibres) ∧
        ∀ n, n < 256 → (s'.ctx n).st = .frozen ∧ (s'.ctx n).thawing = false) ∧
    (s.hub.modidSet = true → exec (.modidWrite val) s = .next s) ∧
    (s.hub.modidSet = false → Memory.wf s.mem = true → ∃ s', exec (.modidWrite val) s = .next s' ∧ s'.hub.modid = val.toNat % 64 ∧ s'.hub.modidSet = true ∧
      ∀ a, a < 2 ^ 52 → s'.byte (val.toNat % 64 * 2 ^ 52 + a) = s.byte (s.hub.modid * 2 ^ 52 + a)) ∧
    (let own : DWord := BitVec.ofNat 64 (2 ^ s.hub.modid)
     s.gathers = [] → exec (.podmembWrite val) s = .next { s with hub := { s.hub with podmemb := (val &&& ~~~own) ||| (s.hub.podmemb &&& own) } }) ∧
    (exec (.registerWrite 0x08 val) s = .next { s with hub := { s.hub with regbase := (val &&& 0x03FFFFFFFFFF0000#64).toNat } }) ∧
    (exec (.registerWrite 0x10 val) s = .next { s with hub := { s.hub with hostwin := (val &&& 0x03FFFFFFC0000000#64).toNat, hostEn := val.getLsbD 0 } }) ∧
    (exec (.registerWrite 0x18 val) s = .next { s with agenda := .qenableWrite val :: s.agenda }) ∧
    (exec (.registerWrite 0x38 val) s = .next { s with agenda := .modidWrite val :: s.agenda })

/-! ## Boot, the supply, the pod's ports, errors, and code (R204, R399, R400, R429 to R449) -/

/-- R399, R400, R438 to R449: the boot sequence step by step with its failures, retries and blocks; the loss of power; the warm reboot; droops and damaged flits are counted; a
pod port accepts the flits that follow, resends and reports; a port's descriptor is served.
The model's choices in it: logs 20, 64, 65, 94. -/
def Obligations.BootAndPorts : Prop :=
  ∀ (s : State),
    let h := s.hub
    let failed (s' : State) (step code : Nat) : Prop := s'.hub.bootStep = step ∧ s'.hub.bootCode = code ∧ s'.hub.boot = .waitRetry (s.clock + 1500000000) step
    (h.boot = .off → (∃ s', exec (.powerUp (.begin true)) s = .next s' ∧ s'.power = true ∧ s'.epoch = s.clock ∧ s'.hub.boot = .training ∧
        s'.hub.identity = some (Config.seed, xlatSeed)) ∧
      (∃ s', exec (.powerUp (.begin false)) s = .next s' ∧ s'.hub.boot = .failedFuse ∧ s'.hub.bootStep = 1 ∧ s'.hub.bootCode = 1)) ∧
    (h.boot = .training → (∃ s', exec (.powerUp (.train [])) s = .next s' ∧ s'.hub.boot = .address ∧ s'.hub.bootPort = 0 ∧ s'.hub.bootClk = s.clock ∧
        ∀ d b, d < 8 → b < 4 → getD 0 b (s'.die d).link = 2) ∧
      (∀ d b, d < 8 → b < 4 → getD 0 b (s.die d).link ≠ 2 → ∃ s', exec (.powerUp (.train [(d, b)])) s = .next s' ∧
        (b < 3 → failed s' 2 2) ∧ (b = 3 → s'.hub.boot = .address) ∧ getD 0 b (s'.die d).link = 3)) ∧
    (h.boot = .address → (∀ server file, ∃ s', exec (.powerUp (.address server file)) s = .next s' ∧ s'.hub.boot = .fetching ∧
        s'.hub.bootServer = server ∧ s'.hub.bootFile = file ∧
        s'.hub.reqs = [{ file := file, block := 0, sent := s.clock, tries := 1 }] ∧ s'.hub.blocks = [] ∧ s'.hub.imgLen = none) ∧
      (h.bootClk + 6000000000 ≤ s.clock →
        (h.bootPort < 15 → exec .dhcpPortTimeout s = .next { s with hub := { h with bootPort := h.bootPort + 1, bootClk := s.clock } }) ∧
        (15 ≤ h.bootPort → ∃ s', exec .dhcpPortTimeout s = .next s' ∧ failed s' 3 3))) ∧
    (h.boot = .fetching →
      (∀ (block len : Nat) (data : BitVec 8192), (∃ r ∈ h.reqs, r.block = block) → ∃ s', exec (.bootBlockReply block len data) s = .next s' ∧
        s'.hub.blocks = h.blocks ++ [(block, data)] ∧ s'.hub.imgLen = some (h.imgLen.getD len) ∧ ∀ r ∈ s'.hub.reqs, r.block ≠ block) ∧
      (∀ r, h.reqs.find? (fun x => x.block == r.block) = some r → r.sent + 750000000 ≤ s.clock →
        (let again (x : BlockReq) : BlockReq := if x.block = r.block then { x with sent := s.clock, tries := x.tries + 1 } else x
         r.tries < 16 → exec (.blockRequestTimeout r.block) s = .next { s with hub := { h with reqs := h.reqs.map again } }) ∧
        (16 ≤ r.tries → ∃ s', exec (.blockRequestTimeout r.block) s = .next s' ∧ failed s' 4 4)) ∧
      (∀ bs, fetchedImage s = some bs →
        (∀ code, imageVerdict s bs = some code → ∃ s', exec (.powerUp (.finish true)) s = .next s' ∧ failed s' 5 code) ∧
        (imageVerdict s bs = none → (∃ s', exec (.powerUp (.finish true)) s = .next s' ∧ s'.hub.boot = .booted ∧
            s'.hub.kTimer = some (s.clock + 150000000) ∧ s'.hub.imgDigest = shake256 (bs.take (objHdr bs).len) ∧
            h.svnfuse ≤ s'.hub.svnfuse) ∧
          (∃ s', exec (.powerUp (.finish false)) s = .next s' ∧ failed s' 6 7 ∧ s'.hub.svnfuse = h.svnfuse)))) ∧
    (∀ clk step, h.boot = .waitRetry clk step → clk ≤ s.clock → ∃ s', exec .bootRetry s = .next s' ∧ s'.hub.attempts = (h.attempts + 1) % 65536 ∧
      s'.hub.boot = if step = 2 then .training else .address) ∧
    (s.power = true → h.boot = .booted → ∀ seed xlat, h.identity = some (seed, xlat) → ∀ nonce, ∃ s' bs, exec (.attestationReport nonce) s = .next s' ∧
      s'.mem = s.mem ∧ s'.hub.report = some (bs ++ leBytes (Config.edSign seed bs).toNat 114) ∧ bs.length = 256 ∧ bs.take 32 = leBytes nonce.toNat 32 ∧
      (bs.drop 32).take 64 = leBytes h.imgDigest.toNat 64) ∧
    (∀ burnt, ∃ s', exec (.powerLoss burnt) s = .next s' ∧ s'.power = false ∧ s'.mem = [] ∧ s'.fibres = [] ∧ s'.teams = [] ∧ s'.hub.boot = .off ∧
      s'.clock = s.clock ∧ h.svnfuse ≤ s'.hub.svnfuse ∧ (burnt = false → s'.hub.svnfuse = h.svnfuse)) ∧
    (h.reboot = true → exec .warmRebootDone s = .next { s with hub := { h with reboot := false, kTimer := some (s.clock + 150000000) } }) ∧
    (∀ die bundle, die < 8 → bundle < 4 →
      let d := s.die die
      exec (.droopStretch die) s = .next (s.setDie die { d with droop := (d.droop + 1) % 2 ^ 32 }) ∧
      exec (.linkFlitRetry die bundle) s = .next (s.setDie die { d with retries := setD 0 bundle ((getD 0 bundle d.retries + 1) % 65536) d.retries })) ∧
    (∀ peer,
      let p := s.port peer
      (p.unacked ≠ [] → p.ackClk + 30000 ≤ s.clock →
        let frame (i : Nat) : List Byte := podHeader h.modid peer (min 56 (p.unacked.length - 56 * i)) (p.unacked.getD (56 * i) 0) p.expect
        let s1 := s.setPort peer { p with resent := p.resent + 1, ackClk := s.clock }
        exec (.podResendTimeout peer) s =
          .next { s1 with hub := { s1.hub with wire := s1.hub.wire ++ (List.range ((p.unacked.length + 55) / 56)).map frame } }) ∧
      (p.reported + 3000 ≤ s.clock → exec (.podAckTimer peer) s = .next (s.setPort peer { p with reported := s.clock })) ∧
      (∀ flits seq ack, s.power = true → peer ≠ h.modid → (members s).getLsbD peer = true → 0 < flits → flits ≤ 56 → p.unacked = [] → p.expect < 2 ^ 32 →
        (seq = p.expect → exec (.podFrameReceive peer h.modid flits seq ack) s = .next (s.setPort peer { p with expect := (seq + flits) % 2 ^ 32 })) ∧
        (seq + flits = p.expect → exec (.podFrameReceive peer h.modid flits seq ack) s = .next (s.setPort peer p)))) ∧
    (∀ (desc status : Nat) (data : List Byte),
      let buf := s.dword desc
      let len := s.dword (desc + 8) % 2 ^ 32
      let flags := s.dword (desc + 8) / 2 ^ 32 % 2 ^ 16
      s.power = true → h.boot ≠ .failedFuse → isMemory desc = true → desc % 32 = 0 → flags % 2 = 1 → status ≤ 4 → s.reserved (lineOf desc) = false → 0 < len → len ≤ 2 ^ 24 →
      data.length ≤ len → isMemory buf = true → buf + data.length ≤ desc ∨ desc + 32 ≤ buf →
      (∀ i, i < data.length → s.reserved (lineOf (buf + i)) = false) →
      ∃ s', exec (.portDescriptor desc status data) s = .next s' ∧ leWord (s'.bytes (desc + 12) 4) = flags - 1 + 2 ^ 16 * status ∧
        s'.bytes buf data.length = data)

/-- R204, R429 to R437: an uncorrectable error marks its granule, of memory, of a store or of a copy, or its register, and no version; the loader keeps the reason for an object that it refuses, and lists one that it
accepts; the translator refuses a module that is not one; the translation cache keeps an object with its signature, answers with the base of one whose signature holds, and purges one whose SVN has been revoked.
The model's choices in it: logs 21, 60, 68, 88, 94. -/
def Obligations.ErrorsAndCode : Prop :=
  ∀ (s : State),
    (∀ pa, isMemory pa = true → ∃ s', exec (.uncorrectableError (.mem pa)) s = .next s' ∧ s'.mem = s.mem ∧
      (s'.line (lineOf pa)).poison.getLsbD (pa % 128 / 32) = true ∧ (s'.line (lineOf pa)).ver = (s.line (lineOf pa)).ver) ∧
    (∀ core addr, addr < 2 ^ 20 → ∃ s', exec (.uncorrectableError (.store core addr)) s = .next s' ∧ ((s'.core core).badAt addr 1).isSome = true) ∧
    (∀ (f : Fibre) (t : Team) (n : Nat), s.fibre f.key = some f → s.team f.team = some t → n < t.w →
      exec (.uncorrectableError (.reg f.key n)) s = .next (s.setFibre f.key { f with badRegs := dedupe (f.badRegs ++ [n]) })) ∧
    (∀ (t : Team) (n : Nat), s.team t.id = some t → n < 32 →
      exec (.uncorrectableError (.sreg t.id n)) s = .next (s.setTeam t.id { t with badS := dedupe (t.badS ++ [n]) })) ∧
    (∀ (line granule core die : Nat) (x : Copy),
      let bad := BitVec.ofNat 4 (2 ^ (granule % 4))
      let x' : Copy := { x with poison := x.poison ||| bad, own := x.own ||| bad }
      (look line (s.core core).l1 = some x →
        exec (.uncorrectableError (.l1 core line granule)) s = .next (s.setCore core { s.core core with l1 := put line x' (s.core core).l1 })) ∧
      (look line (s.die die).rdc = some x →
        exec (.uncorrectableError (.rdc die line granule)) s = .next (s.setDie die { s.die die with rdc := put line x' (s.die die).rdc }))) ∧
    (∀ ctx src code data desc,
      let len := (objHdr (s.bytes src 256)).len
      let bs := s.bytes src len
      let o : CodeObj := { ctx := ctx, base := code, len := len, svn := (objHdr bs).svn, feats := (objHdr bs).feats.filter fun i => !deviceFeature i }
      (∀ e, objVerdict s bs (s.bytes (src + len) 114) (objHdr bs) = some e →
        exec (.loadCodeObject ctx src code data desc) s = .next { s with hub := { s.hub with loadErr := some e } }) ∧
      (objVerdict s bs (s.bytes (src + len) 114) (objHdr bs) = none → code % 4096 = 0 → data % 4096 = 0 →
        ∃ s', exec (.loadCodeObject ctx src code data desc) s = .next s' ∧ s'.hub.loadErr = none ∧ s'.hub.objs = s.hub.objs ++ [o])) ∧
    (∀ ctx src len code desc,
      let bs := s.bytes src len
      (pModule bs = none → exec (.proebTranslate ctx src len code desc) s = .next { s with hub := { s.hub with loadErr := some .proeb } }) ∧
      (∀ svn exps fr, pModule bs = some (svn, exps, fr) → s.hub.svnfuse ≤ svn → (∀ e ∈ exps, (fr.getD e.fn (0, 0)).2 ≤ 256) → code % 4096 = 0 →
        ∃ s', exec (.proebTranslate ctx src len code desc) s = .next s' ∧ s'.hub.loadErr = none ∧
          ∃ e, s'.hub.xlat.find? (fun e => e.digest == shake256 bs) = some e ∧ e.feats = deviceMask ∧ e.svn = svn ∧ e.base = code ∧
            ∀ seed xlat, s.hub.identity = some (seed, xlat) →
              e.sig = Config.edSign xlat (leBytes (shake256 bs).toNat 64 ++ leBytes deviceMask.toNat 64 ++ leBytes svn 8) ∧ e.signed s' = true)) ∧
    (∀ key,
      let found := s.hub.xlat.find? fun e => e.digest == key && e.feats == deviceMask
      (found = none → exec (.xlatCacheLookup key) s = .next { s with hub := { s.hub with xlatHit := none } }) ∧
      (∀ e, found = some e → s.hub.svnfuse ≤ e.svn →
        exec (.xlatCacheLookup key) s = .next { s with hub := { s.hub with xlatHit := if e.signed s then some e.base else none } }) ∧
      (∀ e, found = some e → e.svn < s.hub.svnfuse → ∃ s', exec (.xlatCacheLookup key) s = .next s' ∧ s'.hub.xlatHit = none ∧
        s'.hub.loadErr = some .svnRevoked ∧ s'.hub.xlat.find? (fun e => e.digest == key) = none))

/-! ## Stepping, decoding, reset and the invariant (R15, R55, R56, R69, R72, R87, R106, R124, R128, R141, R163, R188, R265, R378, R442) -/

/-- R15, R55, R56: where a gang has been selected and the words at its PC, each fetched through its own translation, decode to an instruction, the step is that instruction's
meaning, with nothing around it; where they fail a later check of decoding, every fibre of the gang traps ILLEGAL with the check's step; with no gang selected, the step is the next event of the clock, which is kept
for the next clock where what it would reach gives no answer,
and with no event left it is the next clock.
The model's choices in it: logs 2, 31. -/
def Obligations.StepRunsDecoded : Prop :=
  ∀ (s : State),
    (∀ (g : Gang) (t : Team) (pc : DWord) (ws : List Nat), s.issue = some g.gid → s.gang g.gid = some g → s.team g.team = some t → gangPc s g = some pc →
      ws.length = wordCount (ws.headD 0) →
      (∀ k w, ws[k]? = some w → ∃ pa leaf, checkVa s t.core (s.teamLaunch t).ctx (pc + BitVec.ofNat 64 (8 * k)) { kind := 1, x := true } = .ok (pa, leaf) ∧
        s.dword pa = w) →
      (∀ i, decodeWords ws = .ok i → step s = exec i s) ∧
      (∀ st sel, decodeWords ws = .error (.illegal st sel) → 2 < st → step s = issueTrap { code := .illegal, aux := st + 8 * (if st = 5 then sel else 0) } s)) ∧
    (∀ e rest, s.issue = none → s.agenda = e :: rest →
      (∀ s', exec e { s with agenda := rest } = .next s' → step s = .next
        (if s'.putOff = true then { s' with putOff := false, postponed := s'.postponed ++ [e] } else s')) ∧
      ((∀ s', exec e { s with agenda := rest } ≠ .next s') → step s = exec e { s with agenda := rest })) ∧
    (s.issue = none → s.agenda = [] → s.power = true → step s = .next (tick s))

/-- The spec's own worked words decode to the instructions that they stand for (a sanity statement). -/
def Obligations.WorkedWordsDecode : Prop :=
  let g : Guard := ⟨0, false⟩
  let c : Ctl := ⟨g, false⟩
  decodeWords [0x0000810040300000] = .ok (.iadd c .s false (.v 4) (.v 2) (.v 3)) ∧
  decodeWords [0x002901C020200000] = .ok (.idiv c .n (.v 7) (.v 1) (.v 2)) ∧
  decodeWords [0x04180240981C0000] = .ok (.sel c (.v 9) 4 (.int 65) (.int 64)) ∧
  decodeWords [0x06000FFFFFFFEC00] = .ok (.movi c .i32 (.v 3) 0xFFFFFFFB) ∧
  decodeWords [0x4019820020201802] = .ok (.ffma c .rdn (.v 8) (.v 1) (.v 2) (.v 3)) ∧
  decodeWords [0x80003FFFFFFFD000] = .ok (.bra g 0x3FFFFFFFD) ∧
  decodeWords [0x801000000000AC18] = .ok (.call g 10 3) ∧
  decodeWords [0xA408008060600801] = .ok (.join g (some 2) 3 (some (.v 6)) 1) ∧
  decodeWords [0xC002002900402000] = .ok (.ld c .b32 .g .normal .raw (.v 5) ⟨4, some 2, 16⟩) ∧
  decodeWords [0xE408600AB0900003] = .ok (.mma g true (some 5) 3 2 true (.s 9)) ∧
  decodeWords [0xFA00010100000000] = .ok (.rdsys g (.v 4) 8 0)

/-- R187, R362, R411, R442, R453: the registers after reset that the spec gives values for; nothing is resident, nothing is in flight, memory lists nothing and has its canonical
form. The clock's origin and the registers of fibres, of which there is none, are the model's (logs 2, 74). -/
def Obligations.ResetState : Prop :=
  let s := State.reset
  (∀ n, (s.core n).ubScratch = 0x080 ∧ (s.core n).ubTiles = 0x0C0 ∧ (s.core n).ubL1 = 0x0F0 ∧ (s.core n).store = []) ∧
  (∀ n, (s.ctx n).st = .idle ∧ (s.ctx n).ignored = 0 ∧ (s.queue n).st = .idle ∧ (s.queue n).wridx = 0) ∧
  s.issue = none ∧ s.agenda = [] ∧ s.postponed = [] ∧ s.bars = [] ∧ s.gathers = [] ∧ s.records = [] ∧ s.sealQ = [] ∧ s.wakes = [] ∧ s.moves = [] ∧
  (∀ n, (s.core n).wcb = [] ∧ (s.core n).l1 = [] ∧ (s.core n).fills = [] ∧ (s.core n).acks = [] ∧ (s.core n).copyQ = [] ∧ (s.core n).allot = []) ∧
  (∀ n, (s.die n).inbox = [] ∧ (s.die n).watches = [] ∧ (s.die n).misses = [] ∧ (s.die n).rdc = [] ∧ (s.quad n).walks = []) ∧
  (∀ n k, (s.part n k).reqs = []) ∧ (∀ pa, s.line pa = {}) ∧
  s.hub.modidSet = false ∧ s.hub.boot = .off ∧ s.fibres = [] ∧ s.teams = [] ∧ s.gangs = [] ∧ s.launches = [] ∧ (∀ a, s.byte a = 0) ∧
  Memory.wf s.mem = true ∧ s.wf

/-- Decoding and encoding agree: the words of every well-formed instruction that has an encoding decode to it, with every operand at every value. -/
def Obligations.DecodeOfEncode : Prop :=
  ∀ i : Instr, wellFormed i = true → encode i ≠ [] → decodeWords (encode i) = .ok i

/-- Every step keeps the canonical form of memory: addresses strictly rising, no byte listed that reads as an unlisted one. -/
def Obligations.MemoryStaysCanonical : Prop :=
  ∀ s s' : State, Memory.wf s.mem = true → step s = .next s' → Memory.wf s'.mem = true
end

