-- ==== Sys2Proof/Laws/Map.lean ====
section
/-! SUPPORT. Laws of the maps of Machine/Map.lean: what each operation leaves to be read, and that each keeps the canonical form. -/

namespace Sys2Proof.Machine

/-! ## Reading after writing -/

theorem look_put {α : Type} (j k : Nat) (v : α) (m : List (Nat × α)) : look j (put k v m) = if j = k then some v else look j m := by
  fun_induction put k v m <;> grind [look]

@[simp] theorem look_put_same {α : Type} (k : Nat) (v : α) (m : List (Nat × α)) : look k (put k v m) = some v := by
  rw [look_put, if_pos rfl]

theorem look_put_ne {α : Type} {k j : Nat} (h : j ≠ k) (v : α) (m : List (Nat × α)) : look j (put k v m) = look j m := by
  rw [look_put, if_neg h]

theorem look_del {α : Type} (j k : Nat) (m : List (Nat × α)) : look j (del k m) = if j = k then none else look j m := by
  fun_induction del k m <;> grind [look]

/-- What a key reads after a write of this one or of another. -/
theorem getD_setD {α : Type} [DecidableEq α] (d : α) (j k : Nat) (v : α) (m : List (Nat × α)) :
    getD d j (setD d k v m) = if j = k then v else getD d j m := by
  grind [getD, setD, look_put, look_del]

@[simp] theorem getD_setD_same {α : Type} [DecidableEq α] (d : α) (k : Nat) (v : α) (m : List (Nat × α)) :
    getD d k (setD d k v m) = v := by
  rw [getD_setD, if_pos rfl]

theorem getD_setD_ne {α : Type} [DecidableEq α] (d : α) {k j : Nat} (h : j ≠ k) (v : α) (m : List (Nat × α)) :
    getD d j (setD d k v m) = getD d j m := by
  rw [getD_setD, if_neg h]

@[simp] theorem getD_put_same {α : Type} (d : α) (k : Nat) (v : α) (m : List (Nat × α)) : getD d k (put k v m) = v := by
  rw [getD, look_put_same, Option.getD_some]

theorem getD_put_ne {α : Type} (d : α) {k j : Nat} (h : j ≠ k) (v : α) (m : List (Nat × α)) : getD d j (put k v m) = getD d j m := by
  rw [getD, look_put_ne h, getD]

/-! ## The canonical form -/

/-- Strictly rising keys, said of every two entries. -/
theorem rising_iff {α : Type} (m : List (Nat × α)) : rising m = true ↔ m.Pairwise fun a b => a.1 < b.1 := by
  fun_induction rising m <;> grind [List.pairwise_cons]

theorem mem_put {α : Type} {k : Nat} {v : α} {m : List (Nat × α)} {x : Nat × α} (h : x ∈ put k v m) : x = (k, v) ∨ x ∈ m := by
  fun_induction put k v m <;> grind

theorem rising_put {α : Type} (k : Nat) (v : α) {m : List (Nat × α)} (h : rising m = true) : rising (put k v m) = true := by
  rw [rising_iff] at h ⊢
  fun_induction put k v m <;> grind [List.pairwise_cons, → mem_put]

theorem del_eq_filter {α : Type} (k : Nat) (m : List (Nat × α)) : del k m = m.filter fun e => e.1 != k := by
  fun_induction del k m <;> grind

theorem rising_filter {α : Type} (p : Nat × α → Bool) {m : List (Nat × α)} (h : rising m = true) : rising (m.filter p) = true :=
  (rising_iff _).2 (((rising_iff _).1 h).filter p)

/-- The canonical form: rising keys, and no entry that holds the default. -/
theorem canon_iff {α : Type} [DecidableEq α] (d : α) (m : List (Nat × α)) :
    canon d m = true ↔ rising m = true ∧ ∀ e ∈ m, e.2 ≠ d := by
  simp [canon, List.all_eq_true]

@[simp] theorem canon_nil {α : Type} [DecidableEq α] (d : α) : canon d ([] : List (Nat × α)) = true := rfl

theorem canon_filter {α : Type} [DecidableEq α] {d : α} (p : Nat × α → Bool) {m : List (Nat × α)} (h : canon d m = true) :
    canon d (m.filter p) = true := by
  grind [canon_iff, rising_filter]

theorem canon_put {α : Type} [DecidableEq α] {d v : α} (k : Nat) (hv : v ≠ d) {m : List (Nat × α)} (h : canon d m = true) :
    canon d (put k v m) = true := by
  grind [canon_iff, rising_put, → mem_put]

theorem canon_setD {α : Type} [DecidableEq α] {d : α} (k : Nat) (v : α) {m : List (Nat × α)} (h : canon d m = true) :
    canon d (setD d k v m) = true := by
  grind [setD, del_eq_filter, canon_filter, canon_put]

/-- A key below all those of a map reads as nothing there. -/
theorem look_below {α : Type} {k : Nat} {m : List (Nat × α)} (h : ∀ x ∈ m, k < x.1) : look k m = none := by
  fun_induction look k m <;> simp_all

/-- The first entry of a canonical map: below the rest, not the default, and the rest is canonical. -/
theorem canon_cons {α : Type} [DecidableEq α] {d : α} {e : Nat × α} {t : List (Nat × α)} :
    canon d (e :: t) = true ↔ (∀ x ∈ t, e.1 < x.1) ∧ e.2 ≠ d ∧ canon d t = true := by
  grind [canon_iff, rising_iff, List.pairwise_cons]

/-- The entry that a map begins with is what its key reads. -/
theorem getD_cons {α : Type} (d : α) (k : Nat) (e : Nat × α) (t : List (Nat × α)) : getD d k (e :: t) = if k = e.1 then e.2 else getD d k t := by
  grind [getD, look]

/-- Below its first key a map reads as the default. -/
theorem getD_below {α : Type} (d : α) {k : Nat} {m : List (Nat × α)} (h : ∀ x ∈ m, k < x.1) : getD d k m = d := by
  rw [getD, look_below h, Option.getD_none]

/-- Two canonical maps that read alike are the same list. -/
theorem canon_ext {α : Type} [DecidableEq α] {d : α} {m n : List (Nat × α)} (hm : canon d m = true) (hn : canon d n = true)
    (h : ∀ k, getD d k m = getD d k n) : m = n := by
  induction m generalizing n with
  | nil => cases n with
    | nil => rfl
    | cons e' t' =>
      have first := h e'.1
      rw [canon_cons] at hn
      grind [getD_cons, getD_below]
  | cons e t ih =>
    cases n with
    | nil =>
      have first := h e.1
      rw [canon_cons] at hm
      grind [getD_cons, getD_below]
    | cons e' t' =>
      have first := h e.1
      have other := h e'.1
      rw [canon_cons] at hm hn
      simp only [getD_cons, if_true] at first other
      have same : e = e' := by grind [getD_below]
      subst same
      refine congrArg _ (ih hm.2.2 hn.2.2 fun k => ?_)
      have rest := h k
      simp only [getD_cons] at rest
      grind [getD_below]

end Sys2Proof.Machine
end

