-- ==== Sys2Proof/Laws/Issue.lean ====
section
/-! SUPPORT. What an issue leaves when the gang passes its instruction whole: the lemmas that statements about an instruction cite instead of
unfolding the settlement. -/

namespace Sys2Proof.Machine

/-! ## The fates of the gang's fibres -/

theorem weave_go (i : Instr) (es : List Ex) (W : Ex → Out) (h : ∀ e ∈ es, e.pre = none) :
    weave i es ((es.filter (runs i)).map fun e => Act.go (W e)) =
      es.map fun e => (e, Act.go (if runs i e then W e else { f := e.f })) := by
  induction es with
  | nil => rfl
  | cons first later ih =>
    rw [List.forall_mem_cons] at h
    cases hr : runs i first <;> simp [weave, hr, ih h.2, skipAct, h.1]

theorem sregWrites_none (l : List (Ex × Act)) (h : ∀ e ∈ l, ∃ o, e.2 = .go o ∧ o.w.sregs = []) : sregWrites l = [] := by
  refine List.foldlRecOn l _ (motive := (· = [])) rfl fun m hm e he => ?_
  obtain ⟨o, ho, hw⟩ := h e he
  simp only [ho, hw, List.foldl_nil, hm]

/-! ## Puts in sequence -/

/-- The fibres with those of a list replaced. -/
def putAll (l : List (Nat × Fibre)) (m : List (Nat × Fibre)) : List (Nat × Fibre) := l.foldl (fun m e => put e.1 e.2 m) m

theorem foldl_setFibre {α : Type} (l : List α) (k : α → Nat) (v : α → Fibre) (s : State) :
    l.foldl (fun s e => s.setFibre (k e) (v e)) s = { s with fibres := putAll (l.map fun e => (k e, v e)) s.fibres } := by
  induction l generalizing s with
  | nil => rfl
  | cons e l ih => rw [List.foldl_cons, ih]; rfl

theorem look_putAll_of_not_mem (l : List (Nat × Fibre)) (m : List (Nat × Fibre)) (k : Nat) (h : ∀ e ∈ l, k ≠ e.1) :
    look k (putAll l m) = look k m :=
  List.foldlRecOn l _ (motive := fun m' => look k m' = look k m) rfl fun _ hm e he => (look_put_ne (h e he) ..).trans hm

theorem look_putAll_of_mem (l : List (Nat × Fibre)) (m : List (Nat × Fibre)) (hn : (l.map (·.1)).Nodup) (e : Nat × Fibre) (he : e ∈ l) :
    look e.1 (putAll l m) = some e.2 := by
  obtain ⟨before, after, rfl⟩ := List.append_of_mem he
  have later : ∀ x ∈ after, e.1 ≠ x.1 := by
    simp only [List.map_append, List.map_cons, List.nodup_append, List.nodup_cons, List.mem_map, not_exists, not_and] at hn
    exact fun x hx same => hn.2.1.1 x hx same.symm
  unfold putAll
  rw [List.foldl_append, List.foldl_cons]
  exact (look_putAll_of_not_mem after _ e.1 later).trans (look_put_same ..)

/-! ## Lists -/

theorem dedupe_const {α : Type} [DecidableEq α] (l : List α) (a : α) (h : ∀ x ∈ l, x = a) : (dedupe l).length ≤ 1 := by
  have few : dedupe l = [] ∨ dedupe l = [a] :=
    List.foldlRecOn l _ (motive := fun acc => acc = [] ∨ acc = [a]) (.inl rfl) fun acc ha x hx => by
      obtain rfl := h x hx
      rcases ha with rfl | rfl <;> simp
  rcases few with e | e <;> simp [e]

theorem insertBy_perm {α : Type} (key : α → Nat) (x : α) (l : List α) : (insertBy key x l).Perm (x :: l) := by
  fun_induction insertBy key x l with
  | case1 | case2 => exact .refl _
  | case3 y t _ ih => exact (ih.cons y).trans (.swap ..)

theorem mem_insertBy {α : Type} (key : α → Nat) (x y : α) (l : List α) : y ∈ insertBy key x l ↔ y = x ∨ y ∈ l := by
  rw [(insertBy_perm key x l).mem_iff, List.mem_cons]

theorem sortBy_perm {α : Type} (key : α → Nat) (l : List α) : (sortBy key l).Perm l := by
  have grown (acc : List α) : (l.foldl (fun acc x => insertBy key x acc) acc).Perm (l ++ acc) := by
    induction l generalizing acc with
    | nil => exact .refl _
    | cons x _ ih => exact (ih _).trans (((insertBy_perm key x acc).append_left _).trans List.perm_middle)
  simpa [sortBy] using grown []

/-! ## The settlement -/

/-- The gang's place in the list of gangs after an issue it passes whole. -/
def gangsAfter (gs : List Gang) (team : Nat) (g' : Gang) : List Gang :=
  ((gs.map fun g => if g.gid == g'.gid then g' else g).map fun g =>
    if g.team == team then { g with members := g.members.filter fun m => !([] : List Nat).contains m.2 } else g).filter (·.members != [])

theorem gangsAfter_eq (gs : List Gang) (team : Nat) (g' : Gang) :
    gangsAfter gs team g' = (gs.map fun g => if g.gid == g'.gid then g' else g).filter (·.members != []) := by
  unfold gangsAfter
  congr 1
  refine (List.map_congr_left fun g _ => ?_).trans (List.map_id _)
  split
  · simp
  · rfl

theorem filterMap_some {α β : Type} (l : List α) (f : α → β) : l.filterMap (fun x => some (f x)) = l.map f :=
  congrFun List.filterMap_eq_map l

theorem filterMap_const_none {α β : Type} (l : List α) : l.filterMap (fun _ => (none : Option β)) = [] :=
  List.filterMap_eq_nil_iff.2 fun _ _ => rfl

theorem foldl_same {α β : Type} (l : List α) (s : β) : l.foldl (fun s _ => s) s = s :=
  List.foldlRecOn l _ (motive := (· = s)) rfl fun _ h _ _ => h

/-- A gang that stays at one PC keeps its members (R150). -/
theorem regang_one {s : State} {g : Gang} {t1 : Team} {kept : List (Nat × Fibre × Nat)} {npc : DWord} (hgang : s.gang g.gid = some g)
    (hteam : s.team g.team = some t1) (hmem : g.members ≠ []) (hpc : ∀ e ∈ kept, e.2.1.pc = npc)
    (hk : ∀ m ∈ g.members, ∃ e ∈ kept, e.2.1.fidx = m.2) :
    regang s g.gid kept false false false false = s.setGang (g.passed t1 s.clock) := by
  have h1 : (dedupe (kept.map fun e => e.2.1.pc)).length ≤ 1 := by
    refine dedupe_const _ npc fun x hx => ?_
    obtain ⟨e, he, rfl⟩ := List.mem_map.1 hx
    exact hpc e he
  have h2 : (g.members.filter fun m => kept.any fun e => e.2.1.fidx == m.2) = g.members := by
    rw [List.filter_eq_self]
    intro m hm
    obtain ⟨e, he, h⟩ := hk m hm
    exact List.any_eq_true.2 ⟨e, he, by simp [h]⟩
  have h3 : (kept.filter fun _ => !true) = [] := by simp
  unfold regang
  simp only [hgang, hteam, h1, decide_true, Bool.not_false, Bool.and_true, Bool.true_or, Bool.true_and, h2, h3, Bool.false_eq_true, if_false,
    if_neg hmem, List.foldl_nil]
  rfl

theorem markRest_none {s : State} {team : Nat} {l : List Nat} (h : ∀ g ∈ s.gangs, g.team = team → ∀ m ∈ g.members, m.2 ∉ l) :
    markRest s team l = s := by
  unfold markRest
  have : (s.gangs.map fun (g : Gang) => if g.team == team && g.members.any fun m => l.contains m.2 then { g with remainder := true } else g) = s.gangs := by
    refine (List.map_congr_left fun g hg => ?_).trans (List.map_id _)
    rw [if_neg]
    · rfl
    · intro hc
      obtain ⟨h1, h2⟩ := Bool.and_eq_true_iff.1 hc
      obtain ⟨m, hm, h3⟩ := List.any_eq_true.1 h2
      exact h g hg (by simpa using h1) m hm (by simpa using h3)
  rw [this]

theorem trapEvent_nil {s : State} {t : Team} {team : Nat} {iss : Option (Nat × Nat)} (h : s.team team = some t) :
    trapEvent s team iss [] = ungang s team [] := by
  unfold trapEvent
  rw [h]
  show ungang (markRest s team []) team [] = _
  rw [markRest_none fun _ _ _ _ _ => List.not_mem_nil]

theorem uniform_none {i : Instr} {s : State} {tid : Nat} {iss : Nat × Nat} {es : List Ex} {O : Ex → Out} (hsw : ∀ e ∈ es, (O e).w.sregs = []) :
    uniform i s tid iss (es.map fun e => (e, Act.go (O e))) = (s, es.map fun e => (e, Act.go (O e))) := by
  unfold uniform
  rw [sregWrites_none]
  · rfl
  · intro e he
    obtain ⟨x, hx, rfl⟩ := List.mem_map.1 he
    exact ⟨_, rfl, hsw x hx⟩

theorem settle_go {i : Instr} {mode : RankMode} {s0 s : State} {t t1 : Team} {g : Gang} {es : List Ex} {O : Ex → Out} {npc : DWord}
    (hteam : s.team t.id = some t1) (hgt : t.id = g.team)
    (hgang : s.gang g.gid = some g) (hmem : g.members ≠ [])
    (hes : ∀ m ∈ g.members, ∃ e ∈ es, e.f.fidx = m.2)
    (hu : uniform i s0 t.id (g.slot, g.issuedAt s0.clock) (es.map fun e => (e, Act.go (O e))) = (s, es.map fun e => (e, Act.go (O e))))
    (hfid : ∀ e ∈ es, (advance i s.clock e (O e)).fidx = e.f.fidx)
    (hpc : ∀ e ∈ es, (advance i s.clock e (O e)).pc = npc)
    (hbrk : Unbroken s t1 npc)
    (hy : yields i (es.map fun e => (e, Act.go (O e))) = false) :
    settle i mode s0 t g (es.map fun e => (e, Act.go (O e))) =
      { s with fibres := putAll (es.map fun e => ((advance i s.clock e (O e)).key, advance i s.clock e (O e))) s.fibres,
               gangs := gangsAfter s.gangs t.id (g.passed t1 s.clock), issue := none } := by
  have hhit : ∀ e ∈ es, brkAt s t1 (advance i s.clock e (O e)) npc = false := by
    intro e _
    unfold brkAt
    rw [hbrk, Bool.and_false]
  have hkeep : (es.map fun e => (e, O e, advance i s.clock e (O e))).filter
      (fun e => !brkAt s t1 e.2.2 e.2.2.pc) =
      es.map fun e => (e, O e, advance i s.clock e (O e)) := by
    rw [List.filter_eq_self]
    intro x hx
    obtain ⟨e, he, rfl⟩ := List.mem_map.1 hx
    simp only [hpc e he, hhit e he, Bool.not_false]
  have hdrop : (es.map fun e => (e, O e, advance i s.clock e (O e))).filter
      (fun e => brkAt s t1 e.2.2 e.2.2.pc) = [] := by
    rw [List.filter_eq_nil_iff]
    intro x hx
    obtain ⟨e, he, rfl⟩ := List.mem_map.1 hx
    simp only [hpc e he, hhit e he, Bool.false_eq_true, not_false_eq_true]
  unfold settle
  extract_lets iss
  rw [show uniform i s0 t.id iss (es.map fun e => (e, Act.go (O e))) = _ from hu]
  simp only [List.filterMap_map, Function.comp_def, filterMap_some, filterMap_const_none, List.foldl_map, foldl_same]
  simp only [hteam, hkeep, hdrop, hy, Bool.false_eq_true, if_false, List.map_nil, List.append_nil, List.foldl_nil, List.map_map,
    Function.comp_def, List.foldl_map, bne_self_eq_false]
  rw [foldl_setFibre, show parts (es.map fun e => (e, Act.go (O e))) = false from by simp [parts, List.any_map]]
  simp only [List.any_nil, Bool.or_false]
  rw [regang_one (t1 := t1) (npc := npc) (by exact hgang) (by rw [← hgt]; exact hteam) hmem]
  · rw [trapEvent_nil (t := t1) (by exact hteam)]
    rfl
  · intro e he
    obtain ⟨x, hx, rfl⟩ := List.mem_map.1 he
    exact hpc x hx
  · intro m hm
    obtain ⟨e, he, h⟩ := hes m hm
    exact ⟨_, List.mem_map_of_mem he, by simpa [hfid e he] using h⟩

/-! ## The gang's fibres -/

theorem Issuing.pre_none {s : State} {i : Instr} {g : Gang} {t : Team} {pc : DWord} (h : Issuing s i g t pc) {e : Ex}
    (he : e ∈ gather s t g i) : ∃ lane f, Member s g t lane f ∧ e = exOf s t i lane f ∧ f.team = t.id ∧ f.pc = pc ∧ e.pre = none := by
  obtain ⟨m, hm, hx⟩ := List.mem_filterMap.1 he
  have hm' := (sortBy_perm _ _).mem_iff.1 hm
  obtain ⟨f, hf, h1, h2, h3, h4, h5⟩ := h.fibre m hm'
  rw [hf] at hx
  refine ⟨m.1, f, ⟨?_, ?_⟩, ?_, h2, h3, ?_⟩
  · rw [h1]; exact hm'
  · rw [h1]; exact hf
  · exact (Option.some.inj hx).symm
  · rw [← Option.some.inj hx]
    show (firstTrap s t f).or (stepOne i f) = none
    rw [h4, h5]; rfl

theorem Issuing.mem_gather {s : State} {i : Instr} {g : Gang} {t : Team} {lane : Nat} {f : Fibre} (hm : Member s g t lane f) :
    exOf s t i lane f ∈ gather s t g i := by
  refine List.mem_filterMap.2 ⟨(lane, f.fidx), (sortBy_perm _ _).mem_iff.2 hm.1, ?_⟩
  rw [hm.2]; rfl

theorem Issuing.gather_fidx {s : State} {i : Instr} {g : Gang} {t : Team} {pc : DWord} (h : Issuing s i g t pc) :
    (gather s t g i).map (·.f.fidx) = (sortBy (·.2) g.members).map (·.2) := by
  have each (l : List (Nat × Nat)) (hl : ∀ m ∈ l, m ∈ g.members) :
      (l.filterMap fun m => (s.fibre (t.key m.2)).map (exOf s t i m.1)).map (·.f.fidx) = l.map (·.2) := by
    rw [List.map_filterMap, ← filterMap_some]
    refine List.filterMap_congr fun m hm => ?_
    obtain ⟨f, hf, h1, -⟩ := h.fibre m (hl m hm)
    rw [hf, ← h1]; rfl
  exact each _ fun m hm => (sortBy_perm _ _).mem_iff.1 hm

theorem Issuing.gather_nodup {s : State} {i : Instr} {g : Gang} {t : Team} {pc : DWord} (h : Issuing s i g t pc) :
    ((gather s t g i).map (·.f.fidx)).Nodup := by
  rw [h.gather_fidx]
  exact ((sortBy_perm _ _).map _).nodup_iff.2 h.nodup

/-- A fibre of the gang has one lane. -/
theorem Issuing.lane_eq {s : State} {i : Instr} {g : Gang} {t : Team} {pc : DWord} (h : Issuing s i g t pc) {a b : Nat} {f : Fibre}
    (ha : Member s g t a f) (hb : Member s g t b f) : a = b := by
  have := List.inj_on_of_nodup_map h.nodup ha.1 hb.1 rfl
  exact congrArg Prod.fst this

/-! ## An instruction that the gang passes whole -/

/-- An instruction that is no release waits for none. -/
theorem releaseWait_none {i : Instr} (h : releaseOf i = none) (s : State) (g : Gang) (es : List Ex) : releaseWait i s g es = none := by
  unfold releaseWait
  rw [h]

/-- Fibres of which some perform a release wait for nothing that all of them together do not. -/
theorem releaseWait_sub {i : Instr} {s : State} {g : Gang} {es sub : List Ex} (hs : ∀ e ∈ sub, e ∈ es) (h : releaseWait i s g es = none) :
    releaseWait i s g sub = none := by
  have late : (es.any fun e => loadsOut s e.f) = false → (sub.any fun e => loadsOut s e.f) = false := fun h =>
    List.any_eq_false.2 fun e he => List.any_eq_false.1 h e (hs e he)
  unfold releaseWait at h ⊢
  cases hr : releaseOf i with
  | none => rfl
  | some sc =>
    by_cases hn : sub = []
    · subst hn; cases sc <;> rfl
    have hne : es ≠ [] := fun hc => hn (List.eq_nil_iff_forall_not_mem.2 fun e he => by have := hs e he; rw [hc] at this; cases this)
    rw [hr] at h
    cases sc <;> try rfl
    · simp only [if_neg hn, if_neg hne, if_true] at h ⊢
      cases hl : es.any fun e => loadsOut s e.f with
      | true => rw [hl] at h; cases h
      | false => rw [late hl]; rfl
    all_goals
      simp only [if_neg hn, if_neg hne, reduceCtorEq, if_false] at h ⊢
      cases hd : drainSince s g.core (g.issuedAt s.clock) with
      | none => rw [hd] at h; cases h
      | some s' =>
        rw [hd] at h
        simp only at h ⊢
        split at h
        · cases h
        · rename_i hc
          simp only [Bool.or_eq_true, not_or, Bool.not_eq_true] at hc
          rw [if_neg]
          simp only [Bool.or_eq_true, not_or, Bool.not_eq_true]
          exact ⟨late hc.1, List.any_eq_false.2 fun e he => List.any_eq_false.1 hc.2 e (hs e he)⟩

theorem mem_releasing {i : Instr} {body : Body} {s : State} {es : List Ex} {e : Ex} (h : e ∈ releasing i body s es) : e ∈ es := by
  unfold releasing at h
  split at h
  · cases h
  · split at h
    · obtain ⟨x, hx, rfl⟩ := List.mem_map.1 h
      exact (List.of_mem_zip (List.mem_filter.1 hx).1).1
    · cases h

/-- A gang whose release has nothing to wait for does not wait, whichever of its fibres perform it. -/
theorem releaseWait_releasing {i : Instr} {body : Body} {s : State} {g : Gang} {es : List Ex} (h : releaseWait i s g es = none) :
    releaseWait i s g (releasing i body s es) = none :=
  releaseWait_sub (fun _ he => mem_releasing he) h

/-- What a fibre of the gang becomes, where `W` gives what it does if it executes. -/
def passWith (i : Instr) (s : State) (t : Team) (W : Ex → Out) (lane : Nat) (f : Fibre) : Fibre :=
  let e := exOf s t i lane f
  advance i s.clock e (if runs i e then W e else { f := e.f })

theorem issueWith_pass_uniform {i : Instr} {mode : RankMode} {body : Body} {s s0 s1 : State} {g : Gang} {t t1 : Team} {pc npc : DWord} {W : Ex → Out}
    (h : Issuing s i g t pc) (hrel : releaseWait i s g ((gather s t g i).filter (runs i)) = none)
    (hb : body ((gather s t g i).filter (runs i)) s = some (s0, ((gather s t g i).filter (runs i)).map fun e => .go (W e)))
    (hc : s1.clock = s.clock) (hf : ∀ m ∈ g.members, s1.fibre (t.key m.2) = s.fibre (t.key m.2)) (hg : s1.gangs = s.gangs) (ht : s1.team t.id = some t1) (hid : t1.id = t.id)
    (hu : uniform i s0 t.id (g.slot, g.issuedAt s0.clock) ((gather s t g i).map fun e => (e, Act.go (if runs i e then W e else { f := e.f }))) =
      (s1, (gather s t g i).map fun e => (e, Act.go (if runs i e then W e else { f := e.f }))))
    (hfx : ∀ lane f, Member s g t lane f → (passWith i s t W lane f).fidx = f.fidx)
    (hft : ∀ lane f, Member s g t lane f → (passWith i s t W lane f).team = f.team)
    (hpc : ∀ lane f, Member s g t lane f → (passWith i s t W lane f).pc = npc)
    (hy : yields i ((gather s t g i).map fun e => (e, Act.go (if runs i e then W e else { f := e.f }))) = false)
    (hbrk : Unbroken s1 t1 npc) :
    ∃ s', issueWith i mode body s = .next s' ∧ Passed s1 s' g t1 (passWith i s t W) := by
  have hall : weave i (gather s t g i) (((gather s t g i).filter (runs i)).map fun e => .go (W e)) =
      (gather s t g i).map fun e => (e, Act.go (if runs i e then W e else { f := e.f })) :=
    weave_go i _ W fun e he => (h.pre_none he).elim fun _ h => h.elim fun _ h => h.2.2.2.2
  have hkey : ∀ lane f, Member s g t lane f → f.team = t.id → (passWith i s t W lane f).key = t.key f.fidx := by
    intro lane f hm ht
    unfold Fibre.key Team.key
    rw [hft lane f hm, hfx lane f hm, ht]
  have hset := settle_go (i := i) (mode := mode) (s0 := s0) (s := s1) (t := t) (t1 := t1) (g := g) (es := gather s t g i)
    (O := fun e => if runs i e then W e else { f := e.f }) (npc := npc) ht h.tid (by rw [State.gang, hg]; exact h.gang) h.full
    (by
      intro m hm
      obtain ⟨f, hf, h1, -⟩ := h.fibre m hm
      have hmm : Member s g t m.1 f := ⟨by rw [h1]; exact hm, by rw [h1]; exact hf⟩
      exact ⟨_, Issuing.mem_gather hmm, h1⟩)
    hu
    (by
      intro e he
      obtain ⟨lane, f, hm, rfl, -⟩ := h.pre_none he
      rw [hc]; exact hfx lane f hm)
    (by
      intro e he
      obtain ⟨lane, f, hm, rfl, -⟩ := h.pre_none he
      rw [hc]; exact hpc lane f hm)
    hbrk hy
  have h0 : issueWith i mode body s = .next (settle i mode s0 t g
      ((gather s t g i).map fun e => (e, Act.go (if runs i e then W e else { f := e.f })))) := by
    unfold issueWith
    simp only [h.issue, h.gang, h.team, releaseWait_releasing hrel, hb, hall]
  rw [hset] at h0
  refine ⟨_, h0, ?_⟩
  · have hnd : ((((gather s t g i).map fun e => ((advance i s1.clock e (if runs i e then W e else { f := e.f })).key,
        advance i s1.clock e (if runs i e then W e else { f := e.f }))).map (·.1))).Nodup := by
      rw [List.map_map]
      have : ((gather s t g i).map fun e => t.key e.f.fidx).Nodup := by
        have := h.gather_nodup
        rw [List.Nodup, List.pairwise_map] at this ⊢
        refine this.imp fun {a b} hab heq => hab ?_
        unfold Team.key at heq; omega
      refine (List.map_congr_left fun e he => ?_) ▸ this
      obtain ⟨lane, f, hm, rfl, hteam, -⟩ := h.pre_none he
      show _ = (advance i s1.clock _ _).key
      rw [hc]
      exact (hkey lane f hm hteam).symm
    have hmem1 : ∀ lane f, Member s1 g t1 lane f → Member s g t lane f := by
      intro lane f hm
      refine ⟨hm.1, ?_⟩
      have := hm.2
      rw [Team.key, hid] at this
      exact (hf _ hm.1).symm.trans this
    have hkid : ∀ n, t1.key n = t.key n := fun n => by unfold Team.key; rw [hid]
    constructor
    · rfl
    · intro lane f hm
      have hm := hmem1 lane f hm
      have he := Issuing.mem_gather (i := i) hm
      obtain ⟨lane', f', hm', heq, hteam, -⟩ := h.pre_none he
      have hff : f = f' := by
        have e1 : f.fidx = f'.fidx := congrArg (·.f.fidx) heq
        have := hm.2
        rw [e1, hm'.2] at this
        exact (Option.some.inj this).symm
      subst hff
      show look _ (putAll _ _) = _
      rw [hkid, ← hkey lane f hm hteam]
      refine look_putAll_of_mem _ _ hnd ((passWith i s t W lane f).key, passWith i s t W lane f) (List.mem_map.2 ⟨_, he, ?_⟩)
      rw [hc]; rfl
    · intro k hk
      show look _ (putAll _ _) = _
      rw [look_putAll_of_not_mem]
      · rfl
      · intro x hx
        obtain ⟨e, he, rfl⟩ := List.mem_map.1 hx
        obtain ⟨lane, f, hm, rfl, hteam, -⟩ := h.pre_none he
        rw [hc]
        show k ≠ (passWith i s t W lane f).key
        rw [hkey lane f hm hteam, ← hkid]
        exact hk _ hm.1
    · show (gangsAfter s1.gangs t.id (g.passed t1 s1.clock)).find? _ = _
      rw [gangsAfter_eq, hg]
      have hgang := h.gang
      unfold State.gang at hgang
      clear * - hgang h
      have hfull := h.full
      clear h
      generalize s.gangs = gs at hgang ⊢
      induction gs with
      | nil => cases hgang
      | cons x l ih =>
        rw [List.find?_cons] at hgang
        by_cases hx : x.gid = g.gid
        · simp only [hx, beq_self_eq_true] at hgang
          cases hgang
          have hne : (g.passed t1 s1.clock).members ≠ [] := hfull
          rw [List.map_cons]
          simp only [Gang.passed, beq_self_eq_true, if_true]
          rw [List.filter_cons_of_pos (by simpa using hfull)]
          simp
        · simp only [beq_eq_false_iff_ne.2 hx] at hgang
          rw [List.map_cons]
          simp only [Gang.passed, beq_eq_false_iff_ne.2 hx, Bool.false_eq_true, if_false]
          rw [List.filter_cons]
          split
          · rw [List.find?_cons]
            simp only [beq_eq_false_iff_ne.2 hx]
            exact ih hgang
          · exact ih hgang
    · intro x hx hne
      show x ∈ gangsAfter s1.gangs t.id (g.passed t1 s1.clock) ↔ _
      rw [gangsAfter_eq, List.mem_filter, List.mem_map]
      constructor
      · rintro ⟨⟨y, hy, rfl⟩, -⟩
        by_cases hxy : y.gid = g.gid
        · exfalso; apply hx
          simp only [Gang.passed, hxy, beq_self_eq_true, if_true]
        · simp only [Gang.passed, beq_eq_false_iff_ne.2 hxy, Bool.false_eq_true, if_false]
          exact hy
      · intro hxs
        refine ⟨⟨x, hxs, ?_⟩, by simpa using hne⟩
        simp only [Gang.passed, beq_eq_false_iff_ne.2 hx, Bool.false_eq_true, if_false]

theorem issueWith_pass {i : Instr} {mode : RankMode} {body : Body} {s s1 : State} {g : Gang} {t t1 : Team} {pc npc : DWord} {W : Ex → Out}
    (h : Issuing s i g t pc) (hrel : releaseWait i s g ((gather s t g i).filter (runs i)) = none)
    (hb : body ((gather s t g i).filter (runs i)) s = some (s1, ((gather s t g i).filter (runs i)).map fun e => .go (W e)))
    (hc : s1.clock = s.clock) (hf : ∀ m ∈ g.members, s1.fibre (t.key m.2) = s.fibre (t.key m.2)) (hg : s1.gangs = s.gangs) (ht : s1.team t.id = some t1) (hid : t1.id = t.id)
    (hw : ∀ lane f, Executes s g t i lane f → (W (exOf s t i lane f)).w.sregs = [])
    (hfx : ∀ lane f, Member s g t lane f → (passWith i s t W lane f).fidx = f.fidx)
    (hft : ∀ lane f, Member s g t lane f → (passWith i s t W lane f).team = f.team)
    (hpc : ∀ lane f, Member s g t lane f → (passWith i s t W lane f).pc = npc)
    (hy : yields i ((gather s t g i).map fun e => (e, Act.go (if runs i e then W e else { f := e.f }))) = false)
    (hbrk : Unbroken s1 t1 npc) :
    ∃ s', issueWith i mode body s = .next s' ∧ Passed s1 s' g t1 (passWith i s t W) := by
  refine issueWith_pass_uniform h hrel hb hc hf hg ht hid (uniform_none fun e he => ?_) hfx hft hpc hy hbrk
  obtain ⟨lane, f, hm, rfl, -⟩ := h.pre_none he
  by_cases hr : runs i (exOf s t i lane f) = true
  · simp only [hr, if_true]; exact hw lane f ⟨hm, hr⟩
  · simp only [hr]; rfl

/-! ## A fibre after an instruction -/

theorem write_eq (f : Fibre) (w : Wr) : f.write w =
    { f with regs := w.regs.foldl (fun m r => setD Reg.zero (f.fb + r.1) r.2 m) f.regs,
             badRegs := w.regs.foldl (fun b r => b.filter (· != f.fb + r.1)) f.badRegs,
             preds := w.preds.foldl (fun p x => setPred p x.1 x.2) f.preds } := by
  have all (l : List (Nat × Reg)) (f : Fibre) : l.foldl (fun f r => f.setReg r.1 r.2) f =
      { f with regs := l.foldl (fun m r => setD Reg.zero (f.fb + r.1) r.2 m) f.regs,
               badRegs := l.foldl (fun b r => b.filter (· != f.fb + r.1)) f.badRegs } := by
    induction l generalizing f with
    | nil => rfl
    | cons r _ ih => exact ih _
  unfold Fibre.write
  rw [all]

theorem advance_fidx (i : Instr) (c : Nat) (e : Ex) (o : Out) : (advance i c e o).fidx = o.f.fidx := by
  unfold advance
  rw [write_eq]
  cases o.next <;> simp only <;> first | rfl | (split <;> rfl)

theorem advance_team (i : Instr) (c : Nat) (e : Ex) (o : Out) : (advance i c e o).team = o.f.team := by
  unfold advance
  rw [write_eq]
  cases o.next <;> simp only <;> first | rfl | (split <;> rfl)

/-- A fibre goes on at the next word, or at the address of its transfer (R16). -/
theorem advance_pc (i : Instr) (c : Nat) (e : Ex) (o : Out) :
    (advance i c e o).pc = o.next.getD (e.f.pc + BitVec.ofNat 64 (8 * words i)) := by
  unfold advance
  rw [write_eq]
  cases o.next <;> simp only <;> first | rfl | (split <;> rfl)

/-! ## Instructions that change only their own fibre -/

theorem each_eq {b : Ex → State → Option (State × Act)} {A : Ex → Act} {s : State} (es : List Ex) (h : ∀ e ∈ es, e.pre = none)
    (hb : ∀ e ∈ es, b e s = some (s, A e)) : each b es s = some (s, es.map A) := by
  induction es with
  | nil => rfl
  | cons first later ih =>
    rw [List.forall_mem_cons] at h hb
    simp only [each, h.1, hb.1, ih h.2 hb.2, List.map_cons]

theorem each_pure (es : List Ex) (s : State) (A : Ex → Act) (h : ∀ e ∈ es, e.pre = none) :
    each (fun e s => some (s, A e)) es s = some (s, es.map A) :=
  each_eq es h fun _ _ => rfl

/-- Only yield and retry are yield points that a fibre passes and goes on from (R153). -/
theorem yields_go {i : Instr} (hy : ∀ p, i ≠ .yield p) (hr : ∀ p, i ≠ .retry p) (es : List Ex) (O : Ex → Out) :
    yields i (es.map fun e => (e, Act.go (O e))) = false := by
  have : ((es.map fun e => (e, Act.go (O e))).any fun e => e.2 == .over) = false := by
    rw [List.any_eq_false]
    intro x hx
    obtain ⟨e, _, rfl⟩ := List.mem_map.1 hx
    simp
  unfold yields
  rw [this]
  split
  · exact absurd rfl (hy _)
  · exact absurd rfl (hr _)
  · rfl

theorem passWith_pc {i : Instr} {s : State} {g : Gang} {t : Team} {pc : DWord} (h : Issuing s i g t pc) {W : Ex → Out} {lane : Nat} {f : Fibre}
    (hm : Member s g t lane f) :
    (passWith i s t W lane f).pc =
      (if runs i (exOf s t i lane f) then (W (exOf s t i lane f)).next else none).getD (pc + BitVec.ofNat 64 (8 * words i)) := by
  obtain ⟨lane', f', hm', heq, -, hpc, -⟩ := h.pre_none (Issuing.mem_gather (i := i) hm)
  have hff : f.pc = f'.pc := congrArg (·.f.pc) heq
  have h2 : (exOf s t i lane f).f.pc = pc := hff.trans hpc
  rw [passWith, advance_pc, h2]
  by_cases hr : runs i (exOf s t i lane f) = true
  · simp only [hr, if_true]
  · simp only [hr]; rfl

theorem passWith_same {i : Instr} {s : State} {g : Gang} {t : Team} {W : Ex → Out}
    (hf : ∀ lane f, Executes s g t i lane f → (W (exOf s t i lane f)).f.fidx = f.fidx ∧ (W (exOf s t i lane f)).f.team = f.team)
    {lane : Nat} {f : Fibre} (hm : Member s g t lane f) :
    (passWith i s t W lane f).fidx = f.fidx ∧ (passWith i s t W lane f).team = f.team := by
  rw [passWith, advance_fidx, advance_team]
  by_cases hr : runs i (exOf s t i lane f) = true
  · simp only [hr, if_true]; exact hf lane f ⟨hm, hr⟩
  · simp only [hr]; exact ⟨rfl, rfl⟩

/-- An instruction whose bodies leave the machine as it is: its fibres pass it with what each of them does. -/
theorem pure_passes {i : Instr} {mode : RankMode} {b : Ex → State → Option (State × Act)} {s : State} {g : Gang} {t : Team} {pc npc : DWord}
    (W : Ex → Out) (hex : exec i s = issueWith i mode (each b) s) (h : Issuing s i g t pc) (hrel : releaseOf i = none)
    (hA : ∀ lane f, Executes s g t i lane f → b (exOf s t i lane f) s = some (s, .go (W (exOf s t i lane f))))
    (hw : ∀ lane f, Executes s g t i lane f → (W (exOf s t i lane f)).w.sregs = [])
    (hf : ∀ lane f, Executes s g t i lane f → (W (exOf s t i lane f)).f.fidx = f.fidx ∧ (W (exOf s t i lane f)).f.team = f.team)
    (hpc : ∀ lane f, Member s g t lane f → (passWith i s t W lane f).pc = npc)
    (hy : ∀ p, i ≠ .yield p) (hr : ∀ p, i ≠ .retry p) (hb : Unbroken s t npc) :
    ∃ s', exec i s = .next s' ∧ Passed s s' g t (passWith i s t W) := by
  obtain ⟨s', h1, h2⟩ := issueWith_pass (mode := mode) (t1 := t) (W := W) (body := each b) h (releaseWait_none hrel s g _) (npc := npc)
    (each_eq _
      (fun e he => (h.pre_none (List.mem_filter.1 he).1).elim fun _ h => h.elim fun _ h => h.2.2.2.2)
      (fun e he => by
        obtain ⟨he, hr⟩ := List.mem_filter.1 he
        obtain ⟨lane, f, hm, rfl, -⟩ := h.pre_none he
        exact hA lane f ⟨hm, hr⟩))
    rfl (fun _ _ => rfl) rfl (by rw [h.tid]; exact h.team) rfl hw (fun lane f hm => (passWith_same hf hm).1) (fun lane f hm => (passWith_same hf hm).2) hpc
    (yields_go hy hr _ _) hb
  exact ⟨s', by rw [hex]; exact h1, h2⟩

/-- What each fibre does, said of its lane and its state. -/
theorem passWith_eq_goes (i : Instr) (s : State) (t : Team) (W : Ex → Out) (o : Nat → Fibre → Out)
    (h : ∀ lane f, W (exOf s t i lane f) = o lane f) : passWith i s t W = Fibre.goes i s t o := by
  funext lane f
  unfold passWith Fibre.goes Fibre.done
  by_cases hr : runs i (exOf s t i lane f) = true
  · simp only [hr, if_true, h]
  · simp only [hr]; rfl

/-- What a register-only instruction does at a fibre. -/
theorem passWith_eq_pass (i : Instr) (s : State) (t : Team) (w : Nat → Wr) :
    passWith i s t (fun e => { f := e.f, w := w e.f.fidx }) = Fibre.pass i s t w :=
  passWith_eq_goes _ _ _ _ _ fun _ _ => rfl

/-! ## A gang of one fibre -/

theorem Solo.team {i : Instr} {s : State} {g : Gang} {t : Team} {lane : Nat} {f : Fibre} (h : Solo i s g t lane f) : f.team = t.id := by
  obtain ⟨f', hf, h1, h2, -⟩ := h.issuing.fibre (lane, f.fidx) (by rw [h.sole]; exact List.mem_singleton.2 rfl)
  rw [h.here] at hf
  rw [Option.some.inj hf]; exact h2

theorem Solo.gather {i : Instr} {s : State} {g : Gang} {t : Team} {lane : Nat} {f : Fibre} (h : Solo i s g t lane f) :
    gather s t g i = [exOf s t i lane f] := by
  unfold Machine.gather
  rw [h.sole]
  show [(lane, f.fidx)].filterMap _ = _
  rw [List.filterMap_cons, h.here]
  rfl

theorem Solo.pre {i : Instr} {s : State} {g : Gang} {t : Team} {lane : Nat} {f : Fibre} (h : Solo i s g t lane f) :
    (exOf s t i lane f).pre = none := by
  obtain ⟨_, _, _, _, _, _, hp⟩ := h.issuing.pre_none (e := exOf s t i lane f) (by rw [h.gather]; exact List.mem_singleton.2 rfl)
  exact hp

theorem Solo.member {i : Instr} {s : State} {g : Gang} {t : Team} {lane : Nat} {f : Fibre} (h : Solo i s g t lane f) :
    Member s g t lane f := ⟨by rw [h.sole]; exact List.mem_singleton.2 rfl, h.here⟩

theorem Solo.key {i : Instr} {s : State} {g : Gang} {t : Team} {lane : Nat} {f : Fibre} (h : Solo i s g t lane f) :
    f.key = t.key f.fidx := by unfold Fibre.key Team.key; rw [h.team]

/-- What the sole fibre's body answers is the issue's answer. -/
theorem Solo.issue {i : Instr} {s : State} {g : Gang} {t : Team} {lane : Nat} {f : Fibre} (h : Solo i s g t lane f) {mode : RankMode}
    {b : Ex → State → Option (State × Act)} {s1 : State} {a : Act} (hrel : releaseWait i s g [exOf s t i lane f] = none)
    (hb : b (exOf s t i lane f) s = some (s1, a)) :
    issueWith i mode (each b) s = .next (settle i mode s1 t g [(exOf s t i lane f, a)]) := by
  have hr : runs i (exOf s t i lane f) = true := h.guard
  have hp := h.pre
  unfold issueWith
  simp only [h.issuing.issue, h.issuing.gang, h.issuing.team, h.gather]
  rw [List.filter_cons_of_pos hr]
  simp only [List.filter_nil, releaseWait_releasing hrel, each, hp, hb, weave, hr, if_true]

/-- The sole fibre goes on, the machine changed by its body. -/
theorem Solo.passes {i : Instr} {s s1 : State} {g : Gang} {t : Team} {lane : Nat} {f : Fibre} (h : Solo i s g t lane f) {mode : RankMode}
    {b : Ex → State → Option (State × Act)} (hex : exec i s = issueWith i mode (each b) s)
    (hrel : releaseWait i s g [exOf s t i lane f] = none) {o : Out}
    (hb : b (exOf s t i lane f) s = some (s1, .go o))
    (hc : s1.clock = s.clock) (hf : ∀ m ∈ g.members, s1.fibre (t.key m.2) = s.fibre (t.key m.2)) (hg : s1.gangs = s.gangs) (ht : s1.team t.id = some t)
    (hw : o.w.sregs = []) (hfx : o.f.fidx = f.fidx) (hft : o.f.team = f.team)
    (hy : ∀ p, i ≠ .yield p) (hr : ∀ p, i ≠ .retry p)
    (hbrk : Unbroken s1 t (o.next.getD (f.pc + BitVec.ofNat 64 (8 * words i)))) :
    Performs i s g t s1 fun _ _ => o := by
  have hrun : runs i (exOf s t i lane f) = true := h.guard
  have hone : ∀ lane' f', Member s g t lane' f' → lane' = lane ∧ f' = f := by
    intro lane' f' hm
    have := hm.1
    rw [h.sole] at this
    have e1 := List.mem_singleton.1 this
    have e2 : f'.fidx = f.fidx := congrArg Prod.snd e1
    refine ⟨congrArg Prod.fst e1, ?_⟩
    have := hm.2
    rw [e2, h.here] at this
    exact (Option.some.inj this).symm
  have hpw : ∀ lane' f', Member s g t lane' f' → passWith i s t (fun _ => o) lane' f' = advance i s.clock (exOf s t i lane f) o := by
    intro lane' f' hm
    obtain ⟨rfl, rfl⟩ := hone lane' f' hm
    unfold passWith
    simp only [hrun, if_true]
  obtain ⟨s', h1, h2⟩ := issueWith_pass (mode := mode) (t1 := t) (W := fun _ => o) (body := each b) h.issuing
    (by rw [h.gather, List.filter_cons_of_pos hrun]; exact hrel)
    (npc := o.next.getD (f.pc + BitVec.ofNat 64 (8 * words i)))
    (by
      rw [h.gather, List.filter_cons_of_pos hrun]
      simp only [List.filter_nil, each, h.pre, hb, List.map_cons, List.map_nil])
    hc hf hg ht rfl (fun _ _ _ => hw)
    (fun l f' hm => by rw [hpw l f' hm, advance_fidx, hfx, (hone l f' hm).2])
    (fun l f' hm => by rw [hpw l f' hm, advance_team, hft, (hone l f' hm).2])
    (fun l f' hm => by rw [hpw l f' hm, advance_pc]; rfl)
    (yields_go hy hr _ _) hbrk
  refine ⟨s', by rw [hex]; exact h1, ?_⟩
  rw [passWith_eq_goes i s t (fun _ => o) (fun _ _ => o) fun _ _ => rfl] at h2
  exact h2

theorem mem_ungang (s : State) (team : Nat) (h : Gang) : h ∈ (ungang s team []).gangs ↔ h ∈ s.gangs ∧ h.members ≠ [] := by
  show h ∈ (s.gangs.map fun g => if g.team == team then { g with members := g.members.filter fun m => !([] : List Nat).contains m.2 } else g).filter
    (·.members != []) ↔ _
  have : (s.gangs.map fun g => if g.team == team then { g with members := g.members.filter fun m => !([] : List Nat).contains m.2 } else g) = s.gangs := by
    refine (List.map_congr_left fun g _ => ?_).trans (List.map_id _)
    split
    · simp
    · rfl
  rw [this, List.mem_filter]
  simp

/-- A gang from which every fibre has gone is no more. -/
theorem regang_empty {s : State} {g : Gang} (hgang : s.gang g.gid = some g) (ap y tr : Bool) :
    regang s g.gid [] false ap y tr = { s with gangs := s.gangs.filter (·.gid != g.gid) } := by
  unfold regang
  simp only [hgang]
  have h1 : (dedupe (List.map (fun e : Nat × Fibre × Nat => e.2.1.pc) [])).length ≤ 1 := Nat.zero_le _
  cases ap <;> simp only [h1, decide_true, Bool.not_true, Bool.not_false, Bool.and_true, Bool.and_false, Bool.or_false, 
    if_true, List.any_nil, List.filter_false, List.filter_nil, List.foldl_nil]

/-- The sole fibre leaves its gang. -/
theorem Solo.leaves {i : Instr} {s s1 : State} {g : Gang} {t t1 : Team} {lane : Nat} {f : Fibre} (h : Solo i s g t lane f) {mode : RankMode}
    {b : Ex → State → Option (State × Act)} (hex : exec i s = issueWith i mode (each b) s)
    (hrel : releaseWait i s g [exOf s t i lane f] = none) {f' : Fibre}
    (hb : b (exOf s t i lane f) s = some (s1, .leave f')) (hg : s1.gangs = s.gangs) (ht : s1.team t.id = some t1)
    (hy : yields i [(exOf s t i lane f, Act.leave f')] = false) :
    ∃ s', exec i s = .next s' ∧ Left s1 s' g f' := by
  have h0 := h.issue (mode := mode) hrel hb
  rw [hex, h0]
  refine ⟨_, rfl, ?_⟩
  have hset : settle i mode s1 t g [(exOf s t i lane f, .leave f')] =
      (ungang { s1.setFibre f'.key f' with gangs := s1.gangs.filter (·.gid != g.gid) } t.id []).unissue := by
    have hr := regang_empty (s := s1.setFibre f'.key f') (g := g) (by
      show s1.gangs.find? _ = _
      rw [hg]; exact h.issuing.gang) true false false
    unfold settle
    extract_lets iss
    rw [show uniform i s1 t.id iss [(exOf s t i lane f, .leave f')] = (s1, [(exOf s t i lane f, .leave f')]) from rfl]
    simp only [List.filterMap_cons, List.filterMap_nil, List.filter_nil, List.map_nil, List.foldl_nil, List.foldl_cons, List.append_nil, hy,
      Bool.false_eq_true, if_false, bne_self_eq_false]
    simp only [List.any_nil, Bool.or_false]
    rw [show parts [(exOf s t i lane f, Act.leave f')] = true from rfl, hr, trapEvent_nil (t := t1) (by exact ht)]
    rfl
  rw [hset]
  refine ⟨rfl, fun x => ?_⟩
  show x ∈ (ungang _ t.id []).gangs ↔ _
  rw [mem_ungang]
  simp only [List.mem_filter, hg, bne_iff_ne]
  tauto

/-- The sole fibre takes a trap. -/
theorem Solo.traps {i : Instr} {s : State} {g : Gang} {t : Team} {lane : Nat} {f : Fibre} (h : Solo i s g t lane f) {mode : RankMode}
    {b : Ex → State → Option (State × Act)} (hex : exec i s = issueWith i mode (each b) s)
    (hrel : releaseWait i s g [exOf s t i lane f] = none) {x : Trap}
    (hb : b (exOf s t i lane f) s = some (s, .trap x))
    (hstop : x.code = .breakpoint → (s.core t.core).fstop.getLsbD t.slot = false)
    (hy : yields i [(exOf s t i lane f, Act.trap x)] = false) :
    TakesTrap i s g t f x (shimOf s (s.teamLaunch t).ctx i x) := by
  have h0 := h.issue (mode := mode) hrel hb
  have ht : s.team t.id = some t := by rw [h.issuing.tid]; exact h.issuing.team
  unfold TakesTrap
  dsimp only
  rw [hex, h0]
  refine ⟨_, rfl, ?_⟩
  have hr := regang_empty (s := s) (g := g) h.issuing.gang false false true
  have hrt : ∀ a b c d e, (trapRec a x b c d e).trap = x := by intro a b c d e; unfold trapRec; split <;> rfl
  have hns : ∀ (s' : State), s'.cores = s.cores → ∀ a b c d e, stopsOnly s' t (trapRec a x b c d e) = false := by
    intro s' hs a b c d e
    unfold stopsOnly
    rw [hrt]
    by_cases hc : x.code = .breakpoint
    · rw [show (s'.core t.core).fstop.getLsbD t.slot = false from by unfold State.core; rw [hs]; exact hstop hc, Bool.and_false]
    · simp [hc]
  have hfirst : (exOf s t i lane f).first = none := by
    have hp : (firstTrap s t f).or (stepOne i f) = none := h.pre
    show firstTrap s t f = none
    cases hx : firstTrap s t f with
    | none => rfl
    | some y => rw [hx] at hp; cases hp
  have hset : settle i mode s t g [(exOf s t i lane f, .trap x)] =
      (trapEvent { s with gangs := s.gangs.filter (·.gid != g.gid) } t.id (some (g.slot, g.issuedAt s.clock))
        [(f.issuing, trapRec f.issuing x f.pc (restartPc f.issuing) (isTree i) (shimOf s (s.teamLaunch t).ctx i x))]).unissue := by
    unfold settle
    extract_lets iss
    rw [show uniform i s t.id iss [(exOf s t i lane f, .trap x)] = (s, [(exOf s t i lane f, .trap x)]) from rfl]
    simp only [List.filterMap_cons, List.filterMap_nil, List.filter_nil, List.map_nil, List.foldl_nil, List.foldl_cons, List.append_nil, hy,
      Bool.false_eq_true, if_false, bne_self_eq_false, hfirst, Option.isNone_none, Bool.and_true, List.any_cons, List.any_nil,
      hns s rfl, Bool.not_false, Bool.or_false]
    rw [show parts [(exOf s t i lane f, Act.trap x)] = false from rfl, hr]
    rfl
  rw [hset]
  unfold trapEvent
  rw [show ({ s with gangs := s.gangs.filter (·.gid != g.gid) } : State).team t.id = some t from ht]
  generalize hR : trapRec f.issuing x f.pc (restartPc f.issuing) (isTree i) (shimOf s (s.teamLaunch t).ctx i x) = r
  have hns' : stopsOnly { s with gangs := s.gangs.filter (·.gid != g.gid) } t r = false := by rw [← hR]; exact hns _ rfl ..
  have hro : { r with order := 0 } = r := by rw [← hR]; unfold trapRec; split <;> rfl
  have e1 : sortBy (fun e : Fibre × TrapRec => e.1.fidx) [(f.issuing, r)] = [(f.issuing, r)] := rfl
  simp only [e1, List.filter_cons, List.filter_nil, hns', Bool.not_false, if_true, Bool.false_eq_true, if_false, List.foldl_nil,
    List.foldl_cons, List.zipIdx_cons, List.zipIdx_nil, List.map_cons, List.map_nil, hro]
  have e0 : markRest (({ s with gangs := s.gangs.filter (·.gid != g.gid) } : State).setFibre f.issuing.key (raiseTrap f.issuing r)) t.id
      [f.issuing.fidx] = ({ s with gangs := s.gangs.filter (·.gid != g.gid) } : State).setFibre f.issuing.key (raiseTrap f.issuing r) := by
    refine markRest_none fun y hy hyt m hm hmem => ?_
    obtain ⟨hy1, hy2⟩ := List.mem_filter.1 hy
    exact h.alone y hy1 hyt (by simpa using hy2) m hm (List.mem_singleton.1 hmem)
  rw [e0]
  have e2 : (ungang (({ s with gangs := s.gangs.filter (·.gid != g.gid) } : State).setFibre f.issuing.key (raiseTrap f.issuing r)) t.id
      [f.issuing.fidx]).team t.id = some t := ht
  rw [e2]
  refine ⟨?_, fun y => ?_⟩
  · rfl
  · show y ∈ List.filter _ (List.map _ (s.gangs.filter (·.gid != g.gid))) ↔ _
    have e3 : (s.gangs.filter (·.gid != g.gid)).map (fun y =>
        if y.team == t.id then { y with members := y.members.filter fun m => !(List.contains [f.issuing.fidx] m.2) } else y) =
        s.gangs.filter (·.gid != g.gid) := by
      refine (List.map_congr_left fun y hy => ?_).trans (List.map_id _)
      obtain ⟨hy1, hy2⟩ := List.mem_filter.1 hy
      split
      · rename_i hyt
        have : (y.members.filter fun m => !(List.contains [f.issuing.fidx] m.2)) = y.members := by
          rw [List.filter_eq_self]
          intro m hm
          have : m.2 ≠ f.issuing.fidx := h.alone y hy1 (by simpa using hyt) (by simpa using hy2) m hm
          simpa using this
        rw [this]; rfl
      · rfl
    rw [e3, List.mem_filter, List.mem_filter]
    simp only [bne_iff_ne, ne_eq]
    tauto

theorem exec_alu {i : Instr} {ev : Alu} (h : aluOf i = some ev) (s : State) : exec i s = issueAlu i ev s := by
  cases i <;> first | (cases h; rfl) | (simp [aluOf] at h)

/-- What a register-only instruction writes does not depend on what an issue marks in its fibre. -/
theorem alu_issuing {i : Instr} {ev : Alu} (h : aluOf i = some ev) (e : Env) (f : Fibre) : ev e f.issuing = ev e f := by
  cases i
  case vdot8 _ p _ _ _ _ _ => cases h; cases p <;> rfl
  case vl2d8 _ p _ _ _ _ _ => cases h; cases p <;> rfl
  all_goals first | (cases h; rfl) | (simp [aluOf] at h)

theorem alu_no_yield {i : Instr} {ev : Alu} (h : aluOf i = some ev) : (∀ p, i ≠ .yield p) ∧ ∀ p, i ≠ .retry p := by
  constructor <;> (rintro p rfl; simp [aluOf] at h)

end Sys2Proof.Machine
end

