-- ==== Sys2Proof/Laws/Memory.lean ====
section
/-! SUPPORT. What the operations over memory, homes, links and buffers leave alone, and that they keep the canonical form of the memories. -/

namespace Sys2Proof.Machine

/-- Only memories, line metadata, dies, cores, quads, the list of wakes and the next number differ; no core's breakpoint registers or unified store do;
and the canonical form is kept. -/
structure Quiet (s s' : State) : Prop where
  rest  : s' = { s with mem := s'.mem, lines := s'.lines, dies := s'.dies, cores := s'.cores, quads := s'.quads, wakes := s'.wakes,
                        nextId := s'.nextId }
  brk   : ∀ c, (s'.core c).brk = (s.core c).brk
  store : ∀ c, (s'.core c).store = (s.core c).store
  mem   : Memory.wf s.mem = true → Memory.wf s'.mem = true
  lines : canon {} s.lines = true → canon {} s'.lines = true

theorem Quiet.refl (s : State) : Quiet s s := ⟨rfl, fun _ => rfl, fun _ => rfl, id, id⟩

theorem Quiet.trans {a b c : State} (h : Quiet a b) (k : Quiet b c) : Quiet a c :=
  ⟨by rw [k.rest, h.rest], fun n => (k.brk n).trans (h.brk n), fun n => (k.store n).trans (h.store n), fun w => k.mem (h.mem w),
    fun w => k.lines (h.lines w)⟩

theorem Quiet.clock {s s' : State} (h : Quiet s s') : s'.clock = s.clock := by rw [h.rest]
theorem Quiet.fibres {s s' : State} (h : Quiet s s') : s'.fibres = s.fibres := by rw [h.rest]
theorem Quiet.gangs {s s' : State} (h : Quiet s s') : s'.gangs = s.gangs := by rw [h.rest]
theorem Quiet.teams {s s' : State} (h : Quiet s s') : s'.teams = s.teams := by rw [h.rest]
theorem Quiet.launches {s s' : State} (h : Quiet s s') : s'.launches = s.launches := by rw [h.rest]
theorem Quiet.hub {s s' : State} (h : Quiet s s') : s'.hub = s.hub := by rw [h.rest]
theorem Quiet.issue {s s' : State} (h : Quiet s s') : s'.issue = s.issue := by rw [h.rest]

theorem Quiet.foldl {α : Type} {f : State → α → State} (h : ∀ s a, Quiet s (f s a)) (l : List α) (s : State) : Quiet s (l.foldl f s) := by
  induction l generalizing s with
  | nil => exact .refl s
  | cons a l ih => exact (h s a).trans (ih _)

theorem Quiet.ite {s a b : State} {p : Prop} [Decidable p] (ha : Quiet s a) (hb : Quiet s b) : Quiet s (if p then a else b) := by
  split <;> assumption

/-! ## The updates -/

theorem quiet_setDie (s : State) (d : Nat) (x : Die) : Quiet s (s.setDie d x) := ⟨rfl, fun _ => rfl, fun _ => rfl, id, id⟩

theorem quiet_setQuad (s : State) (q : Nat) (x : Quad) : Quiet s (s.setQuad q x) := ⟨rfl, fun _ => rfl, fun _ => rfl, id, id⟩

theorem quiet_nextId (s : State) (n : Nat) : Quiet s { s with nextId := n } := ⟨rfl, fun _ => rfl, fun _ => rfl, id, id⟩

theorem quiet_dies (s : State) (x : List (Nat × Die)) : Quiet s { s with dies := x } := ⟨rfl, fun _ => rfl, fun _ => rfl, id, id⟩

theorem quiet_wakes (s : State) (w : List Wake) : Quiet s { s with wakes := w } := ⟨rfl, fun _ => rfl, fun _ => rfl, id, id⟩

theorem core_setCore (s : State) (c n : Nat) (x : Core) : (s.setCore c x).core n = if n = c then x else s.core n := getD_setD ..

theorem quiet_setCore (s : State) (c : Nat) (x : Core) (hb : x.brk = (s.core c).brk) (hs : x.store = (s.core c).store) :
    Quiet s (s.setCore c x) := by
  refine ⟨rfl, fun n => ?_, fun n => ?_, id, id⟩
  · rw [core_setCore]; split
    · subst_vars; exact hb
    · rfl
  · rw [core_setCore]; split
    · subst_vars; exact hs
    · rfl

theorem quiet_setByte (s : State) (pa : Nat) (b : Byte) : Quiet s (s.setByte pa b) :=
  ⟨rfl, fun _ => rfl, fun _ => rfl, fun h => canon_setD _ _ h, id⟩

theorem quiet_setLine (s : State) (l : Nat) (m : LineMeta) : Quiet s (s.setLine l m) :=
  ⟨rfl, fun _ => rfl, fun _ => rfl, id, fun h => canon_setD _ _ h⟩

/-! ## Homes -/

theorem quiet_wakeLine (s : State) (l : Nat) : Quiet s (wakeLine s l) := by
  unfold wakeLine
  refine .ite (.refl s) ((quiet_setDie s _ _).trans (quiet_wakes _ _))

theorem quiet_pushLine (s : State) (l : Nat) (m : BitVec 128) (d : BitVec 1024) (x : LineMeta) : Quiet s (pushLine s l m d x) :=
  quiet_setDie ..

theorem quiet_homeWrite (s : State) (l : Nat) (m : BitVec 128) (d : BitVec 1024) (bad : BitVec 4) (cl : Bool) :
    Quiet s (homeWrite s l m d bad cl) := by
  unfold homeWrite
  extract_lets m' idx pz src s1 s2 m2 s3 chg s4
  have h1 : Quiet s s1 := .ite (quiet_dies s _) (.refl s)
  split
  · exact h1
  · have h2 : Quiet s1 s2 := .foldl (fun s i => quiet_setByte s _ _) _ _
    have h3 : Quiet s2 s3 := quiet_setLine ..
    have h4 : Quiet s3 s4 := .ite (quiet_pushLine ..) (.refl _)
    exact h1.trans (h2.trans (h3.trans (h4.trans (quiet_wakeLine _ _))))

theorem quiet_homePut (s : State) (pa : Nat) (bs : List Byte) (bad : BitVec 4) (cl : Bool) : Quiet s (homePut s pa bs bad cl) :=
  quiet_homeWrite ..

theorem quiet_homePutAll (s : State) (pa : Nat) (bs : List Byte) : Quiet s (homePutAll s pa bs) := by
  unfold homePutAll
  exact .ite (.refl s) (.foldl (fun s p => quiet_homePut s _ _ _ _) _ _)

/-! ## Links -/

theorem quiet_applyPush (s : State) (d : Nat) (p : Push) : Quiet s (applyPush s d p) := by
  unfold applyPush
  dsimp only
  split
  · exact .refl s
  · exact .ite (quiet_setDie ..) (.refl s)

theorem quiet_deliverTo (s : State) (d : Nat) (v : List Nat) : Quiet s (deliverTo s d v) := by
  unfold deliverTo
  extract_lets x due s1 s2 s3 x3
  have h1 : Quiet s s1 := quiet_setDie ..
  have h2 : Quiet s1 s2 := .foldl (fun s p => quiet_applyPush s d p) _ _
  have h3 : Quiet s2 s3 := .foldl (fun s k => by
    extract_lets y s4
    split
    · exact (quiet_setDie ..).trans (.foldl (fun s p => quiet_applyPush s d p) _ _)
    · exact .refl s) _ _
  exact h1.trans (h2.trans (h3.trans (quiet_setDie ..)))

theorem quiet_reachHome (s : State) (d l : Nat) : Quiet s (reachHome s d l) := .ite (quiet_deliverTo ..) (.refl s)
theorem quiet_reachBack (s : State) (d l : Nat) : Quiet s (reachBack s d l) := .ite (quiet_deliverTo ..) (.refl s)
theorem quiet_visitHome (s : State) (d l : Nat) : Quiet s (visitHome s d l) := (quiet_reachHome s d l).trans (quiet_reachBack _ d l)

/-! ## Buffers, copies and translation -/

theorem quiet_tlbNear (s : State) (c : Nat) (e : TlbEnt) : Quiet s (tlbNear s c e) := by
  unfold tlbNear
  extract_lets x q s1
  have h1 : Quiet s s1 := .ite (.refl s) (quiet_setCore _ _ _ rfl rfl)
  exact h1.trans (.ite (.refl _) (quiet_setQuad ..))

theorem quiet_noteMiss (s : State) (core c : Nat) (va : DWord) : Quiet s (noteMiss s core c va) := by
  unfold noteMiss
  split
  · exact quiet_tlbNear ..
  · exact quiet_setDie ..

theorem quiet_unclaim (s : State) (c l : Nat) : Quiet s (unclaim s c l) := quiet_setDie ..

theorem quiet_freshen (s : State) (c l : Nat) : Quiet s (freshen s c l) := by
  unfold freshen
  extract_lets x s1 d
  have h1 : Quiet s s1 := quiet_setCore _ _ _ rfl rfl
  exact h1.trans (.ite (.refl _) (quiet_setDie ..))

theorem quiet_drainEntry (s : State) (c : Nat) (e : Wcb) : Quiet s (drainEntry s c e) := by
  unfold drainEntry
  extract_lets x s1 s2 s3 s4 s5 s6 d
  have h1 : Quiet s s1 := quiet_setCore _ _ _ rfl rfl
  have h2 : Quiet s1 s2 := quiet_nextId ..
  have h3 : Quiet s2 s3 := quiet_reachHome ..
  have h4 : Quiet s3 s4 := quiet_homeWrite ..
  have h5 : Quiet s4 s5 := quiet_unclaim ..
  have h6 : Quiet s5 s6 := quiet_reachBack ..
  exact h1.trans (h2.trans (h3.trans (h4.trans (h5.trans (h6.trans (.ite (.refl _) (quiet_setDie ..)))))))

theorem quiet_claimEntry (s : State) (c : Nat) (e : Wcb) : Quiet s (claimEntry s c e) := by
  unfold claimEntry
  extract_lets s1 d s2 x
  have h1 : Quiet s s1 := quiet_visitHome ..
  have h2 : Quiet s1 s2 := quiet_setDie ..
  exact .ite (.refl s) (.ite (h1.trans (h2.trans (quiet_setCore _ _ _ rfl rfl))) (.ite (.refl s) (quiet_drainEntry ..)))

theorem quiet_sendAhead (s : State) (c l : Nat) : Quiet s (sendAhead s c l) := .foldl (fun s e => quiet_claimEntry s c e) _ _

theorem quiet_drainLine (s : State) (c l : Nat) : Quiet s (drainLine s c l) := by
  unfold drainLine
  dsimp only
  split
  · exact .refl s
  · split
    · exact quiet_sendAhead ..
    · exact (quiet_sendAhead ..).trans (quiet_drainEntry ..)

theorem quiet_drainAll (s : State) (c : Nat) : Quiet s (drainAll s c) := .foldl (fun s l => quiet_drainLine s c l) _ _
theorem quiet_recallLine (s : State) (l : Nat) : Quiet s (recallLine s l) := .foldl (fun s c => quiet_drainLine s c l) _ _

theorem quiet_storeLine (s : State) (c who pa : Nat) (bs : List Byte) : Quiet s (storeLine s c who pa bs) := by
  unfold storeLine
  extract_lets line o m x all s1 c1 s2 c2
  have h1 : Quiet s s1 := by
    show Quiet s (match look line x.l1 with | none => s | some _ => _)
    split
    · exact .refl s
    · exact quiet_setCore _ _ _ rfl rfl
  refine h1.trans ?_
  split
  · exact quiet_setCore _ _ _ rfl rfl
  · have h2 : Quiet s1 s2 := by
      show Quiet s1 (if _ then _ else _)
      refine .ite ?_ (.refl _)
      split
      · exact quiet_drainLine ..
      · exact .refl _
    exact h2.trans (quiet_setCore _ _ _ rfl rfl)

theorem quiet_coreAsk (s : State) (c l : Nat) : Quiet s (coreAsk s c l) := (quiet_sendAhead s c l).trans (quiet_visitHome ..)

theorem quiet_askFill (s : State) (c l n : Nat) : Quiet s (askFill s c l n) := by
  unfold askFill
  extract_lets s1 x
  have h1 : Quiet s s1 := .ite (.refl s) (quiet_coreAsk s _ _)
  exact h1.trans (quiet_setCore _ _ _ rfl rfl)

theorem quiet_noteFill (s : State) (c l n : Nat) : Quiet s (noteFill s c l n) := .ite (.refl s) (quiet_askFill ..)

theorem quiet_acquireAt (s : State) (c : Nat) (sc : Scope) : Quiet s (acquireAt s c sc) := by
  unfold acquireAt
  split
  · exact .refl s
  · exact .refl s
  · extract_lets s1 c1 s2 d
    have h1 : Quiet s s1 := quiet_drainAll ..
    have h2 : Quiet s1 s2 := quiet_setCore _ _ _ rfl rfl
    exact h1.trans (h2.trans (.ite (quiet_setDie ..) (.refl _)))

theorem quiet_releaseAt (s : State) (c : Nat) (sc : Scope) : Quiet s (releaseAt s c sc) := by
  unfold releaseAt
  cases sc <;> dsimp only
  · exact .refl s
  · exact .refl s
  all_goals exact quiet_drainAll s c

/-! ## The unified store -/

theorem canon_setByte {c : Core} (a : Nat) (b : Byte) (h : canon 0 c.store = true) : canon 0 (c.setByte a b).store = true :=
  canon_setD _ _ h

theorem canon_putBytes {c : Core} (a : Nat) (bs : List Byte) (h : canon 0 c.store = true) : canon 0 (c.putBytes a bs).store = true := by
  unfold Core.putBytes
  generalize bs.zipIdx = l
  show canon 0 (l.foldl (fun c e => c.setByte (a + e.2) e.1) c).store = true
  induction l generalizing c with
  | nil => exact h
  | cons e l ih => exact ih (canon_setByte _ _ h)

theorem canon_zero {c : Core} (a n : Nat) (h : canon 0 c.store = true) : canon 0 (c.zero a n).store = true := canon_filter _ h

/-- A byte of the store after a write. -/
theorem byte_setByte (c : Core) (a n : Nat) (b : Byte) : (c.setByte a b).byte n = if n = a then b else c.byte n := getD_setD ..

/-- A byte of memory after a write. -/
theorem byte_setByte_mem (s : State) (pa n : Nat) (b : Byte) : (s.setByte pa b).byte n = if n = pa then b else s.byte n := getD_setD ..

/-- The memory right after reset has the canonical form. -/
theorem reset_wf : Memory.wf State.reset.mem = true := rfl

end Sys2Proof.Machine
end

