-- ==== Sys2Proof/Laws/State.lean ====
section
/-! SUPPORT. The updates of the state: each leaves every other field as it was, and what it wrote is what is read. -/

namespace Sys2Proof.Machine

/-! ## State.setCore -/

@[simp] theorem clock_setCore (s : State) (c : Nat) (x : Core) : (s.setCore c x).clock = s.clock := rfl
@[simp] theorem epoch_setCore (s : State) (c : Nat) (x : Core) : (s.setCore c x).epoch = s.epoch := rfl
@[simp] theorem agenda_setCore (s : State) (c : Nat) (x : Core) : (s.setCore c x).agenda = s.agenda := rfl
@[simp] theorem issue_setCore (s : State) (c : Nat) (x : Core) : (s.setCore c x).issue = s.issue := rfl
@[simp] theorem nextId_setCore (s : State) (c : Nat) (x : Core) : (s.setCore c x).nextId = s.nextId := rfl
@[simp] theorem free_setCore (s : State) (c : Nat) (x : Core) : (s.setCore c x).free = s.free := rfl
@[simp] theorem power_setCore (s : State) (c : Nat) (x : Core) : (s.setCore c x).power = s.power := rfl
@[simp] theorem mem_setCore (s : State) (c : Nat) (x : Core) : (s.setCore c x).mem = s.mem := rfl
@[simp] theorem lines_setCore (s : State) (c : Nat) (x : Core) : (s.setCore c x).lines = s.lines := rfl
@[simp] theorem fibres_setCore (s : State) (c : Nat) (x : Core) : (s.setCore c x).fibres = s.fibres := rfl
@[simp] theorem teams_setCore (s : State) (c : Nat) (x : Core) : (s.setCore c x).teams = s.teams := rfl
@[simp] theorem gangs_setCore (s : State) (c : Nat) (x : Core) : (s.setCore c x).gangs = s.gangs := rfl
@[simp] theorem quads_setCore (s : State) (c : Nat) (x : Core) : (s.setCore c x).quads = s.quads := rfl
@[simp] theorem dies_setCore (s : State) (c : Nat) (x : Core) : (s.setCore c x).dies = s.dies := rfl
@[simp] theorem ctxs_setCore (s : State) (c : Nat) (x : Core) : (s.setCore c x).ctxs = s.ctxs := rfl
@[simp] theorem launches_setCore (s : State) (c : Nat) (x : Core) : (s.setCore c x).launches = s.launches := rfl
@[simp] theorem queues_setCore (s : State) (c : Nat) (x : Core) : (s.setCore c x).queues = s.queues := rfl
@[simp] theorem hub_setCore (s : State) (c : Nat) (x : Core) : (s.setCore c x).hub = s.hub := rfl
@[simp] theorem hubVc_setCore (s : State) (c : Nat) (x : Core) : (s.setCore c x).hubVc = s.hubVc := rfl
@[simp] theorem records_setCore (s : State) (c : Nat) (x : Core) : (s.setCore c x).records = s.records := rfl
@[simp] theorem sealQ_setCore (s : State) (c : Nat) (x : Core) : (s.setCore c x).sealQ = s.sealQ := rfl
@[simp] theorem gathers_setCore (s : State) (c : Nat) (x : Core) : (s.setCore c x).gathers = s.gathers := rfl
@[simp] theorem bars_setCore (s : State) (c : Nat) (x : Core) : (s.setCore c x).bars = s.bars := rfl
@[simp] theorem wakes_setCore (s : State) (c : Nat) (x : Core) : (s.setCore c x).wakes = s.wakes := rfl

/-! ## State.setQuad -/

@[simp] theorem clock_setQuad (s : State) (q : Nat) (x : Quad) : (s.setQuad q x).clock = s.clock := rfl
@[simp] theorem epoch_setQuad (s : State) (q : Nat) (x : Quad) : (s.setQuad q x).epoch = s.epoch := rfl
@[simp] theorem agenda_setQuad (s : State) (q : Nat) (x : Quad) : (s.setQuad q x).agenda = s.agenda := rfl
@[simp] theorem issue_setQuad (s : State) (q : Nat) (x : Quad) : (s.setQuad q x).issue = s.issue := rfl
@[simp] theorem nextId_setQuad (s : State) (q : Nat) (x : Quad) : (s.setQuad q x).nextId = s.nextId := rfl
@[simp] theorem free_setQuad (s : State) (q : Nat) (x : Quad) : (s.setQuad q x).free = s.free := rfl
@[simp] theorem power_setQuad (s : State) (q : Nat) (x : Quad) : (s.setQuad q x).power = s.power := rfl
@[simp] theorem mem_setQuad (s : State) (q : Nat) (x : Quad) : (s.setQuad q x).mem = s.mem := rfl
@[simp] theorem lines_setQuad (s : State) (q : Nat) (x : Quad) : (s.setQuad q x).lines = s.lines := rfl
@[simp] theorem fibres_setQuad (s : State) (q : Nat) (x : Quad) : (s.setQuad q x).fibres = s.fibres := rfl
@[simp] theorem teams_setQuad (s : State) (q : Nat) (x : Quad) : (s.setQuad q x).teams = s.teams := rfl
@[simp] theorem gangs_setQuad (s : State) (q : Nat) (x : Quad) : (s.setQuad q x).gangs = s.gangs := rfl
@[simp] theorem cores_setQuad (s : State) (q : Nat) (x : Quad) : (s.setQuad q x).cores = s.cores := rfl
@[simp] theorem dies_setQuad (s : State) (q : Nat) (x : Quad) : (s.setQuad q x).dies = s.dies := rfl
@[simp] theorem ctxs_setQuad (s : State) (q : Nat) (x : Quad) : (s.setQuad q x).ctxs = s.ctxs := rfl
@[simp] theorem launches_setQuad (s : State) (q : Nat) (x : Quad) : (s.setQuad q x).launches = s.launches := rfl
@[simp] theorem queues_setQuad (s : State) (q : Nat) (x : Quad) : (s.setQuad q x).queues = s.queues := rfl
@[simp] theorem hub_setQuad (s : State) (q : Nat) (x : Quad) : (s.setQuad q x).hub = s.hub := rfl
@[simp] theorem hubVc_setQuad (s : State) (q : Nat) (x : Quad) : (s.setQuad q x).hubVc = s.hubVc := rfl
@[simp] theorem records_setQuad (s : State) (q : Nat) (x : Quad) : (s.setQuad q x).records = s.records := rfl
@[simp] theorem sealQ_setQuad (s : State) (q : Nat) (x : Quad) : (s.setQuad q x).sealQ = s.sealQ := rfl
@[simp] theorem gathers_setQuad (s : State) (q : Nat) (x : Quad) : (s.setQuad q x).gathers = s.gathers := rfl
@[simp] theorem bars_setQuad (s : State) (q : Nat) (x : Quad) : (s.setQuad q x).bars = s.bars := rfl
@[simp] theorem wakes_setQuad (s : State) (q : Nat) (x : Quad) : (s.setQuad q x).wakes = s.wakes := rfl

/-! ## State.setDie -/

@[simp] theorem clock_setDie (s : State) (d : Nat) (x : Die) : (s.setDie d x).clock = s.clock := rfl
@[simp] theorem epoch_setDie (s : State) (d : Nat) (x : Die) : (s.setDie d x).epoch = s.epoch := rfl
@[simp] theorem agenda_setDie (s : State) (d : Nat) (x : Die) : (s.setDie d x).agenda = s.agenda := rfl
@[simp] theorem issue_setDie (s : State) (d : Nat) (x : Die) : (s.setDie d x).issue = s.issue := rfl
@[simp] theorem nextId_setDie (s : State) (d : Nat) (x : Die) : (s.setDie d x).nextId = s.nextId := rfl
@[simp] theorem free_setDie (s : State) (d : Nat) (x : Die) : (s.setDie d x).free = s.free := rfl
@[simp] theorem power_setDie (s : State) (d : Nat) (x : Die) : (s.setDie d x).power = s.power := rfl
@[simp] theorem mem_setDie (s : State) (d : Nat) (x : Die) : (s.setDie d x).mem = s.mem := rfl
@[simp] theorem lines_setDie (s : State) (d : Nat) (x : Die) : (s.setDie d x).lines = s.lines := rfl
@[simp] theorem fibres_setDie (s : State) (d : Nat) (x : Die) : (s.setDie d x).fibres = s.fibres := rfl
@[simp] theorem teams_setDie (s : State) (d : Nat) (x : Die) : (s.setDie d x).teams = s.teams := rfl
@[simp] theorem gangs_setDie (s : State) (d : Nat) (x : Die) : (s.setDie d x).gangs = s.gangs := rfl
@[simp] theorem cores_setDie (s : State) (d : Nat) (x : Die) : (s.setDie d x).cores = s.cores := rfl
@[simp] theorem quads_setDie (s : State) (d : Nat) (x : Die) : (s.setDie d x).quads = s.quads := rfl
@[simp] theorem ctxs_setDie (s : State) (d : Nat) (x : Die) : (s.setDie d x).ctxs = s.ctxs := rfl
@[simp] theorem launches_setDie (s : State) (d : Nat) (x : Die) : (s.setDie d x).launches = s.launches := rfl
@[simp] theorem queues_setDie (s : State) (d : Nat) (x : Die) : (s.setDie d x).queues = s.queues := rfl
@[simp] theorem hub_setDie (s : State) (d : Nat) (x : Die) : (s.setDie d x).hub = s.hub := rfl
@[simp] theorem hubVc_setDie (s : State) (d : Nat) (x : Die) : (s.setDie d x).hubVc = s.hubVc := rfl
@[simp] theorem records_setDie (s : State) (d : Nat) (x : Die) : (s.setDie d x).records = s.records := rfl
@[simp] theorem sealQ_setDie (s : State) (d : Nat) (x : Die) : (s.setDie d x).sealQ = s.sealQ := rfl
@[simp] theorem gathers_setDie (s : State) (d : Nat) (x : Die) : (s.setDie d x).gathers = s.gathers := rfl
@[simp] theorem bars_setDie (s : State) (d : Nat) (x : Die) : (s.setDie d x).bars = s.bars := rfl
@[simp] theorem wakes_setDie (s : State) (d : Nat) (x : Die) : (s.setDie d x).wakes = s.wakes := rfl

/-! ## State.setCtx -/

@[simp] theorem clock_setCtx (s : State) (c : Nat) (x : Ctx) : (s.setCtx c x).clock = s.clock := rfl
@[simp] theorem epoch_setCtx (s : State) (c : Nat) (x : Ctx) : (s.setCtx c x).epoch = s.epoch := rfl
@[simp] theorem agenda_setCtx (s : State) (c : Nat) (x : Ctx) : (s.setCtx c x).agenda = s.agenda := rfl
@[simp] theorem issue_setCtx (s : State) (c : Nat) (x : Ctx) : (s.setCtx c x).issue = s.issue := rfl
@[simp] theorem nextId_setCtx (s : State) (c : Nat) (x : Ctx) : (s.setCtx c x).nextId = s.nextId := rfl
@[simp] theorem free_setCtx (s : State) (c : Nat) (x : Ctx) : (s.setCtx c x).free = s.free := rfl
@[simp] theorem power_setCtx (s : State) (c : Nat) (x : Ctx) : (s.setCtx c x).power = s.power := rfl
@[simp] theorem mem_setCtx (s : State) (c : Nat) (x : Ctx) : (s.setCtx c x).mem = s.mem := rfl
@[simp] theorem lines_setCtx (s : State) (c : Nat) (x : Ctx) : (s.setCtx c x).lines = s.lines := rfl
@[simp] theorem fibres_setCtx (s : State) (c : Nat) (x : Ctx) : (s.setCtx c x).fibres = s.fibres := rfl
@[simp] theorem teams_setCtx (s : State) (c : Nat) (x : Ctx) : (s.setCtx c x).teams = s.teams := rfl
@[simp] theorem gangs_setCtx (s : State) (c : Nat) (x : Ctx) : (s.setCtx c x).gangs = s.gangs := rfl
@[simp] theorem cores_setCtx (s : State) (c : Nat) (x : Ctx) : (s.setCtx c x).cores = s.cores := rfl
@[simp] theorem quads_setCtx (s : State) (c : Nat) (x : Ctx) : (s.setCtx c x).quads = s.quads := rfl
@[simp] theorem dies_setCtx (s : State) (c : Nat) (x : Ctx) : (s.setCtx c x).dies = s.dies := rfl
@[simp] theorem launches_setCtx (s : State) (c : Nat) (x : Ctx) : (s.setCtx c x).launches = s.launches := rfl
@[simp] theorem queues_setCtx (s : State) (c : Nat) (x : Ctx) : (s.setCtx c x).queues = s.queues := rfl
@[simp] theorem hub_setCtx (s : State) (c : Nat) (x : Ctx) : (s.setCtx c x).hub = s.hub := rfl
@[simp] theorem hubVc_setCtx (s : State) (c : Nat) (x : Ctx) : (s.setCtx c x).hubVc = s.hubVc := rfl
@[simp] theorem records_setCtx (s : State) (c : Nat) (x : Ctx) : (s.setCtx c x).records = s.records := rfl
@[simp] theorem sealQ_setCtx (s : State) (c : Nat) (x : Ctx) : (s.setCtx c x).sealQ = s.sealQ := rfl
@[simp] theorem gathers_setCtx (s : State) (c : Nat) (x : Ctx) : (s.setCtx c x).gathers = s.gathers := rfl
@[simp] theorem bars_setCtx (s : State) (c : Nat) (x : Ctx) : (s.setCtx c x).bars = s.bars := rfl
@[simp] theorem wakes_setCtx (s : State) (c : Nat) (x : Ctx) : (s.setCtx c x).wakes = s.wakes := rfl

/-! ## State.setQueue -/

@[simp] theorem clock_setQueue (s : State) (q : Nat) (x : Queue) : (s.setQueue q x).clock = s.clock := rfl
@[simp] theorem epoch_setQueue (s : State) (q : Nat) (x : Queue) : (s.setQueue q x).epoch = s.epoch := rfl
@[simp] theorem agenda_setQueue (s : State) (q : Nat) (x : Queue) : (s.setQueue q x).agenda = s.agenda := rfl
@[simp] theorem issue_setQueue (s : State) (q : Nat) (x : Queue) : (s.setQueue q x).issue = s.issue := rfl
@[simp] theorem nextId_setQueue (s : State) (q : Nat) (x : Queue) : (s.setQueue q x).nextId = s.nextId := rfl
@[simp] theorem free_setQueue (s : State) (q : Nat) (x : Queue) : (s.setQueue q x).free = s.free := rfl
@[simp] theorem power_setQueue (s : State) (q : Nat) (x : Queue) : (s.setQueue q x).power = s.power := rfl
@[simp] theorem mem_setQueue (s : State) (q : Nat) (x : Queue) : (s.setQueue q x).mem = s.mem := rfl
@[simp] theorem lines_setQueue (s : State) (q : Nat) (x : Queue) : (s.setQueue q x).lines = s.lines := rfl
@[simp] theorem fibres_setQueue (s : State) (q : Nat) (x : Queue) : (s.setQueue q x).fibres = s.fibres := rfl
@[simp] theorem teams_setQueue (s : State) (q : Nat) (x : Queue) : (s.setQueue q x).teams = s.teams := rfl
@[simp] theorem gangs_setQueue (s : State) (q : Nat) (x : Queue) : (s.setQueue q x).gangs = s.gangs := rfl
@[simp] theorem cores_setQueue (s : State) (q : Nat) (x : Queue) : (s.setQueue q x).cores = s.cores := rfl
@[simp] theorem quads_setQueue (s : State) (q : Nat) (x : Queue) : (s.setQueue q x).quads = s.quads := rfl
@[simp] theorem dies_setQueue (s : State) (q : Nat) (x : Queue) : (s.setQueue q x).dies = s.dies := rfl
@[simp] theorem ctxs_setQueue (s : State) (q : Nat) (x : Queue) : (s.setQueue q x).ctxs = s.ctxs := rfl
@[simp] theorem launches_setQueue (s : State) (q : Nat) (x : Queue) : (s.setQueue q x).launches = s.launches := rfl
@[simp] theorem hub_setQueue (s : State) (q : Nat) (x : Queue) : (s.setQueue q x).hub = s.hub := rfl
@[simp] theorem hubVc_setQueue (s : State) (q : Nat) (x : Queue) : (s.setQueue q x).hubVc = s.hubVc := rfl
@[simp] theorem records_setQueue (s : State) (q : Nat) (x : Queue) : (s.setQueue q x).records = s.records := rfl
@[simp] theorem sealQ_setQueue (s : State) (q : Nat) (x : Queue) : (s.setQueue q x).sealQ = s.sealQ := rfl
@[simp] theorem gathers_setQueue (s : State) (q : Nat) (x : Queue) : (s.setQueue q x).gathers = s.gathers := rfl
@[simp] theorem bars_setQueue (s : State) (q : Nat) (x : Queue) : (s.setQueue q x).bars = s.bars := rfl
@[simp] theorem wakes_setQueue (s : State) (q : Nat) (x : Queue) : (s.setQueue q x).wakes = s.wakes := rfl

/-! ## State.setFibre -/

@[simp] theorem clock_setFibre (s : State) (k : Nat) (f : Fibre) : (s.setFibre k f).clock = s.clock := rfl
@[simp] theorem epoch_setFibre (s : State) (k : Nat) (f : Fibre) : (s.setFibre k f).epoch = s.epoch := rfl
@[simp] theorem agenda_setFibre (s : State) (k : Nat) (f : Fibre) : (s.setFibre k f).agenda = s.agenda := rfl
@[simp] theorem issue_setFibre (s : State) (k : Nat) (f : Fibre) : (s.setFibre k f).issue = s.issue := rfl
@[simp] theorem nextId_setFibre (s : State) (k : Nat) (f : Fibre) : (s.setFibre k f).nextId = s.nextId := rfl
@[simp] theorem free_setFibre (s : State) (k : Nat) (f : Fibre) : (s.setFibre k f).free = s.free := rfl
@[simp] theorem power_setFibre (s : State) (k : Nat) (f : Fibre) : (s.setFibre k f).power = s.power := rfl
@[simp] theorem mem_setFibre (s : State) (k : Nat) (f : Fibre) : (s.setFibre k f).mem = s.mem := rfl
@[simp] theorem lines_setFibre (s : State) (k : Nat) (f : Fibre) : (s.setFibre k f).lines = s.lines := rfl
@[simp] theorem teams_setFibre (s : State) (k : Nat) (f : Fibre) : (s.setFibre k f).teams = s.teams := rfl
@[simp] theorem gangs_setFibre (s : State) (k : Nat) (f : Fibre) : (s.setFibre k f).gangs = s.gangs := rfl
@[simp] theorem cores_setFibre (s : State) (k : Nat) (f : Fibre) : (s.setFibre k f).cores = s.cores := rfl
@[simp] theorem quads_setFibre (s : State) (k : Nat) (f : Fibre) : (s.setFibre k f).quads = s.quads := rfl
@[simp] theorem dies_setFibre (s : State) (k : Nat) (f : Fibre) : (s.setFibre k f).dies = s.dies := rfl
@[simp] theorem ctxs_setFibre (s : State) (k : Nat) (f : Fibre) : (s.setFibre k f).ctxs = s.ctxs := rfl
@[simp] theorem launches_setFibre (s : State) (k : Nat) (f : Fibre) : (s.setFibre k f).launches = s.launches := rfl
@[simp] theorem queues_setFibre (s : State) (k : Nat) (f : Fibre) : (s.setFibre k f).queues = s.queues := rfl
@[simp] theorem hub_setFibre (s : State) (k : Nat) (f : Fibre) : (s.setFibre k f).hub = s.hub := rfl
@[simp] theorem hubVc_setFibre (s : State) (k : Nat) (f : Fibre) : (s.setFibre k f).hubVc = s.hubVc := rfl
@[simp] theorem records_setFibre (s : State) (k : Nat) (f : Fibre) : (s.setFibre k f).records = s.records := rfl
@[simp] theorem sealQ_setFibre (s : State) (k : Nat) (f : Fibre) : (s.setFibre k f).sealQ = s.sealQ := rfl
@[simp] theorem gathers_setFibre (s : State) (k : Nat) (f : Fibre) : (s.setFibre k f).gathers = s.gathers := rfl
@[simp] theorem bars_setFibre (s : State) (k : Nat) (f : Fibre) : (s.setFibre k f).bars = s.bars := rfl
@[simp] theorem wakes_setFibre (s : State) (k : Nat) (f : Fibre) : (s.setFibre k f).wakes = s.wakes := rfl

/-! ## State.setTeam -/

@[simp] theorem clock_setTeam (s : State) (t : Nat) (x : Team) : (s.setTeam t x).clock = s.clock := rfl
@[simp] theorem epoch_setTeam (s : State) (t : Nat) (x : Team) : (s.setTeam t x).epoch = s.epoch := rfl
@[simp] theorem agenda_setTeam (s : State) (t : Nat) (x : Team) : (s.setTeam t x).agenda = s.agenda := rfl
@[simp] theorem issue_setTeam (s : State) (t : Nat) (x : Team) : (s.setTeam t x).issue = s.issue := rfl
@[simp] theorem nextId_setTeam (s : State) (t : Nat) (x : Team) : (s.setTeam t x).nextId = s.nextId := rfl
@[simp] theorem free_setTeam (s : State) (t : Nat) (x : Team) : (s.setTeam t x).free = s.free := rfl
@[simp] theorem power_setTeam (s : State) (t : Nat) (x : Team) : (s.setTeam t x).power = s.power := rfl
@[simp] theorem mem_setTeam (s : State) (t : Nat) (x : Team) : (s.setTeam t x).mem = s.mem := rfl
@[simp] theorem lines_setTeam (s : State) (t : Nat) (x : Team) : (s.setTeam t x).lines = s.lines := rfl
@[simp] theorem fibres_setTeam (s : State) (t : Nat) (x : Team) : (s.setTeam t x).fibres = s.fibres := rfl
@[simp] theorem gangs_setTeam (s : State) (t : Nat) (x : Team) : (s.setTeam t x).gangs = s.gangs := rfl
@[simp] theorem cores_setTeam (s : State) (t : Nat) (x : Team) : (s.setTeam t x).cores = s.cores := rfl
@[simp] theorem quads_setTeam (s : State) (t : Nat) (x : Team) : (s.setTeam t x).quads = s.quads := rfl
@[simp] theorem dies_setTeam (s : State) (t : Nat) (x : Team) : (s.setTeam t x).dies = s.dies := rfl
@[simp] theorem ctxs_setTeam (s : State) (t : Nat) (x : Team) : (s.setTeam t x).ctxs = s.ctxs := rfl
@[simp] theorem launches_setTeam (s : State) (t : Nat) (x : Team) : (s.setTeam t x).launches = s.launches := rfl
@[simp] theorem queues_setTeam (s : State) (t : Nat) (x : Team) : (s.setTeam t x).queues = s.queues := rfl
@[simp] theorem hub_setTeam (s : State) (t : Nat) (x : Team) : (s.setTeam t x).hub = s.hub := rfl
@[simp] theorem hubVc_setTeam (s : State) (t : Nat) (x : Team) : (s.setTeam t x).hubVc = s.hubVc := rfl
@[simp] theorem records_setTeam (s : State) (t : Nat) (x : Team) : (s.setTeam t x).records = s.records := rfl
@[simp] theorem sealQ_setTeam (s : State) (t : Nat) (x : Team) : (s.setTeam t x).sealQ = s.sealQ := rfl
@[simp] theorem gathers_setTeam (s : State) (t : Nat) (x : Team) : (s.setTeam t x).gathers = s.gathers := rfl
@[simp] theorem bars_setTeam (s : State) (t : Nat) (x : Team) : (s.setTeam t x).bars = s.bars := rfl
@[simp] theorem wakes_setTeam (s : State) (t : Nat) (x : Team) : (s.setTeam t x).wakes = s.wakes := rfl

/-! ## State.setLaunch -/

@[simp] theorem clock_setLaunch (s : State) (l : Nat) (x : Launch) : (s.setLaunch l x).clock = s.clock := rfl
@[simp] theorem epoch_setLaunch (s : State) (l : Nat) (x : Launch) : (s.setLaunch l x).epoch = s.epoch := rfl
@[simp] theorem agenda_setLaunch (s : State) (l : Nat) (x : Launch) : (s.setLaunch l x).agenda = s.agenda := rfl
@[simp] theorem issue_setLaunch (s : State) (l : Nat) (x : Launch) : (s.setLaunch l x).issue = s.issue := rfl
@[simp] theorem nextId_setLaunch (s : State) (l : Nat) (x : Launch) : (s.setLaunch l x).nextId = s.nextId := rfl
@[simp] theorem free_setLaunch (s : State) (l : Nat) (x : Launch) : (s.setLaunch l x).free = s.free := rfl
@[simp] theorem power_setLaunch (s : State) (l : Nat) (x : Launch) : (s.setLaunch l x).power = s.power := rfl
@[simp] theorem mem_setLaunch (s : State) (l : Nat) (x : Launch) : (s.setLaunch l x).mem = s.mem := rfl
@[simp] theorem lines_setLaunch (s : State) (l : Nat) (x : Launch) : (s.setLaunch l x).lines = s.lines := rfl
@[simp] theorem fibres_setLaunch (s : State) (l : Nat) (x : Launch) : (s.setLaunch l x).fibres = s.fibres := rfl
@[simp] theorem teams_setLaunch (s : State) (l : Nat) (x : Launch) : (s.setLaunch l x).teams = s.teams := rfl
@[simp] theorem gangs_setLaunch (s : State) (l : Nat) (x : Launch) : (s.setLaunch l x).gangs = s.gangs := rfl
@[simp] theorem cores_setLaunch (s : State) (l : Nat) (x : Launch) : (s.setLaunch l x).cores = s.cores := rfl
@[simp] theorem quads_setLaunch (s : State) (l : Nat) (x : Launch) : (s.setLaunch l x).quads = s.quads := rfl
@[simp] theorem dies_setLaunch (s : State) (l : Nat) (x : Launch) : (s.setLaunch l x).dies = s.dies := rfl
@[simp] theorem ctxs_setLaunch (s : State) (l : Nat) (x : Launch) : (s.setLaunch l x).ctxs = s.ctxs := rfl
@[simp] theorem queues_setLaunch (s : State) (l : Nat) (x : Launch) : (s.setLaunch l x).queues = s.queues := rfl
@[simp] theorem hub_setLaunch (s : State) (l : Nat) (x : Launch) : (s.setLaunch l x).hub = s.hub := rfl
@[simp] theorem hubVc_setLaunch (s : State) (l : Nat) (x : Launch) : (s.setLaunch l x).hubVc = s.hubVc := rfl
@[simp] theorem records_setLaunch (s : State) (l : Nat) (x : Launch) : (s.setLaunch l x).records = s.records := rfl
@[simp] theorem sealQ_setLaunch (s : State) (l : Nat) (x : Launch) : (s.setLaunch l x).sealQ = s.sealQ := rfl
@[simp] theorem gathers_setLaunch (s : State) (l : Nat) (x : Launch) : (s.setLaunch l x).gathers = s.gathers := rfl
@[simp] theorem bars_setLaunch (s : State) (l : Nat) (x : Launch) : (s.setLaunch l x).bars = s.bars := rfl
@[simp] theorem wakes_setLaunch (s : State) (l : Nat) (x : Launch) : (s.setLaunch l x).wakes = s.wakes := rfl

/-! ## State.setGang -/

@[simp] theorem clock_setGang (s : State) (x : Gang) : (s.setGang x).clock = s.clock := rfl
@[simp] theorem epoch_setGang (s : State) (x : Gang) : (s.setGang x).epoch = s.epoch := rfl
@[simp] theorem agenda_setGang (s : State) (x : Gang) : (s.setGang x).agenda = s.agenda := rfl
@[simp] theorem issue_setGang (s : State) (x : Gang) : (s.setGang x).issue = s.issue := rfl
@[simp] theorem nextId_setGang (s : State) (x : Gang) : (s.setGang x).nextId = s.nextId := rfl
@[simp] theorem free_setGang (s : State) (x : Gang) : (s.setGang x).free = s.free := rfl
@[simp] theorem power_setGang (s : State) (x : Gang) : (s.setGang x).power = s.power := rfl
@[simp] theorem mem_setGang (s : State) (x : Gang) : (s.setGang x).mem = s.mem := rfl
@[simp] theorem lines_setGang (s : State) (x : Gang) : (s.setGang x).lines = s.lines := rfl
@[simp] theorem fibres_setGang (s : State) (x : Gang) : (s.setGang x).fibres = s.fibres := rfl
@[simp] theorem teams_setGang (s : State) (x : Gang) : (s.setGang x).teams = s.teams := rfl
@[simp] theorem cores_setGang (s : State) (x : Gang) : (s.setGang x).cores = s.cores := rfl
@[simp] theorem quads_setGang (s : State) (x : Gang) : (s.setGang x).quads = s.quads := rfl
@[simp] theorem dies_setGang (s : State) (x : Gang) : (s.setGang x).dies = s.dies := rfl
@[simp] theorem ctxs_setGang (s : State) (x : Gang) : (s.setGang x).ctxs = s.ctxs := rfl
@[simp] theorem launches_setGang (s : State) (x : Gang) : (s.setGang x).launches = s.launches := rfl
@[simp] theorem queues_setGang (s : State) (x : Gang) : (s.setGang x).queues = s.queues := rfl
@[simp] theorem hub_setGang (s : State) (x : Gang) : (s.setGang x).hub = s.hub := rfl
@[simp] theorem hubVc_setGang (s : State) (x : Gang) : (s.setGang x).hubVc = s.hubVc := rfl
@[simp] theorem records_setGang (s : State) (x : Gang) : (s.setGang x).records = s.records := rfl
@[simp] theorem sealQ_setGang (s : State) (x : Gang) : (s.setGang x).sealQ = s.sealQ := rfl
@[simp] theorem gathers_setGang (s : State) (x : Gang) : (s.setGang x).gathers = s.gathers := rfl
@[simp] theorem bars_setGang (s : State) (x : Gang) : (s.setGang x).bars = s.bars := rfl
@[simp] theorem wakes_setGang (s : State) (x : Gang) : (s.setGang x).wakes = s.wakes := rfl

/-! ## State.unissue -/

@[simp] theorem clock_unissue (s : State) : (s.unissue).clock = s.clock := rfl
@[simp] theorem epoch_unissue (s : State) : (s.unissue).epoch = s.epoch := rfl
@[simp] theorem agenda_unissue (s : State) : (s.unissue).agenda = s.agenda := rfl
@[simp] theorem nextId_unissue (s : State) : (s.unissue).nextId = s.nextId := rfl
@[simp] theorem free_unissue (s : State) : (s.unissue).free = s.free := rfl
@[simp] theorem power_unissue (s : State) : (s.unissue).power = s.power := rfl
@[simp] theorem mem_unissue (s : State) : (s.unissue).mem = s.mem := rfl
@[simp] theorem lines_unissue (s : State) : (s.unissue).lines = s.lines := rfl
@[simp] theorem fibres_unissue (s : State) : (s.unissue).fibres = s.fibres := rfl
@[simp] theorem teams_unissue (s : State) : (s.unissue).teams = s.teams := rfl
@[simp] theorem gangs_unissue (s : State) : (s.unissue).gangs = s.gangs := rfl
@[simp] theorem cores_unissue (s : State) : (s.unissue).cores = s.cores := rfl
@[simp] theorem quads_unissue (s : State) : (s.unissue).quads = s.quads := rfl
@[simp] theorem dies_unissue (s : State) : (s.unissue).dies = s.dies := rfl
@[simp] theorem ctxs_unissue (s : State) : (s.unissue).ctxs = s.ctxs := rfl
@[simp] theorem launches_unissue (s : State) : (s.unissue).launches = s.launches := rfl
@[simp] theorem queues_unissue (s : State) : (s.unissue).queues = s.queues := rfl
@[simp] theorem hub_unissue (s : State) : (s.unissue).hub = s.hub := rfl
@[simp] theorem hubVc_unissue (s : State) : (s.unissue).hubVc = s.hubVc := rfl
@[simp] theorem records_unissue (s : State) : (s.unissue).records = s.records := rfl
@[simp] theorem sealQ_unissue (s : State) : (s.unissue).sealQ = s.sealQ := rfl
@[simp] theorem gathers_unissue (s : State) : (s.unissue).gathers = s.gathers := rfl
@[simp] theorem bars_unissue (s : State) : (s.unissue).bars = s.bars := rfl
@[simp] theorem wakes_unissue (s : State) : (s.unissue).wakes = s.wakes := rfl

/-! ## State.later -/

@[simp] theorem clock_later (s : State) (i : Instr) : (s.later i).clock = s.clock := rfl
@[simp] theorem epoch_later (s : State) (i : Instr) : (s.later i).epoch = s.epoch := rfl
@[simp] theorem issue_later (s : State) (i : Instr) : (s.later i).issue = s.issue := rfl
@[simp] theorem nextId_later (s : State) (i : Instr) : (s.later i).nextId = s.nextId := rfl
@[simp] theorem free_later (s : State) (i : Instr) : (s.later i).free = s.free := rfl
@[simp] theorem power_later (s : State) (i : Instr) : (s.later i).power = s.power := rfl
@[simp] theorem mem_later (s : State) (i : Instr) : (s.later i).mem = s.mem := rfl
@[simp] theorem lines_later (s : State) (i : Instr) : (s.later i).lines = s.lines := rfl
@[simp] theorem fibres_later (s : State) (i : Instr) : (s.later i).fibres = s.fibres := rfl
@[simp] theorem teams_later (s : State) (i : Instr) : (s.later i).teams = s.teams := rfl
@[simp] theorem gangs_later (s : State) (i : Instr) : (s.later i).gangs = s.gangs := rfl
@[simp] theorem cores_later (s : State) (i : Instr) : (s.later i).cores = s.cores := rfl
@[simp] theorem quads_later (s : State) (i : Instr) : (s.later i).quads = s.quads := rfl
@[simp] theorem dies_later (s : State) (i : Instr) : (s.later i).dies = s.dies := rfl
@[simp] theorem ctxs_later (s : State) (i : Instr) : (s.later i).ctxs = s.ctxs := rfl
@[simp] theorem launches_later (s : State) (i : Instr) : (s.later i).launches = s.launches := rfl
@[simp] theorem queues_later (s : State) (i : Instr) : (s.later i).queues = s.queues := rfl
@[simp] theorem hub_later (s : State) (i : Instr) : (s.later i).hub = s.hub := rfl
@[simp] theorem hubVc_later (s : State) (i : Instr) : (s.later i).hubVc = s.hubVc := rfl
@[simp] theorem records_later (s : State) (i : Instr) : (s.later i).records = s.records := rfl
@[simp] theorem sealQ_later (s : State) (i : Instr) : (s.later i).sealQ = s.sealQ := rfl
@[simp] theorem gathers_later (s : State) (i : Instr) : (s.later i).gathers = s.gathers := rfl
@[simp] theorem bars_later (s : State) (i : Instr) : (s.later i).bars = s.bars := rfl
@[simp] theorem wakes_later (s : State) (i : Instr) : (s.later i).wakes = s.wakes := rfl

/-! ## State.setByte -/

@[simp] theorem clock_setByte (s : State) (pa : Nat) (b : Byte) : (s.setByte pa b).clock = s.clock := rfl
@[simp] theorem epoch_setByte (s : State) (pa : Nat) (b : Byte) : (s.setByte pa b).epoch = s.epoch := rfl
@[simp] theorem agenda_setByte (s : State) (pa : Nat) (b : Byte) : (s.setByte pa b).agenda = s.agenda := rfl
@[simp] theorem issue_setByte (s : State) (pa : Nat) (b : Byte) : (s.setByte pa b).issue = s.issue := rfl
@[simp] theorem nextId_setByte (s : State) (pa : Nat) (b : Byte) : (s.setByte pa b).nextId = s.nextId := rfl
@[simp] theorem free_setByte (s : State) (pa : Nat) (b : Byte) : (s.setByte pa b).free = s.free := rfl
@[simp] theorem power_setByte (s : State) (pa : Nat) (b : Byte) : (s.setByte pa b).power = s.power := rfl
@[simp] theorem lines_setByte (s : State) (pa : Nat) (b : Byte) : (s.setByte pa b).lines = s.lines := rfl
@[simp] theorem fibres_setByte (s : State) (pa : Nat) (b : Byte) : (s.setByte pa b).fibres = s.fibres := rfl
@[simp] theorem teams_setByte (s : State) (pa : Nat) (b : Byte) : (s.setByte pa b).teams = s.teams := rfl
@[simp] theorem gangs_setByte (s : State) (pa : Nat) (b : Byte) : (s.setByte pa b).gangs = s.gangs := rfl
@[simp] theorem cores_setByte (s : State) (pa : Nat) (b : Byte) : (s.setByte pa b).cores = s.cores := rfl
@[simp] theorem quads_setByte (s : State) (pa : Nat) (b : Byte) : (s.setByte pa b).quads = s.quads := rfl
@[simp] theorem dies_setByte (s : State) (pa : Nat) (b : Byte) : (s.setByte pa b).dies = s.dies := rfl
@[simp] theorem ctxs_setByte (s : State) (pa : Nat) (b : Byte) : (s.setByte pa b).ctxs = s.ctxs := rfl
@[simp] theorem launches_setByte (s : State) (pa : Nat) (b : Byte) : (s.setByte pa b).launches = s.launches := rfl
@[simp] theorem queues_setByte (s : State) (pa : Nat) (b : Byte) : (s.setByte pa b).queues = s.queues := rfl
@[simp] theorem hub_setByte (s : State) (pa : Nat) (b : Byte) : (s.setByte pa b).hub = s.hub := rfl
@[simp] theorem hubVc_setByte (s : State) (pa : Nat) (b : Byte) : (s.setByte pa b).hubVc = s.hubVc := rfl
@[simp] theorem records_setByte (s : State) (pa : Nat) (b : Byte) : (s.setByte pa b).records = s.records := rfl
@[simp] theorem sealQ_setByte (s : State) (pa : Nat) (b : Byte) : (s.setByte pa b).sealQ = s.sealQ := rfl
@[simp] theorem gathers_setByte (s : State) (pa : Nat) (b : Byte) : (s.setByte pa b).gathers = s.gathers := rfl
@[simp] theorem bars_setByte (s : State) (pa : Nat) (b : Byte) : (s.setByte pa b).bars = s.bars := rfl
@[simp] theorem wakes_setByte (s : State) (pa : Nat) (b : Byte) : (s.setByte pa b).wakes = s.wakes := rfl

/-! ## State.setLine -/

@[simp] theorem clock_setLine (s : State) (l : Nat) (m : LineMeta) : (s.setLine l m).clock = s.clock := rfl
@[simp] theorem epoch_setLine (s : State) (l : Nat) (m : LineMeta) : (s.setLine l m).epoch = s.epoch := rfl
@[simp] theorem agenda_setLine (s : State) (l : Nat) (m : LineMeta) : (s.setLine l m).agenda = s.agenda := rfl
@[simp] theorem issue_setLine (s : State) (l : Nat) (m : LineMeta) : (s.setLine l m).issue = s.issue := rfl
@[simp] theorem nextId_setLine (s : State) (l : Nat) (m : LineMeta) : (s.setLine l m).nextId = s.nextId := rfl
@[simp] theorem free_setLine (s : State) (l : Nat) (m : LineMeta) : (s.setLine l m).free = s.free := rfl
@[simp] theorem power_setLine (s : State) (l : Nat) (m : LineMeta) : (s.setLine l m).power = s.power := rfl
@[simp] theorem mem_setLine (s : State) (l : Nat) (m : LineMeta) : (s.setLine l m).mem = s.mem := rfl
@[simp] theorem fibres_setLine (s : State) (l : Nat) (m : LineMeta) : (s.setLine l m).fibres = s.fibres := rfl
@[simp] theorem teams_setLine (s : State) (l : Nat) (m : LineMeta) : (s.setLine l m).teams = s.teams := rfl
@[simp] theorem gangs_setLine (s : State) (l : Nat) (m : LineMeta) : (s.setLine l m).gangs = s.gangs := rfl
@[simp] theorem cores_setLine (s : State) (l : Nat) (m : LineMeta) : (s.setLine l m).cores = s.cores := rfl
@[simp] theorem quads_setLine (s : State) (l : Nat) (m : LineMeta) : (s.setLine l m).quads = s.quads := rfl
@[simp] theorem dies_setLine (s : State) (l : Nat) (m : LineMeta) : (s.setLine l m).dies = s.dies := rfl
@[simp] theorem ctxs_setLine (s : State) (l : Nat) (m : LineMeta) : (s.setLine l m).ctxs = s.ctxs := rfl
@[simp] theorem launches_setLine (s : State) (l : Nat) (m : LineMeta) : (s.setLine l m).launches = s.launches := rfl
@[simp] theorem queues_setLine (s : State) (l : Nat) (m : LineMeta) : (s.setLine l m).queues = s.queues := rfl
@[simp] theorem hub_setLine (s : State) (l : Nat) (m : LineMeta) : (s.setLine l m).hub = s.hub := rfl
@[simp] theorem hubVc_setLine (s : State) (l : Nat) (m : LineMeta) : (s.setLine l m).hubVc = s.hubVc := rfl
@[simp] theorem records_setLine (s : State) (l : Nat) (m : LineMeta) : (s.setLine l m).records = s.records := rfl
@[simp] theorem sealQ_setLine (s : State) (l : Nat) (m : LineMeta) : (s.setLine l m).sealQ = s.sealQ := rfl
@[simp] theorem gathers_setLine (s : State) (l : Nat) (m : LineMeta) : (s.setLine l m).gathers = s.gathers := rfl
@[simp] theorem bars_setLine (s : State) (l : Nat) (m : LineMeta) : (s.setLine l m).bars = s.bars := rfl
@[simp] theorem wakes_setLine (s : State) (l : Nat) (m : LineMeta) : (s.setLine l m).wakes = s.wakes := rfl

/-! ## State.setPort -/

@[simp] theorem clock_setPort (s : State) (m : Nat) (p : PodPort) : (s.setPort m p).clock = s.clock := rfl
@[simp] theorem epoch_setPort (s : State) (m : Nat) (p : PodPort) : (s.setPort m p).epoch = s.epoch := rfl
@[simp] theorem agenda_setPort (s : State) (m : Nat) (p : PodPort) : (s.setPort m p).agenda = s.agenda := rfl
@[simp] theorem issue_setPort (s : State) (m : Nat) (p : PodPort) : (s.setPort m p).issue = s.issue := rfl
@[simp] theorem nextId_setPort (s : State) (m : Nat) (p : PodPort) : (s.setPort m p).nextId = s.nextId := rfl
@[simp] theorem free_setPort (s : State) (m : Nat) (p : PodPort) : (s.setPort m p).free = s.free := rfl
@[simp] theorem power_setPort (s : State) (m : Nat) (p : PodPort) : (s.setPort m p).power = s.power := rfl
@[simp] theorem mem_setPort (s : State) (m : Nat) (p : PodPort) : (s.setPort m p).mem = s.mem := rfl
@[simp] theorem lines_setPort (s : State) (m : Nat) (p : PodPort) : (s.setPort m p).lines = s.lines := rfl
@[simp] theorem fibres_setPort (s : State) (m : Nat) (p : PodPort) : (s.setPort m p).fibres = s.fibres := rfl
@[simp] theorem teams_setPort (s : State) (m : Nat) (p : PodPort) : (s.setPort m p).teams = s.teams := rfl
@[simp] theorem gangs_setPort (s : State) (m : Nat) (p : PodPort) : (s.setPort m p).gangs = s.gangs := rfl
@[simp] theorem cores_setPort (s : State) (m : Nat) (p : PodPort) : (s.setPort m p).cores = s.cores := rfl
@[simp] theorem quads_setPort (s : State) (m : Nat) (p : PodPort) : (s.setPort m p).quads = s.quads := rfl
@[simp] theorem dies_setPort (s : State) (m : Nat) (p : PodPort) : (s.setPort m p).dies = s.dies := rfl
@[simp] theorem ctxs_setPort (s : State) (m : Nat) (p : PodPort) : (s.setPort m p).ctxs = s.ctxs := rfl
@[simp] theorem launches_setPort (s : State) (m : Nat) (p : PodPort) : (s.setPort m p).launches = s.launches := rfl
@[simp] theorem queues_setPort (s : State) (m : Nat) (p : PodPort) : (s.setPort m p).queues = s.queues := rfl
@[simp] theorem hubVc_setPort (s : State) (m : Nat) (p : PodPort) : (s.setPort m p).hubVc = s.hubVc := rfl
@[simp] theorem records_setPort (s : State) (m : Nat) (p : PodPort) : (s.setPort m p).records = s.records := rfl
@[simp] theorem sealQ_setPort (s : State) (m : Nat) (p : PodPort) : (s.setPort m p).sealQ = s.sealQ := rfl
@[simp] theorem gathers_setPort (s : State) (m : Nat) (p : PodPort) : (s.setPort m p).gathers = s.gathers := rfl
@[simp] theorem bars_setPort (s : State) (m : Nat) (p : PodPort) : (s.setPort m p).bars = s.bars := rfl
@[simp] theorem wakes_setPort (s : State) (m : Nat) (p : PodPort) : (s.setPort m p).wakes = s.wakes := rfl

/-! ## Reading what was written -/

theorem quad_setQuad (s : State) (q n : Nat) (x : Quad) : (s.setQuad q x).quad n = if n = q then x else s.quad n := getD_setD ..
theorem die_setDie (s : State) (d n : Nat) (x : Die) : (s.setDie d x).die n = if n = d then x else s.die n := getD_setD ..
theorem ctx_setCtx (s : State) (c n : Nat) (x : Ctx) : (s.setCtx c x).ctx n = if n = c then x else s.ctx n := getD_setD ..
theorem queue_setQueue (s : State) (q n : Nat) (x : Queue) : (s.setQueue q x).queue n = if n = q then x else s.queue n := getD_setD ..
theorem line_setLine (s : State) (l n : Nat) (x : LineMeta) : (s.setLine l x).line n = if n = l then x else s.line n := getD_setD ..
theorem port_setPort (s : State) (m n : Nat) (x : PodPort) : (s.setPort m x).port n = if n = m then x else s.port n := getD_setD ..
theorem fibre_setFibre (s : State) (k n : Nat) (x : Fibre) : (s.setFibre k x).fibre n = if n = k then some x else s.fibre n := look_put ..
theorem team_setTeam (s : State) (t n : Nat) (x : Team) : (s.setTeam t x).team n = if n = t then some x else s.team n := look_put ..
theorem launch_setLaunch (s : State) (l n : Nat) (x : Launch) : (s.setLaunch l x).launch n = if n = l then some x else s.launch n := look_put ..

end Sys2Proof.Machine
end

