-- ==== Sys2Proof/Tests/Witness.lean ====
section
/-! SUPPORT. For each statement that has hypotheses, a machine and operands that meet them: one theorem per statement, clause by clause.
The conditions of Sys2Proof/Safety.lean are decided by the checks below. -/

namespace Sys2Proof.Tests
open Sys2Proof Sys2Proof.Machine
set_option Elab.async false

/-! ## Deciding the conditions of an issue -/

/-- What an issue asks of one member of the gang. -/
def memberB (i : Instr) (s : State) (t : Team) (pc : DWord) (m : Nat × Nat) : Bool :=
  (s.fibre (t.key m.2)).any fun f => decide (f.fidx = m.2 ∧ f.team = t.id ∧ f.pc = pc ∧ firstTrap s t f = none ∧ stepOne i f = none)

def issuingB (i : Instr) (s : State) (g : Gang) (t : Team) (pc : DWord) : Bool :=
  decide (s.issue = some g.gid ∧ s.gang g.gid = some g ∧ s.team g.team = some t ∧ t.id = g.team ∧ g.members ≠ [] ∧ (g.members.map (·.2)).Nodup) &&
  g.members.all (memberB i s t pc)

theorem issuing_of {i : Instr} {s : State} {g : Gang} {t : Team} {pc : DWord} (h : issuingB i s g t pc = true) : Issuing s i g t pc := by
  obtain ⟨own, crowd⟩ := Bool.and_eq_true_iff.1 h
  obtain ⟨issue, gang, team, tid, full, nodup⟩ := of_decide_eq_true own
  exact { issue, gang, team, tid, full, nodup,
          fibre := fun m hm =>
            let ⟨f, found, good⟩ := (Option.any_eq_true ..).1 (List.all_eq_true.1 crowd m hm)
            ⟨f, found, of_decide_eq_true good⟩ }

def goesB (i : Instr) (f : Fibre) : Bool := match guardOf i with | some p => guardOk p f.preds | none => true

/-- A condition on every fibre of a gang. -/
def eachB (s : State) (g : Gang) (t : Team) (p : Nat → Fibre → Bool) : Bool :=
  g.members.all fun m => match s.fibre (t.key m.2) with | some f => decide (f.fidx = m.2) && p m.1 f | none => true

theorem each_of {s : State} {g : Gang} {t : Team} {p : Nat → Fibre → Bool} (h : eachB s g t p = true) (lane : Nat) (f : Fibre)
    (hm : Member s g t lane f) : p lane f = true := by
  have := List.all_eq_true.1 h _ hm.1
  simp only [hm.2, Bool.and_eq_true] at this
  exact this.2

theorem allExecute_of {i : Instr} {s : State} {g : Gang} {t : Team} (h : (eachB s g t fun _ f => goesB i f) = true) : AllExecute i s g t :=
  fun lane f hm => ⟨hm, each_of h lane f hm⟩

def unbrokenB (s : State) (t : Team) (pc : DWord) : Bool := !((s.core t.core).brk.any fun r => brkMatches r.2 t.slot pc)

theorem unbroken_of {s : State} {t : Team} {pc : DWord} (h : unbrokenB s t pc = true) : Unbroken s t pc := by
  simpa [unbrokenB, Unbroken] using h

/-- A gang begins at its PC. -/
def beginsB (i : Instr) (s : State) (g : Gang) (t : Team) (pc : DWord) : Bool :=
  issuingB i s g t pc && unbrokenB s t (pc + BitVec.ofNat 64 (8 * words i))

theorem begins_of {i : Instr} {s : State} {g : Gang} {t : Team} {pc : DWord} (h : beginsB i s g t pc = true) : Begins i s g t := by
  simp only [beginsB, Bool.and_eq_true] at h
  exact ⟨pc, issuing_of h.1, unbroken_of h.2⟩

theorem beginAll_of {l : List Instr} {s : State} {g : Gang} {t : Team} {pc : DWord} (h : (l.all fun i => beginsB i s g t pc) = true) :
    ∀ i ∈ l, Begins i s g t := fun i hi => begins_of (List.all_eq_true.1 h i hi)

def wholeB (i : Instr) (s : State) (g : Gang) (t : Team) (q : Fin 8) (c : Crew) : Bool :=
  decide (t.crew q.val = some c) && (eachB s g t fun _ f => goesB i f) && decide (g.ids = liveOf c)

theorem whole_of {i : Instr} {s : State} {g : Gang} {t : Team} {q : Fin 8} {c : Crew} (h : wholeB i s g t q c = true) : WholeCrew i s g t q c := by
  simp only [wholeB, Bool.and_eq_true, decide_eq_true_eq] at h
  exact ⟨h.1.1, allExecute_of h.1.2, h.2⟩

theorem wholeAll_of {l : List Instr} {s : State} {g : Gang} {t : Team} {q : Fin 8} {c : Crew} (h : (l.all fun i => wholeB i s g t q c) = true) :
    ∀ i ∈ l, WholeCrew i s g t q c := fun i hi => whole_of (List.all_eq_true.1 h i hi)

def okB {ε α : Type} [DecidableEq α] (r : Except ε α) (a : α) : Bool := match r with | .ok x => decide (x = a) | .error _ => false

theorem ok_of {ε α : Type} [DecidableEq α] {r : Except ε α} {a : α} (h : okB r a = true) : r = .ok a := by
  unfold okB at h
  split at h
  · rw [of_decide_eq_true h]
  · cases h

/-- What every fibre of a gang reads. -/
theorem reads_of {α : Type} [DecidableEq α] {read : Env → Fibre → Except Trap α} {s : State} {g : Gang} {t : Team} {x : Nat → α}
    (h : (eachB s g t fun lane f => okB (read (envOf s t lane f.fidx) f) (x f.fidx)) = true) (i : Instr) : Reads read i s g t x :=
  fun lane f he => ok_of (each_of h lane f he.1)

/-- No other gang of the team holds the fibre. -/
def aloneB (s : State) (g : Gang) (t : Team) (n : Nat) : Bool :=
  s.gangs.all fun x => decide (x.team = t.id → x.gid ≠ g.gid → ∀ m ∈ x.members, m.2 ≠ n)

def soloB (i : Instr) (s : State) (g : Gang) (t : Team) (lane : Nat) (f : Fibre) : Bool :=
  issuingB i s g t f.pc && decide (g.members = [(lane, f.fidx)] ∧ s.fibre (t.key f.fidx) = some f) && (aloneB s g t f.fidx && goesB i f)

theorem solo_of {i : Instr} {s : State} {g : Gang} {t : Team} {lane : Nat} {f : Fibre} (h : soloB i s g t lane f = true) : Solo i s g t lane f := by
  obtain ⟨ready, lone⟩ := Bool.and_eq_true_iff.1 h
  obtain ⟨begun, place⟩ := Bool.and_eq_true_iff.1 ready
  obtain ⟨alone, goes⟩ := Bool.and_eq_true_iff.1 lone
  have only := of_decide_eq_true place
  exact ⟨issuing_of begun, only.1, only.2, fun x hx => of_decide_eq_true (List.all_eq_true.1 alone x hx), goes⟩

theorem soloAll_of {l : List Instr} {s : State} {g : Gang} {t : Team} {lane : Nat} {f : Fibre} (h : (l.all fun i => soloB i s g t lane f) = true) :
    ∀ i ∈ l, Solo i s g t lane f := fun i hi => solo_of (List.all_eq_true.1 h i hi)

theorem released_of {i : Instr} {s : State} {g : Gang} {t : Team} (h : (releaseWait i s g ((gather s t g i).filter (runs i))).isNone = true) : Released i s g t := by
  simpa [Released] using h

theorem noSreg_v (n : Fin 256) : NoSreg (.v n) := fun _ h => by cases h

theorem noSreg64_pair (n : Fin 128) : NoSreg64 (.pair n) := fun _ h => by cases h

/-! ## The machines of the witnesses -/

def ctl : Ctl := ⟨⟨0, false⟩, false⟩
def gd : Guard := ⟨0, false⟩

/-- v-registers of every tag, with values at the edges of their ranges. -/
def someRegs : List (Nat × Reg) :=
  [(1, ⟨0x80000000, .i32⟩), (2, ⟨0xFFFFFFFF, .i32⟩), (3, ⟨0, .i32⟩), (4, ⟨0x3F800000, .f32⟩), (5, ⟨0x7FC00001, .f32⟩), (6, ⟨0x80000000, .f32⟩),
   (7, ⟨0x7F80FF80, .b16x2⟩), (8, ⟨0x7BFF0001, .h16x2⟩), (9, ⟨0x80007FFF, .t16x2⟩), (10, ⟨0x7F8001FF, .i8x4⟩), (11, ⟨0xFF00807F, .n8x4⟩),
   (12, ⟨0x7F8001FF, .t8x4⟩), (13, ⟨0x3FFFFFFF, .t6x5⟩), (14, ⟨0x00002000, .p64l⟩), (15, ⟨0, .p64h⟩)] ++
  [(16, ⟨40, .n32⟩), (17, ⟨0, .i32⟩), (18, ⟨1, .i32⟩), (19, ⟨128, .i32⟩), (32, ⟨7, .raw⟩), (33, ⟨0xFFFFFFFF, .raw⟩), (34, ⟨5, .n32⟩), (35, ⟨6, .n32⟩)]

def lau : Launch := { id := 1, queue := 0, index := 0, ctx := 0, cls := 2, n := 8, entry := 0x1000, regs := 64, w := 64, seed := 0x123456789ABCDEF0 }

/-- A crew of four of whom the first two live. -/
def four : Crew := { size := 4, members := [0, 4, 8, 12], live := 3, masks := List.replicate 12 { expected := 3 } }

def tm : Team :=
  { id := 2, core := 0, slot := 0, launch := 1, cluster := 0, index := 0, pos := 0, n := 8, w := 64, regBytes := 2048, scrBase := 0x80000, scrSize := 0x4000,
    tileBase := 0xC0000, tileSize := 0x8000, tblBase := 4, tblCount := 8, sregs := [(1, 0x3000), (2, 0x1008), (3, 0x100)], crews := [(1, four)] }

def fib (k : Nat) : Fibre := { fidx := k, team := 2, pc := 0x1000, runPc := 0x1000, fs := 64, seed := 0x0123456789ABCDEF, regs := someRegs, preds := 3, st := .ganged }

def gg (ms : List (Nat × Nat)) : Gang := { gid := 3, core := 0, slot := 0, team := 2, members := ms, formed := 900 }

/-- The tables of context 0, which map the first GiB of its addresses to 0x40000000. -/
def tables : List Host.Cell := [(0x1000, 0x01), (0x1001, 0x20), (0x2000, 0x01), (0x2001, 0x30), (0x3000, 0x5D), (0x3003, 0x40)]

/-- A machine with a team whose gang of these fibres is selected, at clock 1,000, over page tables that map the first GiB of context 0. -/
def mach (fs : List Fibre) : State :=
  { State.reset with
    mem := tables, ctxs := [(0, { root := 0x1000 })],
    clock := 1000, nextId := 100, issue := some 3, launches := [(1, lau)], teams := [(2, tm)],
    fibres := fs.map fun f => (f.key, f), gangs := [gg (fs.zipIdx.map fun f => (f.2, f.1.fidx))] }

/-- A gang of one fibre, and one of two. -/
def m1 : State := mach [fib 0]
def g1 : Gang := gg [(0, 0)]
def f1 : Fibre := fib 0
def m2 : State := mach [fib 0, fib 4]
def g2 : Gang := gg [(0, 0), (1, 4)]

/-! ## Register-only instructions -/

def anAdd : Instr := .iadd ctl .s false (.v 20) (.v 1) (.v 2)

theorem witness_RegisterInstructionsComplete : aluOf anAdd = some (evIadd .s false (.v 20) (.v 1) (.v 2)) ∧ Begins anAdd m2 g2 tm ∧
    ∀ lane f, Executes m2 g2 tm anAdd lane f →
      evIadd .s false (.v 20) (.v 1) (.v 2) (envOf m2 tm lane f.fidx) f = .ok (Wr.one (.v 20) 0x7FFFFFFF .i32) ∧ (Wr.one (.v 20) 0x7FFFFFFF .i32).sregs = [] := by
  refine ⟨rfl, begins_of (pc := 0x1000) (by decide +kernel), fun lane f h => ⟨?_, rfl⟩⟩
  exact reads_of (read := evIadd .s false (.v 20) (.v 1) (.v 2)) (x := fun _ => Wr.one (.v 20) 0x7FFFFFFF .i32) (by decide +kernel) anAdd lane f h

theorem witness_PassedFibres : guardOf (.nop ⟨2, false⟩) = some ⟨2, false⟩ ∧ Begins (.nop ⟨2, false⟩) m2 g2 tm ∧
    ∀ lane f, Member m2 g2 tm lane f → guardOk ⟨2, false⟩ f.preds = false :=
  ⟨rfl, begins_of (pc := 0x1000) (by decide +kernel), fun lane f h => by
    simpa using each_of (p := fun _ f => !guardOk ⟨2, false⟩ f.preds) (by decide +kernel) lane f h⟩

theorem witness_UniformSregWrite : Begins (.iadd ctl .s false (.s 4) (.v 1) (.v 2)) m2 g2 tm ∧ tm.swClk ≠ m2.clock ∧
    (∃ lane f, Executes m2 g2 tm (.iadd ctl .s false (.s 4) (.v 1) (.v 2)) lane f) ∧
    ∀ lane f, Executes m2 g2 tm (.iadd ctl .s false (.s 4) (.v 1) (.v 2)) lane f →
      evIadd .s false (.s 4) (.v 1) (.v 2) (envOf m2 tm lane f.fidx) f = .ok (Wr.one (.s 4) 0x7FFFFFFF .i32) := by
  refine ⟨begins_of (pc := 0x1000) (by decide +kernel), by decide, ⟨0, fib 0, ⟨by decide +kernel, by decide +kernel⟩, rfl⟩, fun lane f h => ?_⟩
  exact reads_of (read := evIadd .s false (.s 4) (.v 1) (.v 2)) (x := fun _ => Wr.one (.s 4) 0x7FFFFFFF .i32) (by decide +kernel) _ lane f h

/-- What the two fibres read: the least integer, the ones and zero, and the F32 values 1 and −0. -/
theorem reads_ints (i : Instr) : ReadsInt (.v 1) i m2 g2 tm (fun _ => 0x80000000) ∧ ReadsInt (.v 2) i m2 g2 tm (fun _ => 0xFFFFFFFF) ∧
    ReadsInt (.v 3) i m2 g2 tm (fun _ => 0) ∧ ReadsAny (.v 1) i m2 g2 tm (fun _ => ⟨0x80000000, .i32, 1, false⟩) ∧
    ReadsAny (.v 16) i m2 g2 tm (fun _ => ⟨40, .n32, 16, false⟩) ∧ ReadsAny (.v 3) i m2 g2 tm (fun _ => ⟨0, .i32, 3, false⟩) :=
  ⟨reads_of (by decide +kernel) i, reads_of (by decide +kernel) i, reads_of (by decide +kernel) i, reads_of (by decide +kernel) i,
    reads_of (by decide +kernel) i, reads_of (by decide +kernel) i⟩

theorem reads_floats (i : Instr) : ReadsTag .f32 (.v 4) i m2 g2 tm (fun _ => 0x3F800000) ∧ ReadsTag .f32 (.v 5) i m2 g2 tm (fun _ => 0x7FC00001) ∧
    ReadsTag .f32 (.v 6) i m2 g2 tm (fun _ => 0x80000000) :=
  ⟨reads_of (by decide +kernel) i, reads_of (by decide +kernel) i, reads_of (by decide +kernel) i⟩

def ints : List Instr :=
  [.iadd ctl .s true (.v 20) (.v 1) (.v 2), .isub ctl .n true (.v 20) (.v 1) (.v 2), .imul ctl .s false (.v 20) (.v 1) (.v 2),
   .imulh ctl .s (.v 20) (.v 1) (.v 2), .imad ctl .n true (.v 20) (.v 1) (.v 2) (.v 3), .imin ctl .s (.v 20) (.v 1) (.v 2),
   .imax ctl .n (.v 20) (.v 1) (.v 2), .iabs ctl true (.v 20) (.v 1), .ineg ctl false (.v 20) (.v 1), .idiv ctl .s (.v 20) (.v 1) (.v 3),
   .irem ctl .s (.v 20) (.v 1) (.v 2)]

theorem witness_IntegerArithmetic : NoSreg (.v 20) ∧ (∀ i ∈ ints, Begins i m2 g2 tm) ∧
    ∀ i, ReadsInt (.v 1) i m2 g2 tm (fun _ => 0x80000000) ∧ ReadsInt (.v 2) i m2 g2 tm (fun _ => 0xFFFFFFFF) ∧ ReadsInt (.v 3) i m2 g2 tm (fun _ => 0) :=
  ⟨noSreg_v _, beginAll_of (pc := 0x1000) (by decide +kernel), fun i => ⟨(reads_ints i).1, (reads_ints i).2.1, (reads_ints i).2.2.1⟩⟩

theorem witness_Comparisons : Begins (.icmp ctl .s .lt (some 3) (.v 1) (.v 2)) m2 g2 tm ∧ Begins (.fcmp ctl .oeq none (.v 5) (.v 6)) m2 g2 tm ∧
    ∀ i, ReadsInt (.v 1) i m2 g2 tm (fun _ => 0x80000000) ∧ ReadsInt (.v 2) i m2 g2 tm (fun _ => 0xFFFFFFFF) ∧
      ReadsTag .f32 (.v 5) i m2 g2 tm (fun _ => 0x7FC00001) ∧ ReadsTag .f32 (.v 6) i m2 g2 tm (fun _ => 0x80000000) :=
  ⟨begins_of (pc := 0x1000) (by decide +kernel), begins_of (pc := 0x1000) (by decide +kernel), fun i =>
    ⟨(reads_ints i).1, (reads_ints i).2.1, (reads_floats i).2.1, (reads_floats i).2.2⟩⟩

def bits : List Instr :=
  [.and ctl (.v 20) (.v 1) (.v 16), .or ctl (.v 20) (.v 1) (.v 16), .xor ctl (.v 20) (.v 1) (.v 16), .andn ctl (.v 20) (.v 1) (.v 16), .not ctl (.v 20) (.v 1),
   .shl ctl (.v 20) (.v 1) (.v 16), .shr ctl (.v 20) (.v 1) (.v 16), .sha ctl (.v 20) (.v 1) (.v 16), .rot ctl (.v 20) (.v 1) (.v 16)]

theorem witness_BitwiseAndShifts : NoSreg (.v 20) ∧ (∀ i ∈ bits, Begins i m2 g2 tm) ∧
    ∀ i, ReadsAny (.v 1) i m2 g2 tm (fun _ => ⟨0x80000000, .i32, 1, false⟩) ∧ ReadsAny (.v 16) i m2 g2 tm (fun _ => ⟨40, .n32, 16, false⟩) :=
  ⟨noSreg_v _, beginAll_of (pc := 0x1000) (by decide +kernel), fun i => ⟨(reads_ints i).2.2.2.1, (reads_ints i).2.2.2.2.1⟩⟩

def fields : List Instr :=
  [.popc ctl (.v 20) (.v 1), .clz ctl (.v 20) (.v 3), .ctz ctl (.v 20) (.v 1), .brev ctl (.v 20) (.v 1), .bfx ctl .s (.v 20) (.v 1) (.v 16),
   .bfi ctl (.v 20) (.v 1) (.v 3) (.v 16)]

theorem witness_BitCountsAndFields : NoSreg (.v 20) ∧ (∀ i ∈ fields, Begins i m2 g2 tm) ∧
    ∀ i, ReadsAny (.v 1) i m2 g2 tm (fun _ => ⟨0x80000000, .i32, 1, false⟩) ∧ ReadsAny (.v 3) i m2 g2 tm (fun _ => ⟨0, .i32, 3, false⟩) ∧
      ReadsAny (.v 16) i m2 g2 tm (fun _ => ⟨40, .n32, 16, false⟩) :=
  ⟨noSreg_v _, beginAll_of (pc := 0x1000) (by decide +kernel), fun i => ⟨(reads_ints i).2.2.2.1, (reads_ints i).2.2.2.2.2, (reads_ints i).2.2.2.2.1⟩⟩

def moves : List Instr :=
  [.lea ctl 4 (.pair 10) (.pair 7) (.v 2), .addc ctl (.pair 10) (.pair 7) (.s 1), .mov ctl (.v 20) (.v 16), .sel ctl (.v 20) 2 (.v 1) (.v 16),
   .plog ctl 6 (some 3) 1 2, .movi ctl .raw (.v 20) 0xFFFFFFFF, .movw ctl (.pair (some 10)) 0x8000000000000000, .movw ctl (.sreg none) 1]

theorem witness_AddressesMovesAndImmediates : NoSreg64 (.pair 10) ∧ (∀ i ∈ moves, Begins i m2 g2 tm) ∧
    (∀ i, ReadsWide (.pair 7) i m2 g2 tm (fun _ => 0x2000) ∧ ReadsWide (.s 1) i m2 g2 tm (fun _ => 0x3000) ∧
      ReadsAny (.v 2) i m2 g2 tm (fun _ => ⟨0xFFFFFFFF, .i32, 2, false⟩) ∧ ReadsAny (.v 16) i m2 g2 tm (fun _ => ⟨40, .n32, 16, false⟩)) ∧
    ∀ i lane f, Executes m2 g2 tm i lane f → predBit f.preds 1 = true ∧ predBit f.preds 2 = false :=
  ⟨noSreg64_pair _, beginAll_of (pc := 0x1000) (by decide +kernel), fun i => ⟨reads_of (by decide +kernel) i, reads_of (by decide +kernel) i,
    reads_of (by decide +kernel) i, reads_of (by decide +kernel) i⟩, fun i lane f h => by
    simpa using each_of (p := fun _ f => predBit f.preds 1 && !predBit f.preds 2) (by decide +kernel) lane f h.1⟩

def floats : List Instr :=
  [.fadd ctl .rne (.v 20) (.v 4) (.v 6), .fsub ctl .rdn (.v 20) (.v 4) (.v 4), .fmul ctl .rtz (.v 20) (.v 4) (.v 6), .ffma ctl .rup (.v 20) (.v 4) (.v 5) (.v 6),
   .fdiv ctl .rne (.v 20) (.v 4) (.v 6), .fsqrt ctl .rne (.v 20) (.v 6), .frcp ctl .rne (.v 20) (.v 6), .fexp2 ctl .rne (.v 20) (.v 4),
   .flog2 ctl .rne (.v 20) (.v 4), .frnd ctl .rdn (.v 20) (.v 6)]

theorem witness_FpArithmetic : NoSreg (.v 20) ∧ (∀ i ∈ floats, Begins i m2 g2 tm) ∧
    ∀ i, ReadsTag .f32 (.v 4) i m2 g2 tm (fun _ => 0x3F800000) ∧ ReadsTag .f32 (.v 5) i m2 g2 tm (fun _ => 0x7FC00001) ∧
      ReadsTag .f32 (.v 6) i m2 g2 tm (fun _ => 0x80000000) :=
  ⟨noSreg_v _, beginAll_of (pc := 0x1000) (by decide +kernel), reads_floats⟩

def signs : List Instr :=
  [.fmin ctl (.v 20) (.v 5) (.v 6), .fmax ctl (.v 20) (.v 4) (.v 6), .fabs ctl (.v 20) (.v 6), .fneg ctl (.v 20) (.v 5), .fcls ctl (.v 20) (.v 6)]

theorem witness_FpMinMaxSignAndClass : NoSreg (.v 20) ∧ (∀ i ∈ signs, Begins i m2 g2 tm) ∧
    ∀ i, ReadsTag .f32 (.v 4) i m2 g2 tm (fun _ => 0x3F800000) ∧ ReadsTag .f32 (.v 5) i m2 g2 tm (fun _ => 0x7FC00001) ∧
      ReadsTag .f32 (.v 6) i m2 g2 tm (fun _ => 0x80000000) :=
  ⟨noSreg_v _, beginAll_of (pc := 0x1000) (by decide +kernel), reads_floats⟩

theorem witness_PackedPairs : NoSreg (.v 20) ∧
    (∀ i ∈ [Instr.hadd ctl .b16 .rne (.v 20) (.v 7) (.v 7), .hmul ctl .h16 .rup (.v 20) (.v 8) (.v 8), .hfma ctl .t16 .rne (.v 20) (.v 9) (.v 9) (.v 9),
      .hmax ctl .t16 (.v 20) (.v 9) (.v 9)], Begins i m2 g2 tm) ∧
    ∀ i, ReadsTag .b16x2 (.v 7) i m2 g2 tm (fun _ => 0x7F80FF80) ∧ ReadsTag .h16x2 (.v 8) i m2 g2 tm (fun _ => 0x7BFF0001) ∧
      ReadsTag .t16x2 (.v 9) i m2 g2 tm (fun _ => 0x80007FFF) :=
  ⟨noSreg_v _, beginAll_of (pc := 0x1000) (by decide +kernel), fun i => ⟨reads_of (by decide +kernel) i, reads_of (by decide +kernel) i, reads_of (by decide +kernel) i⟩⟩

theorem witness_Conversions : NoSreg (.v 20) ∧ Tag.t8x4.count = Tag.n8x4.count ∧ (4 : Fin 5).val < Tag.t6x5.count ∧
    (∀ i ∈ [Instr.cvt ctl .t8x4 .n8x4 .rne (.v 20) (.v 12), .pack ctl .f32 .t6x5 .rne (.v 20) (.v 4) 4 (.v 13), .unpack ctl .t6x5 .f32 .rne (.v 20) (.v 13) 4,
      .retag ctl .f32 (some 20) (.v 1)], Begins i m2 g2 tm) ∧
    ∀ i, ReadsTag .t8x4 (.v 12) i m2 g2 tm (fun _ => 0x7F8001FF) ∧ ReadsTag .t6x5 (.v 13) i m2 g2 tm (fun _ => 0x3FFFFFFF) ∧
      ReadsTag .f32 (.v 4) i m2 g2 tm (fun _ => 0x3F800000) ∧ ReadsAny (.v 1) i m2 g2 tm (fun _ => ⟨0x80000000, .i32, 1, false⟩) :=
  ⟨noSreg_v _, rfl, by decide, beginAll_of (pc := 0x1000) (by decide +kernel), fun i => ⟨reads_of (by decide +kernel) i, reads_of (by decide +kernel) i,
    (reads_floats i).1, (reads_ints i).2.2.2.1⟩⟩

theorem witness_NarrowDotProducts : NoSreg (.v 20) ∧
    (∀ i ∈ [Instr.vdot8 ctl .t8 (.rm .rne) (.v 20) (.v 12) (.v 12) (.v 4), .vdot6 ctl .rup (.v 20) (.v 13) (.v 13) (.v 4), .vl2d8 ctl .t8 (.rm .rne) (.v 20) (.v 12) (.v 12) (.v 4),
      .vdot8 ctl .i8 (.sat true) (.v 20) (.v 10) (.v 10) (.v 1), .vl2d8 ctl .n8 (.sat false) (.v 20) (.v 11) (.v 11) (.v 2), .vhamm ctl (.v 20) (.v 1) (.v 16) (.v 2)],
      Begins i m2 g2 tm) ∧
    ∀ i, ReadsTag .t8x4 (.v 12) i m2 g2 tm (fun _ => 0x7F8001FF) ∧ ReadsTag .t6x5 (.v 13) i m2 g2 tm (fun _ => 0x3FFFFFFF) ∧
      ReadsTag .i8x4 (.v 10) i m2 g2 tm (fun _ => 0x7F8001FF) ∧ ReadsTag .n8x4 (.v 11) i m2 g2 tm (fun _ => 0xFF00807F) ∧
      ReadsTag .f32 (.v 4) i m2 g2 tm (fun _ => 0x3F800000) ∧ ReadsInt (.v 1) i m2 g2 tm (fun _ => 0x80000000) :=
  ⟨noSreg_v _, beginAll_of (pc := 0x1000) (by decide +kernel), fun i => ⟨reads_of (by decide +kernel) i, reads_of (by decide +kernel) i,
    reads_of (by decide +kernel) i, reads_of (by decide +kernel) i, (reads_floats i).1, (reads_ints i).1⟩⟩

def anVpqd : Instr := .vpqd ctl 15 (.v 20) (.v 17) 3 (.v 4)
/-- The machine with codes of zero in v17 and a table at 0x100 in the scratchpad. -/
def m2t : State := mach ([0, 4].map fun k => { fib k with regs := setD Reg.zero 17 ⟨0x01020300, .n8x4⟩ someRegs })

theorem witness_TableDistanceAndRandom : NoSreg (.v 20) ∧ Begins anVpqd { m2t with teams := [(2, { tm with scrSize := 0x10100 })] } g2 { tm with scrSize := 0x10100 } ∧
    Begins (.vrand ctl true (.v 20) (.v 1)) m2 g2 tm ∧ getD 0 3 (tm.seen m2.clock) = 0x100 ∧
    tm.badS.contains 3 = false ∧
    (∀ j, j < 4 → let e := 0x100 + 1024 * (4 * 15 + j) + 4 * ((0x01020300 : Word).toNat / 2 ^ (8 * j) % 256)
      e + 4 ≤ 0x10100 ∧ (m2t.core 0).badAt (0x80000 + e) 4 = none) ∧
    ReadsTag .n8x4 (.v 17) anVpqd { m2t with teams := [(2, { tm with scrSize := 0x10100 })] } g2 { tm with scrSize := 0x10100 } (fun _ => 0x01020300) :=
  ⟨noSreg_v _, begins_of (pc := 0x1000) (by decide +kernel), begins_of (pc := 0x1000) (by decide +kernel), by decide +kernel,
    by decide, by decide +kernel, reads_of (by decide +kernel) _⟩

theorem witness_ExactOperations : Xr.isNan .nan = true ∧ (0 : Nat) < 1 := by decide

/-! ## Control flow, traps and system control -/

/-- A machine in which the counters of dbra hold 1 and 5. -/
def mC : State := mach ([0, 4].map fun k => { fib k with regs := [(1, ⟨5, .n32⟩), (2, ⟨1, .i32⟩)] })

theorem witness_Branches : Issuing mC (.bra gd 0x200) g2 tm 0x1000 ∧ AllExecute (.bra gd 0x200) mC g2 tm ∧ Unbroken mC tm 0x2000 ∧
    Issuing mC (.dbra gd 0x200 1) g2 tm 0x1000 ∧ AllExecute (.dbra gd 0x200 1) mC g2 tm ∧ ReadsInt (.v 1) (.dbra gd 0x200 1) mC g2 tm (fun _ => 5) ∧
    Begins (.dbra gd 0x200 2) mC g2 tm ∧ ReadsInt (.v 2) (.dbra gd 0x200 2) mC g2 tm (fun _ => 1) ∧ Issuing mC (.jmp gd (.s 1)) g2 tm 0x1000 ∧
    ReadsWide (.s 1) (.jmp gd (.s 1)) mC g2 tm (fun _ => 0x3000) ∧ Begins (.nop gd) mC g2 tm ∧ Begins (.frameWord 512) mC g2 tm :=
  ⟨issuing_of (by decide +kernel), allExecute_of (by decide +kernel), unbroken_of (by decide +kernel), issuing_of (by decide +kernel),
    allExecute_of (by decide +kernel), reads_of (by decide +kernel) _, begins_of (pc := 0x1000) (by decide +kernel), reads_of (by decide +kernel) _,
    issuing_of (by decide +kernel), reads_of (by decide +kernel) _, begins_of (pc := 0x1000) (by decide +kernel), begins_of (pc := 0x1000) (by decide +kernel)⟩

/-- A machine in which one fibre of the gang takes a branch and the other does not. -/
def mS : State := mach [{ fib 0 with preds := 5 }, fib 4]

theorem witness_Branches_split : Issuing mS (.bra ⟨2, false⟩ 0x200) g2 tm 0x1000 ∧ (0x1000 : DWord) + (0x200 : BitVec 34).signExtend 64 * 8 ≠ 0x1000 + 8 ∧
    Unbroken mS tm 0x2000 ∧ Unbroken mS tm 0x1008 ∧ Executes mS g2 tm (.bra ⟨2, false⟩ 0x200) 0 { fib 0 with preds := 5 } ∧
    Member mS g2 tm 1 (fib 4) ∧ ¬ Executes mS g2 tm (.bra ⟨2, false⟩ 0x200) 1 (fib 4) :=
  ⟨issuing_of (by decide +kernel), by decide, unbroken_of (by decide +kernel), unbroken_of (by decide +kernel), ⟨⟨by decide, by decide +kernel⟩, by decide⟩,
    ⟨by decide, by decide +kernel⟩, fun h => absurd h.2 (by decide)⟩

/-- A machine with frame words before 0x2000 and 0x3000 whose fibres hold a return stack of one entry. -/
def mF : State := layBytes (layBytes (mach ([0, 4].map fun k => { fib k with fs := 32, stack := [stackEntry 0x3000 8 24], depth := 1 })) 0x40001FF8 (leBytes 0x8400000000008000 8)) 0x40002FF8
  (leBytes 0x8400000000008000 8)

theorem witness_CallsAndReturns : Issuing mF (.call gd 0x200 1) g2 tm 0x1000 ∧ AllExecute (.call gd 0x200 1) mF g2 tm ∧ Unbroken mF tm 0x2000 ∧
    fetchWord mF tm.core (mF.teamLaunch tm).ctx (0x2000 - 8) 6 = .ok 0x8400000000008000 ∧ decodeWords [0x8400000000008000] = .ok (.frameWord 32) ∧
    (∀ lane f, Member mF g2 tm lane f → f.fb + 8 * 1 + 32 ≤ tm.w ∧ f.depth ≠ 65535 ∧ f.stack.length < 8) ∧
    Issuing mF (.calli gd (.s 1) 1) g2 tm 0x1000 ∧ ReadsWide (.s 1) (.calli gd (.s 1) 1) mF g2 tm (fun _ => 0x3000) ∧
    fetchWord mF tm.core (mF.teamLaunch tm).ctx (0x3000 - 8) 6 = .ok 0x8400000000008000 ∧
    Issuing mF (.ret gd) g2 tm 0x1000 ∧ AllExecute (.ret gd) mF g2 tm ∧ Unbroken mF tm 0x3000 ∧
    (∀ lane f, Member mF g2 tm lane f → f.depth ≠ 0 ∧ f.stack = stackEntry 0x3000 8 24 :: []) ∧
    (1 ≤ (stackEntry 0x3000 8 24).toNat / 2 ^ 53 % 64 ∧ (stackEntry 0x3000 8 24).toNat / 2 ^ 53 % 64 ≤ 32 ∧
      8 * ((stackEntry 0x3000 8 24).toNat / 2 ^ 59) + 8 * ((stackEntry 0x3000 8 24).toNat / 2 ^ 53 % 64) ≤ tm.w ∧ entryPc (stackEntry 0x3000 8 24) = 0x3000) ∧
    canonical 0xFF80000000000000 = true ∧ (0xFF80000000000000 : DWord).toNat % 8 = 0 := by
  refine ⟨issuing_of (by decide +kernel), allExecute_of (by decide +kernel), unbroken_of (by decide +kernel), ok_of (by decide +kernel), rfl, fun lane f h => ?_,
    issuing_of (by decide +kernel), reads_of (by decide +kernel) _, ok_of (by decide +kernel), issuing_of (by decide +kernel), allExecute_of (by decide +kernel), unbroken_of (by decide +kernel), fun lane f h => ?_, by decide, by decide, by decide⟩
  · simpa using each_of (p := fun _ f => decide (f.fb + 8 * 1 + 32 ≤ tm.w ∧ f.depth ≠ 65535 ∧ f.stack.length < 8)) (by decide +kernel) lane f h
  · simpa using each_of (p := fun _ f => decide (f.depth ≠ 0 ∧ f.stack = stackEntry 0x3000 8 24 :: [])) (by decide +kernel) lane f h

/-- A fibre that resumes at the breakpoint it stands at. -/
def fB : Fibre := { fib 0 with skipBrk := some 0x1000, lastBrk := some (0x1000, 0x1000) }
/-- A fibre that comes again to a breakpoint in the second place of its run. -/
def fB1 : Fibre := { fib 0 with runPc := 0xFF8, runPos := 1, lastBrk := some (0xFF8, 0x1000) }

/-- Whether a fibre passes the brk it stands at. -/
def againAt (f : Fibre) : Prop := ∃ r, f.lastBrk = some (r, f.pc) ∧ (if f.runPos = 0 then f.skipBrk = some f.pc ∧ r = f.pc else f.runPc = r)

/-- A machine whose context 0 lists one feature, with its shim, in a table at 0x5000: that of major 0x48, function 2. -/
def mFeat : State :=
  layBytes (layBytes ((mach [fib 0]).setCtx 0 { (mach [fib 0]).ctx 0 with featBase := 0x5000, featCount := 1 }) 0x5000
    (leBytes (0x48 + 2 ^ 8 * 2 + 2 ^ 16 * 2 + 2 ^ 32 * 9) 8)) 0x5008 (leBytes 0x2000 8)

/-- An unassigned word of major 0x48, function 2. -/
def odd : DWord := 0x9010000000000000

theorem witness_TrapInstructions : Solo (.trap gd (.v 1)) m1 g1 tm 0 f1 ∧ readSrc (envOf m1 tm 0 f1.fidx) f1 (.v 1) = .ok ⟨0x80000000, .i32, 1, false⟩ ∧
    Solo (.brk gd) m1 g1 tm 0 f1 ∧ ¬ againAt f1 ∧ (m1.core tm.core).fstop.getLsbD tm.slot = false ∧
    (∀ f ∈ [fB, fB1], Solo (.brk gd) (mach [f]) g1 tm 0 f ∧ againAt f ∧ Unbroken (mach [f]) tm (f.pc + 8)) ∧
    Solo (.unassignedMajor odd) m1 g1 tm 0 f1 ∧ featureOf m1 (m1.teamLaunch tm).ctx (odd.toNat / 2 ^ 57) (odd.toNat / 2 ^ 51 % 64) = none ∧
    Solo (.unassignedMajor odd) mFeat g1 tm 0 f1 ∧
    featureOf mFeat (mFeat.teamLaunch tm).ctx (odd.toNat / 2 ^ 57) (odd.toNat / 2 ^ 51 % 64) = some (9, 0x2000) :=
  ⟨solo_of (by decide +kernel), ok_of (by decide +kernel), solo_of (by decide +kernel), (fun ⟨_, h, _⟩ => by cases h), by decide +kernel, (by
    intro f hf
    simp only [List.mem_cons, List.not_mem_nil, or_false] at hf
    obtain rfl | rfl := hf
    · exact ⟨solo_of (by decide +kernel), ⟨0x1000, by decide, by decide⟩, unbroken_of (by decide +kernel)⟩
    · exact ⟨solo_of (by decide +kernel), ⟨0xFF8, by decide, by decide⟩, unbroken_of (by decide +kernel)⟩),
    solo_of (by decide +kernel), by decide +kernel, solo_of (by decide +kernel), by decide +kernel⟩

/-- A fibre in a handler, over a trap frame that returns to 0x2000. -/
def fH : Fibre :=
  { fib 0 with hand := .handler, depth := 5, fb := 16, fs := 24, regs :=
      [(18, ⟨BitVec.ofNat 32 (5 + 2 ^ 21 * 2 + 2 ^ 27 * 6), .n32⟩), (19, ⟨0xFFFE, .n32⟩), (20, ⟨0x2000, .p64l⟩), (21, ⟨0, .p64h⟩)] }

/-- Whether the frame at the interrupted window fits. -/
def fitsAt (f : Fibre) : Prop :=
  let x (n : Nat) : Nat := (f.reg n).val.toNat
  let fs8 := x 2 / 2 ^ 21 % 64
  let rpc : DWord := (f.reg 5).val ++ (f.reg 4).val
  x 2 % 2 ^ 16 = f.depth ∧ 1 ≤ fs8 ∧ fs8 ≤ 32 ∧ 8 * (x 2 / 2 ^ 27) + 8 * fs8 ≤ tm.w ∧ rpc.toNat % 8 = 0

/-- The fibre with another depth than its frame's, and with reserved tags in the third and fourth words that rti reads. -/
def fHd : Fibre := { fH with depth := 6 }
def fHr : Fibre := { fH with regs := setD Reg.zero 20 ⟨0x2000, .resD⟩ (setD Reg.zero 21 ⟨0, .resF⟩ fH.regs) }

theorem witness_ReturnFromTrap : Solo (.rti gd) (mach [fH]) g1 tm 0 fH ∧ fH.hand ≠ .none ∧ fH.txn = none ∧
    (∀ n ∈ [2, 3, 4, 5], reservedTag (fH.reg n).tag = false) ∧ fitsAt fH ∧ Solo (.rti gd) m1 g1 tm 0 f1 ∧ f1.hand = .none ∧
    Solo (.rti gd) (mach [fHd]) g1 tm 0 fHd ∧ (∀ n ∈ [2, 3, 4, 5], reservedTag (fHd.reg n).tag = false) ∧ ¬ fitsAt fHd ∧
    Solo (.rti gd) (mach [fHr]) g1 tm 0 fHr ∧ fHr.hand ≠ .none ∧ fHr.txn = none ∧ reservedTag (fHr.reg 4).tag = true ∧
    (∀ m ∈ [2, 3, 4, 5], m < 4 → reservedTag (fHr.reg m).tag = false) := by
  refine ⟨solo_of (by decide +kernel), by decide, rfl, by decide, ?_, solo_of (by decide +kernel), rfl, solo_of (by decide +kernel), by decide, ?_,
    solo_of (by decide +kernel), by decide, rfl, by decide, by decide⟩ <;> unfold fitsAt <;> decide +kernel

theorem witness_SystemValues : (∀ code : Fin 19, Begins (.rdsys gd (.v 20) code 1) m2 g2 tm) ∧ Begins (.wrsys gd false (.pair 7)) m2 g2 tm ∧
    Reads (fun e f => readWr e f (.pair 7)) (.wrsys gd false (.pair 7)) m2 g2 tm (fun _ => 0x2000) ∧ Solo (.wrsys gd true (.int 0)) m1 g1 tm 0 f1 ∧
    readWr (envOf m1 tm 0 f1.fidx) f1 (.int 0) = .ok 0xFFFFFFFFFFFFFFC0 ∧ (m1.core tm.core).markAt.1 ≠ m1.clock ∧ Unbroken m1 tm (f1.pc + 8) :=
  ⟨fun code => begins_of (pc := 0x1000) (by revert code; decide +kernel), begins_of (pc := 0x1000) (by decide +kernel), reads_of (by decide +kernel) _,
    solo_of (by decide +kernel), ok_of (by decide +kernel), by decide +kernel, unbroken_of (by decide +kernel)⟩

/-! ## Fibres, crews, collectives and register budgets -/

/-- A pool of one held record, run by the team. -/
def mP : State := { mach [fib 0] with launches := [(1, { lau with pool := true, held := 1, capacity := 2 })] }
/-- A machine in which every fidx of the team is in use. -/
def mFull : State := { mach [fib 0] with fibres := (List.range 1024).map fun k => (2048 + k, fib k) }

/-- A team of two fibres that issue apart. -/
def ge : Gang := gg [(0, 0)]
def m2e : State := { m2 with gangs := [ge] }

theorem witness_ForkSpawnEndYield : Solo (.fork gd 0x200 20) m1 g1 tm 0 f1 ∧ freeFidx m1 tm = some 1 ∧ Unbroken m1 tm (f1.pc + 8) ∧
    Begins (.fork gd 0x200 20) mFull g1 tm ∧ freeFidx mFull tm = none ∧
    Solo (.spawn gd 0x200 16) mP g1 tm 0 f1 ∧ (mP.teamLaunch tm).pool = true ∧ (mP.teamLaunch tm).held < (mP.teamLaunch tm).capacity ∧
    readV f1 (2 * (16 : Fin 128).val) = .ok ⟨7, .raw⟩ ∧ readV f1 (2 * (16 : Fin 128).val + 1) = .ok ⟨0xFFFFFFFF, .raw⟩ ∧ Released (.spawn gd 0x200 16) mP g1 tm ∧
    Unbroken mP tm (f1.pc + 8) ∧ Solo (.endF gd) m1 g1 tm 0 f1 ∧ f1.fidx < 1024 ∧ m1.teamFibres tm.id = [f1] ∧ 
    (Solo (.endF gd) m2e ge tm 0 f1 ∧ (fib 4).key ≠ f1.key ∧ (fib 4).key / 1024 = tm.id ∧ m2e.fibre (fib 4).key = some (fib 4) ∧
      ∀ a b c d e h, (fib 4).st ≠ .budget a b c d e false h) ∧
    Begins (.yield gd) m2 g2 tm ∧ Executes m2 g2 tm (.yield gd) 0 (fib 0) :=
  ⟨solo_of (by decide +kernel), by decide +kernel, unbroken_of (by decide +kernel), begins_of (pc := 0x1000) (by decide +kernel), by decide +kernel, solo_of (by decide +kernel), by decide +kernel,
    by decide +kernel, ok_of (by decide +kernel), ok_of (by decide +kernel), released_of (by decide +kernel), unbroken_of (by decide +kernel), solo_of (by decide +kernel),
    by decide, by decide +kernel, ⟨solo_of (by decide +kernel), by decide, by decide, by decide +kernel, fun _ _ _ _ _ _ h => by cases h⟩,
    begins_of (pc := 0x1000) (by decide +kernel), ⟨⟨by decide, by decide +kernel⟩, rfl⟩⟩

def m4 : State := mach [fib 0, fib 4, fib 8, fib 12]
def g4 : Gang := gg [(0, 0), (1, 4), (2, 8), (3, 12)]

theorem witness_CrewFormation : Begins (.crew gd (some 3) 1 2) m4 g4 tm ∧ AllExecute (.crew gd (some 3) 1 2) m4 g4 tm ∧ tm.crew 2 = none ∧ g4.members.length = 4 ∧
    (linked tm g4.ids).length ≤ 32 ∧ Begins (.crew gd none 0 1) m2 g2 tm ∧ AllExecute (.crew gd none 0 1) m2 g2 tm ∧
    tm.crew 1 = some four ∧ g2.ids = liveOf four ∧ Begins (.crew gd none 4 2) m2 g2 tm ∧ g2.members.length ≠ 32 :=
  ⟨begins_of (pc := 0x1000) (by decide +kernel), allExecute_of (by decide +kernel), by decide, by decide, by decide, begins_of (pc := 0x1000) (by decide +kernel),
    allExecute_of (by decide +kernel), by decide, by decide, begins_of (pc := 0x1000) (by decide +kernel), by decide⟩

/-- The crew with mask 5 expecting the second member only. -/
def fourK : Crew := { four with masks := four.masks.set 5 { expected := 2 } }
def tmK : Team := { tm with crews := [(1, fourK)] }
def mK : State := { m1 with teams := [(2, tmK)] }

theorem witness_JoinAndLeave : tmK.crew 1 = some fourK ∧ rankIn fourK f1.fidx = some 0 ∧ fourK.live.getLsbD 0 = true ∧
    fourK.masks[11]? = some { expected := 3 } ∧ (3 : BitVec 32).getLsbD 0 = true ∧ fourK.masks[5]? = some { expected := 2 } ∧ (2 : BitVec 32).getLsbD 0 = false ∧
    Solo (.join gd (some 3) 11 (some (.v 16)) 1) mK g1 tmK 0 f1 ∧ readDl (envOf mK tmK 0 f1.fidx) f1 (some (.v 16)) = .ok (some 40) ∧
    Solo (.join gd none 5 none 1) mK g1 tmK 0 f1 ∧ readDl (envOf mK tmK 0 f1.fidx) f1 none = .ok none ∧ Unbroken mK tmK (f1.pc + 8) ∧
    Solo (.leave gd 11 1) mK g1 tmK 0 f1 ∧ Solo (.leave gd 5 1) mK g1 tmK 0 f1 :=
  ⟨by decide, by decide, by decide, by decide, by decide, by decide, by decide, solo_of (by decide +kernel), ok_of (by decide +kernel), solo_of (by decide +kernel),
    ok_of (by decide +kernel), unbroken_of (by decide +kernel), solo_of (by decide +kernel), solo_of (by decide +kernel)⟩

def colls : List Instr :=
  [.vote gd (.any (some 3)) 1 1, .vote gd (.all none) 1 1, .vote gd (.ballot (.v 20)) 1 1, .shfl gd .up (.v 20) (.v 1) (.v 18) 1, .cbcast gd (.v 20) (.v 1) (.v 18) 1,
   .credi gd .min .s (.v 20) (.v 1) 1, .credf gd (.sum .rup) (.v 20) (.v 4) 1, .cscan gd .add true .f (.v 20) (.v 4) 1, .cscan gd .max false .s (.v 20) (.v 1) 1]

theorem witness_CrewCollectives : NoSreg (.v 20) ∧ (∀ i ∈ colls, Begins i m2 g2 tm) ∧ (∀ i ∈ colls, WholeCrew i m2 g2 tm 1 four) ∧
    (∀ lane f, Member m2 g2 tm lane f → predBit f.preds 1 = true) ∧
    (∀ i, ReadsAny (.v 1) i m2 g2 tm (fun _ => ⟨0x80000000, .i32, 1, false⟩) ∧ ReadsInt (.v 18) i m2 g2 tm (fun _ => 1) ∧
      ReadsInt (.v 1) i m2 g2 tm (fun _ => 0x80000000) ∧ ReadsTag .f32 (.v 4) i m2 g2 tm (fun _ => 0x3F800000)) ∧
    (liveOf four).find? (fun k => rankAt four k == (1 : Word).toNat) = some 4 :=
  ⟨noSreg_v _, beginAll_of (pc := 0x1000) (by decide +kernel), wholeAll_of (by decide +kernel),
    each_of (p := fun _ f => predBit f.preds 1) (by decide +kernel), fun i => ⟨(reads_ints i).2.2.2.1, reads_of (by decide +kernel) i,
    (reads_ints i).1, (reads_floats i).1⟩, by decide⟩

/-- A fibre of frame size 32 at which v1, v2 and v3 hold the present width, a larger and a smaller one, and v5 a size that no budget instruction takes. -/
def fR (k : Nat) : Fibre := { fib k with fs := 32, regs := [(1, ⟨64, .i32⟩), (2, ⟨256, .n32⟩), (3, ⟨40, .i32⟩), (4, ⟨16, .n32⟩), (5, ⟨12, .n32⟩)] }
/-- Two fibres of a team whose second waits at the barrier for the same, or for another, width, or has not come to it. -/
def mR (st : FSt) : State := { mach [fR 0] with fibres := [(2048, fR 0), (2052, { fR 4 with st := st })] }

/-- What the fibre of m2R stands for at the barrier, and what it asks for. -/
def standR (grow : Bool) (w sel : Nat) (d : Option Nat) (pd : Option (Fin 16)) (f : Fibre) : Fibre :=
  if g1.members.any (·.2 == f.fidx) then { f.issuing with st := .budget grow w sel d pd false 1000 } else f
def asksR (f : Fibre) : Option (Bool × Nat × Option Nat) := match f.st with | .budget gr w _ d _ false _ => some (gr, w, d) | _ => none

def rgrow (n : Fin 256) : Instr := .regrow gd (some 3) (.v n) none
def rshrink (n : Fin 256) : Instr := .regshrink gd (some 3) (.v n)

theorem witness_RegisterBudgets : (∀ m ∈ g1.members, m.2 < 1024) ∧ rising (mR .ganged).fibres = true ∧
    (∀ f ∈ (mR .ganged).teamFibres tm.id, (mR .ganged).fibre f.key = some f ∧ f.team = tm.id ∧ f.fidx < 1024) ∧
    (∀ st ∈ [FSt.ganged, .budget true 64 9 none none false 990, .budget true 256 9 none none false 990, .budget false 40 9 none none false 990,
      .budget false 16 9 none none false 990],
      (∀ i ∈ [rgrow 1, rgrow 2, rshrink 3, rshrink 4], Issuing (mR st) i g1 tm 0x1000 ∧ AllExecute i (mR st) g1 tm) ∧
      ∀ i, ReadsInt (.v 1) i (mR st) g1 tm (fun _ => 64) ∧ ReadsInt (.v 2) i (mR st) g1 tm (fun _ => 256) ∧ ReadsInt (.v 3) i (mR st) g1 tm (fun _ => 40) ∧
        ReadsInt (.v 4) i (mR st) g1 tm (fun _ => 16) ∧ Reads (fun e f => readDl e f none) i (mR st) g1 tm (fun _ => none)) ∧
    Solo (rgrow 5) (mach [fR 0]) g1 tm 0 (fR 0) ∧ ReadsInt (.v 5) (rgrow 5) (mach [fR 0]) g1 tm (fun _ => 12) ∧
    (tm.w ≤ 64 ∧ 64 ≤ 256 ∧ 64 % 8 = 0 ∧ tm.w < 256 ∧ 256 % 8 = 0 ∧ 40 ≤ tm.w ∧ 40 % 8 = 0 ∧ 16 ≤ tm.w ∧ 16 % 8 = 0 ∧ 12 % 8 ≠ 0) := by
  refine ⟨by decide, by decide, by decide +kernel, fun st hst => ?_, solo_of (by decide +kernel), reads_of (by decide +kernel) _, by decide⟩
  simp only [List.mem_cons, List.not_mem_nil, or_false] at hst
  obtain rfl | rfl | rfl | rfl | rfl := hst <;>
    exact ⟨fun i hi => ⟨issuing_of (List.all_eq_true.1 (by decide +kernel : ([rgrow 1, rgrow 2, rshrink 3, rshrink 4].all fun i => issuingB i _ g1 tm 0x1000) = true) i hi),
      allExecute_of (List.all_eq_true.1 (by decide +kernel : ([rgrow 1, rgrow 2, rshrink 3, rshrink 4].all fun i => eachB _ g1 tm fun _ f => goesB i f) = true) i hi)⟩,
      fun i => ⟨reads_of (by decide +kernel) i, reads_of (by decide +kernel) i, reads_of (by decide +kernel) i, reads_of (by decide +kernel) i, reads_of (by decide +kernel) i⟩⟩

/-- The five ends of the barrier: a fibre still away, two that ask for different widths, the present width, a larger one, a smaller one that a frame forbids and one
that all fit. -/
theorem witness_RegisterBudgets_ends :
    (∃ f ∈ (mR .ganged).teamFibres tm.id, asksR (standR true 64 1 none (some 3) f) = none) ∧
    (∀ s, s = mR (.budget true 256 9 none none false 990) →
      (∀ f ∈ s.teamFibres tm.id, asksR (standR true 64 1 none (some 3) f) ≠ none) ∧
      ∃ f ∈ s.teamFibres tm.id, ∃ f' ∈ s.teamFibres tm.id, asksR (standR true 64 1 none (some 3) f) ≠ asksR (standR true 64 1 none (some 3) f')) ∧
    (∀ s, s = mR (.budget true 64 9 none none false 990) →
     ∀ f ∈ s.teamFibres tm.id, asksR (standR true 64 1 none (some 3) f) = some (true, 64, none)) ∧
    (∀ s, s = mR (.budget true 256 9 none none false 990) →
      ∀ f ∈ s.teamFibres tm.id, asksR (standR true 256 2 none (some 3) f) = some (true, 256, none)) ∧
    (∀ s, s = mR (.budget false 16 9 none none false 990) →
      (∀ f ∈ s.teamFibres tm.id, asksR (standR false 16 4 none (some 3) f) = some (false, 16, none)) ∧ ∃ f ∈ s.teamFibres tm.id, 16 < f.fb + f.fs) ∧
    (∀ s, s = mR (.budget false 40 9 none none false 990) →
      (∀ f ∈ s.teamFibres tm.id, asksR (standR false 40 3 none (some 3) f) = some (false, 40, none)) ∧
      (∀ f ∈ s.teamFibres tm.id, f.fb + f.fs ≤ 40 ∧ unbrokenB s tm (f.pc + 8) = true)) := by
  refine ⟨by decide +kernel, ?_, ?_, ?_, ?_, ?_⟩ <;> rintro s rfl <;> decide +kernel

/-! ## Memory -/

/-- The answer of an access, decided. -/
def memB {α : Type} [DecidableEq α] (r : MemR α) (s : State) (f : Fibre) (a : α) : Bool :=
  match r with | .ok s' f' a' => decide (s' = s) && decide (f' = f) && decide (a' = a) | _ => false

theorem mem_of {α : Type} [DecidableEq α] {r : MemR α} {s : State} {f : Fibre} {a : α} (h : memB r s f a = true) : r = .ok s f a := by
  unfold memB at h
  split at h
  · simp only [Bool.and_eq_true, decide_eq_true_eq] at h
    rw [h.1.1, h.1.2, h.2]
  · cases h

theorem witness_ScratchpadAccesses : effAddr (envOf m1 tm 0 f1.fidx) f1 Size.b128.bytes ⟨1, none, 0xFF0⟩ = .ok 0x2FF0 ∧ (0x2FF0 : DWord).toNat % Size.b128.bytes = 0 ∧
    (0x2FF0 : DWord).toNat + Size.b128.bytes ≤ tm.scrSize ∧ Unbroken m1 tm (f1.pc + 8) ∧ NoSreg (.v 20) ∧
    Solo (.ld ctl .b128 .x .normal .raw (.v 20) ⟨1, none, 0xFF0⟩) m1 g1 tm 0 f1 ∧ (m1.core tm.core).badAt (tm.scrBase + 0x2FF0) Size.b128.bytes = none ∧
    Solo (.st gd .b128 .x .normal (.wide 32) ⟨1, none, 0xFF0⟩) m1 g1 tm 0 f1 ∧
    stBytes .b128 (.wide 32) (envOf m1 tm 0 f1.fidx) f1 = .ok [7, 0, 0, 0, 255, 255, 255, 255, 5, 0, 0, 0, 6, 0, 0, 0] ∧ (Tag.raw ≠ .i32 ∧ Tag.raw ≠ .t6x5 ∧ Tag.raw ≠ .p64l) :=
  ⟨ok_of (by decide +kernel), by decide, by decide, unbroken_of (by decide +kernel), noSreg_v _, solo_of (by decide +kernel), by decide +kernel, solo_of (by decide +kernel),
    ok_of (by decide +kernel), by decide⟩

/-- The leaf of the first GiB. -/
def leaf0 : DWord := 0x4000005D

theorem witness_GlobalAccesses : f1.txn = none ∧ (0x3000 : DWord).toNat % Size.b64.bytes = 0 ∧ effAddr (envOf m1 tm 0 f1.fidx) f1 Size.b64.bytes ⟨1, none, 0⟩ = .ok 0x3000 ∧
    splitEff f1 7 0xFF8 = .ok 0x1FF8 ∧ Solo (.ld ctl .b64 .g .stream .p64l (.v 20) ⟨1, none, 0⟩) m1 g1 tm 0 f1 ∧ NoSreg (.v 20) ∧
    Solo (.ldSplit ctl .b64 .normal .p64l (.v 20) 7 0xFF8) m1 g1 tm 0 f1 ∧ Solo (.st gd .b64 .g .normal (.wide 14) ⟨1, none, 0⟩) m1 g1 tm 0 f1 ∧
    Solo (.stSplit gd .b64 .normal (.wide 14) 7 0xFF8) m1 g1 tm 0 f1 ∧
    checkVa m1 tm.core (m1.site tm f1).ctx 0x3000 { kind := 2, r := true } = .ok (0x40003000, leaf0) ∧ loadWaits m1 tm.core (lineOf 0x40003000) = false ∧
    loadLine m1 tm.core 0x40003000 Size.b64.bytes = ([0, 0, 0, 0, 0, 0, 0, 0], none, Config.latNear) ∧
    Unbroken (noteFill (noteMiss m1 tm.core (m1.site tm f1).ctx 0x3000) tm.core (lineOf 0x40003000) 0) tm (f1.pc + 8) ∧
    stBytes .b64 (.wide 14) (envOf m1 tm 0 f1.fidx) f1 = .ok [0, 32, 0, 0, 0, 0, 0, 0] ∧
    checkVa m1 tm.core (m1.site tm f1).ctx 0x3000 { kind := 3, w := true, seals := true } = .ok (0x40003000, leaf0) ∧
    storeHeld m1 tm.core (lineOf 0x40003000) = false ∧
    Unbroken (storeLine (noteMiss m1 tm.core (m1.site tm f1).ctx 0x3000) tm.core f1.key 0x40003000 [0, 32, 0, 0, 0, 0, 0, 0]) tm (f1.pc + 8) :=
  ⟨rfl, by decide, ok_of (by decide +kernel), ok_of (by decide +kernel), solo_of (by decide +kernel), noSreg_v _, solo_of (by decide +kernel), solo_of (by decide +kernel),
    solo_of (by decide +kernel), ok_of (by decide +kernel), by decide +kernel, by decide +kernel, unbroken_of (by decide +kernel), ok_of (by decide +kernel),
    ok_of (by decide +kernel), by decide +kernel, unbroken_of (by decide +kernel)⟩

/-- A machine whose core 0 holds a combining entry for line 5. -/
def mW : State := { m1 with cores := [(0, { wcb := [{ line := 5, mask := 0xFF, data := 0x0807060504030201, alloc := 900, merged := 900 }] })] }

theorem witness_StoresAndHomeWrites : 5 * 128 % 128 + ([1, 2] : List Byte).length ≤ 128 ∧ (m1.core 0).wcb.length < 8 ∧ (mW.core 0).entry (lineOf (5 * 128)) ≠ none ∧
    (∀ e ∈ (mW.core 0).wcb, ∀ e' ∈ (mW.core 0).wcb, e.line = e'.line → e = e') ∧ (m1.line 5).poison = 0 ∧
    (mW.core 0).entry 5 = some { line := 5, mask := 0xFF, data := 0x0807060504030201, alloc := 900, merged := 900 } := by
  refine ⟨by decide, by decide +kernel, by decide +kernel, ?_, by decide +kernel, by decide +kernel⟩
  intro e he e' he' _
  have h : ∀ e ∈ (mW.core 0).wcb, e = { line := 5, mask := 0xFF, data := 0x0807060504030201, alloc := 900, merged := 900 } := by decide +kernel
  rw [h e he, h e' he']

def needRW : Need := { kind := 4, r := true, w := true, seals := true }

/-- What an access at 0x3000 leaves, and what its acquire leaves of that. -/
def afterRmw (n : Nat) (op : Nat → Nat) : State :=
  match rmwAt m1 (m1.site tm f1) f1.issuing (.glob 0x3000) n needRW op with | .ok s _ _ => s | _ => m1
def acquired (n : Nat) (op : Nat → Nat) : State := (afterOrd (afterRmw n op) (m1.site tm f1) f1.issuing .ar .die (m1.clock + Config.latNear)).1

/-- What atom.exch, acas and eacc do to the word at 0x3000. -/
def opExch (_ : Nat) : Nat := 40
def opCas (v : Nat) : Nat := if v = 40 then 1 + 2 ^ 32 * 128 else v
def opEacc (v : Nat) : Nat := eaToNat .ea160 (eaAdd .ea160 (eaOfNat .ea160 v) (eaFrom .ea160 (Fmt.f32.val 0x3F800000)))

theorem witness_HomeAtomics :
    (checkVa m1 tm.core (m1.site tm f1).ctx 0x3000 needRW = .ok (0x40003000, leaf0) ∧ 0x40003000 % 128 + 8 ≤ 128 ∧ m1.reserved (lineOf 0x40003000) = false ∧
      (m1.core (m1.site tm f1).core).wcb = [] ∧ getD [] (lineOf 0x40003000) (m1.die (dieOfLine (lineOf 0x40003000))).claims = [] ∧
      badGranule (m1.line (lineOf 0x40003000)).poison (0x40003000 % 128) 8 = none ∧ opExch (leWord (m1.bytes 0x40003000 8)) < 2 ^ (8 * 8)) ∧
    ((Size.b64 = .b32 ∨ Size.b64 = .b64) ∧ (∀ j, j < 4 → reservedTag (f1.reg ((16 : Fin 256).val + j)).tag = false ∧ f1.badRegs.contains (f1.fb + ((16 : Fin 256).val + j)) = false)) ∧
    atomTagOk .exch .b64 f1 16 = true ∧ Solo (.atom gd .exch .ar .die .b64 .g 16 false ⟨1, none, 0⟩) m1 g1 tm 0 f1 ∧
    Solo (.acas gd .ar .die .b64 .g 16 false ⟨1, none, 0⟩) m1 g1 tm 0 f1 ∧ Solo (.eacc gd .ea160 .ar .die .g 4 ⟨1, none, 0⟩) m1 g1 tm 0 f1 ∧
    (∀ i ∈ [Instr.atom gd .exch .ar .die .b64 .g 16 false ⟨1, none, 0⟩, .acas gd .ar .die .b64 .g 16 false ⟨1, none, 0⟩,
      .eacc gd .ea160 .ar .die .g 4 ⟨1, none, 0⟩], Released i m1 g1 tm) ∧
    readTag (envOf m1 tm 0 f1.fidx) f1 .f32 (.v 4) = .ok 0x3F800000 ∧ effAddr (envOf m1 tm 0 f1.fidx) f1 8 ⟨1, none, 0⟩ = .ok 0x3000 ∧
    effAddr (envOf m1 tm 0 f1.fidx) f1 4 ⟨1, none, 0⟩ = .ok 0x3000 ∧
    place (m1.site tm f1) .g 0x3000 8 8 4 = .ok (.glob 0x3000) ∧ place (m1.site tm f1) .g 0x3000 (eaBytes .ea160) (eaBytes .ea160) 4 = .ok (.glob 0x3000) ∧
    acqHeld m1 (m1.site tm f1) .ar .die = false ∧
    rmwAt m1 (m1.site tm f1) f1.issuing (.glob 0x3000) 8 needRW opExch = .ok (afterRmw 8 opExch) f1.issuing (0, Config.latNear) ∧
    rmwAt m1 (m1.site tm f1) f1.issuing (.glob 0x3000) 8 needRW opCas = .ok (afterRmw 8 opCas) f1.issuing (0, Config.latNear) ∧
    rmwAt m1 (m1.site tm f1) f1.issuing (.glob 0x3000) (eaBytes .ea160) needRW opEacc = .ok (afterRmw (eaBytes .ea160) opEacc) f1.issuing (0, Config.latNear) ∧
    Unbroken (acquired 8 opExch) tm (f1.pc + 8) ∧ Unbroken (acquired 8 opCas) tm (f1.pc + 8) ∧ Unbroken (acquired (eaBytes .ea160) opEacc) tm (f1.pc + 8) := by
  refine ⟨⟨ok_of (by decide +kernel), by decide, by decide +kernel, by decide +kernel, by decide +kernel, by decide +kernel, by decide⟩, ⟨.inr rfl, by decide⟩, by decide,
    solo_of (by decide +kernel), solo_of (by decide +kernel), solo_of (by decide +kernel), ?_, ok_of (by decide +kernel), ok_of (by decide +kernel),
    ok_of (by decide +kernel), ok_of (by decide +kernel), ok_of (by decide +kernel), by decide +kernel, mem_of (by decide +kernel), mem_of (by decide +kernel),
    mem_of (by decide +kernel), unbroken_of (by decide +kernel), unbroken_of (by decide +kernel), unbroken_of (by decide +kernel)⟩
  intro i hi
  exact released_of (List.all_eq_true.1 (by decide +kernel :
    ([Instr.atom gd .exch .ar .die .b64 .g 16 false ⟨1, none, 0⟩, .acas gd .ar .die .b64 .g 16 false ⟨1, none, 0⟩,
      .eacc gd .ea160 .ar .die .g 4 ⟨1, none, 0⟩].all fun i => (releaseWait i m1 g1 ((gather m1 tm g1 i).filter (runs i))).isNone) = true) i hi)

/-- The page tables with a contribution page, in a pod of module 5. -/
def mCon : State := { layBytes m1 0x3000 (leBytes 0x080000004000005D 8) with hub := { m1.hub with podmemb := 0x20 } }

/-- A machine whose core holds a combining entry for the line of 0x3000. -/
def mOwn : State := m1.setCore 0 { m1.core 0 with wcb := [{ line := lineOf 0x40003000, mask := 0xFF, data := 0x11, alloc := 900, merged := 900 }] }

/-- The machine after a read at the home of 0x3000. -/
def mRead : State := freshen (coreAsk (drainLine (noteMiss mOwn 0 0 0x3000) 0 (lineOf 0x40003000)) 0 (lineOf 0x40003000)) 0 (lineOf 0x40003000)

theorem witness_HomeReadsAndFences : effAddr (envOf m1 tm 0 f1.fidx) f1 4 ⟨1, none, 0⟩ = .ok 0x3000 ∧
    Solo (.earead ctl .ea320 .rne .g (some 20) ⟨1, none, 0⟩) mOwn g1 tm 0 f1 ∧
    globAt mOwn (mOwn.site tm f1) .g 0x3000 (eaBytes .ea320) (eaBytes .ea320) { kind := 2, r := true } = .ok (0x3000, 0x40003000, leaf0) ∧
    mOwn.asleep (lineOf 0x40003000) = false ∧ mOwn.reserved (lineOf 0x40003000) = false ∧ mRead.byte 0x40003000 = 0x11 ∧
    badGranule (mRead.line (lineOf 0x40003000)).poison (0x40003000 % 128) (eaBytes .ea320) = none ∧ Unbroken mOwn tm (f1.pc + 8) ∧
    Solo (.ldver ctl .g none ⟨1, none, 0⟩) mOwn g1 tm 0 f1 ∧ f1.txn = none ∧
    globAt mOwn (mOwn.site tm f1) .g 0x3000 4 4 { kind := 4, r := true } = .ok (0x3000, 0x40003000, leaf0) ∧
    Solo (.stv gd .b32 .g 16 false ⟨1, none, 0⟩) m1 g1 tm 0 f1 ∧ regsVal f1 16 Size.b32.bytes = .ok 40 ∧ readV f1 (16 + Size.b32.bytes / 4) = .ok ⟨0, .i32⟩ ∧
    globAt m1 (m1.site tm f1) .g 0x3000 4 4 { kind := 4, w := true, seals := true } = .ok (0x3000, 0x40003000, leaf0) ∧ m1.reserved (lineOf 0x40003000) = false ∧
    (m1.core tm.core).wcb = [] ∧ getD [] (lineOf 0x40003000) (m1.die (dieOfLine (lineOf 0x40003000))).claims = [] ∧ Unbroken m1 tm (f1.pc + 8) ∧
    (m1.line (lineOf 0x40003000)).ver = (0 : Word).toNat % 2 ^ 24 ∧ Solo (.stv gd .b32 .g 17 false ⟨1, none, 0⟩) m1 g1 tm 0 f1 ∧
    regsVal f1 17 Size.b32.bytes = .ok 0 ∧ readV f1 (17 + Size.b32.bytes / 4) = .ok ⟨1, .i32⟩ ∧ (m1.line (lineOf 0x40003000)).ver ≠ (1 : Word).toNat % 2 ^ 24 :=
  ⟨ok_of (by decide +kernel), solo_of (by decide +kernel), ok_of (by decide +kernel), by decide +kernel, by decide +kernel, by decide +kernel, by decide +kernel,
    unbroken_of (by decide +kernel), solo_of (by decide +kernel), rfl, ok_of (by decide +kernel), solo_of (by decide +kernel), ok_of (by decide +kernel),
    ok_of (by decide +kernel), ok_of (by decide +kernel), by decide +kernel, by decide +kernel, by decide +kernel, unbroken_of (by decide +kernel), by decide +kernel,
    solo_of (by decide +kernel), ok_of (by decide +kernel), ok_of (by decide +kernel), by decide +kernel⟩

/-- The page tables with the first GiB on die 1. -/
def leafFar : DWord := BitVec.ofNat 64 (0x4000005D + 2 ^ 49)
def mFar : State := layBytes m1 0x3000 (leBytes leafFar.toNat 8)

theorem witness_HomeReadsAndFences_sums : Solo (.ldsum ctl .int true (some 20) ⟨1, none, 0⟩) mCon g1 tm 0 f1 ∧
    effAddr (envOf mCon tm 0 f1.fidx) f1 4 ⟨1, none, 0⟩ = .ok 0x3000 ∧
    globAt mCon (mCon.site tm f1) .g 0x3000 (sumBytes .int) (sumBytes .int) { kind := 2, r := true } = .ok (0x3000, 0x40003000, 0x080000004000005D) ∧
    leafContrib 0x080000004000005D = true ∧ badReplica (drainLine (noteMiss mCon 0 0 0x3000) 0 (lineOf 0x40003000)) 0x40003000 (sumBytes .int) = none ∧
    mCon.walkWaits tm.core (mCon.site tm f1).ctx 0x3000 = false ∧ (∀ m ∈ gatherAsks mCon true 0x40003000, podRoom mCon m = true) ∧ (mCon.core tm.core).entry (lineOf 0x40003000) = none ∧ Unbroken mCon tm (f1.pc + 8) ∧
    Solo (.pfl gd .g .keep ⟨1, none, 0⟩) m1 g1 tm 0 f1 ∧ effAddr (envOf m1 tm 0 f1.fidx) f1 1 ⟨1, none, 0⟩ = .ok 0x3000 ∧
    globAt m1 (m1.site tm f1) .g 0x3000 1 1 { kind := 2, r := true } = .ok (0x3000, 0x40003000, leaf0) ∧
    Solo (.pfl gd .g .keep ⟨1, none, 0⟩) mFar g1 tm 0 f1 ∧ effAddr (envOf mFar tm 0 f1.fidx) f1 1 ⟨1, none, 0⟩ = .ok 0x3000 ∧
    globAt mFar (mFar.site tm f1) .g 0x3000 1 1 { kind := 2, r := true } = .ok (0x3000, 0x40003000 + 2 ^ 49, leafFar) ∧
    dieOfLine (lineOf (0x40003000 + 2 ^ 49)) ≠ 0 ∧ mFar.poisoned (0x40003000 + 2 ^ 49) 1 = false ∧ Unbroken mFar tm (f1.pc + 8) ∧
    Solo (.pfl gd .x .keep ⟨1, none, 0⟩) m1 g1 tm 0 f1 ∧ (∃ x, globAt m1 (m1.site tm f1) .x 0x3000 1 1 { kind := 2, r := true } = .error x) ∧
    (∀ op : Ord, ∀ sc : Scope, Solo (.fence gd op sc) m1 g1 tm 0 f1) ∧ drainHeld m1 tm.core = false ∧ Unbroken m1 tm (f1.pc + 8) :=
  ⟨solo_of (by decide +kernel), ok_of (by decide +kernel), ok_of (by decide +kernel), by decide, by decide +kernel, by decide +kernel, fun _ _ => rfl, by decide +kernel,
    unbroken_of (by decide +kernel), solo_of (by decide +kernel), ok_of (by decide +kernel), ok_of (by decide +kernel), solo_of (by decide +kernel), ok_of (by decide +kernel),
    ok_of (by decide +kernel), by decide, by decide +kernel, unbroken_of (by decide +kernel), solo_of (by decide +kernel), ⟨_, rfl⟩,
    fun op sc => solo_of (by cases op <;> cases sc <;> decide +kernel), by decide +kernel, unbroken_of (by decide +kernel)⟩

/-! ## Transactions, barriers and sealing -/

/-- An attempt that has read and written the line of 0x3000. -/
def txn : Txn :=
  { origin := 0xF00, lfail := 0x2000, deadline := some 5000, opened := 900, depth := 1, succ := none,
    rset := [{ line := lineOf 0x40003000, ver := 0, img := 0, poison := 0 }], wset := [{ line := lineOf 0x40003000, mask := 0xFF00, data := 0x7700 }] }
def fX : Fibre := { fib 0 with txn := some txn }
def mT : State := mach [fX]

theorem witness_AccessesInAttempts : fX.txn = some txn ∧ mT.clock < txn.opened + 2 ^ 23 ∧ Unbroken mT tm (fX.pc + 8) ∧ NoSreg (.v 20) ∧
    Solo (.ld ctl .b64 .g .normal .p64l (.v 20) ⟨1, none, 0⟩) mT g1 tm 0 fX ∧ effAddr (envOf mT tm 0 fX.fidx) fX Size.b64.bytes ⟨1, none, 0⟩ = .ok 0x3000 ∧
    checkVa mT tm.core (mT.site tm fX).ctx 0x3000 { kind := 2, r := true } = .ok (0x40003000, leaf0) ∧
    txn.rset.find? (·.line == lineOf 0x40003000) = some { line := lineOf 0x40003000, ver := 0, img := 0, poison := 0 } ∧
    Solo (.ldver ctl .g none ⟨1, none, 0⟩) mT g1 tm 0 fX ∧ checkVa mT tm.core (mT.site tm fX).ctx 0x3000 { kind := 4, r := true } = .ok (0x40003000, leaf0) ∧
    Solo (.st gd .b64 .g .normal (.wide 14) ⟨1, none, 0⟩) mT g1 tm 0 fX ∧
    stBytes .b64 (.wide 14) (envOf mT tm 0 fX.fidx) fX = .ok [0, 32, 0, 0, 0, 0, 0, 0] ∧
    checkVa mT tm.core (mT.site tm fX).ctx 0x3000 { kind := 3, w := true, seals := true } = .ok (0x40003000, leaf0) ∧
    txn.wset.find? (·.line == lineOf 0x40003000) = some { line := lineOf 0x40003000, mask := 0xFF00, data := 0x7700 } :=
  ⟨rfl, by decide, unbroken_of (by decide +kernel), noSreg_v _, solo_of (by decide +kernel), ok_of (by decide +kernel), ok_of (by decide +kernel), by decide +kernel,
    solo_of (by decide +kernel), ok_of (by decide +kernel), solo_of (by decide +kernel), ok_of (by decide +kernel), ok_of (by decide +kernel), by decide +kernel⟩

/-- The attempt with an alternative, in its fourth alternative, past its deadline, and one whose read set no longer stands. -/
def fXs : Fibre := { fib 0 with txn := some { txn with succ := some 0x3000 } }
def fX4 : Fibre := { fib 0 with txn := some { txn with depth := 4, succ := some 0x3000 } }
def fXd : Fibre := { fib 0 with txn := some { txn with deadline := some 1000 } }
def fXo : Fibre := { fib 0 with txn := some { txn with rset := [{ line := lineOf 0x40003000, ver := 9, img := 0, poison := 0 }] } }

/-- The machine 2^23 clocks after the attempt opened, and a team of one fibre that opened it at a restart. -/
def mLate : State := { mT with clock := 900 + 2 ^ 23 }

theorem witness_AccessesInAttempts_late : txn.opened + 2 ^ 23 ≤ mLate.clock ∧ Unbroken mLate tm txn.lfail ∧
    Solo (.ld ctl .b64 .g .normal .p64l (.v 20) ⟨1, none, 0⟩) mLate g1 tm 0 fX ∧ effAddr (envOf mLate tm 0 fX.fidx) fX Size.b64.bytes ⟨1, none, 0⟩ = .ok 0x3000 ∧
    Solo (.st gd .b64 .g .normal (.wide 14) ⟨1, none, 0⟩) mLate g1 tm 0 fX ∧ Solo (.retry gd) mLate g1 tm 0 fX ∧ Solo (.tcommit gd) mLate g1 tm 0 fX ∧
    Released (.tcommit gd) mLate g1 tm :=
  ⟨by decide, unbroken_of (by decide +kernel), solo_of (by decide +kernel), ok_of (by decide +kernel), solo_of (by decide +kernel), solo_of (by decide +kernel),
    solo_of (by decide +kernel), released_of (by decide +kernel)⟩

theorem witness_AttemptControl : Begins (.tbegin gd 0x200 .zero) m1 g1 tm ∧
    (∀ lane f, Executes m1 g1 tm (.tbegin gd 0x200 .zero) lane f → readDeadline (envOf m1 tm lane f.fidx) f .zero = .ok 0 ∧ f.txn = none) ∧
    Solo (.tbegin gd 0x200 .zero) mT g1 tm 0 fX ∧ readDeadline (envOf mT tm 0 fX.fidx) fX .zero = .ok 0 ∧ fX.txn = some txn ∧ Unbroken mT tm txn.lfail ∧
    Begins (.otherwise gd 0x200) mT g1 tm ∧ txn.depth < 4 ∧ Begins (.otherwise gd 0x200) (mach [fX4]) g1 tm ∧
    Solo (.tabort gd (.v 18)) mT g1 tm 0 fX ∧ readInt (envOf mT tm 0 fX.fidx) fX (.v 18) = .ok 1 ∧ Begins (.tabort gd (.v 18)) m1 g1 tm ∧
    ReadsInt (.v 18) (.tabort gd (.v 18)) m1 g1 tm (fun _ => 1) ∧ (∀ i lane f, Executes m1 g1 tm i lane f → f.txn = none) ∧
    Begins (.retry gd) m1 g1 tm ∧ Solo (.retry gd) (mach [fXs]) g1 tm 0 fXs ∧ (mach [fXs]).clock < txn.opened + 2 ^ 23 ∧ Unbroken (mach [fXs]) tm 0x3000 ∧
    Solo (.retry gd) (mach [fX4]) g1 tm 0 fX4 ∧ Solo (.retry gd) mT g1 tm 0 fX ∧ txn.succ = none ∧ (∀ d, txn.deadline = some d → mT.clock < d) ∧
    Solo (.retry gd) (mach [fXd]) g1 tm 0 fXd ∧ 1000 ≤ (mach [fXd]).clock ∧ Unbroken (mach [fXd]) tm txn.lfail ∧
    Begins (.tstat gd (.v 20) 3) m2 g2 tm ∧ NoSreg (.v 20) := by
  refine ⟨begins_of (pc := 0x1000) (by decide +kernel), fun lane f h => ?_, solo_of (by decide +kernel), ok_of (by decide +kernel), rfl, unbroken_of (by decide +kernel),
    begins_of (pc := 0x1000) (by decide +kernel), by decide, begins_of (pc := 0x1000) (by decide +kernel), solo_of (by decide +kernel), ok_of (by decide +kernel),
    begins_of (pc := 0x1000) (by decide +kernel), reads_of (by decide +kernel) _, fun i lane f h => ?_, begins_of (pc := 0x1000) (by decide +kernel),
    solo_of (by decide +kernel), by decide, unbroken_of (by decide +kernel), solo_of (by decide +kernel), solo_of (by decide +kernel), rfl, ?_,
    solo_of (by decide +kernel), by decide, unbroken_of (by decide +kernel), begins_of (pc := 0x1000) (by decide +kernel), noSreg_v _⟩
  · have := each_of (p := fun lane f => okB (readDeadline (envOf m1 tm lane f.fidx) f .zero) 0 && decide (f.txn = none)) (by decide +kernel) lane f h.1
    simp only [Bool.and_eq_true, decide_eq_true_eq] at this
    exact ⟨ok_of this.1, this.2⟩
  · simpa using each_of (p := fun _ f => decide (f.txn = none)) (by decide +kernel) lane f h.1
  · intro d h
    cases h
    decide

theorem witness_AttemptControl_commit : Solo (.tcommit gd) m1 g1 tm 0 f1 ∧ f1.txn = none ∧
    Solo (.tcommit gd) mT g1 tm 0 fX ∧ Released (.tcommit gd) mT g1 tm ∧ mT.clock < txn.opened + 2 ^ 23 ∧ (mT.core tm.core).wcb = [] ∧
    (txn.wset.map (·.line)).Nodup ∧ (∀ r ∈ txn.rset, mT.asleep r.line = false ∧ (mT.line r.line).ver = r.ver ∧ mT.reserved r.line = false) ∧
    (∀ w ∈ txn.wset, mT.reserved w.line = false ∧ getD [] w.line (mT.die (dieOfLine w.line)).claims = []) ∧ Unbroken mT tm (fX.pc + 8) ∧
    Solo (.tcommit gd) (mach [fXo]) g1 tm 0 fXo ∧ Released (.tcommit gd) (mach [fXo]) g1 tm ∧ ((mach [fXo]).line (lineOf 0x40003000)).ver ≠ 9 ∧
    (mach [fXo]).asleep (lineOf 0x40003000) = false ∧ Unbroken (mach [fXo]) tm txn.lfail :=
  ⟨solo_of (by decide +kernel), rfl, solo_of (by decide +kernel), released_of (by decide +kernel), by decide, by decide +kernel, by decide, by decide +kernel,
    by decide +kernel, unbroken_of (by decide +kernel), solo_of (by decide +kernel), released_of (by decide +kernel), by decide +kernel, by decide +kernel,
    unbroken_of (by decide +kernel)⟩

theorem witness_HomeAndAttemptFormsComplete :
    (∀ i ∈ [Instr.tbegin gd 0x200 .zero, .otherwise gd 0x200, .tabort gd (.v 18), .retry gd, .tstat gd (.v 20) 3], Solo i m1 g1 tm 0 f1) ∧
    readDeadline (envOf m1 tm 0 f1.fidx) f1 .zero = .ok 0 ∧ readInt (envOf m1 tm 0 f1.fidx) f1 (.v 18) = .ok 1 ∧ f1.txn = none ∧ Unbroken m1 tm (f1.pc + 8) ∧
    Solo (.otherwise gd 0x200) mT g1 tm 0 fX ∧ Unbroken mT tm (fX.pc + 8) :=
  ⟨soloAll_of (by decide +kernel), ok_of (by decide +kernel), ok_of (by decide +kernel), rfl, unbroken_of (by decide +kernel), solo_of (by decide +kernel),
    unbroken_of (by decide +kernel)⟩

/-- A fibre that names the pages of a GiB. -/
def fBig : Fibre := { fib 0 with regs := [(1, ⟨0x40000, .n32⟩)] }
def mBig : State := mach [fBig]

theorem witness_BarriersAndSealing : readOp64 (envOf m1 tm 0 f1.fidx) f1 (.s 1) = .ok 0x3000 ∧ barCell m1 (m1.site tm f1) 0x3000 = .ok 0x40003000 ∧
    (∀ i ∈ [Instr.bar gd .pod .none (.s 1), .bar gd .pod (.v 63) (.s 1)], Solo i m1 g1 tm 0 f1 ∧ Released i m1 g1 tm) ∧
    m1.reserved (lineOf 0x40003000) = false ∧ Unbroken m1 tm (f1.pc + 8) ∧ f1.fb + (63 : Fin 256).val < 256 ∧
    readOp64 (envOf m1 tm 0 f1.fidx) f1 (.s 0) = .ok 0 ∧ readInt (envOf mBig tm 0 fBig.fidx) fBig (.v 1) = .ok 0x40000 ∧ (0x40000 : Word) ≠ 0 ∧
    readOp64 (envOf mBig tm 0 fBig.fidx) fBig (.s 0) = .ok 0 ∧ Unbroken mBig tm (fBig.pc + 8) ∧
    Solo (.seal gd false (.s 0) (.v 1)) mBig g1 tm 0 fBig ∧ sealCheck mBig (mBig.site tm fBig).ctx true 0 (0x40000 : Word).toNat = none ∧
    Solo (.unseal gd true (.s 0) (.v 1)) mBig g1 tm 0 fBig ∧ sealCheck mBig (mBig.site tm fBig).ctx false 0 (0x40000 : Word).toNat = none :=
  ⟨ok_of (by decide +kernel), ok_of (by decide +kernel), fun i hi => ⟨soloAll_of (by decide +kernel) i hi, released_of (List.all_eq_true.1 (by decide +kernel :
      ([Instr.bar gd .pod .none (.s 1), .bar gd .pod (.v 63) (.s 1)].all fun i => (releaseWait i m1 g1 ((gather m1 tm g1 i).filter (runs i))).isNone) = true) i hi)⟩,
    by decide +kernel, unbroken_of (by decide +kernel), by decide,
    ok_of (by decide +kernel), ok_of (by decide +kernel), by decide, ok_of (by decide +kernel), unbroken_of (by decide +kernel), solo_of (by decide +kernel),
    by decide +kernel, solo_of (by decide +kernel), by decide +kernel⟩

/-! ## Trees -/

/-- A tree of one node, which tests p1: on the true side iadd and leaf 0 with code c, on the false side leaf 1 with code 0. -/
def treeOf (c : Nat) (target : DWord) : TreeWords :=
  { header := BitVec.ofNat 64 (0x7E * 2 ^ 57 + 2 ^ 55 + 0x40 * 2 ^ 48 + 0x2000 * 2 ^ 34 + c * 2 ^ 31 + 7 * (2 ^ 25 + 2 ^ 22 + 2 ^ 19 + 2 ^ 16 + 2 ^ 13 + 2 ^ 10)),
    nodes := [BitVec.ofNat 64 (3 * 2 ^ 24 + 2 ^ 14)], arcs := [BitVec.ofNat 64 ((encode anAdd).headD 0)], targets := [target] }

/-- The same with a store to the scratchpad in place of iadd. -/
def treeSt : TreeWords := { treeOf 0 0 with arcs := [BitVec.ofNat 64 ((encode (.st gd .b32 .x .normal (.one (.v 16)) ⟨3, none, 0⟩)).headD 0)] }

def walkF1 (tw : TreeWords) : WalkEnd :=
  walkTree tw (treeHdr tw.header.toNat) (m1.site tm f1) (envOf m1 tm 0 f1.fidx) (treeHdr tw.header.toNat).depth 0 0 { s := m1, v := f1.issuing }

def leafB (r : WalkEnd) (j : Nat) (st : Option (Place × List Byte)) : Bool := match r with | .leaf i w => decide (i = j) && decide (w.store = st) | _ => false

theorem leaf_of {r : WalkEnd} {j : Nat} {st : Option (Place × List Byte)} (h : leafB r j st = true) : ∃ w, r = .leaf j w ∧ w.store = st := by
  unfold leafB at h
  split at h
  · simp only [Bool.and_eq_true, decide_eq_true_eq] at h
    exact ⟨_, by rw [h.1], h.2⟩
  · cases h

/-- The store of the walk's leaf succeeds. -/
def storesB (tw : TreeWords) : Bool :=
  match walkF1 tw with
  | .leaf _ w => match w.store with
    | some (p, bs) => match storeAt w.s (m1.site tm f1) { f1.issuing with txn := w.v.txn } p bs with | .ok _ _ _ => true | _ => false
    | none => false
  | _ => false

theorem witness_TreeExecutes :
    (Solo (.tree (treeOf 2 0)) m1 g1 tm 0 f1 ∧ treeCheck (treeOf 2 0) f1.issuing = some { code := .illegalTree }) ∧
    (∀ c ∈ [0, 1, 5, 6], Solo (.tree (treeOf c (if c = 1 then 0x200 else 0))) m1 g1 tm 0 f1 ∧ treeCheck (treeOf c (if c = 1 then 0x200 else 0)) f1.issuing = none ∧
      (∃ w, walkF1 (treeOf c (if c = 1 then 0x200 else 0)) = .leaf 0 w ∧ w.store = none) ∧ (treeHdr (treeOf c 0).header.toNat).word / 2 ^ 31 % 8 = c) ∧
    (Solo (.tree treeSt) m1 g1 tm 0 f1 ∧ treeCheck treeSt f1.issuing = none ∧ (∃ w, walkF1 treeSt = .leaf 0 w ∧ w.store = some (.scr 0x100, [40, 0, 0, 0])) ∧
      storesB treeSt = true) ∧
    Unbroken m1 tm (f1.pc + BitVec.ofNat 64 (8 * words (.tree (treeOf 0 0)))) ∧ f1.fidx < 1024 ∧ m1.teamFibres tm.id = [f1] ∧ Unbroken m1 tm f1.pc ∧
    Unbroken m1 tm (f1.pc + (0x200 : BitVec 32).signExtend 64 * 8) ∧
    (let h := treeHdr (treeOf 0 0).header.toNat
     0 < h.depth ∧ h.has 0 = true ∧ decTest (nodeWord (treeOf 0 0) h 0) = .ok (.pred 1 true) ∧ h.arc 0 true = true ∧ h.arc 0 false = false ∧
      arcOp (arcWord (treeOf 0 0) h 0 true) = .ok (some anAdd) ∧ aluOf anAdd = some (evIadd .s false (.v 20) (.v 1) (.v 2))) ∧
    testHolds (.pred 1 true) (envOf m1 tm 0 f1.fidx) f1 = .ok true ∧
    evIadd .s false (.v 20) (.v 1) (.v 2) (envOf m1 tm 0 f1.fidx) f1 = .ok (Wr.one (.v 20) 0x7FFFFFFF .i32) ∧
    readInt (envOf m1 tm 0 f1.fidx) f1 (.v 1) = .ok 0x80000000 := by
  refine ⟨⟨solo_of (by decide +kernel), by decide +kernel⟩, fun c hc => ?_, ⟨solo_of (by decide +kernel), by decide +kernel, leaf_of (by decide +kernel), by decide +kernel⟩,
    unbroken_of (by decide +kernel), by decide, by decide +kernel, unbroken_of (by decide +kernel), unbroken_of (by decide +kernel),
    ⟨by decide +kernel, by decide +kernel, by rfl, by decide +kernel, by decide +kernel, by rfl, rfl⟩, ok_of (by decide +kernel), ok_of (by decide +kernel), ok_of (by decide +kernel)⟩
  simp only [List.mem_cons, List.not_mem_nil, or_false] at hc
  obtain rfl | rfl | rfl | rfl := hc <;>
    exact ⟨solo_of (by decide +kernel), by decide +kernel, leaf_of (by decide +kernel), by decide +kernel⟩

/-! ## Tiles, engines and matrix requests -/

/-- The tiles of a team by handle: activations, identifiers, the second operand of mmas, metadata, an F32 tile, and a tile to prune into. -/
def tileTab : List (Nat × Tile) :=
  [(4, { addr := 0xC0000, cols := 127, rows := 3, st := .ready, rowExp := [(0, 1), (3, 31)] }), (5, { addr := 0xC0400, cols := 127, rows := 0, fmt := 8, st := .ready }),
   (6, { addr := 0xC0800, cols := 127, rows := 3, st := .ready }), (7, { addr := 0xC1000, cols := 127, rows := 127, fmt := 9, st := .ready }),
   (8, { addr := 0xC3000, cols := 127, rows := 3, fmt := 7, st := .ready }), (9, { addr := 0xC4000, cols := 127, rows := 127, st := .ready })]

def tmP : Team := { tm with part := some 0 }
def quad0 : Quad := { parts := [(0, { owner := some (2, 0), fmtA := some 0, fmtS := some 0 })] }
/-- Machines with these tiles whose team holds partition 0. -/
def mm1 : State := { m1 with teams := [(2, tmP)], cores := [(0, { tiles := tileTab })], quads := [(0, quad0)] }
def mm2 : State := { m2 with teams := [(2, tmP)], cores := [(0, { tiles := tileTab })], quads := [(0, quad0)] }

/-- What the two fibres read. -/
theorem reads_mm (i : Instr) : ReadsInt (.v 19) i mm2 g2 tmP (fun _ => 128) ∧ ReadsInt (.v 3) i mm2 g2 tmP (fun _ => 0) ∧ ReadsInt (.v 18) i mm2 g2 tmP (fun _ => 1) ∧
    ReadsWide (.s 1) i mm2 g2 tmP (fun _ => 0x3000) :=
  ⟨reads_of (by decide +kernel) i, reads_of (by decide +kernel) i, reads_of (by decide +kernel) i, reads_of (by decide +kernel) i⟩

def anAlloc : Instr := .talloc gd 7 1 (.v 3) (.v 19)

theorem witness_TileTable : (7 : Fin 64).val < tm.tblCount ∧ Begins anAlloc m2 g2 tm ∧ WholeCrew anAlloc m2 g2 tm 1 four ∧
    ReadsInt (.v 3) anAlloc m2 g2 tm (fun _ => 0) ∧ ReadsInt (.v 19) anAlloc m2 g2 tm (fun _ => 128) ∧
    ((m2.core tm.core).tile (tm.tblBase + 7)).st = .empty ∧ 128 * (128 : Word).toNat + ({} : Tile).extent ≤ tm.tileSize ∧
    (∀ j, j < tm.tblCount → ((m2.core tm.core).tile (tm.tblBase + j)).st = .empty) ∧
    Begins (.tfree gd 0 1) mm2 g2 tmP ∧ WholeCrew (.tfree gd 0 1) mm2 g2 tmP 1 four ∧ ((mm2.core tmP.core).tile (tmP.tblBase + 0)).st = .ready ∧
    NoSreg64 (.pair 10) ∧ Begins (.tinfo gd 0 (.pair 10)) mm2 g2 tmP ∧
    readInt (envOf mm1 tmP 0 f1.fidx) f1 (.v 19) = .ok 128 ∧ (128 : Word).toNat % 8 = 0 ∧ (128 : Word).toNat + 256 ≤ tmP.scrSize ∧
    ((mm1.core tmP.core).tile (tmP.tblBase + 0)).st = .ready ∧ Unbroken mm1 tmP (f1.pc + 8) ∧ Solo (.tinfoGetexp gd 0 (.v 19)) mm1 g1 tmP 0 f1 ∧
    Solo (.tinfoSetexp gd 0 (.v 19)) mm1 g1 tmP 0 f1 ∧ (mm1.core tmP.core).badAt (tmP.scrBase + 128) 256 = none :=
  ⟨by decide, begins_of (pc := 0x1000) (by decide +kernel), whole_of (by decide +kernel), reads_of (by decide +kernel) _, reads_of (by decide +kernel) _, by decide +kernel,
    by decide, by decide +kernel, begins_of (pc := 0x1000) (by decide +kernel), whole_of (by decide +kernel), by decide +kernel, noSreg64_pair _,
    begins_of (pc := 0x1000) (by decide +kernel), ok_of (by decide +kernel), by decide, by decide, by decide +kernel, unbroken_of (by decide +kernel),
    solo_of (by decide +kernel), solo_of (by decide +kernel), by decide +kernel⟩

/-- A machine whose stream 0 takes integers, for two pairs. -/
def siev : Sieve := { key := true, order := false, k := 2, owner := 0, team := 2, held := [(1, 7), (3, 9)] }
def ms2 : State := { m2 with cores := [(0, { sieves := [(0, siev)] })] }

theorem witness_EngineCommands :
    (∀ i ∈ [Instr.xcopy gd 1 (.v 19) (.s 1), .xchain gd 1 (.v 19) (.s 1), .tmove gd 1 (.v 19) (.s 1), .fwalk gd 1 (.v 19) (.s 1)],
      Begins i mm2 g2 tmP ∧ WholeCrew i mm2 g2 tmP 1 four ∧ ReadsInt (.v 19) i mm2 g2 tmP (fun _ => 128) ∧ ReadsWide (.s 1) i mm2 g2 tmP (fun _ => 0x3000)) ∧
    ((0x3000 : DWord).toNat % 16 = 0 ∧ checkVa mm2 tmP.core (mm2.teamLaunch tmP).ctx 0x3000 { kind := 5, w := true, seals := true } = .ok (0x40003000, leaf0) ∧
      drainHeld mm2 tmP.core = false ∧ (128 : Word).toNat % 32 = 0 ∧ (128 : Word).toNat + 32 ≤ tmP.scrSize ∧ (mm2.core tmP.core).copyQ.length < 16 ∧
      (mm2.quad (tmP.core / 4)).walks.length < 16) ∧
    (∀ i ∈ [Instr.sieveset gd 0 1 (.v 3), .sift gd 0 (.v 3) (.v 19), .sieveget gd 0 1 (.v 19)], Begins i ms2 g2 tm ∧ WholeCrew i ms2 g2 tm 1 four ∧
      ReadsInt (.v 3) i ms2 g2 tm (fun _ => 0) ∧ ReadsInt (.v 19) i ms2 g2 tm (fun _ => 128) ∧
      Reads (fun e f => readScore e f siev.key (.v 3)) i ms2 g2 tm (fun _ => 0)) ∧
    ((ms2.core tm.core).sieve 0 = siev ∧ siev.k ≠ 0 ∧ siev.team = tm.id ∧ (ms2.core tm.core).siftAt ≠ some ms2.clock ∧ siev.newClk < ms2.clock ∧
      (128 : Word).toNat % 8 = 0 ∧ (128 : Word).toNat + 8 * siev.k ≤ tm.scrSize) ∧
    siev.held.Pairwise fun x y => ranksBefore siev y x = false := by
  refine ⟨fun i hi => ⟨beginAll_of (pc := 0x1000) (by decide +kernel) i hi, wholeAll_of (by decide +kernel) i hi, (reads_mm i).1, (reads_mm i).2.2.2⟩,
    ⟨by decide, ok_of (by decide +kernel), by decide +kernel, by decide, by decide, by decide +kernel, by decide +kernel⟩,
    fun i hi => ⟨beginAll_of (pc := 0x1000) (by decide +kernel) i hi, wholeAll_of (by decide +kernel) i hi, reads_of (by decide +kernel) i, reads_of (by decide +kernel) i,
      reads_of (by decide +kernel) i⟩, ⟨by decide +kernel, by decide, by decide, by decide +kernel, by decide, by decide, by decide⟩, by decide +kernel⟩

def reqs : List Instr :=
  [.mlds gd 0 1, .mma gd true none 0 1 true (.v 19), .mma gd false (some 1) 0 1 false (.v 19), .mmas gd false .p24 0 2 3 1 false (.v 19), .acsnap gd 4 1 true (.v 20) (.v 3),
   .acdrain gd 1 false (.tile 4 .rup), .acdrain gd 1 false (.f32 (.s 1) (.s 1) .rdn), .acdrain gd 1 true (.add160 (.s 1) (.s 1)), .acdrain gd 1 true (.add320 (.s 1) (.s 1)),
   .acclr gd true .ea160 1 false, .adload gd 1 (.v 19) (.v 3), .adinv gd 1 none, .adinv gd 1 (some (.v 19)), .vprune gd .p24 false 0 5 3 1 (.v 19) (.v 4)]

theorem witness_MatrixRequests : (∀ i ∈ reqs, Begins i mm2 g2 tmP) ∧ (∀ i ∈ reqs, WholeCrew i mm2 g2 tmP 1 four) ∧
    tmP.part = some 0 ∧ (mm2.part (tmP.core / 4) 0).reqs.length < 8 ∧ drainHeld mm2 tmP.core = false ∧
    (∀ h ∈ ([0, 1, 2, 3, 4, 5] : List (Fin 64)), h.val < tmP.tblCount ∧ ((mm2.core tmP.core).tile (tmP.tblBase + h.val)).st = .ready) ∧
    (let tile (h : Fin 64) : Tile := (mm2.core tmP.core).tile (tmP.tblBase + h.val)
     (tile 0).fmt ≤ 4 ∧ (mm2.part (tmP.core / 4) 0).fmtsAt mm2.clock (tmP.core % 4 * 8 + 1) = (some (tile 0).fmt, some (tile 0).fmt) ∧
      (tile 1).fmt = 8 ∧ (tile 1).rows = 0 ∧ (tile 1).cols = 127 ∧ (tile 2).fmt = (tile 0).fmt ∧ (tile 2).rows = (tile 0).rows ∧ (tile 3).fmt = 9 ∧ (tile 3).rows = 127 ∧
      (tile 3).cols = 127 ∧ (tile 4).fmt = 7 ∧ (tile 4).cols = 127 ∧ (0 : Word).toNat % 128 ≤ (tile 4).rows ∧ (tile 5).fmt = (tile 0).fmt ∧ (tile 5).cols = (tile 0).cols ∧
      (tile 5).rows = 127 ∧ (tile 3).cols = (tile 5).cols ∧ (tile 3).rows = (tile 5).rows) ∧
    (∀ i, ReadsInt (.v 19) i mm2 g2 tmP (fun _ => 128) ∧ ReadsInt (.v 3) i mm2 g2 tmP (fun _ => 0) ∧ ReadsWide (.s 1) i mm2 g2 tmP (fun _ => 0x3000) ∧
      ReadsTag .f32 (.v 4) i mm2 g2 tmP (fun _ => 0x3F800000)) ∧
    (∀ lane f, Member mm2 g2 tmP lane f → f.fb = 0) ∧ ((0x3000 : DWord).toNat % 128 = 0 ∧ (0x3000 : DWord).toNat % 16 = 0) ∧
    checkVa mm2 tmP.core (mm2.teamLaunch tmP).ctx 0x3000 { kind := 5, w := true, seals := true } = .ok (0x40003000, leaf0) ∧
    (∃ num den, Fmt.f32.val (0x3F800000 : Word).toNat = .fin false num den ∧ num ≠ 0) ∧ four.live.getLsbD 0 = true ∧ four.members.head? = some 0 ∧
    mm2.fibre (tmP.key 0) = some (fib 0) := by
  refine ⟨beginAll_of (pc := 0x1000) (by decide +kernel), wholeAll_of (by decide +kernel), rfl, by decide +kernel, by decide +kernel, by decide +kernel, by decide +kernel,
    fun i => ⟨(reads_mm i).1, (reads_mm i).2.1, (reads_mm i).2.2.2, reads_of (by decide +kernel) i⟩, fun lane f h => ?_, by decide, ok_of (by decide +kernel),
    ⟨_, _, rfl, by decide +kernel⟩, by decide, rfl, by decide +kernel⟩
  simpa using each_of (p := fun _ f => decide (f.fb = 0)) (by decide +kernel) lane f h

/-! ## Results in s-registers -/

theorem witness_SregDestinations : tm.swClk ≠ m2.clock ∧ tm.swClk ≠ m1.clock ∧
    (∀ i ∈ [Instr.movw ctl (.sreg (some 31)) 0x8000000000000000, .rdsys gd (.s 31) 8 0, .credi gd .add .s (.s 31) (.v 1) 1, .cbcast gd (.s 31) (.v 1) (.v 18) 1],
      Begins i m2 g2 tm ∧ AllExecute i m2 g2 tm) ∧
    (∀ i ∈ [Instr.credi gd .add .s (.s 31) (.v 1) 1, .cbcast gd (.s 31) (.v 1) (.v 18) 1], WholeCrew i m2 g2 tm 1 four ∧ ReadsInt (.v 18) i m2 g2 tm (fun _ => 1)) ∧
    (liveOf four).find? (fun k => rankAt four k == (1 : Word).toNat) = some 4 ∧
    Solo (.tstat gd (.s 31) 3) m1 g1 tm 0 f1 ∧ Unbroken m1 tm (f1.pc + 8) ∧ Solo (.ld ctl .b32 .x .normal .i32 (.s 31) ⟨1, none, 0xFFC⟩) m1 g1 tm 0 f1 ∧
    effAddr (envOf m1 tm 0 f1.fidx) f1 4 ⟨1, none, 0xFFC⟩ = .ok 0x2FFC ∧ (m1.core tm.core).badAt (tm.scrBase + (0x2FFC : DWord).toNat) 4 = none ∧ Tag.i32 ≠ .t6x5 ∧
    Solo (.ld ctl .b64 .g .normal .raw (.s 31) ⟨1, none, 0⟩) m1 g1 tm 0 f1 ∧ f1.txn = none ∧ effAddr (envOf m1 tm 0 f1.fidx) f1 8 ⟨1, none, 0⟩ = .ok 0x3000 ∧
    checkVa m1 tm.core (m1.teamLaunch tm).ctx 0x3000 { kind := 2, r := true } = .ok (0x40003000, leaf0) ∧ loadWaits m1 tm.core (lineOf 0x40003000) = false ∧
    loadLine m1 tm.core 0x40003000 8 = ([0, 0, 0, 0, 0, 0, 0, 0], none, Config.latNear) := by
  refine ⟨by decide, by decide, fun i hi => ⟨beginAll_of (pc := 0x1000) (by decide +kernel) i hi, ?_⟩,
    fun i hi => ⟨wholeAll_of (by decide +kernel) i hi, reads_of (by decide +kernel) i⟩, by decide, solo_of (by decide +kernel), unbroken_of (by decide +kernel),
    solo_of (by decide +kernel), ok_of (by decide +kernel), by decide +kernel, by decide, solo_of (by decide +kernel), rfl, ok_of (by decide +kernel),
    ok_of (by decide +kernel), by decide +kernel, by decide +kernel⟩
  simp only [List.mem_cons, List.not_mem_nil, or_false] at hi
  obtain rfl | rfl | rfl | rfl := hi <;> exact allExecute_of (by decide +kernel)

/-! ## Steps of a core -/

/-- A machine between two instructions with two ready gangs in slot 0, the second of which issued last. -/
def ms : State :=
  { mach [fib 0] with
    issue := none, fibres := [(2048, fib 0), (2052, fib 4)], gangs := [gg [(0, 0)], { gg [(0, 4)] with gid := 7, waited := 2 ^ 22 }],
    cores := [(0, { last := [(0, { gid := 7, team := 2, launch := 1, place := 1, yielded := false, clk := 999 })] })] }
/-- A loose fibre and no gang. -/
def fL : Fibre := { fib 0 with st := .loose 900 0 }
def mL : State := { mach [fL] with issue := none, gangs := [] }

/-- A gang whose access was not served in the last clock. -/
def gP : Gang := { gg [(0, 0)] with pend := some (990, 999) }
def mPend : State := { ms with gangs := [gP] }

theorem witness_SlotSteps : (gP ∈ mPend.gangs ∧ gP.core = 0 ∧ gP.slot = 0 ∧ gP.pend = some (990, 999) ∧ 999 < mPend.clock) ∧ (∀ g ∈ ms.gangs, g.pend = none) ∧ (ms.gangs.map (·.gid)).Nodup ∧ (∀ g ∈ ms.gangs, gangClass ms g ≤ 4 ∧ g.core = 0 ∧ g.slot = 0 ∧ readyGang ms g = true) ∧
    look 0 (ms.core 0).last = some { gid := 7, team := 2, launch := 1, place := 1, yielded := false, clk := 999 } ∧ ms.team 2 = some tm ∧ (ms.teamLaunch tm).rr = false ∧
    (∀ g ∈ mL.gangs, g.pend = none) ∧
    (∀ g ∈ mL.gangs, readyGang mL g = false) ∧ (∃ g ∈ ms.gangs, 2 ^ 22 ≤ g.waited) ∧ tm.asyncTrap = none ∧ { ms with clock := 1001 }.clock % 4 ≠ 0 ∧
    (mL.clock % 4 = 0 ∧ mL.gangs = [] ∧ mL.teams = [(tm.id, tm)] ∧ tm.core = 0 ∧ tm.halt = none ∧ tm.pendEv = [] ∧ tm.held mL = false ∧ mL.fibres = [(fL.key, fL)] ∧
      fL.team = tm.id ∧ fL.fidx < 1024 ∧ fL.fidx % 4 = 0 ∧ fL.st = .loose 900 0) := by
  decide +kernel

/-- A team whose one fibre waits in a join, its mask complete; and one whose join's deadline has passed. -/
def crew1 (e : BitVec 32) : Crew := { size := 4, members := [0, 4, 8, 12], live := e, masks := List.replicate 12 { expected := e, arrived := 1, phase := 5 } }
def tJ (e : BitVec 32) : Team := { tm with crews := [(1, crew1 e)] }
def fJ : Fibre := { fib 0 with st := .joining 1 11 (some 3) 5 (some 1000) 999 }
def mJ (e : BitVec 32) : State := { mach [fJ] with issue := none, gangs := [], teams := [(2, tJ e)] }
/-- A team that waits at the budget barrier. -/
def fW : Fibre := { fib 0 with st := .budget true 128 1 (some 1000) (some 3) true 990 }
def mB (bytes : Nat) : State :=
  let c : Core := { allot := [{ team := 2, bytes := bytes, w := 128, deadline := some 1000 }], tiles := [(5, { st := .filling, zeroed := some 1000 })] }
  { mach [fW] with issue := none, gangs := [], cores := [(0, c)] }
def tC : Team := { tm with copying := true }
def mBc : State := { mB 2048 with teams := [(2, tC)] }

/-- A sieveget with 40 bytes left to write. -/
def sbusy (clk : Nat) : SieveBusy := { team := 2, crew := 1, clk := clk, at_ := 0x80120, rest := List.replicate 40 7 }

theorem witness_CoreSteps :
    (∀ n ∈ [1, 3], let e := BitVec.ofNat 32 n; tm.core = 0 ∧ (mJ e).team (tJ e).id = some (tJ e) ∧ fJ.team = (tJ e).id ∧ (mJ e).fibre fJ.key = some fJ ∧ fJ.fidx < 1024 ∧
      (mJ e).teamFibres (tJ e).id = [fJ] ∧ coreTeams (mJ e) 0 = [tJ e] ∧ (tJ e).crews = [(1, crew1 e)] ∧ (tJ e).kept = none ∧ 999 ≠ (mJ e).clock ∧
      (crew1 e).masks[11]? = some { expected := e, arrived := 1, phase := 5 } ∧ rankIn (crew1 e) fJ.fidx = some 0 ∧
      ((mJ e).core (tJ e).core).brk = []) ∧
    ((1 : BitVec 32) &&& ~~~1 = 0 ∧ (3 : BitVec 32) &&& ~~~1 ≠ 0 ∧ 1000 ≤ (mJ 3).clock) ∧
    (∀ b ∈ [2048, 2 ^ 20], (mB b).team tm.id = some tm ∧ fW.team = tm.id ∧ (mB b).fibre fW.key = some fW ∧ ((mB b).core 0).allot = [{ team := 2, bytes := b, w := 128, deadline := some 1000 }] ∧
      ((mB b).teamLaunch tm).express = false ∧ coreTeams (mB b) 0 = [tm] ∧ (mB b).teamFibres tm.id = [fW] ∧ 1000 ≤ (mB b).clock) ∧
    (rising (mB 2048).teams = true ∧ (∀ e ∈ (mB 2048).teams, e.2.id = e.1)) ∧
    (∀ was ∈ [0, 2 ^ 20], let s := (mB 2048).setCore 0 { (mB 2048).core 0 with allot := [], poolWas := was }
     (s.core 0).allot = [] ∧ ((s.core 0).poolWas < poolBytes s 0 false ↔ was = 0)) ∧
    (2048 ≤ poolBytes (mB 2048) 0 false ∧ poolBytes (mB (2 ^ 20)) 0 false < 2 ^ 20) ∧
    (mBc.team tC.id = some tC ∧ tC.copying = true ∧ mBc.teamFibres tC.id = [fW]) ∧
    (((mB 2048).core 0).tile 5).zeroed = some 1000 ∧ (((mB 2048).core 0).tile 5).st = .filling ∧
    ∀ clk ∈ [1000, 1001], let s := (mB 2048).setCore 0 { (mB 2048).core 0 with sieveBusy := [{ sbusy clk with team := 9 }, sbusy clk] }
      (s.core 0).sieveBusy.filter (fun x => x.team == tm.id) = [sbusy clk] := by
  refine ⟨?_, ?_, ?_, ?_, ?_, ?_, ?_, ?_, ?_⟩ <;> decide +kernel

/-- A sleeping transaction that has been woken, its deadline at this clock, and an operation of the sealing unit. -/
def fS : Fibre := { fib 0 with st := .sleeping 0xF00 0x2000 (some 1000) 1 3 }
/-- A wake sent by die 1 with its clocks. -/
def wake0 : Wake := { who := .fibre 2048, die := 1, stamp := [0, 5] }
def mZ : State :=
  { mach [fS] with
    issue := none, gangs := [], wakes := [wake0],
    sealQ := [{ ctx := 0, die := 0, isSeal := true, pod := false, start := 0, pages := 0x40000, fibre := 2048 }] }

/-- The same with the wake table of line 9's slice full, and room in its bucket or none. -/
def wat : Watch := { line := 9, ver := 0, who := .fibre 9999, die := 0, mod := 0 }
def mZf (n : Nat) : State :=
  { mZ with dies := [(0, { watches := List.replicate 4096 wat, buckets := [(bucketOf 9, List.replicate n (.fibre 9999))] })] }

theorem witness_WakesWatchesAndSealing : mZ.team tm.id = some tm ∧ fS.team = tm.id ∧ mZ.fibre fS.key = some fS ∧
    ((coreAsk mZ tm.core 9).line 9).ver ≠ 1 ∧ ((coreAsk mZ tm.core 9).line 9).ver = 0 ∧
    (((coreAsk mZ tm.core 9).die (dieOfLine 9)).watches.filter fun w => mZ.ownLine w.line && sliceOf w.line == sliceOf 9).length < 4096 ∧
    mZ.wakes.find? (fun x => x.who == .fibre fS.key) = some wake0 ∧ wake0.stamp ≠ [] ∧ wake0.die ≠ tm.core / 128 ∧ (mZ.core tm.core).brk = [] ∧ 1000 ≤ mZ.clock ∧
    mZ.sealQ = [{ ctx := 0, die := 0, isSeal := true, pod := false, start := 0, pages := 0x40000, fibre := 2048 }] ∧
    sealLeaves mZ { ctx := 0, die := 0, isSeal := true, pod := false, start := 0, pages := 0x40000, fibre := 2048 } = [(0, leaf0, 0x3000, 30)] ∧
    sealWaits mZ [(0, leaf0, 0x3000, 30)] = false ∧ 0x3000 % 8 = 0 ∧ (∀ x ∈ leafEntries leaf0 0x3000, mZ.outcast (lineOf x) = false) ∧ mL.sealQ = [] := by
  decide +kernel

theorem witness_WakesWatchesAndSealing_full : ∀ n ∈ [15, 16], (mZf n).team tm.id = some tm ∧ (mZf n).fibre fS.key = some fS ∧
    ((coreAsk (mZf n) tm.core 9).line 9).ver = 0 ∧ (mZf n).ownLine 9 = true ∧
    4096 ≤ (((coreAsk (mZf n) tm.core 9).die (dieOfLine 9)).watches.filter fun w => (mZf n).ownLine w.line && sliceOf w.line == sliceOf 9).length ∧
    (getD [] (bucketOf 9) ((coreAsk (mZf n) tm.core 9).die (dieOfLine 9)).buckets).length = n := by
  decide +kernel

/-- Its cores hold no combining entry. -/
theorem no_entries (c : Nat) : (mZ.core c).wcb = [] := rfl

/-! ## Clusters, halts and debug control -/

/-- A launch of eight clusters of one team of 32 fibres with nothing resident. -/
def lA : Launch := { lau with n := 32, gx := 8, scratch := 4096, args := [(0, 7)] }
def mAd : State := { mach [] with issue := none, gangs := [], teams := [], fibres := [], launches := [(1, lA)] }
def roomA : Room := (roomOn mAd 0 lA).getD { slot := 0, reg := 0, scr := 0, tile := 0, tbl := 0 }
/-- A team without fibres whose cluster is the first of its launch. -/
def lB : Launch := { lau with gx := 2, admitted := [0] }
def mRt : State := { mach [] with issue := none, gangs := [], fibres := [], launches := [(1, lB)] }
def mRun : State := mRt.setCtx 0 { mRt.ctx 0 with st := .running }
def mNone : State := { mRt with teams := [] }

theorem witness_ClusterLifetimes :
    (mAd.launch lA.id = some lA ∧ nextCluster mAd (0 / 128) lA.express = some (lA, 0) ∧ lA.clusterSize = 1 ∧ lA.pool = false ∧ lA.isMatrix = false ∧
      roomOn mAd 0 lA = some roomA ∧ (mAd.ctx lA.ctx).st = .idle) ∧
    (mRun.launch lB.id = some lB ∧ mRun.team tm.id = some tm ∧ tm.launch = lB.id ∧ mayRetire mRun tm = true ∧ lB.pool = false ∧
      (∀ e ∈ mRun.teams, e.1 ≠ tm.id → (mRun.teamLaunch e.2).ctx ≠ lB.ctx) ∧ (mRun.ctx lB.ctx).st = .running) ∧
    (mNone.launch lB.id = some lB ∧ 0 ∈ lB.admitted ∧ 0 ∉ lB.bits ∧ lB.recorded ≤ 0 ∧ ∀ e ∈ mNone.teams, ¬(e.2.launch = lB.id ∧ e.2.pos = 0)) := by
  refine ⟨?_, ?_, ?_⟩ <;> decide +kernel

/-- A team with a fibre that has trapped, before its halt arrives, and while it is halted. -/
def rec0 : TrapRec := { trap := { code := .poison, detail := 3 }, rpc := 0x1000, ipc := 0x1000, inRun := false, inTree := false, closed := false, shim := none, event := 0, order := 0 }
def fT : Fibre := { fib 0 with st := .trapped, trap := some rec0 }
def ev (n : Option Nat) : TrapEvent := { num := n, clk := 998, fibres := [0], issue := none }
def tH : Team := { tm with events := 65535, pendEv := [ev none] }
def mH : State := { mach [fT] with issue := none, gangs := [], teams := [(2, tH)] }
def tR : Team := { tm with events := 1, pendEv := [ev (some 1)], halt := some { clk := 998 } }
def mRc : State := { mach [fT] with issue := none, gangs := [], teams := [(2, tR)] }
def tN : Team := { tR with halt := some { clk := 998, recorded := true } }
def mN : State := ({ mRc with teams := [(2, tN)] } : State).setCtx 0 { mRc.ctx 0 with st := .running }
def tA : Team := { tN with asyncTrap := some { code := .engineFault, detail := 8 } }
def mAs : State := { mN with teams := [(2, tA)] }
/-- A team that the debugger holds, its fibre stopped. -/
def fD : Fibre := { fib 0 with st := .stopped }
def tD : Team := { tm with halt := some { clk := 900, recorded := true, debug := true } }
def mD : State := { mach [fD] with issue := none, gangs := [], teams := [(2, tD)] }

/-- A team that a reported breakpoint holds, alone or with an engine's fault. -/
def recB : TrapRec := { rec0 with trap := { code := .breakpoint, faddr := 0x1000 } }
def fBk : Fibre := { fib 0 with st := .trapped, trap := some recB }
def repB : Report := { code := .breakpoint, detail := 0, event := some (ev (some 1)) }
def tBk (a : Option Trap) : Team := { tN with report := some repB, asyncTrap := a }
def mBk (a : Option Trap) : State := { mN with teams := [(2, tBk a)], fibres := [(2048, fBk)] }

/-- A team whose fibre traps in its handler. -/
def fTh : Fibre := { fT with hand := .handler }
def mNh : State := { mN with fibres := [(fTh.key, fTh)] }

theorem witness_HaltsAndDebug :
    (mNh.team tN.id = some tN ∧ tN.asyncTrap = none ∧ tN.pendEv = [ev (some 1)] ∧ (ev (some 1)).fibres = [fTh.fidx] ∧ fTh.team = tN.id ∧
      mNh.fibre fTh.key = some fTh ∧ fTh.hand ≠ .none ∧ fTh.trap = some rec0 ∧ tN.report = none ∧ tN.frozen mNh = false) ∧
    (mH.team tH.id = some tH ∧ tH.halt = none ∧ tH.pendEv = [ev none] ∧ (ev none).num = none ∧ (ev none).clk < mH.clock ∧ (ev none).fibres = [fT.fidx] ∧
      fT.team = tH.id ∧ mH.fibre fT.key = some fT ∧ fT.trap = some rec0) ∧
    (mRc.team tR.id = some tR ∧ tR.halt = some { clk := 998 } ∧ 998 + 2 ≤ mRc.clock ∧ gangsStopped mRc tR = true ∧ tR.frozen mRc = false) ∧
    (mN.team tN.id = some tN ∧ tN.halt = some { clk := 998, recorded := true } ∧ tN.report = none ∧ tN.frozen mN = false ∧ tN.asyncTrap = none ∧
      tN.pendEv = [ev (some 1)] ∧ tN.kept = none ∧ rec0.shim = none ∧ (mN.teamLaunch tN).h = 0 ∧ fT.hand = .none ∧ mN.fibre fT.key = some fT ∧
      (mN.ctx (mN.teamLaunch tN).ctx).st = .running) ∧
    (mAs.team tA.id = some tA ∧ tA.report = none ∧ tA.frozen mAs = false ∧ tA.asyncTrap = some { code := .engineFault, detail := 8 }) ∧
    (mL.team tm.id = some tm ∧ tm.halt = none ∧ tm.asyncTrap = none ∧ coreTeams mL tm.core = [tm] ∧ (1 : BitVec 16).getLsbD tm.slot = true) ∧
    (mD.team tD.id = some tD ∧ coreTeams mD tD.core = [tD] ∧ mD.teamFibres tD.id = [fD] ∧ fD.st = .stopped ∧ tD.report = none ∧ tD.pendEv = [] ∧ tD.asyncTrap = none) ∧
    (∀ a ∈ [none, some { code := .engineFault, detail := 8 }], (mBk a).team (tBk a).id = some (tBk a) ∧ coreTeams (mBk a) (tBk a).core = [tBk a] ∧
      (mBk a).teamFibres (tBk a).id = [fBk] ∧ fBk.team = (tBk a).id ∧ (mBk a).fibre fBk.key = some fBk ∧ fBk.st = .trapped ∧ fBk.trap = some recB ∧
      (tBk a).halt = some { clk := 998, recorded := true } ∧ (tBk a).report = some repB ∧ repB.code = .breakpoint ∧ repB.event = some (ev (some 1)) ∧
      (tBk a).pendEv = [ev (some 1)] ∧ (ev (some 1)).fibres = [fBk.fidx]) := by
  refine ⟨?_, ?_, ?_, ?_, ?_, ?_, ?_, ?_⟩ <;> decide +kernel

/-! ## Steps at a home -/

/-- A machine with a team and no fibres. -/
def mq : State := { mach [] with issue := none, gangs := [] }
def wcb5 : Wcb := { line := 5, mask := 0xFF, data := 0x0807060504030201, alloc := 900, merged := 900, recalled := true }
/-- Core 0 combines bytes of line 5, which a set of claims has room for, is claimed by, or has no room for. -/
def mHo (claims : List Nat) : State := { mq with cores := [(0, { wcb := [wcb5] })], dies := [(0, { claims := [(5, claims)] })] }
/-- The host's window lies in far memory. -/
def mHw : State := { mq with hub := { hostEn := true, hostwin := 2 ^ 48 } }
def fBar : Fibre := { fib 0 with avail := [(20, 1000 + 2 ^ 39)] }
def arr : Arrival := { gfid := 0, core := 0, dst := .v 20, va := 0x4000, before := fBar }
def mBar : State := { mach [fBar] with issue := none, bars := [{ pa := 0x4000, scope := 0, unit := 0, clk := 999, arrivals := [arr] }] }
/-- Line 9 reserved by a commit of module 3. -/
def mRv : State := mq.setLine 9 { mq.line 9 with resv := some 3 }

theorem witness_HomeSteps :
    (((mHo []).core 0).entry 5 = some wcb5 ∧ (((mHo []).core 0).wcb.filter fun x => !x.claimed && sameSlice x.line 5) = [wcb5] ∧ claimRoom (mHo []) 5 = true ∧
      claimRoom (mHo [1, 2, 3, 4, 5, 6, 7, 8]) 5 = false ∧ (mHo [1, 2, 3, 4, 5, 6, 7, 8]).reserved 5 = false ∧ wcb5.merged + 64 ≤ (mHo []).clock ∧ wcb5.recalled = true) ∧
    (([7, 8] : List Byte) ≠ [] ∧ 0x407E % 128 + 2 ≤ 128 ∧ isMemory 0x407E = true ∧ mHw.reserved (lineOf 0x407E) = false ∧ isMemory (2 ^ 48 + 0x407E) = true ∧
      mHw.reserved (lineOf (2 ^ 48 + 0x407E)) = false ∧ mHw.hub.hostEn = true ∧ farLine (lineOf mHw.hub.hostwin) = true ∧ isMemory mHw.hub.hostwin = true) ∧
    (0x4008 % 8 = 0 ∧ isMemory 0x4008 = true ∧ mq.reserved (lineOf 0x4008) = false ∧ badGranule (mq.line (lineOf 0x4008)).poison (0x4008 % 128) 8 = none ∧
      ((getD [] (lineOf 0x4008) (mq.die (dieOfLine (lineOf 0x4008))).claims).filter fun c => ((mq.core c).entry (lineOf 0x4008)).isSome) = [] ∧
      ((getD [] 5 ((mHo [0, 1]).die (dieOfLine 5)).claims).filter fun c => (((mHo [0, 1]).core c).entry 5).isSome) = [0] ∧ isMemory 0x288 = true ∧ (mHo [0, 1]).reserved (lineOf 0x288) = false) ∧
    ((mRv.line 9).resv.isSome = true ∧ mRv.asleep 9 = false ∧ mq.reserved 9 = false ∧ isMemory (9 * 128) = true ∧ 3 ≠ mq.hub.modid ∧
      getD [] 9 (mq.die (dieOfLine 9)).claims = []) ∧
    (0x4000 % 128 = 0 ∧ mBar.reserved (lineOf 0x4000) = false ∧ getD [] (lineOf 0x4000) (mBar.die (dieOfLine (lineOf 0x4000))).claims = [] ∧ isMemory 0x4000 = true ∧
      (mBar.line (lineOf 0x4000)).poison.getLsbD 0 = false ∧ arr.dst = .v 20 ∧
      mBar.fibre arr.before.key = some fBar ∧ mBar.clock + 2 ^ 39 ≤ getD 0 (arr.before.fb + 20) fBar.avail) := by
  refine ⟨?_, ?_, ?_, ?_, ?_⟩ <;> decide +kernel

/-! ## Copies, messages and translation -/

/-- A machine at clock 5,000 with fills, copies, a message and a gather outstanding, a miss and an invalidation. -/
def cp1 (v : Nat) : Copy := { img := 0x1234, poison := 0, ver := v, filled := 100 }
def msg1 : Msg := { src := 1, stamp := [0, 5], pushes := [{ line := 3 * 2 ^ 42 + 6, mask := 0xF, data := 0x55667788, ver := 8, poison := 0 }] }
def fGa : Fibre := { fib 0 with avail := [(20, 5000 + 2 ^ 39)] }
def ga1 : Gather :=
  { id := 50, fibre := 2048, before := fGa, pos := 0, c := false, d := some 20, kind := .int, pod := false, pa := 0x4000, va := 0x3000, await := [0] }
def miss3 : Miss := { ctx := 0, page := 3, cores := [0, 1] }
def mCp (inv : Option TlbInv) : State :=
  { mach [fGa] with
    issue := none, clock := 5000, gathers := [ga1],
    cores := [(0, { fills := [(5, 1), (3 * 2 ^ 42 + 5, 0), (2 ^ 41 + 5, 0)], l1 := [(6, cp1 0)], acks := [{ id := 3, who := [2048] }, { id := 4, who := [] }] })],
    dies := [(0, { rdc := [(3 * 2 ^ 42 + 6, cp1 7), (2 ^ 45 + 6, cp1 7)], inbox := [msg1], misses := [miss3], inv := inv })] }

theorem witness_CopiesMessagesTranslation :
    ((∀ e ∈ [(5, 1), (3 * 2 ^ 42 + 5, 0), (2 ^ 41 + 5, 0)], look e.1 ((mCp none).core 0).fills = some e.2 ∧ (mCp none).asleep e.1 = false ∧
        look e.1 ((mCp none).die (0 / 128)).rdc = none) ∧
      (mCp none).ownLine 5 = true ∧ dieOfLine 5 = 0 / 128 ∧ ((mCp none).core 0).ubL1 < 256 ∧ ((mCp none).core 0).entry 5 = none ∧
      (mCp none).ownLine (2 ^ 41 + 5) = true ∧ farLine (2 ^ 41 + 5) = true ∧
      (mCp none).ownLine (3 * 2 ^ 42 + 5) = true ∧ dieOfLine (3 * 2 ^ 42 + 5) ≠ 0 / 128) ∧
    (look (3 * 2 ^ 42 + 6) ((mCp none).die 0).rdc = some (cp1 7) ∧ 8 = ((cp1 7).ver + 1) % 2 ^ 24 ∧ look 7 ((mCp none).die 0).rdc = none ∧
      look (2 ^ 45 + 6) ((mCp none).die 0).rdc = some (cp1 7) ∧ (mCp none).ownLine (2 ^ 45 + 6) = false ∧ (cp1 7).filled + 4096 ≤ (mCp none).clock ∧
      look 6 ((mCp none).core 0).l1 = some (cp1 0)) ∧
    ((((mCp none).die 0).inbox = [msg1] ∧ msg1.src = 1 ∧ ∀ k, k < 8 → k ≠ 1 → vcGe (((mCp none).die 0).clockOf k) (msg1.stamp.getD k 0) = true) ∧
      ((mCp none).core 0).acks ≠ []) ∧
    ((mCp none).gathers = [ga1] ∧ ga1.await = [(mCp none).hub.modid] ∧ (mCp none).fibre ga1.fibre = some fGa ∧
      (mCp none).clock + 2 ^ 39 ≤ getD 0 (ga1.before.fb + 20) fGa.avail ∧
      ∀ d, d < 8 → (mCp none).asleep (lineOf (replicaOf (mCp none) ga1.pa d)) = false ∧ (mCp none).poisoned (replicaOf (mCp none) ga1.pa d) 4 = false) ∧
    (miss3 ∈ ((mCp none).die 0).misses.take 64 ∧ ((mCp none).die 0).misses.length ≤ 1024 ∧ ((mCp none).die 0).tlb.length < 16384 ∧
      walk (mCp none) 0 ((BitVec.ofNat 56 (miss3.page * 4096)).signExtend 64) = some (leaf0, 0x3000, 30) ∧ ((mCp none).die 0).inv = none) ∧
    ((mCp (some { kind := 0, va := 0x3000, ctx := 0 })).die 0).inv = some { kind := 0, va := 0x3000, ctx := 0 } := by
  refine ⟨?_, ?_, ?_, ?_, ?_, ?_⟩ <;> decide +kernel

/-! ## Steps of the matrix engine -/

/-- An empty cache has room for a slice of any rank. -/
theorem cacheSlice_empty (pins : List SliceTag) (x : Slice) (hr : x.rank ≤ 128) : cacheSlice pins [] x = some [x] := by
  have one (st : Nat) : makeRoom pins x.tag x.rank st 1025 [] = some [] := by
    have h : waysIn x.tag x.rank st ≤ x.rank / 8 := by
      unfold waysIn
      exact Nat.le_trans (List.length_filter_le _ _) (by simp)
    unfold makeRoom
    have : waysIn x.tag x.rank st ≤ 16 := by omega
    simp [this]
  have all (l : List Nat) : l.foldl (fun acc st => acc.bind (makeRoom pins x.tag x.rank st 1025)) (some []) = some [] := by
    induction l with
    | nil => rfl
    | cons a l ih => simpa [one] using ih
  simp [cacheSlice, all]

def mreq (kind : ReqKind) : MReq := { id := 60, team := 2, core := 0, crew := 1, cls := 2, posted := 900, kind := kind }
/-- At clock 10,000, partition 0 of quad 0 as given. -/
def mxP (q : Quad) (p : Part) : State :=
  { mm1 with issue := none, gangs := [], fibres := [], clock := 10000, quads := [(0, { q with parts := [(0, p)] })] }
def mxR (r : MReq) : State := mxP {} { owner := some (1, 0), reqs := [r], ea320 := false }
def aPass (sw : Bool) : ReqKind := .pass sw none 4 none false 0
def xPass (sw : Bool) : PassOf := ⟨sw, none, 4, none, false, 0⟩
def rowIn : MReq := { mreq (aPass false) with started := some 100, m := 4, entered := [(0, 5000), (1, 5001), (2, 5002)], added := [0], plane := { fmt := some 0, w := [(0, 3), (129, 5)] } }
def mreqDue (k : ReqKind) : MReq := { mreq k with started := some 100, due := some 9000 }
def nextPass : MReq := { mreq (aPass true) with next := some 1000 }
def aPrune : MReq := { mreq (.vprune .p24 true 4 6 7 0 0 0) with started := some 100 }
def addOn : AddOn := { id := 61, team := 2, core := 0, wide := false, cells := [(0x4020, { v := 5 })], cell := 0x5000 }
def mAdd : State := mxP {} { owner := some (1, 0), adds := [addOn] }
def mAddF : State := mxP {} { owner := some (1, 0), adds := [{ addOn with f32 := some (.ea160, .rup) }] }
/-- A translation held by die 0, a directory entry of rank 8 with identifier 1, its two slices of zeros, and a fetch and a waiting row for it and for identifier 2, which has no
entry. -/
def slA : Slice := { tag := tagA 0 1 0, rank := 8, sigma := 0, codes := List.replicate 1024 0, used := 10000 }
def fet (id : Nat) : Fetch := { tag := tagA 0 id 0, ctx := 0, clk := 900 }
/-- A pass whose rows have identifiers, and rows of it that wait for their slices. -/
def rId : MReq := { mreq (.pass false (some 5) 4 none false 0) with started := some 100, m := 4, entered := [(0, 5000)] }
def late (id : Nat) : Replay := { part := 0, req := 60, row := id, id := id, entry := 5002 }
def mSl : State :=
  { mxP { fetches := [fet 1, fet 2], replay := [late 1, late 2] } { owner := some (1, 0), reqs := [rId] } with
    mem := [(0x40000021, 0x10), (0x40000029, 0x20), (0x40000030, 1), (0x40000032, 1), (0x40000033, 1), (0x40000034, 1)],
    dies := [(0, { tlb := [{ ctx := 0, base := 0, bits := 30, leaf := leaf0 }] })] }
def repl (pass : Option Nat) (failed : Bool) : Replay := { part := 0, req := 60, row := 2, id := 1, entry := 5002, since := some 6000, sidePass := pass, failed := failed }
def mRep (e : Replay) : State := mxP { replay := [e], cache := [slA] } { owner := some (1, 0), reqs := [rId] }

theorem witness_MatrixEngineSteps :
    ((∀ r ∈ [mreq (.clr false .ea320 true), mreq (.mlds 4), mreq (.drainTile 8 false .rup), mreq (.drainMem true 1 .rne 0x3000 0x3100), mreq (.snap 8 false 2 [] none), mreq (aPass true), mreq (aPass false)],
        ((mxR r).part 0 0).reqs = [r] ∧ r.started = none ∧ r.failed = false ∧ r.posted < (mxR r).clock ∧ ((mxR r).part 0 0).ea320 = false ∧
        (∀ k, k < 4 → k ≠ 0 → ((mxR r).part 0 k).reqs = []) ∧ ((mxR r).part 0 0).clearing = false ∧ r.entered = [] ∧ mayGrant (mxR r) ((mxR r).part 0 0) = true ∧
        ((mxR r).quad 0).arrayFree ≤ (mxR r).clock) ∧
      ∀ sw ∈ [true, false], (mreq (aPass sw)).pass = some (xPass sw) ∧ grantFault (mxR (mreq (aPass sw))) ((mxR (mreq (aPass sw))).part 0 0) (mreq (aPass sw)) (xPass sw) = none) ∧
    (((mxR nextPass).part 0 0).head = some nextPass ∧ nextPass.isPass = true ∧ 1 < nextPass.effCls ∧ 1000 + 4096 * (nextPass.promo + 1) ≤ (mxR nextPass).clock) ∧
    (((mxR rowIn).part 0 0).req rowIn.id = some rowIn ∧ rowIn.pass = some (xPass false) ∧ look 2 rowIn.entered = some 5002 ∧ 5002 + 256 ≤ (mxR rowIn).clock ∧ 2 ∉ rowIn.added ∧
      ((mxR rowIn).quad 0).replay = []) ∧
    (∀ k ∈ [aPass true, .mlds 4, .adload 1 0], ((mxR (mreqDue k)).part 0 0).reqs = [mreqDue k] ∧ (mreqDue k).due = some 9000 ∧ 9000 ≤ (mxR (mreqDue k)).clock) ∧
    (((mxR aPrune).part 0 0).reqs = [aPrune] ∧ aPrune.started.isSome = true) ∧
    ((mAdd.part 0 0).adds = [addOn] ∧ (mAddF.part 0 0).adds = [{ addOn with f32 := some (.ea160, .rup) }] ∧ 0x4020 % eaBytes .ea160 = 0 ∧
      mAdd.reserved (lineOf 0x4020) = false ∧ getD [] (lineOf 0x4020) (mAdd.die (dieOfLine (lineOf 0x4020))).claims = []) := by
  refine ⟨?_, ?_, ?_, ?_, ?_, ?_⟩ <;> decide +kernel

theorem slice_fetched : fetchSlice mSl 0 0 (tagA 0 1 0) = .ok slA := ok_of (by decide +kernel)
theorem dir_read : ∃ d, readDir mSl 0 0 0 1 = .ok d ∧ (tagA 0 1 0).proj < d.nproj ∧ ∀ w ∈ wordsWaiting (mSl.quad 0) (tagA 0 1 0), d.has w = true := by
  have h : (match readDir mSl 0 0 0 1 with
    | .ok d => decide ((tagA 0 1 0).proj < d.nproj) && (wordsWaiting (mSl.quad 0) (tagA 0 1 0)).all d.has
    | .error _ => false) = true := by decide +kernel
  split at h
  · rename_i d hd
    simp only [Bool.and_eq_true, decide_eq_true_eq, List.all_eq_true] at h
    exact ⟨d, hd, h.1, h.2⟩
  · cases h

theorem witness_MatrixEngineSteps_slices :
    ((mSl.quad 0).fetches.find? (·.tag == tagA 0 1 0) = some (fet 1) ∧ (∀ r ∈ ((mSl.quad 0).part 0).reqs, r.loads 0 (tagA 0 1 0) = none) ∧
      fetchSlice mSl 0 0 (tagA 0 1 0) = .ok slA ∧ (cacheSlice (pinned mSl 0) (mSl.quad 0).cache slA).isSome = true ∧ wordsWaiting (mSl.quad 0) (tagA 0 1 0) = [0]) ∧
    ((mSl.quad 0).fetches.find? (·.tag == tagA 0 2 0) = some (fet 2) ∧ late 2 ∈ (mSl.quad 0).replay ∧ (late 2).waits ((mSl.quad 0).part 0) (tagA 0 2 0) = true ∧
      ((mSl.quad 0).part 0).req (late 2).req = some rId ∧ ∃ cause, waitFault mSl 0 (fet 2) ((late 2).word ((mSl.quad 0).part 0)) = some cause) ∧
    (nextSide ((mRep (repl none false)).quad 0) = some (repl none false) ∧ (∀ x ∈ ((mRep (repl none false)).quad 0).replay, x.sidePass ≠ some (mRep (repl none false)).clock) ∧
      ∀ u ∈ (repl none false).tags (((mRep (repl none false)).quad 0).part 0), (sliceIn ((mRep (repl none false)).quad 0).cache u).isSome = true) ∧
    (∀ e ∈ [repl (some 9000) false, repl none true], ((mRep e).quad 0).replay = [e] ∧ (((mRep e).quad 0).part e.part).req e.req = some rId ∧ rId.pass = some ⟨false, some 5, 4, none, false, 0⟩ ∧
      e.entry + 256 ≤ (mRep e).clock) := by
  refine ⟨⟨by decide +kernel, by decide +kernel, slice_fetched, ?_, by decide +kernel⟩,
    ⟨by decide +kernel, by decide +kernel, by decide +kernel, by decide +kernel, Option.isSome_iff_exists.1 (by decide +kernel)⟩, by decide +kernel, by decide +kernel⟩
  rw [show (mSl.quad 0).cache = [] by decide +kernel, cacheSlice_empty _ _ (by decide)]
  rfl

/-! ## Chain entries, records and index walks -/

def cmd1 : CopyCmd := { id := 70, team := 2, crew := 1, kind := .xchain, base := 0x100, cell := 0x5000 }
def words4 (e : Nat × Nat × Nat × Nat) : List Byte := leBytes e.1 8 ++ leBytes e.2.1 8 ++ leBytes e.2.2.1 8 ++ leBytes e.2.2.2 8
/-- A machine whose copy engine stands at the first of these entries, with a frame granted and a page of 4 KiB mapped at 0x40000000. -/
def mCh (es : List (Nat × Nat × Nat × Nat)) : State :=
  let s : State := { mq with teams := [(2, tmP)], quads := [(0, quad0)] }
  let s := layBytes (layBytes (layBytes s 0x3008 (leBytes 0x4001 8)) 0x4000 (leBytes 0x5001 8)) 0x5000 (leBytes 0x1000005D 8)
  let s := s.setCtx 0 { s.ctx 0 with frames := [(0x20000000, 0x100000)] }
  s.setCore 0 ({ copyQ := [cmd1], tiles := tileTab } : Core) |>.setCore 0 (({ copyQ := [cmd1], tiles := tileTab } : Core).putBytes (0x80000 + 0x100) (es.flatMap words4))
def eCopy : Nat × Nat × Nat × Nat := (1 + 2 ^ 10 + 2 ^ 12, 0x100, 0x200, 31)
def eCopymma : Nat × Nat × Nat × Nat := (2 + 2 ^ 10 + 2 * 2 ^ 12, 0x100, 0, 127)
def eExt : Nat × Nat × Nat × Nat := ((encode (.mma gd false none 0 1 false (.v 0))).headD 0, 0x01000000, 0, 0)
def eTmove : Nat × Nat × Nat × Nat := (3, 0x40000000, 0x20001000, 0)
def ePrefetch : Nat × Nat × Nat × Nat := (4, 0x3000, 200, 0)
def eLoop : Nat × Nat × Nat × Nat := (5 + 2 ^ 8 * 2 + 2 ^ 32 * 3, 128, 256, 0)
def eSkip (kind w2 : Nat) : Nat × Nat × Nat × Nat := (6 + 2 ^ 8 * 2 + 2 ^ 16 * kind, 0, w2, 0)
def eSignal : Nat × Nat × Nat × Nat := (7, 0x6010, 77, 0)
def eEnd : Nat × Nat × Nat × Nat := (0, 0, 0, 0)
def goesOn (r : EntryEnd) (p : Nat) : Bool := match r with | .go pos none 0 => pos == p | _ => false
theorem goesOn_of {x : State × EntryEnd} {p : Nat} (h : goesOn x.2 p = true) : x = (x.1, .go p none 0) := by
  obtain ⟨s, r⟩ := x
  unfold goesOn at h
  split at h
  · rename_i heq
    simp only at heq
    subst heq
    rw [beq_iff_eq.1 h]
  · cases h
def postsB (r : Except Trap (Option State)) : Bool := match r with | .ok (some _) => true | _ => false
theorem posts_of {r : Except Trap (Option State)} (h : postsB r = true) : ∃ s, r = .ok (some s) := by
  unfold postsB at h
  split at h
  · exact ⟨_, rfl⟩
  · cases h
def extB (r : Option (Except Nat Instr)) (i : Instr) : Bool := match r with | some (.ok j) => decide (j = i) | _ => false
theorem ext_of {r : Option (Except Nat Instr)} {i : Instr} (h : extB r i = true) : r = some (.ok i) := by
  unfold extB at h
  split at h
  · rw [of_decide_eq_true h]
  · cases h
def mCm : State := mCh [eCopymma, eExt]

theorem witness_ChainEntries :
    (∀ e ∈ [eCopy, eCopymma, eTmove, ePrefetch, eLoop, eSkip 4 0, eSkip 5 0, eSkip 5 1, eSignal, eEnd],
      ((mCh [e]).core 0).cmd cmd1.id = some cmd1 ∧ (mCh [e]).team cmd1.team = some tmP ∧ ((mCh [e]).core 0).active cmd1.id = true ∧ (mCh [e]).owes 0 cmd1.acks = false ∧
      ((mCh [e]).ctx ((mCh [e]).teamLaunch tmP).ctx).resetting = false ∧ entryAt (mCh [e]) tmP cmd1 cmd1.pos = some e) ∧
    (tmP.core = 0 ∧ cmd1.kind = .xchain ∧ cmd1.lp = none ∧ cmd1.work = none ∧ cmd1.acks = [] ∧ cmd1.skipped < 65536) ∧
    (eCopy.1 % 256 = 1 ∧ fld eCopy.1 8 1 = 0 ∧ fld eCopy.1 10 2 = 1 ∧ fld eCopy.1 12 2 = 1 ∧ fld eCopy.1 14 2 = 0 ∧ fld eCopy.2.2.2 56 8 = 0 ∧ fld eCopy.2.2.2 16 16 = 0 ∧
      min 32 (128 - 0x200 % 128) = 32 ∧ min 32 (128 - 0x27F % 128) < 32 ∧ 0x100 + 32 ≤ tmP.scrSize ∧ 0x200 + 32 ≤ tmP.scrSize ∧ fld eCopy.2.2.2 0 16 + 1 = 32) ∧
    (eTmove.1 % 256 = 3 ∧ pageBits (fld eTmove.1 8 3) = some 12 ∧ fld eTmove.1 11 53 = 0 ∧ 0x40000000 % 2 ^ 12 = 0 ∧ 0x20001000 % 2 ^ 12 = 0 ∧
      walk (syncDie (mCh [eTmove]) 0) 0 (BitVec.ofNat 64 0x40000000) = some (0x1000005D, 0x5000, 12) ∧ leafContrib 0x1000005D = false ∧
      granted (syncDie (mCh [eTmove]) 0) 0 0x20001000 (2 ^ 12) = true ∧ 0x5000 % 8 = 0 ∧ Memory.wf (mCh [eTmove]).mem = true ∧ (∀ e ∈ (mCh [eTmove]).lines, e.2.resv = none) ∧
      ∀ x ∈ leafEntries 0x1000005D 0x5000, ¬(leafAddr 0x1000005D ≤ x ∧ x < leafAddr 0x1000005D + 2 ^ 12) ∧ ¬(0x20001000 ≤ x ∧ x < 0x20001000 + 2 ^ 12)) ∧
    (let s1 := syncDie (mCh [eSignal]) 0
     okB (checkVa s1 0 0 (BitVec.ofNat 64 0x6010) { kind := 5, w := true, seals := true }) (0x40006010, leaf0) = true ∧ s1.reserved (lineOf 0x40006010) = false ∧
      getD [] (lineOf 0x40006010) (s1.die (dieOfLine (lineOf 0x40006010))).claims = [] ∧ siteOfTeam s1 tmP = siteOfTeam mq tmP ∧ (siteOfTeam s1 tmP).ctx = 0 ∧ (siteOfTeam s1 tmP).die = 0) := by
  refine ⟨?_, ?_, ?_, ?_, ?_⟩ <;> decide +kernel

/-- Its cores hold no combining entry. -/
theorem no_entries_chain (es : List (Nat × Nat × Nat × Nat)) (n : Nat) : ((mCh es).core n).wcb = [] := by
  have h (c d : Core) (s : State) (hs : s.cores = []) (hd : d.wcb = []) : (((s.setCore 0 c).setCore 0 d).core n).wcb = [] := by
    have h0 : s.core n = {} := by rw [State.core, hs]; rfl
    rw [Sys2Proof.Machine.core_setCore, Sys2Proof.Machine.core_setCore, h0]
    split
    · exact hd
    · rfl
  have p (l : List (Byte × Nat)) (a : Nat) : ∀ c : Core, (l.foldl (fun c e => c.setByte (a + e.2) e.1) c).wcb = c.wcb := by
    induction l with
    | nil => exact fun _ => rfl
    | cons e l ih => exact fun c => ih _
  exact h _ _ _ rfl (p _ _ _)

theorem witness_ChainEntries_copymma : entryAt mCm tmP cmd1 (cmd1.pos + 1) = some eExt ∧ extension eExt = some (.ok (.mma gd false none 0 1 false (.v 0))) ∧
    ∃ s2 s3, copyEntry tmP cmd1 eCopymma true 2 (syncDie mCm 0) = (s2, .go 2 none 0) ∧ postExt (freeTilesOf s2 0 cmd1.id) tmP (.mma gd false none 0 1 false (.v 0)) (eExt.2.1 % 2 ^ 32) = .ok (some s3) := by
  refine ⟨by decide +kernel, ext_of (by decide +kernel), ?_⟩
  have h1 : goesOn (copyEntry tmP cmd1 eCopymma true 2 (syncDie mCm 0)).2 2 = true := by decide +kernel
  have h2 : postsB (postExt (freeTilesOf (copyEntry tmP cmd1 eCopymma true 2 (syncDie mCm 0)).1 0 cmd1.id) tmP (.mma gd false none 0 1 false (.v 0)) (eExt.2.1 % 2 ^ 32)) = true := by decide +kernel
  obtain ⟨s3, h3⟩ := posts_of h2
  exact ⟨_, s3, goesOn_of h1, h3⟩

/-- A completion record, a walk to start over a forest of one leaf at address 0x6000, and one with two samples to go. -/
def rec1 : Record := { id := 80, ctx := 0, team := 2, core := 0, cell := 0x5000, faddr := 0x1234, skipped := 3, index := 9, detail := 2, status := 6 }
def wk0 : Walk := { id := 90, team := 2, core := 0, off := 0x300, cell := 0x5000 }
def wk1 (n : Nat) (f : Fail) : Walk :=
  { wk0 with id := 91, started := true, forest := 0x7100 * 2 ^ 64 + 2 ^ 192 + 0x7000, ents := 0x8000, outs := 0x9000, n := n, next := 1, fail := some (0, 1, 0x44),
             flight := [{ ix := 0, out := some (0x3FC00000, f) }] }
def mWk (n : Nat) (f : Fail) : State :=
  let s : State := { mq with records := [rec1], quads := [(0, { walks := [wk0, wk1 n f] })] }
  let s := layBytes s (0x40000000 + 0x7000) (leBytes (2 ^ 31 + 2 ^ 96 * 0x3FC00000) 16)
  s.setCore 0 ((s.core 0).putBytes (0x80000 + 0x300) (leBytes 0x6000 8 ++ leBytes 0x8000 8 ++ leBytes 0x9000 8 ++ leBytes 2 8))
def okR (r : Except Trap (List (Byte × Bool))) : Bool := match r with | .ok _ => true | .error _ => false
theorem okR_of {r : Except Trap (List (Byte × Bool))} (h : okR r = true) : ∃ x, r = .ok x := by
  unfold okR at h
  split at h
  · exact ⟨_, rfl⟩
  · cases h

theorem witness_ChainEntries_walks :
    (let s := mWk 2 none
     s.records.find? (·.id == rec1.id) = some rec1 ∧ (s.ctx rec1.ctx).resetting = false ∧
      checkVa s rec1.core rec1.ctx rec1.cell { kind := 5, w := true, seals := true } = .ok (0x40005000, leaf0) ∧ 0x40005000 % 16 = 0 ∧
      s.reserved (lineOf 0x40005000) = false) ∧
    (let s := mWk 2 none
     s.team wk0.team = some tm ∧ (s.ctx (siteOfTeam s tm).ctx).resetting = false ∧ (s.quad 0).walks.find? (fun w => !w.started) = some wk0 ∧ wk0.off % 32 = 0 ∧
      wk0.off + 32 ≤ tm.scrSize ∧ s.owes wk0.core wk0.acks = false ∧
      scrWord s tm wk0.off 0 = 0x6000 ∧ scrWord s tm wk0.off 1 % 4 = 0 ∧ scrWord s tm wk0.off 2 % 4 = 0 ∧ scrWord s tm wk0.off 3 = 2 ∧
      ∃ bs, engineRead (syncDie s 0) 0 0 (BitVec.ofNat 64 0x6000) 32 = .ok bs) ∧
    ∀ n ∈ [1, 2], ∀ f ∈ [none, some (2, 0x55)], let s := mWk n f
      (s.quad 0).walk 91 = some (wk1 n f) ∧ (wk1 n f).flight.find? (·.out.isSome) = some { ix := 0, out := some (0x3FC00000, f) } ∧
      okB (checkVa s 0 0 ((wk1 n f).outs + BitVec.ofNat 64 (4 * 0)) { kind := 5, w := true, seals := true }) (0x40009000, leaf0) = true ∧ 0x40009000 % 4 = 0 ∧
      s.reserved (lineOf 0x40009000) = false ∧ (wk1 n f).flight.filter (·.ix != 0) = [] := by
  refine ⟨⟨by decide +kernel, by decide +kernel, ok_of (by decide +kernel), by decide +kernel, by decide +kernel⟩,
    ⟨by decide +kernel, by decide +kernel, by decide +kernel, by decide +kernel, by decide +kernel, by decide +kernel, by decide +kernel, by decide +kernel, by decide +kernel,
      by decide +kernel, okR_of (by decide +kernel)⟩, by decide +kernel⟩

/-! ## Contexts -/

/-- Context 0 in this state with queue 3; with and without a resident team; and with a reported team of one trapped fibre, whose image lies in the save area. -/
def mCx (st : CtxSt) (teams : List (Nat × Team)) : State :=
  let s : State := { mq with teams := teams, launches := if teams = [] then [] else [(1, lau)], queues := [(3, { st := if st = .idle then .idle else .stopped })] }
  s.setCtx 0 { s.ctx 0 with st := st, queues := 8, saveBase := 0x100000, saveSize := 16, blocks := [(2, 0)], frozenFrom := if st = .frozen then some .draining else none, frozenAt := 900,
                            drainAt := if st = .frozen then some 2000 else none }
def tRes : Team := { tm with halt := some { clk := 900, recorded := true }, report := some { code := .poison, detail := 0, event := none } }
def mRes : State := layBytes { mCx .faulted [(2, tRes)] with fibres := [(2048, fT)] } (0x100000 + 128 + 16) (leBytes (2 ^ 24) 8)

theorem witness_ContextCommands :
    (∀ st ∈ [CtxSt.running, .faulted, .idle, .frozen, .stopped, .reset, .draining], ∀ ts ∈ [[], [(2, tm)]], ((mCx st ts).ctx 0).resetting = false ∧ ((mCx st ts).ctx 0).st = st) ∧
    (resident (mCx .draining []) 0 = false ∧ unfinished (mCx .draining []) 0 = []) ∧
    (∀ st ∈ [CtxSt.running, .draining, .frozen, .faulted], resetWaits (mCx st [(2, tm)]) 0 = false ∧ (mCx st [(2, tm)]).team tm.id = some tm ∧ ((mCx st [(2, tm)]).teamLaunch tm).ctx = 0) ∧
    (((mCx .frozen []).ctx 0).frozenFrom = some .draining ∧ ((mCx .frozen []).ctx 0).ladle = {}) ∧
    ((mRes.ctx 0).st = .faulted ∧ (mRes.ctx 0).resetting = false ∧ ((ctxTeams mRes 0).filter fun t => t.report.isSome) = [tRes] ∧ (resumeTeam mRes (mRes.ctx 0) tRes).isSome = true) := by
  refine ⟨?_, ?_, ?_, ?_, ?_⟩ <;> decide +kernel

/-! ## Queues and packets -/

/-- The tables of context 0 map an address of the first GiB. -/
theorem walk_low {s : State} (hr : (s.ctx 0).root = 0x1000) (h1 : s.dword 0x1000 = 0x2001) (h2 : s.dword 0x2000 = 0x3001) (h3 : s.dword 0x3000 = 0x4000005D)
    {va : DWord} (hv : va.toNat < 2 ^ 30) : walk s 0 va = some (leaf0, 0x3000, 30) := by
  have c : canonical va = true := by simp [canonical]; omega
  have e4 : va.toNat / 2 ^ (12 + 9 * (3 + 1)) % 256 = 0 := by omega
  have e3 : va.toNat / 2 ^ (12 + 9 * (2 + 1)) % 512 = 0 := by omega
  have e2 : va.toNat / 2 ^ (12 + 9 * (1 + 1)) % 512 = 0 := by omega
  have d1 : BitVec.ofNat 64 (s.dword 0x1000) = 0x2001#64 := by rw [h1]
  have d2 : BitVec.ofNat 64 (s.dword 0x2000) = 0x3001#64 := by rw [h2]
  have d3 : BitVec.ofNat 64 (s.dword 0x3000) = leaf0 := by rw [h3]; rfl
  have a1 : leafAddr 0x2001#64 = 0x2000 := by decide
  have a2 : leafAddr 0x3001#64 = 0x3000 := by decide
  have t4 (down : Nat → Option (DWord × Nat × Nat)) : walkFrom.step s va (3 + 1) 0x1000 down = down 0x2000 := by
    unfold walkFrom.step
    simp only [if_true, e4, Nat.mul_zero, Nat.add_zero, d1, a1]
    rfl
  have t3 (down : Nat → Option (DWord × Nat × Nat)) : walkFrom.step s va (2 + 1) 0x2000 down = down 0x3000 := by
    unfold walkFrom.step
    simp only [show ¬ (2 + 1 = 4) by decide, if_false, e3, Nat.mul_zero, Nat.add_zero, d2, a2]
    rfl
  have t2 (down : Nat → Option (DWord × Nat × Nat)) : walkFrom.step s va (1 + 1) 0x3000 down = some (leaf0, 0x3000, 30) := by
    unfold walkFrom.step
    simp only [show ¬ (1 + 1 = 4) by decide, if_false, e2, Nat.mul_zero, Nat.add_zero, d3, show leaf0.getLsbD 0 = true by decide, show leaf0.getLsbD 6 = true by decide,
      show leaf0.getLsbD 7 = false by decide, show entryReserved leaf0 = false by decide, show leafAddr leaf0 = 0x40000000 by decide, show isMemory 0x40000000 = true by decide]
    simp
  unfold walk
  rw [if_pos c, hr]
  show walkFrom s va (3 + 1) 0x1000 = _
  rw [walkFrom, t4, walkFrom, t3, walkFrom, t2]

theorem hubVa_low {s : State} (hr : (s.ctx 0).root = 0x1000) (h1 : s.dword 0x1000 = 0x2001) (h2 : s.dword 0x2000 = 0x3001) (h3 : s.dword 0x3000 = 0x4000005D) (hmv : s.moves = [])
    {va : DWord} (hv : va.toNat < 2 ^ 30) : hubVa s 0 va = some (0x40000000 + va.toNat, leaf0) := by
  have a : leafAddr leaf0 / 2 ^ 30 * 2 ^ 30 = 0x40000000 := by decide
  have m : isMemory (0x40000000 + va.toNat) = true := by
    have h : (0x40000000 + va.toNat) / 2 ^ 48 % 2 ≠ 1 := by omega
    simp only [isMemory, if_neg h, decide_eq_true_eq]
    omega
  have f : s.forwarded (0x40000000 + va.toNat) = 0x40000000 + va.toNat := by rw [State.forwarded, hmv]; rfl
  simp only [hubVa, walk_low hr h1 h2 h3 hv, Option.bind_some, a, Nat.mod_eq_of_lt hv, f, m, if_true]

/-- What the hub reads there. -/
theorem hubBytes_low {s : State} (hr : (s.ctx 0).root = 0x1000) (h1 : s.dword 0x1000 = 0x2001) (h2 : s.dword 0x2000 = 0x3001) (h3 : s.dword 0x3000 = 0x4000005D) (hmv : s.moves = [])
    (hp : s.lines = []) {va : DWord} {n : Nat} (hv : va.toNat + n ≤ 2 ^ 30) :
    hubBytes s 0 va n false = .ok ((List.range n).map fun i => s.byte (0x40000000 + (va.toNat + i))) := by
  have p (a : Nat) : s.poisoned a 1 = false := by
    simp [State.poisoned, State.line, hp, getD, look]
  have go (l : List Nat) (hl : ∀ i ∈ l, i < n) : (l.foldr (fun i acc => (do
      let a := va + BitVec.ofNat 64 i
      match hubVa s 0 a with
      | none => .error (.translation, a)
      | some (pa, leaf) =>
        if !leafR leaf || (false && leafContrib leaf) then .error (.protection, a)
        else if s.poisoned pa 1 then .error (.poison, a)
        else do
          let rest ← acc
          pure (s.byte pa :: rest) : Except (HubFail × DWord) (List Byte))) (.ok [])) = .ok (l.map fun i => s.byte (0x40000000 + (va.toNat + i))) := by
    induction l with
    | nil => rfl
    | cons i l ih =>
      have hi := hl i (by simp)
      have e : (va + BitVec.ofNat 64 i).toNat = va.toNat + i := by
        rw [BitVec.toNat_add, BitVec.toNat_ofNat, Nat.mod_eq_of_lt (a := i) (by omega), Nat.mod_eq_of_lt (by omega)]
      rw [List.foldr_cons, ih fun j hj => hl j (by simp [hj])]
      simp only [hubVa_low hr h1 h2 h3 hmv (va := va + BitVec.ofNat 64 i) (by omega), e, p, List.map_cons]
      rfl
  exact go _ fun i hi => List.mem_range.1 hi

theorem hubWords_low {s : State} (hr : (s.ctx 0).root = 0x1000) (h1 : s.dword 0x1000 = 0x2001) (h2 : s.dword 0x2000 = 0x3001) (h3 : s.dword 0x3000 = 0x4000005D) (hmv : s.moves = [])
    (hp : s.lines = []) {va : DWord} {n : Nat} {ws : List DWord} (hv : va.toNat + 8 * n ≤ 2 ^ 30)
    (hw : dwords ((List.range (8 * n)).map fun i => s.byte (0x40000000 + (va.toNat + i))) = ws) : hubWords s 0 va n = .ok ws := by
  rw [hubWords, hubBytes_low hr h1 h2 h3 hmv hp hv, ← hw]
  rfl

/-- The lines of the tables that a walk there reads. -/
theorem walkLines_low {s : State} (hr : (s.ctx 0).root = 0x1000) (h1 : s.dword 0x1000 = 0x2001) (h2 : s.dword 0x2000 = 0x3001) (h3 : s.dword 0x3000 = 0x4000005D)
    {va : DWord} (hv : va.toNat < 2 ^ 30) : walkLines s 0 va = [32, 64, 96] := by
  have c : canonical va = true := by simp [canonical]; omega
  have e4 : va.toNat / 2 ^ (12 + 9 * (3 + 1)) % 256 = 0 := by omega
  have e3 : va.toNat / 2 ^ (12 + 9 * (2 + 1)) % 512 = 0 := by omega
  have e2 : va.toNat / 2 ^ (12 + 9 * (1 + 1)) % 512 = 0 := by omega
  have step (lv tab entry next : Nat) (rest : List Nat) (hi : va.toNat / 2 ^ (12 + 9 * (lv + 1)) % (if lv = 3 then 256 else 512) = 0) (he : s.dword tab = entry)
      (hn : (if !(BitVec.ofNat 64 entry).getLsbD 0 || entryReserved (BitVec.ofNat 64 entry) || (BitVec.ofNat 64 entry).getLsbD 6 || (BitVec.ofNat 64 entry).getLsbD 7 ||
        !isMemory (leafAddr (BitVec.ofNat 64 entry)) then [] else walkLinesFrom s va lv (leafAddr (BitVec.ofNat 64 entry))) = rest) :
      walkLinesFrom s va (lv + 1) tab = lineOf tab :: rest := by
    rw [walkLinesFrom, hi, Nat.mul_zero, Nat.add_zero, he, hn]
  unfold walkLines
  rw [if_pos c, hr]
  refine step 3 _ _ 0 _ (by rw [if_pos rfl]; exact e4) h1 ?_
  rw [if_neg (by decide), show leafAddr (BitVec.ofNat 64 0x2001) = 0x2000 by decide]
  refine step 2 _ _ 0 _ (by rw [if_neg (by decide)]; exact e3) h2 ?_
  rw [if_neg (by decide), show leafAddr (BitVec.ofNat 64 0x3001) = 0x3000 by decide]
  exact step 1 _ _ 0 _ (by rw [if_neg (by decide)]; exact e2) h3 (if_pos (by decide))

/-- Nothing there waits for an answer, where no layer sleeps and the module is module 0. -/
theorem hubWaits_low {s : State} (hr : (s.ctx 0).root = 0x1000) (h1 : s.dword 0x1000 = 0x2001) (h2 : s.dword 0x2000 = 0x3001) (h3 : s.dword 0x3000 = 0x4000005D)
    (hmv : s.moves = []) (hd : s.dies = []) (hi : s.hub.modid = 0) {rs : List (DWord × Nat)} (hv : ∀ r ∈ rs, r.2 = 0 ∨ r.1.toNat + r.2 ≤ 2 ^ 30) : hubWaits s 0 rs = false := by
  have awake (l : Nat) (hl : l < 2 ^ 45) : s.asleep l = false := by
    have own : s.ownLine l = true := by simp only [State.ownLine, moduleOfLine, hi, beq_iff_eq]; omega
    simp [State.asleep, State.layerOff, State.outcast, own, State.die, hd, getD, look]
  refine List.any_eq_false.2 fun r hm => ?_
  simp only [List.any_eq_true, not_exists, not_and, Bool.not_eq_true, List.mem_range]
  intro i hlt
  have := hv r hm
  have e : (r.1 + BitVec.ofNat 64 i).toNat = r.1.toNat + i := by
    rw [BitVec.toNat_add, BitVec.toNat_ofNat, Nat.mod_eq_of_lt (a := i) (by omega), Nat.mod_eq_of_lt (by omega)]
  have v : (r.1 + BitVec.ofNat 64 i).toNat < 2 ^ 30 := by omega
  rw [walkLines_low hr h1 h2 h3 v, hubVa_low hr h1 h2 h3 hmv v]
  simp only [List.any_cons, List.any_nil, awake 32 (by decide), awake 64 (by decide), awake 96 (by decide), Bool.or_false, Bool.false_or]
  exact awake _ (by simp only [lineOf]; omega)

def pk (ws : List DWord) : Packet := { index := 5, ctx := 0, words := ws }
/-- Queue 3, its block at 0x8000 with this word 0, its ring of 16 packets at address 0x6000, where the sixth packet is a SIGNAL. -/
def mQu (x : Queue) (seq : Byte) : State :=
  { mq with
    teams := [], launches := [], hub := { qenable := 8 }, queues := [(3, x)], clock := 2000000, ctxs := [(0, { root := 0x1000, queues := 8 })],
    mem := tables ++ (if seq = 0 then [] else [(0x8000, seq)]) ++ [(0x8008, 5), (0x8010, 4), (0x8011, 0x60), (0x8019, 1), (0x8020, 255), (0x8021, 255), (0x8022, 255), (0x8023, 255),
      (0x8024, 255), (0x8025, 255), (0x8026, 255), (0x8027, 255), (0x8030, 5), (0x40006140, 4), (0x40006149, 0x70), (0x40006150, 0xCD), (0x40006151, 0xAB)] }
def quIdle : Queue := { qcb := 0x8000, wridx := 6 }
def qb : Qcb := { base := 0x8000, read := 5, ring := 0x6000, size := 4, ctx := 0, on := true, active := noIndex, step := 0, doneIdx := 5 }
def pSig : Packet := pk [4, 0x7000, 0xABCD, 0, 0, 0, 0, 0]
def pMark : Packet := pk [5, 0x7000, 0, 0, 0, 0, 0, 0]
def pWait (v : DWord) : Packet := pk [3 + 2 ^ 16, 0x7008, v, 0, 0, 0, 0, 0]
def pDig : Packet := pk [6, 0x7080, 0, 0, 0, 0, 0, 0]
def quUnit (p : Packet) : Queue := { quIdle with st := .serving, hand := some { p with handed := true }, unit := some p, accepted := 5, waitDl := some 1500000 }
/-- An extension block with a digest cell at 0x7200 and one range. -/
def mDig : State := { mQu (quUnit pDig) 0 with mem := tables ++ [(0x400070A1, 0x72), (0x400070A8, 1), (0x40007101, 0x70), (0x40007108, 8)] }
def quWatch (v : DWord) : Queue := { quUnit (pWait v) with watching := some (lineOf 0x40007008) }
def mWait (v : DWord) : State := { mQu (quWatch v) 0 with wakes := [{ who := .thread 3, die := 0, stamp := [] }] }
def lDig : Launch := { id := 0, queue := 3, index := 5, ctx := 0, cls := 2, n := 1, entry := 0, regs := 16, w := 16 }

theorem words_read : hubWords (mQu quIdle 0) 0 0x6140 8 = .ok pSig.words :=
  hubWords_low (by decide +kernel) (by decide +kernel) (by decide +kernel) (by decide +kernel) rfl (by decide +kernel) (by decide) (by decide +kernel)
def extW : List DWord := [0, 0, 0, 0, 0x7200, 1] ++ List.replicate 10 0 ++ [0x7000, 8] ++ List.replicate 14 0
theorem ext_words : hubWords mDig 0 0x7080 32 = .ok extW :=
  hubWords_low (by decide +kernel) (by decide +kernel) (by decide +kernel) (by decide +kernel) rfl (by decide +kernel) (by decide) (by decide +kernel)
theorem ext_read : withExt mDig lDig (pDig.words.getD 1 0) = some { lDig with digest := 0x7200, ranges := [(0x7000, 8)] } := by
  have h : hubWords mDig lDig.ctx (pDig.words.getD 1 0) 32 = .ok extW := ext_words
  unfold withExt
  rw [h]
  decide +kernel

theorem witness_QueuesAndPackets :
    ((3 : Nat) < 32 ∧ quIdle.wridx < 7 ∧ ¬ quIdle.wridx < 6 ∧ quIdle.st ≠ .serving ∧ (mQu quIdle 0).dword 0x8000 % 2 = 0 ∧ (mQu quIdle 1).dword 0x8000 % 2 = 1 ∧ isMemory 0x8000 = true) ∧
    (∀ x ∈ [quIdle, { quIdle with wridx := 5 }, { quIdle with st := .serving, hand := some pSig }],
      (mQu x 0).queue 3 = x ∧ threadRuns (mQu x 0) 3 = true ∧ (mQu x 0).asleep (lineOf x.qcb) = false ∧ okB (readQcb (mQu x 0) 3) qb = true ∧ x.finished = [] ∧ (x.st = .idle ∨ x.st = .serving) ∧ x.qcb % 128 = 0) ∧
    (((mQu quIdle 0).ctx qb.ctx).st = .idle ∧ (((mQu quIdle 0).setCtx 0 { (mQu quIdle 0).ctx 0 with st := .stopped }).ctx qb.ctx).st = .stopped) ∧
    (qb.on = true ∧ qb.active = noIndex ∧ qb.read.toNat < quIdle.wridx.toNat ∧ quIdle.wridx.toNat ≤ qb.doneIdx.toNat + 2 ^ qb.size ∧ packetOk pSig = true ∧
      hubWords (mQu quIdle 0) qb.ctx (qb.ring + BitVec.ofNat 64 (64 * (qb.read.toNat % 2 ^ qb.size))) 8 = .ok pSig.words) ∧
    (pSig.handed = false ∧ (pSig.words.getD 0 0).getLsbD 11 = false ∧ pSig.type ≠ 5 ∧ quIdle.accepted.toNat ≤ pSig.index) ∧
    (∀ p ∈ [pSig, pMark], ((mQu (quUnit p) 0).queue 3).unit = some p ∧ signalCell (mQu (quUnit p) 0) p.ctx (p.words.getD 1 0) true = some 0x40007000 ∧
      (mQu (quUnit p) 0).reserved (lineOf 0x40007000) = false ∧ getD [] (lineOf 0x40007000) ((mQu (quUnit p) 0).die (dieOfLine (lineOf 0x40007000))).claims = []) ∧
    (mDig.queue 3 = quUnit pDig ∧ pDig.type = 6 ∧ pDig.word 1 ≠ 0 ∧
      withExt mDig lDig (pDig.words.getD 1 0) = some { lDig with digest := 0x7200, ranges := [(0x7000, 8)] } ∧ hubVa mDig 0 0x7200 = some (0x40007200, leaf0) ∧ leafW leaf0 = true ∧ leafSealed leaf0 = false) ∧
    (∀ v ∈ ([0, 1] : List Nat), let p := pWait (BitVec.ofNat 64 v)
      p.type = 3 ∧ hubVa (mWait (BitVec.ofNat 64 v)) p.ctx (p.words.getD 1 0) = some (0x40007008, leaf0) ∧ leafR leaf0 = true ∧ (p.words.getD 1 0).toNat % 8 = 0 ∧
      (waitHolds p ((mWait (BitVec.ofNat 64 v)).dword 0x40007008) 0 = true ↔ v = 0) ∧ (∃ w ∈ (mWait (BitVec.ofNat 64 v)).wakes, w.who = .thread 3) ∧ (mWait (BitVec.ofNat 64 v)).asleep (lineOf 0x40007008) = false ∧ (quWatch (BitVec.ofNat 64 v)).watching.isSome = true ∧
      (quUnit p).watching = none ∧ (quUnit p).waitDl = some 1500000 ∧ 1500000 ≤ (mQu (quUnit p) 0).clock) ∧
    ((mQu (quUnit pSig) 0).hub.fwRestart = none ∧ (quUnit pSig).st = .serving ∧ (quUnit pSig).progress + 1500000 ≤ (mQu (quUnit pSig) 0).clock ∧
      ({ mQu (quUnit pSig) 0 with hub := { fwRestart := some 100 } } : State).hub.fwRestart = some 100 ∧ 100 + 300000 ≤ (mQu (quUnit pSig) 0).clock) := by
  refine ⟨?_, ?_, ?_, ⟨?_, ?_, ?_, ?_, ?_, words_read⟩, ?_, ?_, ⟨?_, ?_, ?_, ext_read, ?_⟩, ?_, ?_⟩ <;> decide +kernel

/-! ## Launches and pools -/

/-- A LAUNCH and a POOL in work, their descriptor at 0x7400 (of this scratchpad size), their arguments at 0x7500, two records of a pool at 0x7700. -/
def pLau : Packet := pk [1 + 2 ^ 8 * 2 + 2 ^ 22 * 31, 0x7400, 0x7500, 2 + 2 ^ 16 + 2 ^ 32, 9, 0, 0x7000, 0]
def pPool : Packet := pk [2 + 2 ^ 8 * 2, 0x7400, 0x7500, 0x7700, 9, 4 + 2 ^ 32 * 2, 0x7000, 0]
def mLa (p : Packet) (scr : Nat) : State :=
  { mQu (quUnit p) 0 with
    nextId := 100,
    mem := tables ++ [(0x40007401, 0x10), (0x40007408, 0x40), (0x40007409, 0x80), if scr = 4096 then (0x40007411, 0x10) else (0x40007413, 0x40), (0x40007418, 0x80), (0x4000741A, 0xC0),
      (0x4000741C, 0xF0), (0x40007508, 0x77), (0x40007701, 0x20), (0x40007708, 5), (0x40007710, 0x21), (0x40007720, 8), (0x40007721, 0x20), (0x40007728, 6), (0x40007730, 0x43)] }
def descW (scr : DWord) : List DWord := [0x1000, 64 + 2 ^ 9 * 64, scr, 0x80 + 2 ^ 16 * 0xC0 + 2 ^ 32 * 0xF0]
def argW : List DWord := 0 :: 0x77 :: List.replicate 30 0
theorem desc_read : hubWords (mLa pLau 4096) 0 0x7400 4 = .ok (descW 4096) ∧ hubWords (mLa pLau (2 ^ 30)) 0 0x7400 4 = .ok (descW (2 ^ 30)) ∧ hubWords (mLa pPool 4096) 0 0x7400 4 = .ok (descW 4096) :=
  ⟨hubWords_low (by decide +kernel) (by decide +kernel) (by decide +kernel) (by decide +kernel) rfl (by decide +kernel) (by decide) (by decide +kernel),
   hubWords_low (by decide +kernel) (by decide +kernel) (by decide +kernel) (by decide +kernel) rfl (by decide +kernel) (by decide) (by decide +kernel),
   hubWords_low (by decide +kernel) (by decide +kernel) (by decide +kernel) (by decide +kernel) rfl (by decide +kernel) (by decide) (by decide +kernel)⟩
theorem args_read : hubWords (mLa pLau 4096) 0 0x7500 32 = .ok argW ∧ hubWords (mLa pLau (2 ^ 30)) 0 0x7500 32 = .ok argW ∧ hubWords (mLa pPool 4096) 0 0x7500 32 = .ok argW :=
  ⟨hubWords_low (by decide +kernel) (by decide +kernel) (by decide +kernel) (by decide +kernel) rfl (by decide +kernel) (by decide) (by decide +kernel),
   hubWords_low (by decide +kernel) (by decide +kernel) (by decide +kernel) (by decide +kernel) rfl (by decide +kernel) (by decide) (by decide +kernel),
   hubWords_low (by decide +kernel) (by decide +kernel) (by decide +kernel) (by decide +kernel) rfl (by decide +kernel) (by decide) (by decide +kernel)⟩
/-- The launch that a packet without an extension, a descriptor and arguments give. -/
def givenLaunch (l : Launch) (ds : List DWord) (cls : Nat) : Launch := withClass { withDesc l ds with args := argW.zipIdx.foldl (fun m e => setD 0 e.2 e.1 m) [] } cls
theorem readLaunch_of {s : State} {l : Launch} {p : Packet} {cls : Nat} {ds : List DWord} (h1 : hubWords s l.ctx (p.words.getD 1 0) 4 = .ok ds) (h7 : p.words.getD 7 0 = 0)
    (h2 : hubWords s l.ctx (p.words.getD 2 0) 32 = .ok argW) (hd : descOk (withDesc l ds) = true) : readLaunch s l p cls = some (givenLaunch l ds cls) := by
  have h3 : hubWords s (withDesc l ds).ctx (p.words.getD 2 0) 32 = .ok argW := h2
  have h4 : withExt s l (p.words.getD 7 0) = some l := by rw [h7]; rfl
  unfold readLaunch
  rw [h1, h4]
  simp only [hd, if_true, withArgs, h3]
  rfl
def lPool : Launch :=
  { id := 100, queue := 3, index := 5, ctx := 0, cls := 0, pool := true, n := 32, entry := 0, regs := 16, w := 16, seed := 9, sig := 0x7000, store := 0x7700, capacity := 4, accepted := 2000000 }
theorem launch_read : readLaunch (mLa pLau 4096) (launchOf (mLa pLau 4096) 3 pLau) pLau 2 = some (givenLaunch (launchOf (mLa pLau 4096) 3 pLau) (descW 4096) 2) :=
  readLaunch_of desc_read.1 (by decide) args_read.1 (by decide +kernel)
theorem large_read : readLaunch (mLa pLau (2 ^ 30)) (launchOf (mLa pLau (2 ^ 30)) 3 pLau) pLau 2 = some (givenLaunch (launchOf (mLa pLau (2 ^ 30)) 3 pLau) (descW (2 ^ 30)) 2) :=
  readLaunch_of desc_read.2.1 (by decide) args_read.2.1 (by decide +kernel)
theorem pool_read : readLaunch (mLa pPool 4096) lPool pPool 2 = some (givenLaunch lPool (descW 4096) 2) :=
  readLaunch_of desc_read.2.2 (by decide) args_read.2.2 (by decide +kernel)
theorem records_read : ∃ bs, hubBytes (mLa pPool 4096) 0 0x7700 (32 * 2) false = .ok bs :=
  ⟨_, hubBytes_low (by decide +kernel) (by decide +kernel) (by decide +kernel) (by decide +kernel) rfl (by decide +kernel) (by decide)⟩

theorem witness_LaunchesAndPools_accepted :
    (∀ p ∈ [pLau, pPool], ((mLa p 4096).queue 3).unit = some p ∧ (signalCell (mLa p 4096) p.ctx (p.words.getD 6 0) true).isSome = true) ∧
    (pLau.type = 1 ∧ fld (pLau.word 3) 0 16 * fld (pLau.word 3) 16 16 * fld (pLau.word 3) 32 16 = 2 ∧ fld (pLau.word 0) 32 32 < 2 ∧ fld (pLau.word 0) 8 2 = 2) ∧
    (∃ l, readLaunch (mLa pLau 4096) (launchOf (mLa pLau 4096) 3 pLau) pLau 2 = some l ∧ l.gridsync = false ∧ l.clusterSize = 1 ∧ tooLarge l = false ∧ l.id = 100) ∧
    (∃ l, readLaunch (mLa pLau (2 ^ 30)) (launchOf (mLa pLau (2 ^ 30)) 3 pLau) pLau 2 = some l ∧ l.gridsync = false ∧ tooLarge l = true) ∧
    (pPool.type = 2 ∧ fld (pPool.word 5) 0 32 = 4 ∧ fld (pPool.word 5) 32 32 = 2 ∧ (pPool.words.getD 3 0).toNat % 32 = 0 ∧ fld (pPool.word 0) 8 2 = 2) ∧
    (∃ l, readLaunch (mLa pPool 4096) lPool pPool 2 = some l ∧ l.gridsync = false ∧ l.clusterSize = 1 ∧ tooLarge l = false ∧ l.id = 100) ∧
    ∃ bs, hubBytes (mLa pPool 4096) 0 0x7700 (32 * 2) false = .ok bs :=
  ⟨by decide +kernel, by decide +kernel, ⟨_, launch_read, by decide +kernel⟩, ⟨_, large_read, by decide +kernel⟩, by decide +kernel, ⟨_, pool_read, by decide +kernel⟩, records_read⟩

/-- A pool with a ripe bin, one with nothing left; a launch that has retired, one whose dies are to flush, one that has flushed. -/
def prec (n : Nat) : PoolRec := { pc := 0x2000, lo := ⟨BitVec.ofNat 32 n, .i32⟩, hi := ⟨7, .n32⟩, born := 100 }
def lBin (bs : List Bin) : Launch := { lPool with id := 1, cls := 2, bins := bs, held := bs.length }
def aBin : Bin := { pc := 0x2000, recs := [prec 1, prec 2] }
def mL1 (l : Launch) : State := { mQu quIdle 0 with launches := [(1, l)] }
def lRet (fl : Option (List Nat)) : Launch := { lau with gx := 2, admitted := [0, 1], retired := 2, dies := [0, 3], sig := 0x7000, flush := fl }

theorem witness_LaunchesAndPools :
    ((mL1 (lBin [aBin])).launch 1 = some (lBin [aBin]) ∧ (lBin [aBin]).pool = true ∧ (lBin [aBin]).waiting = [] ∧
      (lBin [aBin]).bins.find? (fun b => b.pc == 0x2000 && b.ripe (mL1 (lBin [aBin])).clock) = some aBin ∧ (∃ r, roomOn (mL1 (lBin [aBin])) 0 (lBin [aBin]) = some r) ∧
      (lBin [aBin]).isMatrix = false ∧ poolTurn (mL1 (lBin [aBin])) (lBin [aBin]) (0 / 128) = true) ∧
    ((lBin []).held = 0 ∧ (lBin []).flush = none ∧ (∀ e ∈ (mL1 (lBin [])).teams, e.2.launch ≠ 1)) ∧
    ((mL1 (lRet none)).launch 1 = some (lRet none) ∧ (lRet none).pool = false ∧ ((lRet none).clusters - (lRet none).resume) * (lRet none).clusterSize ≤ (lRet none).retired) ∧
    ((lRet (some [0, 3])).flush = some [0, 3] ∧ ∀ e ∈ (mL1 (lRet (some [0, 3]))).cores, e.1 / 128 = 3 → e.2.acks = []) ∧
    ((lRet (some [])).flush = some [] ∧ signalCell (mL1 (lRet (some []))) 0 0x7000 false = some 0x40007000 ∧ (mL1 (lRet (some []))).reserved (lineOf 0x40007000) = false ∧
      (lRet (some [])).digest = 0 ∧ getD [] (lineOf 0x40007000) ((mL1 (lRet (some []))).die (dieOfLine (lineOf 0x40007000))).claims = []) := by
  refine ⟨⟨by decide +kernel, by decide +kernel, by decide +kernel, by decide +kernel, Option.isSome_iff_exists.1 (by decide +kernel), by decide +kernel⟩, ?_, ?_, ?_, ?_⟩ <;> decide +kernel

/-! ## The control space -/

def mReg : State := { State.reset with clock := 1000, hub := { boot := .booted, kTimer := some 900 } }
def mRegM : State := { mReg with hub := { mReg.hub with modidSet := true } }
def mDie (d : Die) : State := { mReg with dies := [(5, d)] }

theorem witness_ControlRegisters :
    (coreTeams mReg 7 = [] ∧ 16 ≤ 0x90 ∧ 0x90 ≤ (mReg.core 7).ubTiles ∧ (mReg.core 7).ubTiles ≤ (mReg.core 7).ubL1 ∧ (mReg.core 7).ubL1 ≤ 252 ∧ 16 ≤ (mReg.core 7).ubScratch ∧
      (mReg.core 7).ubScratch ≤ 0xD0 ∧ 0xD0 ≤ (mReg.core 7).ubL1 ∧ (mReg.core 7).ubTiles ≤ 252 ∧ 252 ≠ (mReg.core 7).ubL1 ∧ coreTeams mq 0 ≠ []) ∧
    ((mReg.part 9 2).owner = none ∧ (mm1.part 0 0).owner.isSome = true) ∧
    (dieBusy mReg 5 = false ∧ (mReg.die 5).busy = 0 ∧ ((5 : DWord).setWidth 4).getLsbD 2 ≠ ((mDie { enc := 1 }).die 5).enc.getLsbD 2) ∧
    (((mDie { ret := 5, enc := 1, busy := 4, encAt := 900 }).die 5).busy.getLsbD 2 = true ∧ ((mDie { ret := 5, enc := 1, busy := 4, encAt := 900 }).die 5).encAt ≤ mReg.clock) ∧
    (mReg.power = true ∧ mReg.hub.boot = .booted ∧ mReg.hub.reboot = false ∧ (∃ d, mReg.hub.kTimer = some d ∧ d ≤ mReg.clock) ∧ (mReg.ctx 0).resetting = false) ∧
    (mRegM.hub.modidSet = true ∧ mReg.hub.modidSet = false ∧ Memory.wf mReg.mem = true ∧ mReg.gathers = []) := by
  refine ⟨?_, ?_, ?_, ?_, ⟨?_, ?_, ?_, ⟨900, ?_⟩, ?_⟩, ?_⟩ <;> decide +kernel

/-! ## Boot, the supply, ports, errors and code -/

def atBoot (b : BootSt) : State := { State.reset with clock := 10000000000, hub := { boot := b } }
/-- Every request outstanding is for block 0, last sent long ago. -/
def mFetch (tries : Nat) : State := { atBoot .fetching with hub := { boot := .fetching, reqs := [{ file := 7, block := 0, sent := 1000, tries := tries }] } }
/-- The file has come: one block with this magic and a LENGTH of 256. -/
def mImage (magic : BitVec 8192) : State := { atBoot .fetching with hub := { boot := .fetching, imgLen := some 256, blocks := [(0, magic ||| (256#8192 <<< 64))] } }
def imgBytes (magic : Nat) : List Byte := leBytes (magic + 256 * 2 ^ 64) 370
def mPort (expect : Nat) : State := { atBoot .booted with hub := { boot := .booted, podmemb := 8, ports := [(3, { expect := expect, unacked := [], ackClk := 5, reported := 5 })] } }
def mDesc : State := { State.reset with clock := 1000, mem := [(0x8001, 0x60), (0x8008, 4), (0x800C, 1)] }

theorem witness_BootAndPorts :
    (∀ b ∈ [BootSt.off, .training, .address, .waitRetry 9000000000 2], (atBoot b).hub.boot = b) ∧
    ((atBoot .address).hub.bootClk + 6000000000 ≤ (atBoot .address).clock ∧ (atBoot .address).hub.bootPort < 15 ∧
      ({ atBoot .address with hub := { boot := .address, bootPort := 15 } } : State).hub.bootPort = 15) ∧
    (getD 0 1 ((atBoot .training).die 2).link ≠ 2) ∧
    (∀ t ∈ [1, 16], (mFetch t).hub.boot = .fetching ∧ (mFetch t).hub.reqs.find? (fun x => x.block == 0) = some { file := 7, block := 0, sent := 1000, tries := t } ∧ 1000 + 750000000 ≤ (mFetch t).clock) ∧
    (∀ m ∈ [0, 0x4F425645], fetchedImage (mImage (BitVec.ofNat 8192 m)) = some (imgBytes m)) ∧ imageVerdict (mImage 0) (imgBytes 0) = some 5 ∧
    (9000000000 ≤ (atBoot (.waitRetry 9000000000 2)).clock ∧ (atBoot .booted).power = true ∧ (atBoot .booted).hub.boot = .booted ∧
      ({ atBoot .booted with hub := { boot := .booted, reboot := true } } : State).hub.reboot = true) ∧
    (({ atBoot .booted with hub := { boot := .booted, ports := [(3, { unacked := [4], ackClk := 5 })] } } : State).port 3).unacked ≠ [] ∧
    ((mPort 7).port 3).reported + 3000 ≤ (mPort 7).clock ∧
    (3 ≠ (mPort 7).hub.modid ∧ (members (mPort 7)).getLsbD 3 = true ∧ ((mPort 7).port 3).unacked = [] ∧ 7 = ((mPort 7).port 3).expect ∧ 5 + 2 = ((mPort 7).port 3).expect) ∧
    (mDesc.power = true ∧ isMemory 0x8000 = true ∧ 0x8000 % 32 = 0 ∧ mDesc.dword 0x8000 = 0x6000 ∧ mDesc.dword (0x8000 + 8) = 2 ^ 32 + 4 ∧ mDesc.reserved (lineOf 0x8000) = false ∧
      isMemory 0x6000 = true ∧ 0x6000 + 4 ≤ 0x8000) := by
  refine ⟨?_, ?_, ?_, ?_, ?_, ?_, ?_, ?_, ?_, ?_, ?_⟩ <;> decide +kernel

/-- An image with a valid header passes, if its signature is the manufacturer's: what Config.signatureOk answers is left open. -/
theorem witness_BootAndPorts_accepted (h : Config.signatureOk Config.bootKeyDigest ((imgBytes 0x4F425645).drop 256) (shake256 ((imgBytes 0x4F425645).take 256)) = true) :
    imageVerdict (mImage 0x4F425645) (imgBytes 0x4F425645) = none := by
  have hl : (objHdr (imgBytes 0x4F425645)).len = 256 := by decide +kernel
  have hm : ¬((objHdr (imgBytes 0x4F425645)).magic ≠ 0x4F425645 ∨ some (objHdr (imgBytes 0x4F425645)).len ≠ (mImage 0x4F425645).hub.imgLen ∨ 64 < (objHdr (imgBytes 0x4F425645)).svn ∨
      256 ≤ (objHdr (imgBytes 0x4F425645)).svnWord) := by decide +kernel
  have hs : ¬(objHdr (imgBytes 0x4F425645)).svn < (mImage 0x4F425645).hub.svnfuse := by decide +kernel
  unfold imageVerdict
  rw [if_neg hm, if_neg hs, hl, h]
  rfl

/-- A valid object of 256 bytes at 0x10000, with no kernel; a Proeb module of one empty function at 0x20000. -/
def modBytes : List Byte := [0x50, 0x52, 0x45, 0x42, 0, 0, 0, 0, 1, 0, 0, 0, 1, 0, 0, 0] ++ List.replicate 16 0 ++ [1, 0, 0, 0, 0, 0, 0, 0, 5]
def xent : XlatEnt := { digest := 7, feats := deviceMask, svn := 3, sig := 0, base := 0x5000 }
def mCode : State :=
  { mach [fib 0] with
    mem := [(0x10000, 0x45), (0x10001, 0x56), (0x10002, 0x43), (0x10003, 0x4F), (0x10009, 1), (0x20000, 0x50), (0x20001, 0x52), (0x20002, 0x45), (0x20003, 0x42), (0x20008, 1), (0x2000C, 1),
      (0x20020, 1), (0x20028, 5)],
    hub := { svnfuse := 0, xlat := [{ xent with feats := 0 }, xent], identity := some (1, 2) } }

theorem witness_ErrorsAndCode :
    (isMemory 0x4020 = true ∧ mCode.fibre (fib 0).key = some (fib 0) ∧ mCode.team (fib 0).team = some tm ∧ 5 < tm.w ∧ mCode.team tm.id = some tm ∧
      look 6 ((mCp none).core 0).l1 = some (cp1 0) ∧ look (3 * 2 ^ 42 + 6) ((mCp none).die 0).rdc = some (cp1 7)) ∧
    (∃ e, objVerdict mCode (mCode.bytes 0x30000 0) (mCode.bytes 0x30000 114) (objHdr (mCode.bytes 0x30000 0)) = some e) ∧
    pModule (mCode.bytes 0x30000 0) = none ∧
    (mCode.bytes 0x20000 41 = modBytes ∧ (∃ e, pModule modBytes = some (0, [e], [(8, 8)]) ∧ e.fn = 0)) ∧
    (mCode.hub.xlat.find? (fun e => e.digest == 9 && e.feats == deviceMask) = none ∧ mCode.hub.xlat.find? (fun e => e.digest == 7 && e.feats == deviceMask) = some xent ∧
      mCode.hub.svnfuse ≤ xent.svn ∧ mCode.hub.identity = some (1, 2) ∧ xent.svn < 4 ∧
      ({ mCode with hub := { mCode.hub with svnfuse := 4 } } : State).hub.svnfuse = 4) := by
  refine ⟨by decide +kernel, ?_, by decide +kernel, ⟨by decide +kernel, ⟨⟨0, (1, 1, 1), false, 0, true⟩, by decide +kernel, rfl⟩⟩, by decide +kernel⟩
  unfold objVerdict
  split
  · exact ⟨_, rfl⟩
  · rw [if_pos (by decide +kernel)]
    exact ⟨_, rfl⟩

/-- The object passes, if its signature is good. -/
theorem witness_ErrorsAndCode_accepted (h : Config.signatureOk Config.objectKeyDigest (mCode.bytes (0x10000 + 256) 114) (shake256 (mCode.bytes 0x10000 256)) = true) :
    (objHdr (mCode.bytes 0x10000 256)).len = 256 ∧ objVerdict mCode (mCode.bytes 0x10000 256) (mCode.bytes (0x10000 + 256) 114) (objHdr (mCode.bytes 0x10000 256)) = none := by
  have hk : (objHdr (mCode.bytes 0x10000 256)).kernels = 0 := by decide +kernel
  have hm : ¬((objHdr (mCode.bytes 0x10000 256)).magic ≠ 0x4F435645 ∨ 64 < (objHdr (mCode.bytes 0x10000 256)).svn ∨ 256 ≤ (objHdr (mCode.bytes 0x10000 256)).svnWord) := by decide +kernel
  have hs : ¬(objHdr (mCode.bytes 0x10000 256)).svn < mCode.hub.svnfuse := by decide +kernel
  have hf : (shimsFor mCode.hub.shims (objHdr (mCode.bytes 0x10000 256)).feats).isNone = false := by decide +kernel
  refine ⟨by decide +kernel, ?_⟩
  unfold objVerdict
  rw [h, if_neg (by decide), if_neg hm, if_neg hs, hf, hk]
  rw [if_neg (by decide), if_neg (by decide +kernel), if_neg (by decide +kernel)]

/-! ## Stepping, decoding, the invariant -/

/-- A nop, and a word with a type field that no instruction of its major has, at the PC of the gang selected. -/
def mNop : State := { m1 with mem := tables ++ [(0x40001006, 0x18), (0x40001007, 0x82)] }
def mUn : State := { m1 with mem := tables ++ [(0x40001006, 0x07), (0x40001007, 0x02)] }

theorem witness_StepRunsDecoded :
    (∀ s ∈ [mNop, mUn], s.issue = some g1.gid ∧ s.gang g1.gid = some g1 ∧ s.team g1.team = some tm ∧ gangPc s g1 = some 0x1000 ∧
      okB (checkVa s tm.core (s.teamLaunch tm).ctx 0x1000 { kind := 1, x := true }) (0x40001000, leaf0) = true) ∧
    (mNop.dword 0x40001000 = 0x8218000000000000 ∧ wordCount 0x8218000000000000 = 1 ∧ decodeWords [0x8218000000000000] = .ok (.nop gd)) ∧
    (mUn.dword 0x40001000 = 0x0207000000000000 ∧ wordCount 0x0207000000000000 = 1 ∧ ∃ st sel, decodeWords [0x0207000000000000] = .error (.illegal st sel) ∧ 2 < st) ∧
    (({ mL with agenda := [.wake 5] } : State).issue = none ∧ ({ mL with agenda := [.wake 5] } : State).agenda = [.wake 5]) ∧ (mL.issue = none ∧ mL.agenda = [] ∧ mL.power = true) := by
  refine ⟨by decide +kernel, by decide +kernel, ⟨by decide +kernel, by decide +kernel, 3, 0, by decide +kernel, by decide⟩, by decide +kernel, by decide +kernel⟩

theorem witness_DecodeOfEncode : ∀ i ∈ [Instr.iadd ctl .s true (.v 255) (.v 254) (.int 3), .bra ⟨15, true⟩ 0x3FFFFFFFF, .mma gd true (some 63) 62 7 true (.s 31)],
    wellFormed i = true ∧ encode i ≠ [] := by
  decide +kernel

theorem witness_MemoryStaysCanonical : Memory.wf State.reset.mem = true ∧ step State.reset = .next (tick State.reset) :=
  ⟨rfl, rfl⟩

end Sys2Proof.Tests
end

