-- ==== Sys2Proof/Tests/Clauses.lean ====
section
/-! SUPPORT. For the clauses of the statements about traps, ends and rare forms, a machine and operands that meet their hypotheses. The machines are those of
Sys2Proof/Tests/Witness.lean, changed where the clause needs it. -/

namespace Sys2Proof.Tests
open Sys2Proof Sys2Proof.Machine
set_option Elab.async false

/-! ## Deciding more conditions -/

/-- An answer that is this trap. -/
def errB {α : Type} (r : Except Trap α) (x : Trap) : Bool := match r with | .error y => decide (y = x) | .ok _ => false

theorem err_of {α : Type} {r : Except Trap α} {x : Trap} (h : errB r x = true) : r = .error x := by
  cases r with
  | error y => exact congrArg _ (of_decide_eq_true h)
  | ok => cases h

/-- An answer, of which the value is compared alone. -/
def okIs {α : Type} (r : Except Trap α) : Bool := match r with | .ok _ => true | .error _ => false

theorem okIs_of {α : Type} {r : Except Trap α} (h : okIs r = true) : ∃ a, r = .ok a := by
  cases r with
  | error => cases h
  | ok a => exact ⟨a, rfl⟩

/-- A property that every member of a gang has, with its lane. -/
theorem all_of {s : State} {g : Gang} {t : Team} {p : Nat → Fibre → Prop} (q : Nat → Fibre → Bool) (hq : ∀ l f, q l f = true → p l f)
    (h : eachB s g t q = true) (lane : Nat) (f : Fibre) (hm : Member s g t lane f) : p lane f := hq _ _ (each_of h lane f hm)

/-! ## Operands that trap -/

/-- Fibres of which the second holds another value in v1. -/
def mDif : State := mach [fib 0, { fib 4 with regs := setD Reg.zero 1 ⟨5, .i32⟩ someRegs }]

theorem witness_RegisterInstructionsComplete_traps : Solo (.iadd ctl .s false (.v 20) (.v 4) (.v 2)) m1 g1 tm 0 f1 ∧
    evIadd .s false (.v 20) (.v 4) (.v 2) (envOf m1 tm 0 f1.fidx) f1 = .error { code := .formatMismatch, aux := 4 + 512 * Tag.f32.code } ∧
    (readSrc (envOf m1 tm 0 f1.fidx) f1 (.v 4) = .ok ⟨0x3F800000, .f32, 4, false⟩ ∧ Tag.f32 ≠ .i32 ∧ Tag.f32 ≠ .n32) ∧
    (readSrc (envOf m1 tm 0 f1.fidx) f1 (.v 1) = .ok ⟨0x80000000, .i32, 1, false⟩ ∧ readSrc (envOf m1 tm 0 f1.fidx) f1 (.sp .ones) = .ok ⟨0xFFFFFFFF, .raw, Special.ones.code, true⟩) ∧
    (reservedTag (f1.reg 4).tag = false ∧ f1.badRegs.contains (f1.fb + 4) = false ∧ ({ f1 with badRegs := [4] } : Fibre).badRegs.contains (f1.fb + 4) = true) ∧
    (envOf m1 { tm with badS := [7] } 0 f1.fidx).badS.contains 7 = true :=
  ⟨solo_of (by decide +kernel), err_of (by decide +kernel), ⟨ok_of (by decide +kernel), by decide, by decide⟩, ⟨ok_of (by decide +kernel), ok_of (by decide +kernel)⟩,
    by decide +kernel, by decide +kernel⟩

theorem witness_PassedFibres_budget : guardOf (.regrow ⟨2, false⟩ none (.v 19) none) = some ⟨2, false⟩ ∧ guardOf (.regshrink ⟨2, false⟩ none (.v 19)) = some ⟨2, false⟩ ∧
    (∃ lane f, Member m2 g2 tm lane f ∧ f.fidx < 1024 ∧ f.st = .ganged) ∧
    (∀ i ∈ [Instr.regrow ⟨2, false⟩ none (.v 19) none, .regshrink ⟨2, false⟩ none (.v 19)], Begins i m2 g2 tm) ∧
    ∀ lane f, Member m2 g2 tm lane f → guardOk ⟨2, false⟩ f.preds = false :=
  ⟨rfl, rfl, ⟨0, fib 0, ⟨by decide, by decide +kernel⟩, by decide, rfl⟩, beginAll_of (pc := 0x1000) (by decide +kernel),
    all_of (fun _ f => !guardOk ⟨2, false⟩ f.preds) (fun _ _ h => by simpa using h) (by decide +kernel)⟩

def anSum : Instr := .iadd ctl .s false (.s 4) (.v 1) (.v 18)

theorem witness_UniformSregWrite_nonuniform : Issuing mDif anSum g2 tm 0x1000 ∧ AllExecute anSum mDif g2 tm ∧ tm.swClk ≠ mDif.clock ∧
    (∀ lane f, Member mDif g2 tm lane f → evIadd .s false (.s 4) (.v 1) (.v 18) (envOf mDif tm lane f.fidx) f =
      .ok (Wr.one (.s 4) (if f.fidx = 0 then 0x80000001 else 6) .i32)) ∧ ∃ j ∈ g2.ids, ∃ k ∈ g2.ids, (if j = 0 then 0x80000001 else 6) ≠ (if k = 0 then (0x80000001 : Word) else 6) :=
  ⟨issuing_of (by decide +kernel), allExecute_of (by decide +kernel), by decide,
    all_of (fun lane f => okB (evIadd .s false (.s 4) (.v 1) (.v 18) (envOf mDif tm lane f.fidx) f) (Wr.one (.s 4) (if f.fidx = 0 then 0x80000001 else 6) .i32))
      (fun _ _ h => ok_of h) (by decide +kernel), by decide⟩

/-! ## Numbers -/

theorem witness_ExactOperations_values : (Xr.isNan .nan = true ∧ (0 : Nat) < 1) ∧ (signed true 3 * 4 + signed false 6 * 2 = 0 ∧ (0 : Nat) < 2 ∧ (0 : Nat) < 4) ∧
    (signed true 0 * 4 + signed true 0 * 2 = 0) ∧ ((9 : ℚ) / 4 < 4 ∧ ((2 : ℚ) ^ (-3 : Int) = 1 / 8)) ∧
    ((149 : Nat) ≤ 149 ∧ (-1000 : Int) ≤ -2 ∧ (-2 : Int) ≤ 1000 ∧ ((signed true 4 : ℚ) / 2 ^ 1 = (-2 : Int)) ∧ ((-2 : Int) : ℚ) ≤ (signed true 3 : ℚ) / 2 ^ 1 ∧
      (signed true 3 : ℚ) / 2 ^ 1 < (-2 : Int) + 1) := by
  refine ⟨by decide, by decide, by decide, by norm_num, by decide, by decide, by decide, ?_⟩
  norm_num [signed]

/-- A magnitude half way between 0 and the least subnormal number, and one above it; an integer between two. -/
theorem witness_Conversions_rounding : (0 : Nat) < Fmt.f32.infBits ∧ Fmt.f32.infBits - 1 + 1 = Fmt.f32.infBits ∧
    (∀ n ∈ [2, 3], let x : ℚ := (n : Nat) / (2 ^ 151 : Nat)
      fmtMag .f32 0 ≤ x ∧ x < fmtMag .f32 (0 + 1) ∧ (roundsUp .rne false 0 (fmtMag .f32 0) (fmtMag .f32 (0 + 1)) x ↔ n = 3)) ∧
    (0 < 64 ∧ 64 + 1 < 2 ^ (Tap.t8.width - 1) ∧ tapMag .t8 64 ≤ (33 : Nat) / (32 : Nat) ∧ (33 : Nat) / (32 : Nat) < tapMag .t8 (64 + 1) ∧
      (1 : Nat) / (8192 : Nat) ≤ tapMag .t8 1 ∧ tapMag .t8 (2 ^ (Tap.t8.width - 1) - 1) ≤ (5000 : Nat) / (1 : Nat)) := by
  have t (n num den : Nat) (h : Tap.t8.val n = .fin false num den) : tapMag .t8 n = (num : ℚ) / den := by
    rw [tapMag, h]
    simp [Xr.rat, signed]
  have e0 : fmtMag .f32 0 = 0 := by norm_num [fmtMag, Fmt.prec, Fmt.emin]
  have e1 : fmtMag .f32 (0 + 1) = 1 / 2 ^ 149 := by norm_num [fmtMag, Fmt.prec, Fmt.emin]
  refine ⟨by decide, by decide, fun n hn => ?_, by decide, by decide, ?_, ?_, ?_, ?_⟩
  rotate_left
  · rw [t 64 16 16 (by decide)]; norm_num
  · rw [t 65 17 16 (by decide)]; norm_num
  · rw [t 1 1 4096 (by decide)]; norm_num
  · rw [show 2 ^ (Tap.t8.width - 1) - 1 = 127 by decide, t 127 4096 1 (by decide)]; norm_num
  simp only [List.mem_cons, List.not_mem_nil, or_false] at hn
  obtain rfl | rfl := hn <;> rw [e0, e1] <;> norm_num [roundsUp]

/-! ## Calls and returns -/

/-- A launch with a fibre-local area of 4 KiB at 0x100000, and a fibre whose return stack is full in the core, is at its limit, or is all in memory. -/
def anEn : DWord := stackEntry 0x3000 8 24
def fSp (d n : Nat) : Fibre := { fib 0 with fs := 32, depth := d, stack := List.replicate n anEn }
def fHi : Fibre := { fSp 8 8 with fb := 32 }
def mSp (f : Fibre) : State :=
  { layBytes mF 0x40100FF8 (leBytes anEn.toNat 8) with fibres := [(2048, f)], gangs := [g1], launches := [(1, { lau with locB := 0x100000, locF := 0x1000 })] }
/-- A team whose first s-register holds an address that is no multiple of 8. -/
def tMis : Team := { tm with sregs := [(1, 0x3004)] }

theorem witness_CallsAndReturns_traps :
    (Solo (.calli gd (.s 1) 1) { m1 with teams := [(2, tMis)] } g1 tMis 0 f1 ∧
      readOp64 (envOf { m1 with teams := [(2, tMis)] } tMis 0 f1.fidx) f1 (.s 1) = .ok 0x3004 ∧ (0x3004 : DWord).toNat % 8 ≠ 0) ∧
    (Solo (.call gd 0x200 1) (mSp (fSp 65535 8)) g1 tm 0 (fSp 65535 8) ∧ Solo (.call gd 0x200 1) (mSp fHi) g1 tm 0 fHi ∧
      tm.w < fHi.fb + 8 * (1 : Fin 33).val + (32 : Word).toNat ∧
      fetchWord (mSp (fSp 65535 8)) tm.core ((mSp (fSp 65535 8)).site tm (fSp 65535 8)).ctx (0x2000 - 8) 6 = .ok 0x8400000000008000 ∧
      fetchWord (mSp fHi) tm.core ((mSp fHi).site tm fHi).ctx (0x2000 - 8) 6 = .ok 0x8400000000008000 ∧
      decodeWords [0x8400000000008000] = .ok (.frameWord 32) ∧ fHi.pc + (0x200 : BitVec 34).signExtend 64 * 8 = 0x2000) ∧
    Solo (.ret gd) m1 g1 tm 0 f1 ∧ f1.depth = 0 :=
  ⟨⟨solo_of (by decide +kernel), ok_of (by decide +kernel), by decide⟩, ⟨solo_of (by decide +kernel), solo_of (by decide +kernel), by decide, ok_of (by decide +kernel),
    ok_of (by decide +kernel), rfl, by decide⟩, solo_of (by decide +kernel), rfl⟩

theorem witness_CallsAndReturns_spills :
    (∀ f ∈ [fSp 8 8, fSp 1 0], let k := (mSp f).site tm f
      k.lau.locF = 0x1000 ∧ k.lau.locB + BitVec.ofNat 64 (k.gfid * k.lau.locF) = 0x100000 ∧ (mSp f).walkWaits tm.core k.ctx 0x100FF8 = false ∧ f.txn = none ∧
      okB (checkVa (mSp f) tm.core k.ctx 0x100FF8 { kind := 3, w := true, seals := true }) (0x40100FF8, leaf0) = true ∧
      okB (checkVa (mSp f) tm.core k.ctx 0x100FF8 { kind := 2, r := true }) (0x40100FF8, leaf0) = true) ∧
    (Solo (.call gd 0x200 1) (mSp (fSp 8 8)) g1 tm 0 (fSp 8 8) ∧ (fSp 8 8).fb + 8 * (1 : Fin 33).val + (32 : Word).toNat ≤ tm.w ∧ (fSp 8 8).depth ≠ 65535 ∧
      8 ≤ (fSp 8 8).stack.length ∧ storeHeld (mSp (fSp 8 8)) tm.core (lineOf 0x40100FF8) = false ∧
      Unbroken (storeLine (noteMiss (mSp (fSp 8 8)) tm.core 0 0x100FF8) tm.core (fSp 8 8).key 0x40100FF8 (leBytes ((fSp 8 8).stack.getLastD 0).toNat 8)) tm 0x2000) ∧
    (Solo (.ret gd) (mSp (fSp 1 0)) g1 tm 0 (fSp 1 0) ∧ (fSp 1 0).depth ≠ 0 ∧ (fSp 1 0).stack = [] ∧ loadWaits (mSp (fSp 1 0)) tm.core (lineOf 0x40100FF8) = false ∧
      loadLine (mSp (fSp 1 0)) tm.core 0x40100FF8 8 = (leBytes anEn.toNat 8, none, Config.latNear) ∧ BitVec.ofNat 64 (leWord (leBytes anEn.toNat 8)) = anEn ∧
      1 ≤ anEn.toNat / 2 ^ 53 % 64 ∧ anEn.toNat / 2 ^ 53 % 64 ≤ 32 ∧ 8 * (anEn.toNat / 2 ^ 59) + 8 * (anEn.toNat / 2 ^ 53 % 64) ≤ tm.w ∧
      Unbroken (noteFill (noteMiss (mSp (fSp 1 0)) tm.core 0 0x100FF8) tm.core (lineOf 0x40100FF8) 1) tm (entryPc anEn)) :=
  ⟨by decide +kernel, ⟨solo_of (by decide +kernel), by decide, by decide, by decide, by decide +kernel, unbroken_of (by decide +kernel)⟩,
    solo_of (by decide +kernel), by decide, rfl, by decide +kernel, by decide +kernel, by decide +kernel, by decide, by decide, by decide, unbroken_of (by decide +kernel)⟩

/-! ## Pools, crews and collectives -/

theorem witness_ForkSpawnEndYield_traps : Solo (.spawn gd 0x200 16) m1 g1 tm 0 f1 ∧ (m1.teamLaunch tm).pool = false ∧
    (∀ s, s = ({ m1 with launches := [(1, { lau with pool := true, held := 2, capacity := 2 })] } : State) →
      Solo (.spawn gd 0x200 16) s g1 tm 0 f1 ∧ (s.teamLaunch tm).pool = true ∧ (s.teamLaunch tm).capacity ≤ (s.teamLaunch tm).held) :=
  ⟨solo_of (by decide +kernel), by decide +kernel, fun s h => by subst h; exact ⟨solo_of (by decide +kernel), by decide +kernel, by decide +kernel⟩⟩

/-- A crew whose first member is no longer live. -/
def deadCrew : Crew := { four with live := 2 }
def tDead : Team := { tm with crews := [(1, deadCrew)] }
def mDead : State := { m1 with teams := [(2, tDead)] }

theorem witness_JoinAndLeave_partial : (∀ c r, tDead.crew 1 = some c → rankIn c f1.fidx = some r → c.live.getLsbD r = false) ∧
    (∀ c r, tm.crew 5 = some c → rankIn c f1.fidx = some r → c.live.getLsbD r = false) ∧
    Solo (.join gd none 11 none 1) mDead g1 tDead 0 f1 ∧ Solo (.leave gd 11 1) mDead g1 tDead 0 f1 ∧ readDl (envOf mDead tDead 0 f1.fidx) f1 none = .ok none ∧
    Solo (.leave gd 11 5) m1 g1 tm 0 f1 := by
  refine ⟨fun c r hc hr => ?_, fun c r hc => absurd (show (none : Option Crew) = some c from hc) (by simp), solo_of (by decide +kernel), solo_of (by decide +kernel), ok_of (by decide +kernel), solo_of (by decide +kernel)⟩
  obtain rfl : deadCrew = c := Option.some.inj hc
  obtain rfl : 0 = r := Option.some.inj hr
  decide

/-- Collectives of crew 1 by a part of it; and by all of it, one of whom holds no integer in v1. -/
def mOdd : State := mach [fib 0, { fib 4 with regs := setD Reg.zero 1 ⟨5, .f32⟩ someRegs }]
def aCast (n : Fin 256) : Instr := .cbcast gd (.v 20) (.v 1) (.v n) 1

theorem witness_CrewCollectives_traps :
    (∀ i ∈ colls, Issuing m1 i g1 tm 0x1000 ∧ AllExecute i m1 g1 tm) ∧ (tm.crew 1 = some four ∧ g1.ids ≠ liveOf four) ∧
    (Issuing mOdd (.credi gd .min .s (.v 20) (.v 1) 1) g2 tm 0x1000 ∧ AllExecute (.credi gd .min .s (.v 20) (.v 1) 1) mOdd g2 tm ∧ g2.ids = liveOf four ∧
      ∀ lane f, Member mOdd g2 tm lane f → (readInt (envOf mOdd tm lane f.fidx) f (.v 1)).map (fun _ => ()) =
        match (if f.fidx = 4 then some { code := .formatMismatch, aux := 1 + 512 * Tag.f32.code } else none : Option Trap) with | some x => .error x | none => .ok ()) ∧
    (Issuing mDif (aCast 1) g2 tm 0x1000 ∧ WholeCrew (aCast 1) mDif g2 tm 1 four ∧ (∀ lane f, Member mDif g2 tm lane f →
        readInt (envOf mDif tm lane f.fidx) f (.v 1) = .ok (if f.fidx = 0 then 0x80000000 else 5)) ∧
      ∃ j ∈ g2.ids, ∃ k ∈ g2.ids, (if j = 0 then (0x80000000 : Word) else 5) ≠ if k = 0 then 0x80000000 else 5) ∧
    (Issuing m2 (aCast 19) g2 tm 0x1000 ∧ WholeCrew (aCast 19) m2 g2 tm 1 four ∧ ReadsInt (.v 19) (aCast 19) m2 g2 tm (fun _ => 128) ∧
      ∀ k ∈ liveOf four, rankAt four k ≠ (128 : Word).toNat) := by
  refine ⟨fun i hi => ⟨issuing_of (List.all_eq_true.1 (by decide +kernel : (colls.all fun i => issuingB i m1 g1 tm 0x1000) = true) i hi),
      allExecute_of (List.all_eq_true.1 (by decide +kernel : (colls.all fun i => eachB m1 g1 tm fun _ f => goesB i f) = true) i hi)⟩, by decide,
    ⟨issuing_of (by decide +kernel), allExecute_of (by decide +kernel), by decide, ?_⟩,
    ⟨issuing_of (by decide +kernel), whole_of (by decide +kernel), ?_, by decide⟩,
    issuing_of (by decide +kernel), whole_of (by decide +kernel), reads_of (by decide +kernel) _, by decide⟩
  · refine all_of (fun lane f => match readInt (envOf mOdd tm lane f.fidx) f (.v 1) with
      | .ok _ => decide (f.fidx ≠ 4)
      | .error x => decide (f.fidx = 4 ∧ x = { code := .formatMismatch, aux := 1 + 512 * Tag.f32.code })) (fun l f h => ?_) (by decide +kernel)
    split at h
    · rename_i heq
      rw [heq, if_neg (of_decide_eq_true h)]
      rfl
    · rename_i heq
      obtain ⟨h4, rfl⟩ := of_decide_eq_true h
      rw [heq, if_pos h4]
      rfl
  · exact all_of (fun lane f => okB (readInt (envOf mDif tm lane f.fidx) f (.v 1)) (if f.fidx = 0 then 0x80000000 else 5)) (fun _ _ h => ok_of h) (by decide +kernel)

/-! ## Memory -/

/-- A struck granule of the team's scratchpad. -/
def mScr : State := { m1 with cores := [(0, { scrPoison := [((0x80000 + 0x2FE0) / 32, true)] })] }

theorem witness_ScratchpadAccesses_poison : Solo (.ld ctl .b128 .x .normal .raw (.v 20) ⟨1, none, 0xFF0⟩) mScr g1 tm 0 f1 ∧
    effAddr (envOf mScr tm 0 f1.fidx) f1 Size.b128.bytes ⟨1, none, 0xFF0⟩ = .ok 0x2FF0 ∧ (0x2FF0 : DWord).toNat % Size.b128.bytes = 0 ∧
    (mScr.core tm.core).badAt (tm.scrBase + 0x2FF0) 16 = some ((0x80000 + 0x2FE0) / 32) ∧ Unbroken mScr tm (f1.pc + 8) ∧
    ((0x2FF2 : DWord).toNat % 4 ≠ 0 ∧ tm.scrSize < (0x3FFC : DWord).toNat + 8 ∧ (0x3FF8 : DWord).toNat + 8 ≤ tm.scrSize) :=
  ⟨solo_of (by decide +kernel), ok_of (by decide +kernel), by decide, by decide +kernel, unbroken_of (by decide +kernel), by decide⟩

/-- A machine whose context maps its first GiB under this leaf, with this address in s1 and in v14 and v15. -/
def tAc (a : DWord) : Team := { tm with sregs := [(1, a)] }
def fAc (a : DWord) : Fibre := { fib 0 with regs := setD Reg.zero 15 ⟨(a >>> 32).setWidth 32, .p64h⟩ (setD Reg.zero 14 ⟨a.setWidth 32, .p64l⟩ someRegs) }
def mAc (a leaf : DWord) : State := { layBytes (mach [fAc a]) 0x3000 (leBytes leaf.toNat 8) with teams := [(2, tAc a)] }
def atS1 : Addr := ⟨1, none, 0⟩

/-- The access forms at that address, with their bytes and what they need of the page. -/
def accs : List (Instr × Nat × Need) :=
  let load : Need := { kind := 2, r := true }
  let store : Need := { kind := 3, w := true, seals := true }
  let atomic : Need := { kind := 4, r := true, w := true, seals := true }
  [(.ld ctl .b64 .g .normal .raw (.v 20) atS1, 8, load), (.ldSplit ctl .b64 .normal .p64l (.v 20) 7 0, 8, load), (.st gd .b64 .g .normal (.wide 16) atS1, 8, store),
   (.stSplit gd .b64 .normal (.wide 16) 7 0, 8, store), (.atom gd .exch .rlx .die .b64 .g 16 false atS1, 8, atomic), (.acas gd .rlx .die .b64 .g 16 false atS1, 8, atomic),
   (.eacc gd .ea160 .rlx .die .g 4 atS1, eaBytes .ea160, atomic), (.earead ctl .ea160 .rne .g (some 20) atS1, eaBytes .ea160, load),
   (.ldver ctl .g none atS1, 4, { kind := 4, r := true }), (.stv gd .b32 .g 16 false atS1, 4, { kind := 4, w := true, seals := true }),
   (.ldsum ctl .int false (some 20) atS1, sumBytes .int, load)]

theorem access_forms {e : Env} {f : Fibre} {a : DWord} (h8 : effAddr e f 8 atS1 = .ok a) (h4 : effAddr e f 4 atS1 = .ok a) (hp : splitEff f 7 0 = .ok a)
    (hs : stBytes .b64 (.wide 16) e f = .ok [40, 0, 0, 0, 0, 0, 0, 0]) (h16 : regsVal f 16 8 = .ok 40) (ht : atomTagOk .exch .b64 f 16 = true)
    (h18 : regsVal f 18 8 = .ok (1 + 2 ^ 32 * 128)) (h164 : regsVal f 16 4 = .ok 40) (h17 : readV f 17 = .ok ⟨0, .i32⟩) (hf : readTag e f .f32 (.v 4) = .ok 0x3F800000) :
    ∀ x ∈ accs, AccessOf x.1 e f .g a x.2.1 x.2.2 := by
  intro x hx
  simp only [accs, List.mem_cons, List.not_mem_nil, or_false] at hx
  unfold AccessOf
  obtain rfl | rfl | rfl | rfl | rfl | rfl | rfl | rfl | rfl | rfl | rfl := hx
  · exact .inl ⟨_, _, _, _, _, _, rfl, h8, rfl, rfl⟩
  · exact .inr (.inl ⟨_, _, _, _, _, _, _, rfl, hp, rfl, rfl, rfl⟩)
  · exact .inr (.inr (.inl ⟨_, _, _, _, _, _, rfl, h8, hs, rfl, rfl⟩))
  · exact .inr (.inr (.inr (.inl ⟨_, _, _, _, _, _, _, rfl, hp, hs, rfl, rfl, rfl⟩)))
  · exact .inr (.inr (.inr (.inr (.inl ⟨_, _, _, _, _, _, _, _, _, rfl, h8, h16, ht, rfl, rfl⟩))))
  · exact .inr (.inr (.inr (.inr (.inr (.inl ⟨_, _, _, _, _, _, _, _, _, rfl, h8, h16, h18, rfl, rfl⟩)))))
  · exact .inr (.inr (.inr (.inr (.inr (.inr (.inl ⟨_, _, _, _, _, _, _, rfl, h4, hf, rfl, rfl⟩))))))
  · exact .inr (.inr (.inr (.inr (.inr (.inr (.inr (.inl ⟨_, _, _, _, _, rfl, h4, rfl, rfl⟩)))))))
  · exact .inr (.inr (.inr (.inr (.inr (.inr (.inr (.inr (.inl ⟨_, _, _, rfl, h4, rfl, rfl⟩))))))))
  · exact .inr (.inr (.inr (.inr (.inr (.inr (.inr (.inr (.inr (.inl ⟨_, _, _, _, _, _, _, rfl, h4, h164, h17, rfl, rfl⟩)))))))))
  · exact .inr (.inr (.inr (.inr (.inr (.inr (.inr (.inr (.inr (.inr ⟨_, _, _, _, _, rfl, h4, rfl, rfl, rfl⟩)))))))))

/-- The forms at an address that no access size takes, at one without a translation, under a leaf that allows nothing, and under a sealed leaf. -/
def sealed0 : DWord := 0x040000004000005D
def accCases : List (DWord × DWord) := [(0x3002, leaf0), (0x40000000, leaf0), (0x3000, 0x40000041), (0x3000, sealed0)]

theorem access_here {c : DWord × DWord} (hc : c ∈ accCases) : ∀ x ∈ accs, Solo x.1 (mAc c.1 c.2) g1 (tAc c.1) 0 (fAc c.1) ∧
    AccessOf x.1 (envOf (mAc c.1 c.2) (tAc c.1) 0 (fAc c.1).fidx) (fAc c.1) .g c.1 x.2.1 x.2.2 := by
  simp only [accCases, List.mem_cons, List.not_mem_nil, or_false] at hc
  obtain rfl | rfl | rfl | rfl := hc <;> exact fun x hx =>
    ⟨solo_of (List.all_eq_true.1 (by decide +kernel : (accs.all fun x => soloB x.1 (mAc _ _) g1 (tAc _) 0 (fAc _)) = true) x hx),
      access_forms (ok_of (by decide +kernel)) (ok_of (by decide +kernel)) (ok_of (by decide +kernel)) (ok_of (by decide +kernel)) (ok_of (by decide +kernel)) (by decide +kernel)
        (ok_of (by decide +kernel)) (ok_of (by decide +kernel)) (ok_of (by decide +kernel)) (ok_of (by decide +kernel)) x hx⟩

theorem witness_GlobalAccesses_traps : (∀ c ∈ accCases, ∀ x ∈ accs, Solo x.1 (mAc c.1 c.2) g1 (tAc c.1) 0 (fAc c.1) ∧
      AccessOf x.1 (envOf (mAc c.1 c.2) (tAc c.1) 0 (fAc c.1).fidx) (fAc c.1) .g c.1 x.2.1 x.2.2 ∧ (fAc c.1).txn = none) ∧
    (∀ x ∈ accs, errB (place ((mAc 0x3002 leaf0).site (tAc 0x3002) (fAc 0x3002)) .g 0x3002 x.2.1 x.2.1 x.2.2.kind) { code := .align, faddr := 0x3002, aux := x.2.2.kind } = true) ∧
    (∀ x ∈ accs, okB (place ((mAc 0x40000000 leaf0).site (tAc 0x40000000) (fAc 0x40000000)) .g 0x40000000 x.2.1 x.2.1 x.2.2.kind) (.glob 0x40000000) = true ∧
      okB (place ((mAc 0x3000 leaf0).site (tAc 0x3000) (fAc 0x3000)) .g 0x3000 x.2.1 x.2.1 x.2.2.kind) (.glob 0x3000) = true) ∧
    ((mAc 0x40000000 leaf0).walkWaits 0 0 0x40000000 = false ∧ translate (mAc 0x40000000 leaf0) 0 0 0x40000000 = none) ∧
    ((mAc 0x3000 0x40000041).walkWaits 0 0 0x3000 = false ∧ translate (mAc 0x3000 0x40000041) 0 0 0x3000 = some (0x40003000, 0x40000041)) ∧
    ((mAc 0x3000 sealed0).walkWaits 0 0 0x3000 = false ∧ translate (mAc 0x3000 sealed0) 0 0 0x3000 = some (0x40003000, sealed0)) ∧
    (leafR 0x40000041 = false ∧ leafW 0x40000041 = false ∧ leafR sealed0 = true ∧ leafW sealed0 = true ∧ leafSealed sealed0 = true) := by
  refine ⟨fun c hc x hx => ⟨(access_here hc x hx).1, (access_here hc x hx).2, rfl⟩, ?_, ?_, ?_, ?_, ?_, ?_⟩ <;> decide +kernel

/-- The line of 0x3000, poisoned in its first granule. -/
def mPz : State := m1.setLine (lineOf 0x40003000) { poison := 1 }

theorem witness_GlobalAccesses_poison : Solo (.ld ctl .b64 .g .stream .p64l (.v 20) ⟨1, none, 0⟩) mPz g1 tm 0 f1 ∧
    loadLine mPz tm.core 0x40003000 Size.b64.bytes = ([0, 0, 0, 0, 0, 0, 0, 0], some 0, Config.latNear) ∧ mPz.walkWaits tm.core (mPz.site tm f1).ctx 0x3000 = false ∧
    checkVa mPz tm.core (mPz.site tm f1).ctx 0x3000 { kind := 2, r := true } = .ok (0x40003000, leaf0) ∧ loadWaits mPz tm.core (lineOf 0x40003000) = false :=
  ⟨solo_of (by decide +kernel), by decide +kernel, by decide +kernel, ok_of (by decide +kernel), by decide +kernel⟩

def trapIs {α : Type} (r : MemR α) (x : Trap) : Bool := match r with | .trap y => decide (y = x) | _ => false

theorem trap_of {α : Type} {r : MemR α} {x : Trap} (h : trapIs r x = true) : r = .trap x := by
  cases r with
  | trap y => exact congrArg _ (of_decide_eq_true h)
  | ok => cases h
  | abort => cases h
  | held => cases h

/-- An atomic at a poisoned granule, and one whose data register holds a float. -/
theorem witness_HomeAtomics_traps :
    (badGranule (mPz.line (lineOf 0x40003000)).poison (0x40003000 % 128) 8 = some 0 ∧ (mPz.core 0).wcb = [] ∧
      rmwAt mPz (mPz.site tm f1) f1.issuing (.glob 0x3000) 8 needRW opExch = .trap { code := .poison, faddr := 0x3000 }) ∧
    (∀ i ∈ [Instr.atom gd .exch .ar .die .b64 .g 16 false ⟨1, none, 0⟩, .acas gd .ar .die .b64 .g 16 false ⟨1, none, 0⟩, .eacc gd .ea160 .ar .die .g 4 ⟨1, none, 0⟩],
      Solo i mPz g1 tm 0 f1 ∧ Released i mPz g1 tm) ∧ acqHeld mPz (mPz.site tm f1) .ar .die = false ∧
    (atomTagOk .minS .b64 f1 4 = false ∧ Solo (.atom gd .minS .rlx .die .b64 .g 4 false ⟨1, none, 0⟩) m1 g1 tm 0 f1 ∧
      ∀ j, j < 4 → reservedTag (f1.reg ((4 : Fin 256).val + j)).tag = false ∧ f1.badRegs.contains (f1.fb + ((4 : Fin 256).val + j)) = false) := by
  refine ⟨⟨by decide +kernel, by decide +kernel, trap_of (by decide +kernel)⟩, fun i hi => ⟨soloAll_of (by decide +kernel) i hi, released_of (List.all_eq_true.1 (by decide +kernel :
      ([Instr.atom gd .exch .ar .die .b64 .g 16 false ⟨1, none, 0⟩, .acas gd .ar .die .b64 .g 16 false ⟨1, none, 0⟩,
        .eacc gd .ea160 .ar .die .g 4 ⟨1, none, 0⟩].all fun i => (releaseWait i mPz g1 ((gather mPz tm g1 i).filter (runs i))).isNone) = true) i hi)⟩,
    by decide +kernel, by decide, solo_of (by decide +kernel), by decide⟩

theorem witness_HomeReadsAndFences_traps :
    (Solo (.earead ctl .ea320 .rne .g (some 20) ⟨1, none, 0⟩) mPz g1 tm 0 f1 ∧
      globAt mPz (mPz.site tm f1) .g 0x3000 (eaBytes .ea320) (eaBytes .ea320) { kind := 2, r := true } = .ok (0x3000, 0x40003000, leaf0) ∧
      mPz.asleep (lineOf 0x40003000) = false ∧
      badGranule ((freshen (coreAsk (drainLine (noteMiss mPz 0 0 0x3000) 0 (lineOf 0x40003000)) 0 (lineOf 0x40003000)) 0 (lineOf 0x40003000)).line (lineOf 0x40003000)).poison
        (0x40003000 % 128) (eaBytes .ea320) = some 0) ∧
    (Solo (.ldsum ctl .int true (some 20) ⟨1, none, 0⟩) m1 g1 tm 0 f1 ∧
      globAt m1 (m1.site tm f1) .g 0x3000 (sumBytes .int) (sumBytes .int) { kind := 2, r := true } = .ok (0x3000, 0x40003000, leaf0) ∧ leafContrib leaf0 = false) ∧
    (∀ s, s = mCon.setLine (lineOf 0x40003000) { poison := 1 } → Solo (.ldsum ctl .int true (some 20) ⟨1, none, 0⟩) s g1 tm 0 f1 ∧
      globAt s (s.site tm f1) .g 0x3000 (sumBytes .int) (sumBytes .int) { kind := 2, r := true } = .ok (0x3000, 0x40003000, 0x080000004000005D) ∧
      badReplica (drainLine (noteMiss s 0 0 0x3000) 0 (lineOf 0x40003000)) 0x40003000 (sumBytes .int) = some 0) ∧
    (mFar.poisoned (0x40003000 + 2 ^ 49) 1 = false ∧ (mFar.setLine (lineOf (0x40003000 + 2 ^ 49)) { poison := 1 }).poisoned (0x40003000 + 2 ^ 49) 1 = true) :=
  ⟨⟨solo_of (by decide +kernel), ok_of (by decide +kernel), by decide +kernel, by decide +kernel⟩, ⟨solo_of (by decide +kernel), ok_of (by decide +kernel), by decide⟩,
    fun s h => by subst h; exact ⟨solo_of (by decide +kernel), ok_of (by decide +kernel), by decide +kernel⟩, by decide +kernel, by decide +kernel⟩

/-! ## First accesses of attempts, barriers and sealing -/

/-- An attempt that has read line 77 this many times at this version, with these written lines, and a core whose L1 begins at this place. -/
def txnAt (n ver : Nat) (w : Nat) : Txn :=
  { txn with rset := List.replicate n { line := 77, ver := ver, img := 0, poison := 0 }, wset := List.replicate w { line := 88, mask := 1, data := 0 } }
def fTx (n ver w : Nat) : Fibre := { fib 0 with txn := some (txnAt n ver w) }
def mTx (n ver w ub : Nat) (leaf : DWord) : State :=
  { layBytes (mach [fTx n ver w]) 0x3000 (leBytes leaf.toNat 8) with cores := [(0, { ubL1 := ub })] }
def askedTx (n ver w ub : Nat) (leaf : DWord) : State :=
  freshen (coreAsk (drainLine (noteMiss (mTx n ver w ub leaf) 0 0 0x3000) 0 (lineOf 0x40003000)) 0 (lineOf 0x40003000)) 0 (lineOf 0x40003000)
def visitedTx (n ver w ub : Nat) (leaf : DWord) : State := visitSet (askedTx n ver w ub leaf) 0 (txnAt n ver w)
def aLoad : Instr := .ld ctl .b64 .g .normal .p64l (.v 20) ⟨1, none, 0⟩
def aStore : Instr := .st gd .b64 .g .normal (.wide 14) ⟨1, none, 0⟩

theorem witness_AccessesInAttempts_first :
    (∀ c ∈ [(1, 0, 0, 240), (1, 9, 0, 240), (32, 0, 0, 240), (1, 0, 0, 256), (1, 0, 16, 240)], let s := mTx c.1 c.2.1 c.2.2.1 c.2.2.2 leaf0
      let x := txnAt c.1 c.2.1 c.2.2.1
      let f := fTx c.1 c.2.1 c.2.2.1
      soloB aLoad s g1 tm 0 f = true ∧ soloB aStore s g1 tm 0 f = true ∧ s.walkWaits tm.core (s.site tm f).ctx 0x3000 = false ∧
      okB (effAddr (envOf s tm 0 f.fidx) f 8 ⟨1, none, 0⟩) 0x3000 = true ∧ okB (checkVa s 0 0 0x3000 { kind := 2, r := true }) (0x40003000, leaf0) = true ∧
      okB (checkVa s 0 0 0x3000 { kind := 3, w := true, seals := true }) (0x40003000, leaf0) = true ∧ g1.issuedAt s.clock < x.opened + 2 ^ 23 ∧
      x.rset.find? (·.line == lineOf 0x40003000) = none ∧ x.wset.find? (·.line == lineOf 0x40003000) = none ∧ s.reserved (lineOf 0x40003000) = false ∧
      (∀ r ∈ x.rset, s.reserved r.line = false) ∧ unbrokenB s tm (f.pc + 8) = true ∧ unbrokenB s tm x.lfail = true) ∧
    ((∀ r ∈ (txnAt 1 0 0).rset, ((visitedTx 1 0 0 240 leaf0).line r.line).ver = r.ver) ∧ (∃ r ∈ (txnAt 1 9 0).rset, ((visitedTx 1 9 0 240 leaf0).line r.line).ver ≠ r.ver) ∧
      32 ≤ (txnAt 32 0 0).rset.length ∧ (∀ r ∈ (txnAt 32 0 0).rset, ((visitedTx 32 0 0 240 leaf0).line r.line).ver = r.ver)) ∧
    (16 * (256 - ((visitedTx 1 0 0 256 leaf0).core 0).ubL1) < txnLines (visitedTx 1 0 0 256 leaf0) 0 + 1 ∧
      txnLines (visitedTx 1 0 0 240 leaf0) 0 + 1 ≤ 16 * (256 - ((visitedTx 1 0 0 240 leaf0).core 0).ubL1) ∧ ((visitedTx 1 0 0 240 leaf0).line (lineOf 0x40003000)).poison = 0) ∧
    (16 ≤ (txnAt 1 0 16).wset.length ∧ (txnAt 1 0 0).wset.length < 16 ∧ 16 * (256 - ((mTx 1 0 0 256 leaf0).core 0).ubL1) < txnLines (mTx 1 0 0 256 leaf0) 0 + 1 ∧
      txnLines (mTx 1 0 0 240 leaf0) 0 + 1 ≤ 16 * (256 - ((mTx 1 0 0 240 leaf0).core 0).ubL1)) ∧
    (soloB aLoad (mTx 1 0 0 240 sealed0) g1 tm 0 (fTx 1 0 0) = true ∧ okB (checkVa (mTx 1 0 0 240 sealed0) 0 0 0x3000 { kind := 2, r := true }) (0x40003000, sealed0) = true ∧
      leafSealed sealed0 = true ∧ ((askedTx 1 0 0 240 sealed0).line (lineOf 0x40003000)).poison = 0) := by
  refine ⟨?_, ?_, ?_, ?_, ?_⟩ <;> decide +kernel

/-- retry past its end, with an alternative. -/
theorem witness_AttemptControl_late : Solo (.retry gd) { mach [fXs] with clock := 900 + 2 ^ 23 } g1 tm 0 fXs ∧ txn.opened + 2 ^ 23 ≤ g1.issuedAt (900 + 2 ^ 23) ∧
    Unbroken { mach [fXs] with clock := 900 + 2 ^ 23 } tm txn.lfail :=
  ⟨solo_of (by decide +kernel), by decide, unbroken_of (by decide +kernel)⟩

def aBar : Instr := .bar gd .pod .none (.s 1)
def aSeal : Instr := .seal gd false (.s 1) (.v 18)
def aUnseal : Instr := .unseal gd false (.s 1) (.v 18)

theorem witness_BarriersAndSealing_traps :
    (∀ c ∈ accCases, ∀ i ∈ [aBar, aSeal, aUnseal], Solo i (mAc c.1 c.2) g1 (tAc c.1) 0 (fAc c.1)) ∧
    ((0x3002 : DWord).toNat % 128 ≠ 0 ∧ (0x3002 : DWord).toNat % 4096 ≠ 0 ∧ (0x40000000 : DWord).toNat % 4096 = 0) ∧
    (readOp64 (envOf (mAc 0x40000000 leaf0) (tAc 0x40000000) 0 0) (fAc 0x40000000) (.s 1) = .ok 0x40000000 ∧
      readInt (envOf (mAc 0x40000000 leaf0) (tAc 0x40000000) 0 0) (fAc 0x40000000) (.v 18) = .ok 1 ∧ (1 : Word) ≠ 0) ∧
    (∃ x, sealCheck (mAc 0x40000000 leaf0) 0 true 0x40000000 1 = some x) ∧ (∃ x, sealCheck (mAc 0x40000000 leaf0) 0 false 0x40000000 1 = some x) ∧
    Solo (.seal gd false (.s 1) (.v 3)) m1 g1 tm 0 f1 ∧ readInt (envOf m1 tm 0 f1.fidx) f1 (.v 3) = .ok 0 := by
  refine ⟨fun c hc i hi => ?_, by decide, ⟨ok_of (by decide +kernel), ok_of (by decide +kernel), by decide⟩, Option.isSome_iff_exists.1 (by decide +kernel),
    Option.isSome_iff_exists.1 (by decide +kernel), solo_of (by decide +kernel), ok_of (by decide +kernel)⟩
  simp only [accCases, List.mem_cons, List.not_mem_nil, or_false] at hc
  obtain rfl | rfl | rfl | rfl := hc <;>
    exact solo_of (List.all_eq_true.1 (by decide +kernel : ([aBar, aSeal, aUnseal].all fun i => soloB i (mAc _ _) g1 (tAc _) 0 (fAc _)) = true) i hi)

/-! ## Trees -/

/-- The tree of one node whose true arc does this. -/
def treeArc (op : Instr) : TreeWords := { treeOf 0 0 with arcs := [BitVec.ofNat 64 ((encode op).headD 0)] }
def w0 : Walking := { s := m1, v := f1.issuing }
def arcLd : Instr := .ld ctl .b32 .x .normal .raw (.v 20) ⟨3, none, 0⟩
def arcSt : Instr := .st gd .b32 .x .normal (.one (.v 16)) ⟨3, none, 0⟩
def arcPq : Instr := .vpqd ctl 0 (.v 20) (.v 11) 3 (.v 4)
def arcBad : Instr := .iadd ctl .s false (.v 20) (.v 4) (.v 2)
def mismatch4 : Trap := { code := .formatMismatch, aux := 4 + 512 * Tag.f32.code }

theorem witness_TreeExecutes_arcs :
    (∀ op ∈ [arcLd, arcSt, arcPq, arcBad], let tw := treeArc op
      let h := treeHdr tw.header.toNat
      0 < h.depth ∧ h.has 0 = true ∧ firstSome (tagCheck w0.v) ((testSrcs (.pred 1 true)).flatMap oSrc) = none ∧ h.arc 0 true = true ∧
      firstSome (tagCheck w0.v) (uses op).ops = none ∧ soloB (.tree tw) m1 g1 tm 0 f1 = true ∧ treeCheck tw f1.issuing = none) ∧
    (∀ op ∈ [arcLd, arcSt, arcPq, arcBad], let tw := treeArc op
      let h := treeHdr tw.header.toNat
      (match decTest (nodeWord tw h 0) with | .ok x => decide (x = .pred 1 true) | .error _ => false) = true ∧
      (match arcOp (arcWord tw h 0 true) with | .ok (some i) => decide (i = op) | _ => false) = true) ∧
    (okB (effAddr (envOf m1 tm 0 f1.fidx) w0.v 4 ⟨3, none, 0⟩) 0x100 = true ∧ okB (place (m1.site tm f1) .x 0x100 4 4 2) (.scr 0x100) = true ∧
      okB (place (m1.site tm f1) .x 0x100 4 4 3) (.scr 0x100) = true ∧ okB (stBytes .b32 (.one (.v 16)) (envOf m1 tm 0 f1.fidx) w0.v) [40, 0, 0, 0] = true ∧
      (match loadAt w0.s (m1.site tm f1) w0.v (.scr 0x100) 4 .normal with | .ok _ _ a => decide (a = ([0, 0, 0, 0], 10)) | _ => false) = true ∧
      (∃ r, pqEval (scrBytes m1 tm) (scrBad m1 tm) (envOf m1 tm 0 f1.fidx) w0.v 0 (.v 20) (.v 11) 3 (.v 4) = .ok r)) ∧
    (match arcStep arcBad (m1.site tm f1) (envOf m1 tm 0 f1.fidx) w0 with | .trap x => decide (x = mismatch4) | _ => false) = true ∧
    (match walkF1 (treeArc arcBad) with | .trap x => decide (x = mismatch4) | _ => false) = true := by
  refine ⟨by decide +kernel, by decide +kernel, ⟨by decide +kernel, by decide +kernel, by decide +kernel, by decide +kernel, by decide +kernel, ?_⟩, by decide +kernel, by decide +kernel⟩
  exact okIs_of (by decide +kernel)

/-- The table distance of an arc, and an end beside another fibre of the team. -/
theorem witness_TreeExecutes_others :
    (readTag (envOf m1 tm 0 f1.fidx) f1 .n8x4 (.v 11) = .ok 0xFF00807F ∧ readTag (envOf m1 tm 0 f1.fidx) f1 .f32 (.v 4) = .ok 0x3F800000 ∧
      (envOf m1 tm 0 f1.fidx).badS.contains 3 = false ∧ getD 0 3 (envOf m1 tm 0 f1.fidx).sregs = 0x100 ∧
      ∀ j, j < 4 → let e := 0x100 + 1024 * (4 * 0 + j) + 4 * ((0xFF00807F : Word).toNat / 2 ^ (8 * j) % 256)
        e + 4 ≤ tm.scrSize ∧ (m1.core tm.core).badAt (tm.scrBase + e) 4 = none) ∧
    (Solo (.tree (treeOf 5 0)) m2e ge tm 0 f1 ∧ (fib 4).key ≠ f1.key ∧ (fib 4).key / 1024 = tm.id ∧ m2e.fibre (fib 4).key = some (fib 4) ∧
      ∀ a b c d e h, (fib 4).st ≠ .budget a b c d e false h) :=
  ⟨⟨ok_of (by decide +kernel), ok_of (by decide +kernel), by decide +kernel, by decide +kernel, by decide +kernel⟩, solo_of (by decide +kernel), by decide, by decide,
    by decide +kernel, fun _ _ _ _ _ _ h => by cases h⟩

/-! ## Tiles, engines and matrix requests -/

/-- Two fibres with a talloc word of no format, an offset beyond the tile area, and an offset that meets another tile, in v1, v2 and v3. -/
def tallocRegs : List (Nat × Reg) := [(1, ⟨0x000A0000, .n32⟩), (2, ⟨0x200, .n32⟩), (3, ⟨0, .i32⟩), (4, ⟨300, .n32⟩)]
def mmT : State := { mm2 with fibres := [(2048, { fib 0 with regs := tallocRegs }), (2052, { fib 4 with regs := tallocRegs })] }
def tal (h : Fin 64) (a b : Fin 256) : Instr := .talloc gd h 1 (.v a) (.v b)
def wholeIB (i : Instr) (s : State) (t : Team) : Bool := issuingB i s g2 t 0x1000 && wholeB i s g2 t 1 four

theorem wholeI_of {l : List Instr} {s : State} {t : Team} (h : (l.all fun i => wholeIB i s t) = true) : ∀ i ∈ l, Issuing s i g2 t 0x1000 ∧ WholeCrew i s g2 t 1 four := by
  intro i hi
  have := List.all_eq_true.1 h i hi
  rw [wholeIB, Bool.and_eq_true] at this
  exact ⟨issuing_of this.1, whole_of this.2⟩

def onAbsent : List Instr :=
  [.tfree gd 7 1, .mlds gd 7 1, .mma gd false none 7 1 false (.v 3), .acsnap gd 7 1 true (.v 20) (.v 3), .acdrain gd 1 false (.tile 7 .rne),
   .tfree gd 63 1, .mlds gd 63 1]

theorem witness_TileTable_traps :
    (∀ i ∈ [tal 7 1 3, tal 0 3 3, tal 63 3 3, tal 7 3 2, tal 7 3 3] ++ onAbsent, Issuing mmT i g2 tmP 0x1000 ∧ WholeCrew i mmT g2 tmP 1 four) ∧
    (∀ i, ReadsInt (.v 1) i mmT g2 tmP (fun _ => 0x000A0000) ∧ ReadsInt (.v 2) i mmT g2 tmP (fun _ => 0x200) ∧ ReadsInt (.v 3) i mmT g2 tmP (fun _ => 0)) ∧
    (10 ≤ (0x000A0000 : Word).toNat / 2 ^ 16 % 2 ^ 4 ∧ ((mmT.core 0).tile (4 + 0)).st ≠ .empty ∧ tmP.tblCount ≤ 63 ∧ ((mmT.core 0).tile (4 + 7)).st = .empty ∧
      tmP.tileSize < 128 * (0x200 : Word).toNat + ({} : Tile).extent ∧ ((mmT.core 0).tile (tmP.tblBase + 0)).addr < tmP.tileBase + ({} : Tile).extent ∧
      tmP.tileBase < ((mmT.core 0).tile (tmP.tblBase + 0)).addr + ((mmT.core 0).tile (tmP.tblBase + 0)).extent) ∧
    (∀ i ∈ [Instr.tinfo gd 7 (.pair 10), .tinfoGetexp gd 7 (.v 19), .tinfoSetexp gd 7 (.v 19)], Solo i mm1 g1 tmP 0 f1) ∧
    readInt (envOf mm1 tmP 0 f1.fidx) f1 (.v 19) = .ok 128 ∧
    (∀ i ∈ [Instr.tfree gd 0 1, .mlds gd 0 1, .acdrain gd 1 false (.tile 0 .rne)], Issuing mm1 i g1 tmP 0x1000 ∧ AllExecute i mm1 g1 tmP) ∧ tmP.crew 1 = some four ∧
    g1.ids ≠ liveOf four ∧ ((mm1.core 0).tile (4 + 0)).st = .ready := by
  refine ⟨wholeI_of (by decide +kernel), fun i => ⟨reads_of (by decide +kernel) i, reads_of (by decide +kernel) i, reads_of (by decide +kernel) i⟩, by decide +kernel,
    soloAll_of (by decide +kernel), ok_of (by decide +kernel), fun i hi => ⟨issuing_of (List.all_eq_true.1 (by decide +kernel :
      ([Instr.tfree gd 0 1, .mlds gd 0 1, .acdrain gd 1 false (.tile 0 .rne)].all fun i => issuingB i mm1 g1 tmP 0x1000) = true) i hi),
      allExecute_of (List.all_eq_true.1 (by decide +kernel :
      ([Instr.tfree gd 0 1, .mlds gd 0 1, .acdrain gd 1 false (.tile 0 .rne)].all fun i => eachB mm1 g1 tmP fun _ f => goesB i f) = true) i hi)⟩, by decide, by decide, by decide +kernel⟩

/-- Streams: 0 another team's, 1 off; v4 asks for 300 places; v1 differs between the fibres. -/
def msO : State :=
  { mach [fib 0, fib 4] with
    fibres := [(2048, { fib 0 with regs := tallocRegs }), (2052, { fib 4 with regs := setD Reg.zero 1 ⟨5, .n32⟩ tallocRegs })],
    cores := [(0, { sieves := [(0, { siev with team := 3 })] })] }

theorem witness_EngineCommands_traps :
    (∀ i ∈ [Instr.sieveset gd 1 1 (.v 4), .sieveset gd 0 1 (.v 3), .sieveget gd 0 1 (.v 3), .sieveget gd 1 1 (.v 3), .sieveset gd 1 1 (.v 1), .sieveget gd 1 1 (.v 1)],
      Issuing msO i g2 tm 0x1000 ∧ WholeCrew i msO g2 tm 1 four) ∧
    (∀ i ∈ [Instr.sift gd 0 (.v 3) (.v 3), .sift gd 1 (.v 3) (.v 3)], Issuing msO i g2 tm 0x1000 ∧ AllExecute i msO g2 tm) ∧
    (∀ i, ReadsInt (.v 4) i msO g2 tm (fun _ => 300) ∧ ReadsInt (.v 3) i msO g2 tm (fun _ => 0) ∧ ReadsInt (.v 1) i msO g2 tm (fun k => if k = 0 then 0x000A0000 else 5)) ∧
    (256 < (300 : Word).toNat % 2 ^ 9 ∧ ((msO.core 0).sieve 0).k ≠ 0 ∧ ((msO.core 0).sieve 0).team ≠ tm.id ∧ ((msO.core 0).sieve 1).k = 0 ∧ (msO.core 0).siftAt ≠ some msO.clock ∧
      ∃ j ∈ g2.ids, ∃ k ∈ g2.ids, (if j = 0 then (0x000A0000 : Word) else 5) ≠ if k = 0 then 0x000A0000 else 5) ∧
    (∀ i ∈ [Instr.sieveset gd 1 1 (.v 3), .sieveget gd 1 1 (.v 3)], Issuing m1 i g1 tm 0x1000 ∧ AllExecute i m1 g1 tm ∧ ReadsInt (.v 3) i m1 g1 tm (fun _ => 0)) ∧
    tm.crew 1 = some four ∧ g1.ids ≠ liveOf four := by
  refine ⟨wholeI_of (by decide +kernel), fun i hi => ?_, fun i => ⟨reads_of (by decide +kernel) i, reads_of (by decide +kernel) i, reads_of (by decide +kernel) i⟩, by decide +kernel,
    fun i hi => ?_, by decide, by decide⟩ <;> simp only [List.mem_cons, List.not_mem_nil, or_false] at hi <;> obtain rfl | rfl := hi
  · exact ⟨issuing_of (by decide +kernel), allExecute_of (by decide +kernel)⟩
  · exact ⟨issuing_of (by decide +kernel), allExecute_of (by decide +kernel)⟩
  · exact ⟨issuing_of (by decide +kernel), allExecute_of (by decide +kernel), reads_of (by decide +kernel) _⟩
  · exact ⟨issuing_of (by decide +kernel), allExecute_of (by decide +kernel), reads_of (by decide +kernel) _⟩

/-- The planes of the partition hold another format than the tile. -/
def mmX : State := { mm2 with quads := [(0, { parts := [(0, { owner := some (2, 0), fmtA := some 4, fmtS := some 1 })] })] }
/-- The same tiles for a team without a partition. -/
def mmN : State := { mm2 with teams := [(2, tm)] }

theorem witness_MatrixRequests_traps :
    (∀ i ∈ [Instr.mma gd true none 1 1 false (.v 3), .mlds gd 1 1], Issuing mm2 i g2 tmP 0x1000 ∧ WholeCrew i mm2 g2 tmP 1 four) ∧
    (∀ i ∈ [Instr.mma gd true none 0 1 false (.v 3), .mma gd false none 0 1 false (.v 3)], Issuing mmX i g2 tmP 0x1000 ∧ WholeCrew i mmX g2 tmP 1 four ∧
      ReadsInt (.v 3) i mmX g2 tmP (fun _ => 0)) ∧
    (∀ i, ReadsInt (.v 3) i mm2 g2 tmP (fun _ => 0)) ∧
    (((mm2.core 0).tile (4 + 1)).st = .ready ∧ 4 < ((mm2.core 0).tile (4 + 1)).fmt ∧ ((mmX.core 0).tile (4 + 0)).fmt = 0 ∧
      (mmX.part 0 0).fmtsAt mmX.clock (0 % 4 * 8 + 1) = (some 4, some 1)) ∧
    (∀ i ∈ [Instr.mlds gd 0 1, .acclr gd true .ea160 1 true, .adinv gd 1 none], Issuing mmN i g2 tm 0x1000 ∧ WholeCrew i mmN g2 tm 1 four) ∧
    (tm.part = none ∧ ((mmN.core 0).tile (4 + 0)).st = .ready ∧ ((mmN.core 0).tile (4 + 0)).fmt ≤ 4) ∧
    (({} : Part).fmtClk ≠ 1000 ∧ (3 : Nat) < 9) := by
  refine ⟨wholeI_of (by decide +kernel), fun i hi => ⟨(wholeI_of (by decide +kernel) i hi).1, (wholeI_of (by decide +kernel) i hi).2, reads_of (by decide +kernel) i⟩,
    fun i => reads_of (by decide +kernel) i, by decide +kernel, wholeI_of (by decide +kernel), by decide +kernel, by decide⟩

/-! ## Results in s-registers -/

def sregCrew : List Instr :=
  [.vote gd (.ballot (.s 31)) 1 1, .shfl gd .up (.s 31) (.v 1) (.v 18) 1, .credf gd (.sum .rup) (.s 31) (.v 4) 1, .cscan gd .max false .s (.s 31) (.v 1) 1]

theorem witness_SregDestinations_more : (∀ i ∈ sregCrew, Begins i m2 g2 tm) ∧ (∀ i ∈ sregCrew, WholeCrew i m2 g2 tm 1 four) ∧
    (∀ lane f, Member m2 g2 tm lane f → predBit f.preds 1 = true) ∧
    (∀ i, ReadsInt (.v 18) i m2 g2 tm (fun _ => 1) ∧ ReadsInt (.v 1) i m2 g2 tm (fun _ => 0x80000000) ∧ ReadsTag .f32 (.v 4) i m2 g2 tm (fun _ => 0x3F800000) ∧
      Reads (fun e f => (readSrc e f (.v 1)).map fun r => (r.val, r.tag)) i m2 g2 tm (fun _ => (0x80000000, .i32))) ∧
    (∀ k ∈ liveOf four, crewScan (fun _ => 0x80000000) .max .s ((liveOf four).filter fun j => rankAt four j < rankAt four k || (!false && rankAt four j == rankAt four k)) = 0x80000000) ∧
    (Begins (.tinfo gd 0 (.s 31)) mm2 g2 tmP ∧ AllExecute (.tinfo gd 0 (.s 31)) mm2 g2 tmP ∧ ((mm2.core 0).tile (4 + 0)).st = .ready ∧ tmP.swClk ≠ mm2.clock) ∧
    (Begins (.acsnap gd 4 1 true (.s 31) (.v 3)) mm2 g2 tmP ∧ WholeCrew (.acsnap gd 4 1 true (.s 31) (.v 3)) mm2 g2 tmP 1 four ∧
      ReadsInt (.v 3) (.acsnap gd 4 1 true (.s 31) (.v 3)) mm2 g2 tmP (fun _ => 0) ∧ ((mm2.core 0).tile (4 + 4)).fmt = 7 ∧ ((mm2.core 0).tile (4 + 4)).cols = 127) :=
  ⟨beginAll_of (pc := 0x1000) (by decide +kernel), wholeAll_of (by decide +kernel), each_of (p := fun _ f => predBit f.preds 1) (by decide +kernel),
    fun i => ⟨reads_of (by decide +kernel) i, (reads_ints i).1, (reads_floats i).1, reads_of (by decide +kernel) i⟩, by decide +kernel,
    ⟨begins_of (pc := 0x1000) (by decide +kernel), allExecute_of (by decide +kernel), by decide +kernel, by decide⟩,
    begins_of (pc := 0x1000) (by decide +kernel), whole_of (by decide +kernel), reads_of (by decide +kernel) _, by decide +kernel, by decide +kernel⟩

/-! ## Homes, gathers and moves -/

/-- Line 5 of module 3, which is no member; and the arrival of a bar into s31. -/
def mOut : State := { mq with cores := [(0, { wcb := [{ wcb5 with line := 3 * 2 ^ 45 + 5 }] })] }
def arrS : Arrival := { arr with dst := .s 31 }
def mBarS : State := { mBar with bars := [{ pa := 0x4000, scope := 0, unit := 0, clk := 999, arrivals := [arrS] }] }

theorem witness_HomeSteps_more :
    ((mOut.core 0).entry (3 * 2 ^ 45 + 5) = some { wcb5 with line := 3 * 2 ^ 45 + 5 } ∧ mOut.outcast (3 * 2 ^ 45 + 5) = true ∧
      ((mOut.core 0).wcb.filter fun x => !x.claimed && sameSlice x.line (3 * 2 ^ 45 + 5)) = [{ wcb5 with line := 3 * 2 ^ 45 + 5 }]) ∧
    ((mHo []).blocked 5 = false ∧ (mHo []).outcast 5 = false ∧ (mHo [1, 2, 3, 4, 5, 6, 7, 8]).blocked 5 = false ∧ mHw.postponed = []) ∧
    (mBarS.bars = [{ pa := 0x4000, scope := 0, unit := 0, clk := 999, arrivals := [arrS] }] ∧ arrS.dst = .s 31 ∧ mBarS.team arrS.before.team = some tm ∧ tm.swClk ≠ mBarS.clock ∧
      mBarS.reserved (lineOf 0x4000) = false) := by
  refine ⟨?_, ?_, ?_⟩ <;> decide +kernel

/-- The gather of Witness.lean for a ganged fibre whose ldsum awaits other modules, with its own answer in hand, or over a poisoned replica. -/
def gaOwn : Gather := { ga1 with await := [7], sums := [(0, { v := 5 }, 0)] }
def mGa (g : Gather) (poison : BitVec 4) : State := { mCp none with gathers := [g], lines := if poison = 0 then [] else [(lineOf (replicaOf (mCp none) 0x4000 6), { poison := poison })] }

theorem witness_CopiesMessagesTranslation_gathers :
    (ga1.kind = .int ∧ ga1.d = some 20 ∧ ga1.c = false ∧ ga1.sums = [] ∧ ga1.pa % 4 = 0 ∧ ga1.before.key = ga1.fibre ∧ fGa.st = .ganged ∧ fGa.team = ga1.before.team ∧
      (mGa ga1 1).team fGa.team = some tm ∧ tm.id = fGa.team) ∧
    ((mGa ga1 1).poisoned (replicaOf (mGa ga1 1) ga1.pa 6) 4 = true ∧ (mGa ga1 1).fibre ga1.fibre = some fGa ∧ ga1.await = [(mGa ga1 1).hub.modid] ∧
      ∀ d, d < 8 → (mGa ga1 1).asleep (lineOf (replicaOf (mGa ga1 1) ga1.pa d)) = false) ∧
    (gaOwn.await = [7] ∧ gaOwn.sums = [((mGa gaOwn 0).hub.modid, { v := 5 }, 0)] ∧ 7 ≠ (mGa gaOwn 0).hub.modid ∧ (mGa gaOwn 0).gathers = [gaOwn] ∧
      (mGa gaOwn 0).fibre gaOwn.fibre = some fGa) ∧
    (7 ∈ ({ gaOwn with await := [7, 9] } : Gather).await ∧ ∃ x ∈ ({ gaOwn with await := [7, 9] } : Gather).await, x ≠ 7) := by
  refine ⟨?_, ?_, ?_, ?_⟩ <;> decide +kernel

/-- A move under way, and one with its last line to go. -/
def aMove (done : Nat) : PageMove :=
  { core := 0, cmd := 70, ctx := 0, va := BitVec.ofNat 64 0x40000000, leaf := 0x1000005D, ea := 0x5000, bits := 12, old := 0x10000000, new := 0x20001000, done := done }
def mMv (done : Nat) : State := { mCh [eTmove] with moves := [aMove done] }

theorem witness_ChainEntries_moves :
    ((mCh [eTmove]).moves = [] ∧ leafAddr 0x1000005D = 0x10000000) ∧
    (∀ n ∈ [0, 5, 31], (mMv n).moves = [aMove n] ∧ (aMove n).core = 0 ∧ (aMove n).cmd = cmd1.id ∧ (aMove n).old % 128 = 0 ∧ (aMove n).new % 128 = 0 ∧
      ((mMv n).core 0).cmd cmd1.id = some cmd1 ∧ (mMv n).team cmd1.team = some tmP ∧ ((mMv n).core 0).active cmd1.id = true ∧ (mMv n).owes 0 cmd1.acks = false ∧
      entryAt (mMv n) tmP cmd1 cmd1.pos = some eTmove ∧ (∀ e ∈ (mMv n).lines, e.2.resv = none) ∧ Memory.wf (mMv n).mem = true) ∧
    (5 + 1 < 2 ^ 12 / 128 ∧ 31 + 1 = 2 ^ 12 / 128 ∧ ∀ x ∈ leafEntries 0x1000005D 0x5000, ¬(0x20001000 + 128 * 31 ≤ x ∧ x < 0x20001000 + 128 * 31 + 128) ∧ (mMv 31).outcast (lineOf x) = false) := by
  refine ⟨?_, ?_, ?_⟩ <;> decide +kernel

/-! ## Engines, contexts, queues, boot and the step -/

/-- A request whose team's core has a write unacknowledged that it awaits. -/
def rOwed : MReq := { mreq (.mlds 4) with acks := [3] }
def mOwed : State := { mxR rOwed with cores := [(0, { (mxR rOwed).core 0 with acks := [{ id := 3, who := [2048] }] })] }

theorem witness_MatrixEngineSteps_waits : ((mOwed.part 0 0).reqs = [rOwed] ∧ rOwed.started = none ∧ rOwed.isSnap = false ∧ rOwed.mayAccess mOwed = false) ∧
    (∀ r ∈ [mreq (.clr false .ea320 true), mreq (.mlds 4), mreq (.drainTile 8 false .rup), mreq (.drainMem true 1 .rne 0x3000 0x3100), mreq (aPass true)],
      r.mayAccess (mxR r) = true) := by
  refine ⟨?_, ?_⟩ <;> decide +kernel

theorem witness_ContextCommands_more :
    (∀ st ∈ [CtxSt.running, .draining, .frozen, .faulted], ∀ m ∈ (mCx st [(2, tm)]).moves, m.ctx ≠ 0) ∧
    (∀ st ∈ [CtxSt.stopped, .reset], ∀ e ∈ [0, 4], let s := { mCx st [] with queues := [(3, { st := .stopped, error := e })] }
      ((s.ctx 0).st = .stopped ∨ (s.ctx 0).st = .reset) ∧ (s.ctx 0).resetting = false ∧ (s.ctx 0).queues.getLsbD 3 = true ∧ (s.queue 3).st = .stopped) ∧
    (∀ st ∈ [CtxSt.running, .idle, .stopped], let s := (mCx st []).setCtx 0 { (mCx st []).ctx 0 with resetting := true }
      (s.ctx 0).st ≠ .frozen) := by
  refine ⟨?_, ?_, ?_⟩ <;> decide +kernel

/-- A packet that had stopped its queue before. -/
def quFailed : Queue := { quIdle with st := .serving, hand := some { pSig with handed := true }, failed := [(5, 4)] }

theorem witness_QueuesAndPackets_more :
    (quIdle.accepted ≠ quIdle.wridx ∧ ({ quIdle with accepted := 6 } : Queue).accepted = ({ quIdle with accepted := 6 } : Queue).wridx ∧ quIdle.hand = none ∧ quIdle.unit = none ∧
      (mQu quIdle 0).launches = [] ∧ (mQu quIdle 0).teams = []) ∧
    (quFailed.hand = some { pSig with handed := true } ∧ quFailed.unit = none ∧ look pSig.index quFailed.failed = some 4 ∧ threadRuns (mQu quFailed 0) 3 = true ∧
      (mQu quFailed 0).asleep (lineOf quFailed.qcb) = false ∧ okB (readQcb (mQu quFailed 0) 3) qb = true) ∧
    pSig.index < ({ quUnit pSig with accepted := 6 } : Queue).accepted.toNat := by
  refine ⟨?_, ?_, ?_⟩ <;> decide +kernel

theorem witness_QueuesAndPackets_reads :
    hubWaits (mQu quIdle 0) qb.ctx [(qb.ring + BitVec.ofNat 64 (64 * (qb.read.toNat % 2 ^ qb.size)), 64)] = false ∧
    hubWaits mDig pDig.ctx [(pDig.words.getD 1 0, 256)] = false ∧ digestWaits mDig pDig.ctx 0x7200 [(0x7000, 8)] = false := by
  refine ⟨hubWaits_low (by decide +kernel) (by decide +kernel) (by decide +kernel) (by decide +kernel) rfl rfl rfl (by decide),
    hubWaits_low (by decide +kernel) (by decide +kernel) (by decide +kernel) (by decide +kernel) rfl rfl rfl (by decide), ?_⟩
  have h : hubVa mDig 0 0x7200 = some (0x40007200, leaf0) := by decide +kernel
  have w : hubWaits mDig 0 [(0x7200, 1), (0x7000, 8)] = false :=
    hubWaits_low (by decide +kernel) (by decide +kernel) (by decide +kernel) (by decide +kernel) rfl rfl rfl (by decide)
  have e : digestWaits mDig pDig.ctx 0x7200 [(0x7000, 8)] =
      (hubWaits mDig 0 [(0x7200, 1), (0x7000, 8)] || match hubVa mDig 0 0x7200 with | some (d, _) => mDig.reserved (lineOf d) | none => false) := rfl
  rw [e, w, h]
  decide +kernel

theorem witness_LaunchesAndPools_reads : ∀ p ∈ [pLau, pPool],
    hubWaits (mLa p 4096) p.ctx (launchReads p ++ [(p.words.getD 3 0, if p.type = 2 then 32 * fld (p.word 5) 32 32 else 0)]) = false := by
  intro p hp
  simp only [List.mem_cons, List.not_mem_nil, or_false] at hp
  obtain rfl | rfl := hp <;>
    exact hubWaits_low (by decide +kernel) (by decide +kernel) (by decide +kernel) (by decide +kernel) rfl rfl rfl (by decide)

theorem witness_BootAndPorts_more : ((2 : Nat) < 8 ∧ (1 : Nat) < 3 ∧ (3 : Nat) = 3 ∧ getD 0 3 ((atBoot .training).die 2).link ≠ 2) ∧
    (∀ s, s = ({ atBoot .booted with hub := { boot := .booted, identity := some (1, 2) } } : State) → s.power = true ∧ s.hub.boot = .booted ∧ s.hub.identity = some (1, 2)) ∧
    (mDesc.hub.boot ≠ .failedFuse ∧ ∀ i, i < 4 → mDesc.reserved (lineOf (0x6000 + i)) = false) :=
  ⟨by decide +kernel, fun s h => by subst h; exact ⟨rfl, rfl, rfl⟩, by decide +kernel⟩

/-- An event that waits for another clock, and one that is done. -/
theorem witness_StepRunsDecoded_events :
    (∃ s', exec (.wake 5) { mL with agenda := [] } = .next s' ∧ s'.putOff = false) ∧
    (∃ s', exec (.completionRecord rec1.id) ({ (mWk 2 none).setLine (lineOf 0x40005000) { resv := some 3 } with agenda := [] } : State) = .next s') :=
  ⟨⟨_, rfl, by decide +kernel⟩, _, rfl⟩

end Sys2Proof.Tests
end

