-- ==== Sys2Proof/Tests/Slice0.lean ====
section
/-! SUPPORT. Tests. Words laid out by the field tables of R62 to R71 and by the code tables of R82, R86, R90, R93, R99, R106 to R112, R159,
R252 to R265, R312 and R377, with the words the spec writes out, each with the instruction it stands for; one ill-formed term for each check of
WellFormed; and what the machine fetches right after reset. -/

namespace Sys2Proof.Tests

open Sys2Proof Sys2Proof.Machine

set_option Elab.async false

/-- The bits of Format A (R62), each field at its lowest bit. -/
structure A where
  (mj fn ty d a b c p ng w cb md : Nat := 0)

def A.word (x : A) : Nat :=
  x.mj * 2 ^ 57 + x.fn * 2 ^ 51 + x.ty * 2 ^ 47 + x.d * 2 ^ 38 + x.a * 2 ^ 29 + x.b * 2 ^ 20 + x.c * 2 ^ 11 + x.p * 2 ^ 7 + x.ng * 2 ^ 6
    + x.w * 2 ^ 5 + x.cb * 2 ^ 4 + x.md

/-- The bits of Format I (R64). -/
structure I where
  (mj fn d imm p ng w cb : Nat := 0)

def I.word (x : I) : Nat :=
  x.mj * 2 ^ 57 + x.fn * 2 ^ 51 + x.d * 2 ^ 42 + x.imm * 2 ^ 10 + x.p * 2 ^ 6 + x.ng * 2 ^ 5 + x.w * 2 ^ 4 + x.cb * 2 ^ 3

/-- The bits of Format M (R67). -/
structure M where
  (mj fn sz sp hint d base : Nat := 0)
  off : Nat := 0x130
  (imm p ng w cb od : Nat := 0)

def M.word (x : M) : Nat :=
  x.mj * 2 ^ 57 + x.fn * 2 ^ 51 + x.sz * 2 ^ 48 + x.sp * 2 ^ 46 + x.hint * 2 ^ 44 + x.d * 2 ^ 35 + x.base * 2 ^ 30 + x.off * 2 ^ 21
    + x.imm * 2 ^ 9 + x.p * 2 ^ 5 + x.ng * 2 ^ 4 + x.w * 2 ^ 3 + x.cb * 2 ^ 2 + x.od

/-- The bits of Format B (R70). -/
structure B where
  (mj fn p ng off aux : Nat := 0)

def B.word (x : B) : Nat :=
  x.mj * 2 ^ 57 + x.fn * 2 ^ 51 + x.p * 2 ^ 47 + x.ng * 2 ^ 46 + x.off * 2 ^ 12 + x.aux * 2 ^ 3

/-- The bits of Format T (R71). -/
structure T where
  (mj fn ta tb tc q acc x y p ng w cb md : Nat := 0)

def T.word (x : T) : Nat :=
  x.mj * 2 ^ 57 + x.fn * 2 ^ 51 + x.ta * 2 ^ 45 + x.tb * 2 ^ 39 + x.tc * 2 ^ 33 + x.q * 2 ^ 30 + x.acc * 2 ^ 29 + x.x * 2 ^ 20 + x.y * 2 ^ 11
    + x.p * 2 ^ 7 + x.ng * 2 ^ 6 + x.w * 2 ^ 5 + x.cb * 2 ^ 4 + x.md

/-- Whether the words decode to the instruction. -/
def reads (ws : List Nat) (i : Instr) : Bool :=
  match decodeWords ws with
  | .ok j => j == i
  | .error _ => false

/-- Whether the words raise ILLEGAL at the step of R56 and with the selector given. -/
def illegal (ws : List Nat) (st sel : Nat) : Bool :=
  match decodeWords ws with
  | .error (.illegal a b) => a == st && b == sel
  | _ => false

/-- No prefix; (!p3), whose predicate field holds 3 and whose negate bit is set; and the latter with C. -/
def g0 : Guard := ⟨0, false⟩
def g3 : Guard := ⟨3, true⟩
def c0 : Ctl := ⟨g0, false⟩
def c3 : Ctl := ⟨g3, true⟩

/-- R63's worked encoding, and majors 0x00 and 0x01 by R86 and R90. -/
theorem test_words_integer :
    ([reads [0x0000810040300000] (.iadd c0 .s false (.v 4) (.v 2) (.v 3)),
      reads [A.word { fn := 0, ty := 2, d := 0x104, a := 0x180, b := 0x1BF, p := 3, ng := 1, cb := 1, md := 1 }]
        (.iadd c3 .n true (.s 4) (.int 64) (.int 127)),
      reads [A.word { fn := 1, ty := 1, w := 1, a := 0x120, b := 0x123, md := 1 }] (.isub c0 .s true .none (.b 0) (.b 3)),
      reads [A.word { fn := 2, ty := 2, d := 255, a := 1, b := 2 }] (.imul c0 .n false (.v 255) (.v 1) (.v 2)),
      reads [A.word { fn := 3, ty := 1, d := 5, a := 1, b := 2 }] (.imulh c0 .s (.v 5) (.v 1) (.v 2)),
      reads [A.word { fn := 4, ty := 1, d := 6, a := 1, b := 2, c := 6, md := 1 }] (.imad c0 .s true (.v 6) (.v 1) (.v 2) (.v 6)),
      reads [A.word { fn := 5, ty := 2, d := 7, a := 1, b := 2 }] (.idiv c0 .n (.v 7) (.v 1) (.v 2)),
      reads [A.word { fn := 6, ty := 1, d := 7, a := 1, b := 2 }] (.irem c0 .s (.v 7) (.v 1) (.v 2)),
      reads [A.word { fn := 7, ty := 2, d := 7, a := 0x130, b := 0x131 }] (.imin c0 .n (.v 7) (.sp .zero) (.sp .ones)),
      reads [A.word { fn := 8, ty := 1, d := 7, a := 0x132, b := 0x133 }] (.imax c0 .s (.v 7) (.sp .lane) (.sp .fidx)),
      reads [A.word { fn := 9, ty := 1, d := 7, a := 0x134, md := 1 }] (.iabs c0 true (.v 7) (.sp .gfidl)),
      reads [A.word { fn := 10, ty := 1, d := 7, a := 0x135 }] (.ineg c0 false (.v 7) (.sp .gfidh)),
      reads [A.word { fn := 11, ty := 1, d := 15, a := 0x138, b := 0x13E, md := 5 }]
        (.icmp c0 .s .ge (some 15) (.sp (.rank 2)) (.sp .teamsize)),
      reads [A.word { fn := 11, ty := 2, w := 1, a := 0x140, b := 9, md := 3 }] (.icmp c0 .n .le none (.int 0) (.v 9)),
      reads [A.word { mj := 1, fn := 0, d := 1, a := 2, b := 3 }] (.and c0 (.v 1) (.v 2) (.v 3)),
      reads [A.word { mj := 1, fn := 1, d := 1, a := 2, b := 3 }] (.or c0 (.v 1) (.v 2) (.v 3)),
      reads [A.word { mj := 1, fn := 2, d := 1, a := 2, b := 3 }] (.xor c0 (.v 1) (.v 2) (.v 3)),
      reads [A.word { mj := 1, fn := 3, d := 1, a := 2, b := 3 }] (.andn c0 (.v 1) (.v 2) (.v 3)),
      reads [A.word { mj := 1, fn := 4, d := 1, a := 2 }] (.not c0 (.v 1) (.v 2)),
      reads [A.word { mj := 1, fn := 5, d := 1, a := 2, b := 3 }] (.shl c0 (.v 1) (.v 2) (.v 3)),
      reads [A.word { mj := 1, fn := 6, d := 1, a := 2, b := 3 }] (.shr c0 (.v 1) (.v 2) (.v 3)),
      reads [A.word { mj := 1, fn := 7, d := 1, a := 2, b := 3 }] (.sha c0 (.v 1) (.v 2) (.v 3)),
      reads [A.word { mj := 1, fn := 8, d := 1, a := 2, b := 3 }] (.rot c0 (.v 1) (.v 2) (.v 3)),
      reads [A.word { mj := 1, fn := 9, d := 1, a := 0x1C0 }] (.popc c0 (.v 1) (.fc 0)),
      reads [A.word { mj := 1, fn := 10, d := 1, a := 0x1FF }] (.clz c0 (.v 1) (.fc 63)),
      reads [A.word { mj := 1, fn := 11, d := 1, a := 2 }] (.ctz c0 (.v 1) (.v 2)),
      reads [A.word { mj := 1, fn := 12, d := 1, a := 2 }] (.brev c0 (.v 1) (.v 2)),
      reads [A.word { mj := 1, fn := 13, ty := 2, d := 1, a := 2, b := 3 }] (.bfx c0 .n (.v 1) (.v 2) (.v 3)),
      reads [A.word { mj := 1, fn := 14, d := 1, a := 2, b := 3, c := 0x11F }] (.bfi c0 (.v 1) (.v 2) (.v 3) (.s 31))]).all id = true := by
  decide +kernel

/-- Majors 0x02 to 0x04 by R93 to R98, with R97's word. -/
theorem test_words_moves :
    ([reads [A.word { mj := 2, fn := 0, d := 6, a := 0x104, b := 2, md := 3 }] (.lea c0 3 (.pair 3) (.s 4) (.v 2)),
      reads [A.word { mj := 2, fn := 1, d := 0x105, a := 8, b := 0x11F }] (.addc c0 (.s 5) (.pair 4) (.s 31)),
      reads [A.word { mj := 2, fn := 2, d := 16, a := 0x138 }] (.mov c0 (.v 16) (.sp (.rank 2))),
      reads [A.word { mj := 2, fn := 3, d := 9, a := 4, b := 0x181, c := 0x180 }] (.sel c0 (.v 9) 4 (.int 65) (.int 64)),
      reads [A.word { mj := 2, fn := 4, d := 1, a := 2, b := 3, md := 0xE }] (.plog c0 14 (some 1) 2 3),
      reads [0x06000FFFFFFFEC00] (.movi c0 .i32 (.v 3) 0xFFFFFFFB),
      reads [I.word { mj := 3, fn := 1, d := 0x103, imm := 0x80000000, p := 3, ng := 1, cb := 1 }] (.movi c3 .n32 (.s 3) 0x80000000),
      reads [I.word { mj := 3, fn := 2, d := 17, imm := 0xFF800000 }] (.movi c0 .f32 (.v 17) 0xFF800000),
      reads [I.word { mj := 3, fn := 3, imm := 7, w := 1 }] (.movi c0 .raw .none 7),
      reads [I.word { mj := 4, fn := 0, d := 10 }, 0x123456789ABCDEF0] (.movw c0 (.pair (some 5)) 0x123456789ABCDEF0),
      reads [I.word { mj := 4, fn := 1, d := 0x105 }, 0x0000000200004000] (.movw c0 (.sreg (some 5)) 0x0000000200004000)]).all id = true := by
  decide +kernel

/-- Majors 0x20, 0x30 to 0x34 and 0x38 by R99 and R106 to R112, with R110's word. -/
theorem test_words_fp :
    ([reads [A.word { mj := 0x20, fn := 0, ty := 3, d := 1, a := 2, b := 0x1C2, md := 1 }] (.fadd c0 .rtz (.v 1) (.v 2) (.fc 2)),
      reads [A.word { mj := 0x20, fn := 1, ty := 3, d := 1, a := 2, b := 3, md := 2 }] (.fsub c0 .rdn (.v 1) (.v 2) (.v 3)),
      reads [A.word { mj := 0x20, fn := 2, ty := 3, d := 1, a := 2, b := 3, md := 3 }] (.fmul c0 .rup (.v 1) (.v 2) (.v 3)),
      reads [A.word { mj := 0x20, fn := 3, ty := 3, d := 8, a := 1, b := 2, c := 3, md := 2 }] (.ffma c0 .rdn (.v 8) (.v 1) (.v 2) (.v 3)),
      reads [A.word { mj := 0x20, fn := 4, ty := 3, d := 1, a := 2, b := 3 }] (.fmin c0 (.v 1) (.v 2) (.v 3)),
      reads [A.word { mj := 0x20, fn := 5, ty := 3, d := 1, a := 2, b := 3 }] (.fmax c0 (.v 1) (.v 2) (.v 3)),
      reads [A.word { mj := 0x20, fn := 6, ty := 3, d := 1, a := 2 }] (.fabs c0 (.v 1) (.v 2)),
      reads [A.word { mj := 0x20, fn := 7, ty := 3, d := 1, a := 2 }] (.fneg c0 (.v 1) (.v 2)),
      reads [A.word { mj := 0x20, fn := 8, ty := 3, d := 4, a := 8, b := 9, md := 14 }] (.fcmp c0 .uno (some 4) (.v 8) (.v 9)),
      reads [A.word { mj := 0x20, fn := 9, ty := 3, d := 1, a := 2, b := 3 }] (.fdiv c0 .rne (.v 1) (.v 2) (.v 3)),
      reads [A.word { mj := 0x20, fn := 10, ty := 3, d := 1, a := 2 }] (.fsqrt c0 .rne (.v 1) (.v 2)),
      reads [A.word { mj := 0x20, fn := 11, ty := 3, d := 1, a := 2, md := 1 }] (.frcp c0 .rtz (.v 1) (.v 2)),
      reads [A.word { mj := 0x20, fn := 12, ty := 3, d := 1, a := 2 }] (.fexp2 c0 .rne (.v 1) (.v 2)),
      reads [A.word { mj := 0x20, fn := 13, ty := 3, d := 1, a := 2 }] (.flog2 c0 .rne (.v 1) (.v 2)),
      reads [A.word { mj := 0x20, fn := 14, ty := 3, d := 1, a := 2, md := 3 }] (.frnd c0 .rup (.v 1) (.v 2)),
      reads [A.word { mj := 0x20, fn := 15, ty := 3, d := 1, a := 2 }] (.fcls c0 (.v 1) (.v 2)),
      reads [A.word { mj := 0x30, fn := 0, ty := 4, d := 1, a := 2, b := 3, md := 3 }] (.hadd c0 .b16 .rup (.v 1) (.v 2) (.v 3)),
      reads [A.word { mj := 0x30, fn := 1, ty := 5, d := 1, a := 2, b := 3 }] (.hmul c0 .h16 .rne (.v 1) (.v 2) (.v 3)),
      reads [A.word { mj := 0x30, fn := 2, ty := 6, d := 1, a := 2, b := 3, c := 4 }] (.hfma c0 .t16 .rne (.v 1) (.v 2) (.v 3) (.v 4)),
      reads [A.word { mj := 0x30, fn := 3, ty := 6, d := 1, a := 2, b := 3 }] (.hmax c0 .t16 (.v 1) (.v 2) (.v 3)),
      reads [A.word { mj := 0x31, fn := 3, ty := 1, d := 2, a := 1, md := 2 }] (.cvt c0 .f32 .i32 .rdn (.v 2) (.v 1)),
      reads [A.word { mj := 0x32, fn := 3, ty := 7, d := 8, a := 4, b := 0x183, c := 0x122 }] (.pack c0 .f32 .t8x4 .rne (.v 8) (.v 4) 3 (.b 2)),
      reads [0x6639824098200000] (.unpack c0 .t8x4 .f32 .rne (.v 9) (.v 4) 2),
      reads [A.word { mj := 0x34, fn := 0, ty := 3, d := 5, a := 5 }] (.retag c0 .f32 (some 5) (.v 5)),
      reads [A.word { mj := 0x38, fn := 0, ty := 7, d := 1, a := 2, b := 3, c := 4, md := 2 }]
        (.vdot8 c0 .t8 (.rm .rdn) (.v 1) (.v 2) (.v 3) (.v 4)),
      reads [A.word { mj := 0x38, fn := 1, ty := 10, d := 1, a := 2, b := 3, c := 4, md := 1 }] (.vdot6 c0 .rtz (.v 1) (.v 2) (.v 3) (.v 4)),
      reads [A.word { mj := 0x38, fn := 2, ty := 9, d := 1, a := 2, b := 3, c := 4, md := 1 }]
        (.vl2d8 c0 .n8 (.sat true) (.v 1) (.v 2) (.v 3) (.v 4)),
      reads [A.word { mj := 0x38, fn := 3, d := 1, a := 2, b := 3, c := 4 }] (.vhamm c0 (.v 1) (.v 2) (.v 3) (.v 4)),
      reads [A.word { mj := 0x38, fn := 4, ty := 9, d := 1, a := 2, b := 0x103, c := 4, md := 15 }] (.vpqd c0 15 (.v 1) (.v 2) 3 (.v 4)),
      reads [A.word { mj := 0x38, fn := 5, ty := 3, d := 6, a := 5 }] (.vrand c0 true (.v 6) (.v 5))]).all id = true := by
  decide +kernel

/-- Majors 0x40 to 0x42 by R119 to R128, with the words of R66, R120, R121, R122 and R124. -/
theorem test_words_control :
    ([reads [0x80003FFFFFFFD000] (.bra g0 0x3FFFFFFFD),
      reads [0x8001BFFFFFFFD000] (.bra ⟨3, false⟩ 0x3FFFFFFFD),
      reads [0x80083FFFFFFFF018] (.dbra g0 0x3FFFFFFFF 3),
      reads [0x801000000000AC18] (.call g0 10 3),
      reads [0x82000020A0000000] (.jmp g0 (.s 5)),
      reads [A.word { mj := 0x41, fn := 1, a := 8, b := 0x1A0, p := 3, ng := 1 }] (.calli g3 (.pair 4) 32),
      reads [A.word { mj := 0x41, fn := 2, p := 3, ng := 1 }] (.ret g3),
      reads [0x8218000000000000] (.nop g0),
      reads [0x8400000000008000] (.frameWord 32)]).all id = true := by
  decide +kernel

/-- Majors 0x50 to 0x53 by R159, with R175's word. -/
theorem test_words_crews :
    ([reads [B.word { mj := 0x50, fn := 0, off := 6, aux := 5 }] (.fork g0 6 5),
      reads [B.word { mj := 0x50, fn := 1, off := 12, aux := 2, p := 3, ng := 1 }] (.spawn g3 12 1),
      reads [A.word { mj := 0x51, fn := 0 }] (.endF g0),
      reads [A.word { mj := 0x51, fn := 1 }] (.yield g0),
      reads [A.word { mj := 0x52, fn := 0, d := 4, c := 2, md := 1 }] (.crew g0 (some 4) 1 2),
      reads [A.word { mj := 0x52, fn := 1, d := 2, a := 3, b := 6, c := 1, md := 1 }] (.join g0 (some 2) 3 (some (.v 6)) 1),
      reads [A.word { mj := 0x52, fn := 1, d := 2, a := 11, c := 7 }] (.join g0 (some 2) 11 none 7),
      reads [A.word { mj := 0x52, fn := 2, a := 3, c := 1 }] (.leave g0 3 1),
      reads [A.word { mj := 0x52, fn := 3, d := 5, a := 6, c := 1, md := 1 }] (.vote g0 (.all (some 5)) 6 1),
      reads [A.word { mj := 0x52, fn := 3, d := 0x103, a := 6, c := 1, md := 2 }] (.vote g0 (.ballot (.s 3)) 6 1),
      reads [A.word { mj := 0x52, fn := 4, d := 1, a := 2, b := 3, c := 4, md := 2 }] (.shfl g0 .up (.v 1) (.v 2) (.v 3) 4),
      reads [A.word { mj := 0x52, fn := 5, d := 1, a := 2, b := 3, c := 4 }] (.cbcast g0 (.v 1) (.v 2) (.v 3) 4),
      reads [A.word { mj := 0x52, fn := 6, ty := 2, d := 1, a := 2, c := 4, md := 5 }] (.credi g0 .xor .n (.v 1) (.v 2) 4),
      reads [0xA439824080001000] (.credf g0 (.sum .rne) (.v 9) (.v 4) 2),
      reads [A.word { mj := 0x52, fn := 7, ty := 3, d := 9, a := 4, c := 2, md := 8 }] (.credf g0 .max (.v 9) (.v 4) 2),
      reads [A.word { mj := 0x52, fn := 8, ty := 3, d := 1, a := 2, c := 4, md := 5 }] (.cscan g0 .min true .f (.v 1) (.v 2) 4),
      reads [A.word { mj := 0x53, fn := 0, d := 1, b := 20, c := 7, md := 1 }] (.regrow g0 (some 1) (.v 20) (some (.v 7))),
      reads [A.word { mj := 0x53, fn := 1, d := 1, b := 25 }] (.regshrink g0 (some 1) (.v 25))]).all id = true := by
  decide +kernel

/-- Majors 0x60 to 0x6E by R67 to R69, R129, R130 and R252 to R265, with the words of R69, R129, R130, R261, R262 and R264. -/
theorem test_words_memory :
    ([reads [0xC002002900402000] (.ld c0 .b32 .g .normal .raw (.v 5) ⟨4, some 2, 16⟩),
      reads [0xC05B0040E6001000] (.ld c0 .b64 .g .normal .p64l (.v 8) ⟨3, none, 8⟩),
      reads [M.word { mj := 0x60, fn := 1, sz := 0, sp := 1, d := 5, base := 4, off := 2, imm := 0xFF0, p := 3, ng := 1, cb := 1 }]
        (.ld c3 .b8 .x .normal .i32 (.v 5) ⟨4, some 2, 0xFF0⟩),
      reads [M.word { mj := 0x60, fn := 3, sz := 4, hint := 2, d := 8, base := 31 }] (.ld c0 .b128 .g .keep .f32 (.v 8) ⟨31, none, 0⟩),
      reads [M.word { mj := 0x60, fn := 0, sz := 2, d := 5, base := 0, off := 8, imm := 4, od := 1 }] (.ldSplit c0 .b32 .normal .raw (.v 5) 4 4),
      reads [0xC202003080A00000] (.st g0 .b32 .g .normal (.one (.v 6)) ⟨2, some 5, 0⟩),
      reads [M.word { mj := 0x61, sz := 3, sp := 2, d := 0x105, base := 2 }] (.st g0 .b64 .f .normal (.sreg 5) ⟨2, none, 0⟩),
      reads [M.word { mj := 0x61, sz := 2, hint := 1, d := 0x130, off := 8, od := 1 }] (.stSplit g0 .b32 .stream (.one (.sp .zero)) 4 0),
      reads [M.word { mj := 0x62, fn := 3 * 8 + 6, sz := 2, d := 7, base := 2, off := 3 }] (.atom g0 .or .rlx .die .b32 .g 7 false ⟨2, some 3, 0⟩),
      reads [M.word { mj := 0x62, fn := 1 * 8 + 3, sz := 3, sp := 1, d := 8, base := 2, w := 1, od := 3 }]
        (.atom g0 .minN .ar .core .b64 .x 8 true ⟨2, none, 0⟩),
      reads [M.word { mj := 0x63, fn := 5 * 8, sz := 3, d := 4, base := 2, od := 1 }] (.acas g0 .acq .pod .b64 .g 4 false ⟨2, none, 0⟩),
      reads [M.word { mj := 0x64, fn := 4 * 8 + 1, sz := 2, d := 4, base := 2, off := 9, od := 2 }]
        (.eacc g0 .ea320 .rel .pkg .g 4 ⟨2, some 9, 0⟩),
      reads [M.word { mj := 0x65, fn := 1, sz := 2, sp := 2, d := 4, base := 2, od := 1 }] (.earead c0 .ea320 .rtz .f (some 4) ⟨2, none, 0⟩),
      reads [M.word { mj := 0x66, fn := 2, sz := 2, hint := 1, d := 4, base := 3 }] (.ldsum c0 .ea320 true (some 4) ⟨3, none, 0⟩),
      reads [M.word { mj := 0x67, sz := 2, d := 4, base := 3 }] (.ldver c0 .g (some 4) ⟨3, none, 0⟩),
      reads [M.word { mj := 0x68, sz := 3, d := 4, base := 3, w := 1 }] (.stv g0 .b64 .g 4 true ⟨3, none, 0⟩),
      reads [M.word { mj := 0x69, hint := 2, sp := 2, base := 3 }] (.pfl g0 .f .keep ⟨3, none, 0⟩),
      reads [0xD420000000000003] (.fence g0 .ar .pkg),
      reads [0xD600000000014030] (.tbegin g0 20 (.v 6)),
      reads [0xD608000000008000] (.otherwise g0 8),
      reads [0xD800000000000000] (.tcommit g0),
      reads [A.word { mj := 0x6C, fn := 1, a := 0x187 }] (.tabort g0 (.int 71)),
      reads [0xD810000000000000] (.retry g0),
      reads [A.word { mj := 0x6C, fn := 3, d := 4, a := 5 }] (.tstat g0 (.v 4) 5),
      reads [0xDA180260A0000000] (.bar g0 .die (.v 9) (.s 5)),
      reads [A.word { mj := 0x6E, fn := 0, a := 0x106, b := 7, md := 4 }] (.seal g0 false (.s 6) (.v 7)),
      reads [A.word { mj := 0x6E, fn := 1, a := 6, b := 7, md := 5 }] (.unseal g0 true (.pair 3) (.v 7))]).all id = true := by
  decide +kernel

/-- Majors 0x70 to 0x76 by R312. -/
theorem test_words_engines :
    ([reads [T.word { mj := 0x70, fn := 0, ta := 2, q := 1, x := 8, y := 0x180 }] (.talloc g0 2 1 (.v 8) (.int 64)),
      reads [T.word { mj := 0x70, fn := 1, ta := 63, q := 7, p := 3, ng := 1 }] (.tfree g3 63 7),
      reads [T.word { mj := 0x70, fn := 2, ta := 5, x := 6 }] (.tinfo g0 5 (.pair 3)),
      reads [T.word { mj := 0x70, fn := 2, ta := 5, y := 6, md := 1 }] (.tinfoGetexp g0 5 (.v 6)),
      reads [T.word { mj := 0x70, fn := 2, ta := 5, y := 6, md := 2 }] (.tinfoSetexp g0 5 (.v 6)),
      reads [T.word { mj := 0x71, fn := 0, q := 2, x := 4, y := 6 }] (.xcopy g0 2 (.v 4) (.pair 3)),
      reads [T.word { mj := 0x71, fn := 1, q := 2, x := 4, y := 0x106 }] (.xchain g0 2 (.v 4) (.s 6)),
      reads [T.word { mj := 0x71, fn := 2, q := 2, x := 4, y := 6 }] (.tmove g0 2 (.v 4) (.pair 3)),
      reads [T.word { mj := 0x72, fn := 0, ta := 9, q := 2 }] (.mlds g0 9 2),
      reads [T.word { mj := 0x72, fn := 1, ta := 3, tc := 5, q := 2, acc := 1, x := 0x109, md := 3 }] (.mma g0 true (some 5) 3 2 true (.s 9)),
      reads [T.word { mj := 0x72, fn := 1, ta := 3, q := 2, x := 4 }] (.mma g0 false none 3 2 false (.v 4)),
      reads [T.word { mj := 0x72, fn := 2, ta := 3, tb := 4, tc := 5, q := 2, x := 4, md := 6 }] (.mmas g0 false .p48 3 4 5 2 false (.v 4)),
      reads [T.word { mj := 0x72, fn := 3, tc := 5, q := 2, acc := 1, x := 4, y := 6 }] (.acsnap g0 5 2 true (.v 4) (.v 6)),
      reads [T.word { mj := 0x72, fn := 4, tc := 5, q := 2, md := 3 }] (.acdrain g0 2 false (.tile 5 .rup)),
      reads [T.word { mj := 0x72, fn := 4, q := 2, x := 4, y := 6, md := 5 }] (.acdrain g0 2 false (.f32 (.pair 2) (.pair 3) .rtz)),
      reads [T.word { mj := 0x72, fn := 4, q := 2, x := 4, y := 0x106, md := 12 }] (.acdrain g0 2 false (.add320 (.pair 2) (.s 6))),
      reads [T.word { mj := 0x72, fn := 5, q := 2, acc := 1, md := 2 }] (.acclr g0 false .ea320 2 true),
      reads [T.word { mj := 0x73, fn := 0, q := 2, x := 4, y := 6 }] (.adload g0 2 (.v 4) (.v 6)),
      reads [T.word { mj := 0x73, fn := 1, q := 2 }] (.adinv g0 2 none),
      reads [T.word { mj := 0x73, fn := 1, q := 2, x := 4, md := 1 }] (.adinv g0 2 (some (.v 4))),
      reads [T.word { mj := 0x74, fn := 0, ta := 1, tb := 2, tc := 3, q := 4, x := 5, y := 6, md := 6 }] (.vprune g0 .p14 true 1 2 3 4 (.v 5) (.v 6)),
      reads [T.word { mj := 0x75, fn := 0, x := 10, y := 11, md := 2 }] (.sift g0 2 (.v 10) (.v 11)),
      reads [T.word { mj := 0x75, fn := 1, q := 1, x := 10, md := 7 }] (.sieveget g0 7 1 (.v 10)),
      reads [T.word { mj := 0x75, fn := 2, q := 1, x := 10, md := 7 }] (.sieveset g0 7 1 (.v 10)),
      reads [T.word { mj := 0x76, fn := 0, q := 1, x := 10, y := 6 }] (.fwalk g0 1 (.v 10) (.pair 3))]).all id = true := by
  decide +kernel

/-- Majors 0x7C and 0x7D by R377, with the words of R377, R382 and R383; a tree of one node by R76 to R79: depth 1, n0 present, its true arc
an iadd, leaf 0 slot 1 and leaf 1 the word after the tree, the six others 7, n0 testing p5, and slot 1 two words back. -/
theorem test_words_system_and_trees :
    ([reads [A.word { mj := 0x7C, fn := 0, a := 0x187 }] (.trap g0 (.int 71)),
      reads [0xF808000000000000] (.rti g0),
      reads [0xF810000000000000] (.brk g0),
      reads [0xFA00010100000000] (.rdsys g0 (.v 4) 8 0),
      reads [A.word { mj := 0x7D, fn := 0, d := 4, a := 3, md := 6 }] (.rdsys g0 (.v 4) 3 6),
      reads [0xFA080001B0300000] (.wrsys g0 false (.s 3)),
      reads [A.word { mj := 0x7D, fn := 1, a := 16, b := 6 }] (.wrsys g0 true (.pair 3)),
      reads [0x7E * 2 ^ 57 + 1 * 2 ^ 55 + 64 * 2 ^ 48 + 64 * 2 ^ 41 + (1 * 2 ^ 21 + 0 * 2 ^ 18 + 0x3FFFF) * 2 ^ 10,
          0 * 2 ^ 27 + 3 * 2 ^ 24 + 5 * 2 ^ 14, 0x0000810040300000, 0xFFFFFFFE]
        (.tree ⟨BitVec.ofNat 64 (0x7E * 2 ^ 57 + 1 * 2 ^ 55 + 64 * 2 ^ 48 + 64 * 2 ^ 41 + (1 * 2 ^ 21 + 0x3FFFF) * 2 ^ 10),
          [BitVec.ofNat 64 (3 * 2 ^ 24 + 5 * 2 ^ 14)], [0x0000810040300000], [0xFFFFFFFE]⟩)]).all id = true := by
  decide +kernel

/-- R56, R57, R60 to R63, R82, R83: words that raise ILLEGAL, with the step of R56 that fails and, at step 5, the selector; the erased word, and
a listed major's unlisted function, are unassigned. -/
theorem test_words_illegal :
    ([illegal [0] 3 0,
      illegal [0x0207000000000000] 3 0,
      illegal [A.word { ty := 1, d := 0x120, a := 1, b := 2 }] 5 0x120,
      illegal [A.word { ty := 1, d := 4, a := 0x124, b := 2 }] 5 0x124,
      illegal [A.word { ty := 1, d := 4, a := 0x13F, b := 2 }] 5 0x13F,
      reads [0xFFFFFFFFFFFFFFFF] (.unassignedMajor 0xFFFFFFFFFFFFFFFF),
      reads [A.word { fn := 12, ty := 1 }] (.unassignedMajor (BitVec.ofNat 64 (12 * 2 ^ 51 + 2 ^ 47)))]).all id = true := by
  decide +kernel

/-- One ill-formed term for each check of WellFormed, which the check refuses. -/
theorem test_ill_formed :
    ([wellFormed (.hadd c0 .t16 .rtz (.v 1) (.v 2) (.v 3)),
      wellFormed (.hmul c0 .t16 .rup (.v 1) (.v 2) (.v 3)),
      wellFormed (.hfma c0 .t16 .rdn (.v 1) (.v 2) (.v 3) (.v 4)),
      wellFormed (.cvt c0 .f32 .b16x2 .rne (.v 1) (.v 2)),
      wellFormed (.cvt c0 .b16x2 .t16x2 .rtz (.v 1) (.v 2)),
      wellFormed (.pack c0 .t8x4 .f32 .rne (.v 1) (.v 2) 0 (.v 3)),
      wellFormed (.pack c0 .f32 .t8x4 .rtz (.v 1) (.v 2) 0 (.v 3)),
      wellFormed (.pack c0 .f32 .b16x2 .rne (.v 1) (.v 2) 2 (.v 3)),
      wellFormed (.unpack c0 .f32 .t8x4 .rne (.v 1) (.v 2) 0),
      wellFormed (.unpack c0 .t8x4 .f32 .rne (.v 1) (.v 2) 4),
      wellFormed (.vdot8 c0 .t8 (.sat true) (.v 1) (.v 2) (.v 3) (.v 4)),
      wellFormed (.vdot8 c0 .i8 (.rm .rne) (.v 1) (.v 2) (.v 3) (.v 4)),
      wellFormed (.vl2d8 c0 .n8 (.rm .rtz) (.v 1) (.v 2) (.v 3) (.v 4)),
      wellFormed (.frameWord 12),
      wellFormed (.ld c0 .b32 .x .stream .raw (.v 1) ⟨0, none, 0⟩),
      wellFormed (.ld c0 .b64 .g .normal .raw (.v 1) ⟨0, none, 0⟩),
      wellFormed (.ld c0 .b8 .g .normal .f32 (.v 1) ⟨0, none, 0⟩),
      wellFormed (.ldSplit c0 .b128 .normal .raw (.v 2) 0 0),
      wellFormed (.st g0 .b64 .g .normal (.one (.v 2)) ⟨0, none, 0⟩),
      wellFormed (.st g0 .b32 .f .keep (.one (.v 2)) ⟨0, none, 0⟩),
      wellFormed (.stSplit g0 .b32 .normal (.one (.s 2)) 0 0),
      wellFormed (.atom g0 .add .rlx .die .b32 .x 1 false ⟨0, none, 0⟩),
      wellFormed (.atom g0 .add .rlx .die .b64 .g 1 false ⟨0, none, 0⟩),
      wellFormed (.acas g0 .rlx .die .b64 .g 2 false ⟨0, none, 0⟩),
      wellFormed (.acas g0 .rlx .quad .b32 .x 2 false ⟨0, none, 0⟩),
      wellFormed (.eacc g0 .ea160 .rlx .die .x 1 ⟨0, none, 0⟩),
      wellFormed (.earead c0 .ea160 .rne .x (some 1) ⟨0, none, 0⟩),
      wellFormed (.ldver c0 .x (some 1) ⟨0, none, 0⟩),
      wellFormed (.stv g0 .b32 .x 2 false ⟨0, none, 0⟩),
      wellFormed (.stv g0 .b32 .g 1 false ⟨0, none, 0⟩),
      wellFormed (.pfl g0 .x .normal ⟨0, none, 0⟩),
      wellFormed (.bar g0 .lane (.v 1) (.s 2)),
      wellFormed (.acclr g0 true .ea160 0 true),
      wellFormed (.rdsys g0 .none 8 0),
      wellFormed (.rdsys g0 (.v 3) 12 0),
      wellFormed (.rdsys g0 (.v 3) 8 1),
      wellFormed (.tree ⟨BitVec.ofNat 64 (0x7E * 2 ^ 57 + 2 ^ 55 + 64 * 2 ^ 48), [], [], [0]⟩),
      wellFormed (.retag c0 .resD (some 5) (.v 5)),
      wellFormed (.unassignedMajor 0x0000810040300000)]).all (! ·) = true := by
  decide +kernel

/-- R26, R97: with movi.i32 v3, -5 placed, the first step after reset writes v3 and moves the pc one word on. -/
theorem test_first_step :
    (match step (State.reset.withFetchWord 64 0x06000FFFFFFFEC00) with
     | .next t => (t.fibres.map fun (_, f) => (f.regs, f.pc.toNat % 4096)) == [([(3, ⟨0xFFFFFFFB, .i32⟩)], 8)]
     | _ => false) = true := by
  decide +kernel

/-- A fibre of frame 32 whose v1, v2, v3 hold what is given, and what an instruction writes to v5 (0xDEAD where it traps or writes no v5). -/
def fibWith (tag : Tag) (x y z : Nat) : Fibre :=
  { fidx := 0, team := 0, pc := 0, fs := 32, seed := 0, runPc := 0, st := .loose 0 0,
    regs := [(1, ⟨BitVec.ofNat 32 x, tag⟩), (2, ⟨BitVec.ofNat 32 y, tag⟩), (3, ⟨BitVec.ofNat 32 z, tag⟩)] }

def gets (ev : Alu) (f : Fibre) : Nat :=
  match ev ⟨0, 0, 1, [], [(4, 0x100000000)], []⟩ f with
  | .ok w => ((w.regs.filter fun (n, _) => n == 5).map fun (_, r) => r.val.toNat).headD 0xDEAD
  | .error _ => 0xDEAD

def traps (ev : Alu) (f : Fibre) (k : TrapCode) : Bool :=
  match ev ⟨0, 0, 1, [], [], []⟩ f with
  | .error t => t.code == k
  | .ok _ => false

/-- R88's table of borderline divisions, R29's wrap and saturation, R92's field, R91's shifts by the width and more, R30's tags. -/
theorem test_values_integer :
    (gets (evIdiv .s (.v 5) (.v 1) (.v 2)) (fibWith .i32 7 0 0) = 0xFFFFFFFF ∧ gets (evIrem .s (.v 5) (.v 1) (.v 2)) (fibWith .i32 7 0 0) = 7 ∧
      gets (evIdiv .s (.v 5) (.v 1) (.v 2)) (fibWith .i32 0x80000000 0xFFFFFFFF 0) = 0x80000000 ∧
      gets (evIrem .s (.v 5) (.v 1) (.v 2)) (fibWith .i32 0xFFFFFFF9 2 0) = 0xFFFFFFFF ∧
      gets (evIdiv .s (.v 5) (.v 1) (.v 2)) (fibWith .i32 7 0xFFFFFFFE 0) = 0xFFFFFFFD ∧
      gets (evIdiv .n (.v 5) (.v 1) (.v 2)) (fibWith .n32 0xFFFFFFF9 2 0) = 0x7FFFFFFC) ∧
    (gets (evIadd .s false (.v 5) (.v 1) (.v 2)) (fibWith .i32 0x7FFFFFFF 1 0) = 0x80000000 ∧
      gets (evIadd .s true (.v 5) (.v 1) (.v 2)) (fibWith .i32 0x7FFFFFFF 1 0) = 0x7FFFFFFF ∧
      gets (evIsub .n true (.v 5) (.v 1) (.v 2)) (fibWith .n32 1 2 0) = 0 ∧
      gets (evImulh .s (.v 5) (.v 1) (.v 2)) (fibWith .i32 0xFFFFFFFF 2 0) = 0xFFFFFFFF ∧
      traps (evIadd .s false (.v 5) (.v 1) (.v 2)) (fibWith .f32 1 2 0) .formatMismatch) ∧
    gets (evBfx .s (.v 5) (.v 1) (.v 2)) (fibWith .raw 0xF80 0x804 0) = 0xFFFFFFF8 ∧
    gets (evShl (.v 5) (.v 1) (.v 2)) (fibWith .n32 1 32 0) = 0 ∧ gets (evSha (.v 5) (.v 1) (.v 2)) (fibWith .n32 0x80000000 40 0) = 0xFFFFFFFF ∧
    gets (evClz (.v 5) (.v 1)) (fibWith .raw 0 0 0) = 32 ∧ gets (evCtz (.v 5) (.v 1)) (fibWith .raw 8 0 0) = 3 ∧
    gets (evBrev (.v 5) (.v 1)) (fibWith .raw 1 0 0) = 0x80000000 := by
  decide +kernel

/-- The examples of R39, R102, R104, R107, R108, R110, R113 and R118. -/
theorem test_values_formats :
    (Tap.round .t8 (Elem.val (tagElem .f32) 0x3E99999A) = 0x23 ∧ Tap.round .t6 (.fin false 5 1) = 0x18 ∧ Tap.round .t8 (.fin false 5000 1) = 0x7F ∧
      Tap.round .t8 (.fin false 1 100000) = 1) ∧
    (gets (evFexp2 .rtz (.v 5) (.v 1)) (fibWith .f32 0x43480000 0 0) = 0x7F7FFFFF ∧ gets (evFexp2 .rne (.v 5) (.v 1)) (fibWith .f32 0x43480000 0 0) = 0x7F800000 ∧
      gets (evFrnd .rne (.v 5) (.v 1)) (fibWith .f32 0x40200000 0 0) = 0x40000000 ∧ gets (evFrnd .rup (.v 5) (.v 1)) (fibWith .f32 0x40200000 0 0) = 0x40400000 ∧
      gets (evFrnd .rne (.v 5) (.v 1)) (fibWith .f32 0xBECCCCCD 0 0) = 0x80000000) ∧
    gets (evHadd .t16 .rne (.v 5) (.v 1) (.v 2)) (fibWith .t16x2 0x5A004000 0xC0004000 0) = 0x59004800 ∧
    gets (evCvt .t8x4 .i8x4 .rtz (.v 5) (.v 2)) (fibWith .t8x4 0 0x60C04123 0) = 0x04FF0100 ∧
    gets (evUnpack .t8x4 .f32 .rne (.v 5) (.v 1) 2) (fibWith .t8x4 0x60C04123 0 0) = 0xBF800000 ∧
    gets (evVdot8 .t8 (.rm .rne) (.v 5) (.v 1) (.v 2) (.sp .zero)) (fibWith .t8x4 0x40404040 0x60C04123 0) = 0x408B8000 ∧
    gets (evVrand false (.v 5) (.v 1)) (fibWith .n32 1 0 0) = 0x6A8274A9 ∧ gets (evVrand true (.v 5) (.v 1)) (fibWith .n32 1 0 0) = 0x3ED504E8 := by
  decide +kernel

/-- R50's sums: 2^60, 1 and -2^60 in two orders, and a partial sum that leaves the range. -/
theorem test_values_exact :
    let x (e : Int) (neg : Bool) := eaFrom .ea160 (Xr.dyadic neg 1 e)
    let sum (l : List Acc) := l.foldl (eaAdd .ea160) Acc.zero
    eaRead .ea160 (tagElem .f32) .rne (sum [x 60 false, x 0 false, x 60 true]) = 0x3F800000 ∧
    eaRead .ea160 (tagElem .f32) .rne (sum [x 60 false, x 60 true, x 0 false]) = 0x3F800000 ∧
    (sum [x 94 false, x 94 false, x 94 true]).v = 2 ^ 158 := by
  decide +kernel

/-- The first eight bytes of SHAKE256 of the empty message, 46 B9 DD 2B 0B A8 8D 13 (FIPS 202's known answer). -/
theorem test_shake256_of_nothing : (shake256 []).setWidth 64 = 0x138DA80B2BDDB946#64 := by decide +kernel

end Sys2Proof.Tests
end

section
/-! SUPPORT. Proofs about the arithmetic instructions: what a register-only instruction completes with, the integer results, and the patterns
of the IEEE formats under rounding and order. -/

namespace Sys2Proof.Machine

/-! ## Register-only instructions that complete (R26, R84) -/

section RegisterOnly
variable {i : Instr} {s : State} {g : Gang} {t : Team} {w w' : Nat → Wr} {d : Dst}

theorem alu_no_release {ev : Alu} (h : aluOf i = some ev) : releaseOf i = none := by
  cases i <;> first | rfl | simp [aluOf] at h

/-- The first clause of RegisterInstructionsComplete: what each executing fibre's operands give is what the gang writes (R26, R84). -/
theorem alu_completes {ev : Alu} (hi : aluOf i = some ev) (hb : Begins i s g t)
    (hev : ∀ lane f, Executes s g t i lane f → ev (envOf s t lane f.fidx) f = .ok (w f.fidx) ∧ (w f.fidx).sregs = []) :
    Completes i s g t w := by
  obtain ⟨pc, hiss, hbrk⟩ := hb
  have acts (lane : Nat) (f : Fibre) (hx : Executes s g t i lane f) :
      actOf f.issuing (ev (envOf s t lane f.fidx) f.issuing) = .go { f := f.issuing, w := w f.fidx } := by
    rw [alu_issuing hi, (hev lane f hx).1, actOf]
  obtain ⟨s', hs, hp⟩ := pure_passes (fun e => { f := e.f, w := w e.f.fidx }) (exec_alu hi s) hiss (alu_no_release hi)
    (fun lane f hx => congrArg (fun a => some (s, a)) (acts lane f hx)) (fun lane f hx => (hev lane f hx).2) (fun _ _ _ => ⟨rfl, rfl⟩)
    (fun lane f hm => by rw [passWith_pc hiss hm, ite_self, Option.getD_none]) (alu_no_yield hi).1 (alu_no_yield hi).2 hbrk
  exact ⟨s', hs, passWith_eq_pass i s t w ▸ hp⟩

theorem Completes.congr (h : Completes i s g t w) (hw : ∀ k, w k = w' k) : Completes i s g t w' := funext hw ▸ h

@[simp] theorem one_sregs (hd : NoSreg d) (v : Word) (tag : Tag) : (Wr.one d v tag).sregs = [] := by
  cases d with
  | none | v => rfl
  | s n => exact absurd rfl (hd n)

end RegisterOnly

/-! ## Integer arithmetic (R86 to R88) -/

section Integer
variable {i : Instr} {s : State} {g : Gang} {t : Team} {ty : Sgn} {sat : Bool} {d : Dst} {a b z : Src} {x y r : Nat → Word}

theorem intRes_eq (ty : Sgn) (sat : Bool) (d : Dst) (v : Int) : intRes ty sat d v = Wr.one d (narrowed ty sat v) (signTag ty) := by
  have clamp : min (max v (intLo ty)) (intHi ty) = if v < intLo ty then intLo ty else if intHi ty < v then intHi ty else v := by
    have : intLo ty ≤ intHi ty := by cases ty <;> decide
    grind
  rw [intRes, clamp]
  cases ty <;> rfl

theorem narrowed_intVal (ty : Sgn) (v : Word) : narrowed ty false (intVal ty v) = v := by
  cases ty with
  | s => exact BitVec.ofInt_toInt
  | n => exact (BitVec.ofInt_natCast ..).trans (BitVec.ofNat_toNat ..)

theorem intVal_eq_zero (ty : Sgn) (v : Word) : intVal ty v = 0 ↔ v = 0 := by
  cases ty with
  | s => exact BitVec.toInt_inj (y := 0)
  | n => exact Int.natCast_eq_zero.trans (BitVec.toNat_inj (y := 0))

/-- A quotient, its zero divisor's among them, modulo 2^32 (R88). -/
theorem narrowed_intQuot (ty : Sgn) (v w : Word) : narrowed ty false (intQuot (intVal ty v) (intVal ty w)) =
    if w = 0 then 0xFFFFFFFF else BitVec.ofInt 32 ((intVal ty v).tdiv (intVal ty w)) := by
  simp only [intQuot, intVal_eq_zero]
  split <;> rfl

/-- A remainder is what the quotient leaves of the dividend, and all of it for a zero divisor (R88). -/
theorem narrowed_intRem (ty : Sgn) (v w : Word) : narrowed ty false (intRem (intVal ty v) (intVal ty w)) =
    if w = 0 then v else BitVec.ofInt 32 (intVal ty v - intVal ty w * (intVal ty v).tdiv (intVal ty w)) := by
  rw [intRem]
  split
  case isTrue hw => rw [(intVal_eq_zero ty w).2 hw, Int.tmod_zero, narrowed_intVal]
  case isFalse => rw [Int.tmod_def]; rfl

theorem narrowed_min (ty : Sgn) (v w : Word) :
    narrowed ty false (min (intVal ty v) (intVal ty w)) = if intVal ty v ≤ intVal ty w then v else w := by
  rw [min_def, apply_ite (narrowed ty false), narrowed_intVal, narrowed_intVal]

theorem narrowed_max (ty : Sgn) (v w : Word) :
    narrowed ty false (max (intVal ty v) (intVal ty w)) = if intVal ty v ≤ intVal ty w then w else v := by
  rw [max_def, apply_ite (narrowed ty false), narrowed_intVal, narrowed_intVal]

theorem ev1_completes {op : Int → Int} (hi : aluOf i = some (ev1 ty sat op d a)) (hd : NoSreg d) (hb : Begins i s g t)
    (hx : ReadsInt a i s g t x) : Completes i s g t fun k => Wr.one d (narrowed ty sat (op (intVal ty (x k)))) (signTag ty) :=
  alu_completes hi hb fun lane f he => ⟨by simp only [ev1, hx lane f he, intRes_eq]; rfl, one_sregs hd ..⟩

theorem ev2_completes {op : Int → Int → Int} (hi : aluOf i = some (ev2 ty sat op d a b)) (hd : NoSreg d) (hb : Begins i s g t)
    (hx : ReadsInt a i s g t x) (hy : ReadsInt b i s g t y) :
    Completes i s g t fun k => Wr.one d (narrowed ty sat (op (intVal ty (x k)) (intVal ty (y k)))) (signTag ty) :=
  alu_completes hi hb fun lane f he => ⟨by simp only [ev2, hx lane f he, hy lane f he, intRes_eq]; rfl, one_sregs hd ..⟩

theorem ev3_completes {op : Int → Int → Int → Int} (hi : aluOf i = some (ev3 ty sat op d a b z)) (hd : NoSreg d) (hb : Begins i s g t)
    (hx : ReadsInt a i s g t x) (hy : ReadsInt b i s g t y) (hr : ReadsInt z i s g t r) :
    Completes i s g t fun k => Wr.one d (narrowed ty sat (op (intVal ty (x k)) (intVal ty (y k)) (intVal ty (r k)))) (signTag ty) :=
  alu_completes hi hb fun lane f he => ⟨by simp only [ev3, hx lane f he, hy lane f he, hr lane f he, intRes_eq]; rfl, one_sregs hd ..⟩

end Integer

/-- Settles O4: each instruction applies one operation to exact integers (R86, R87); those whose result is an operand or a quotient are
brought to the words of the statement by what `narrowed` gives for it. -/
theorem integerArithmetic : Obligations.IntegerArithmetic := by
  unfold Obligations.IntegerArithmetic
  constructor
  · intro s g t c ty sat d a b z x y r hd
    refine ⟨ev2_completes (op := (· + ·)) rfl hd, ev2_completes (op := (· - ·)) rfl hd, ev2_completes (op := (· * ·)) rfl hd,
      ev2_completes (op := fun v w => v * w / 2 ^ 32) rfl hd, ev3_completes (op := fun v w u => v * w + u) rfl hd, ?imin, ?imax, ?iabs,
      ev1_completes (op := fun v => -v) rfl hd⟩
    case imin => exact fun hb hx hy => (ev2_completes (op := min) rfl hd hb hx hy).congr fun k => congrArg (Wr.one d · _) (narrowed_min ..)
    case imax => exact fun hb hx hy => (ev2_completes (op := max) rfl hd hb hx hy).congr fun k => congrArg (Wr.one d · _) (narrowed_max ..)
    case iabs => exact fun hb hx => (ev1_completes (op := fun v => v.natAbs) rfl hd hb hx).congr fun k => by rw [Int.natCast_natAbs]; rfl
  · intro s g t c ty d a b x y hd
    constructor
    case left => exact fun hb hx hy => (ev2_completes (op := intQuot) rfl hd hb hx hy).congr fun k => congrArg (Wr.one d · _) (narrowed_intQuot ..)
    case right => exact fun hb hx hy => (ev2_completes (op := intRem) rfl hd hb hx hy).congr fun k => congrArg (Wr.one d · _) (narrowed_intRem ..)

/-! ## Powers of 2 and the binary exponent -/

theorem pow2_num_pos (e : Int) : 0 < (pow2 e).1 := by
  unfold pow2; split <;> simp

theorem pow2_den_pos (e : Int) : 0 < (pow2 e).2 := by
  unfold pow2; split <;> simp

theorem pow2_cast (e : Int) : ((pow2 e).1 : ℚ) = 2 ^ e * (pow2 e).2 := by
  unfold pow2
  split
  case isTrue h =>
    obtain ⟨n, rfl⟩ := Int.eq_ofNat_of_zero_le h
    simp
  case isFalse h =>
    obtain ⟨n, hn⟩ := Int.eq_ofNat_of_zero_le (a := -e) (by omega)
    obtain rfl : e = -n := by omega
    simp

theorem pow2_neg (e : Int) : (pow2 e).1 * (pow2 (-e)).1 = (pow2 e).2 * (pow2 (-e)).2 := by
  have h : (((pow2 e).1 * (pow2 (-e)).1 : Nat) : ℚ) = ((pow2 e).2 * (pow2 (-e)).2 : Nat) := by
    push_cast
    rw [pow2_cast e, pow2_cast (-e), zpow_neg]
    field_simp
  exact_mod_cast h

/-- The comparison that ilog2 makes, said of rationals. -/
theorem scaled_lt_iff (num den : Nat) (e : Int) :
    num * (pow2 (-e)).1 < den * (pow2 (-e)).2 ↔ (num : ℚ) < 2 ^ e * den := by
  have hc : (0 : ℚ) < (pow2 (-e)).2 := by exact_mod_cast pow2_den_pos (-e)
  rw [← Nat.cast_lt (α := ℚ), Nat.cast_mul, Nat.cast_mul, pow2_cast, ← mul_assoc, mul_lt_mul_iff_left₀ hc, zpow_neg, ← div_eq_mul_inv,
    div_lt_iff₀ (by positivity), mul_comm]

theorem log2_bounds {n : Nat} (hn : n ≠ 0) : (2 : ℚ) ^ (n.log2 : Int) ≤ n ∧ (n : ℚ) < 2 ^ (n.log2 + 1 : Int) := by
  constructor
  · rw [zpow_natCast]; exact_mod_cast Nat.log2_self_le hn
  · exact_mod_cast Nat.lt_log2_self (n := n)

/-- ilog2 is the exponent of the power of 2 at or below the quotient. -/
theorem ilog2_bounds {num den : Nat} (hn : num ≠ 0) (hd : den ≠ 0) :
    (2 : ℚ) ^ ilog2 num den * den ≤ num ∧ (num : ℚ) < 2 ^ (ilog2 num den + 1) * den := by
  obtain ⟨hnl, hnu⟩ := log2_bounds hn
  obtain ⟨hdl, hdu⟩ := log2_bounds hd
  have low : (2 : ℚ) ^ ((num.log2 : Int) - den.log2 - 1) * den ≤ num := calc
    (2 : ℚ) ^ ((num.log2 : Int) - den.log2 - 1) * den ≤ 2 ^ ((num.log2 : Int) - den.log2 - 1) * 2 ^ (den.log2 + 1 : Int) := by gcongr
    _ = 2 ^ (num.log2 : Int) := by rw [← zpow_add₀ two_ne_zero]; congr 1; ring
    _ ≤ num := hnl
  have high : (num : ℚ) < 2 ^ ((num.log2 : Int) - den.log2 + 1) * den := calc
    (num : ℚ) < 2 ^ (num.log2 + 1 : Int) := hnu
    _ = 2 ^ ((num.log2 : Int) - den.log2 + 1) * 2 ^ (den.log2 : Int) := by rw [← zpow_add₀ two_ne_zero]; congr 1; ring
    _ ≤ 2 ^ ((num.log2 : Int) - den.log2 + 1) * den := by gcongr
  simp only [ilog2, scaled_lt_iff]
  split
  case isTrue h => exact ⟨low, by rwa [sub_add_cancel]⟩
  case isFalse h => exact ⟨not_lt.1 h, high⟩

theorem le_ilog2 {num den : Nat} (hn : num ≠ 0) (hd : den ≠ 0) (k : Int) : k ≤ ilog2 num den ↔ (2 : ℚ) ^ k * den ≤ num := by
  obtain ⟨low, high⟩ := ilog2_bounds hn hd
  have hd' : (0 : ℚ) < den := by exact_mod_cast Nat.pos_of_ne_zero hd
  constructor
  · intro h
    exact le_trans (by gcongr; exact one_le_two) low
  · intro h
    have hlt : (2 : ℚ) ^ k < 2 ^ (ilog2 num den + 1) := lt_of_mul_lt_mul_right (h.trans_lt high) hd'.le
    have := (zpow_lt_zpow_iff_right₀ one_lt_two).1 hlt
    omega

/-! ## The value of a bit pattern (R32) -/

/-- The significand of a magnitude's bits, as an integer. -/
def Fmt.sig (f : Fmt) (m : Nat) : Nat := if m / 2 ^ (f.prec - 1) = 0 then m % 2 ^ (f.prec - 1) else 2 ^ (f.prec - 1) + m % 2 ^ (f.prec - 1)

/-- The exponent of the unit of that integer. -/
def Fmt.expo (f : Fmt) (m : Nat) : Int := f.emin + (m / 2 ^ (f.prec - 1) - 1 : Nat)

/-- The sign of a bit pattern. -/
def Fmt.negBit (f : Fmt) (x : Nat) : Bool := decide (f.signBit ≤ x % (2 * f.signBit))

section Formats
variable {f : Fmt} {x y m : Nat}

theorem val_of_nan (h : f.infBits < x % f.signBit) : f.val x = .nan := by
  simp [Fmt.val, h]

theorem val_of_inf (h : x % f.signBit = f.infBits) : f.val x = .inf (f.negBit x) := by
  simp [Fmt.val, h, Fmt.negBit]

theorem val_of_fin (h : x % f.signBit < f.infBits) : f.val x = .dyadic (f.negBit x) (f.sig (x % f.signBit)) (f.expo (x % f.signBit)) := by
  simp only [Fmt.val, Fmt.sig, Fmt.expo, Fmt.negBit, if_neg h.asymm, if_neg h.ne]
  split
  case isTrue he => simp [he]
  case isFalse => rfl

theorem isNan_val : (f.val x).isNan = decide (f.infBits < x % f.signBit) := by
  rcases lt_trichotomy (x % f.signBit) f.infBits with h | h | h
  · simp [val_of_fin h, Xr.dyadic, Xr.isNan, h.le]
  · simp [val_of_inf h, Xr.isNan, h]
  · simp [val_of_nan h, Xr.isNan, h]

/-- An operation on values that changes the sign alone is a change of the sign bit. -/
theorem op_val_of_sign {op : Xr → Xr} {sign : Bool → Bool} (hfin : ∀ n a d, op (.fin n a d) = .fin (sign n) a d)
    (hinf : ∀ n, op (.inf n) = .inf (sign n)) (hnan : op .nan = .nan) (hm : y % f.signBit = x % f.signBit)
    (hs : f.negBit y = sign (f.negBit x)) : op (f.val x) = f.val y := by
  rcases lt_trichotomy (x % f.signBit) f.infBits with h | h | h
  · rw [val_of_fin h, val_of_fin (hm ▸ h), hm, hs, Xr.dyadic, hfin, Xr.dyadic]
  · rw [val_of_inf h, val_of_inf (hm ▸ h), hs, hinf]
  · rw [val_of_nan h, val_of_nan (hm ▸ h), hnan]

/-- A bit pattern is its sign and its magnitude. -/
theorem negBit_add_mod (hx : x < 2 * f.signBit) : (if f.negBit x then f.signBit else 0) + x % f.signBit = x := by
  simp only [Fmt.negBit, Nat.mod_eq_of_lt hx, decide_eq_true_eq]
  split
  case isTrue h => rw [Nat.mod_eq_sub_mod h, Nat.mod_eq_of_lt (by omega)]; omega
  case isFalse h => rw [Nat.mod_eq_of_lt (by omega), Nat.zero_add]

/-! ## Rounding gives a value of the format back (R35) -/

theorem sig_lt (f : Fmt) (m : Nat) : f.sig m < 2 * 2 ^ (f.prec - 1) := by
  have := Nat.mod_lt m (Nat.two_pow_pos (f.prec - 1))
  unfold Fmt.sig
  split <;> omega

theorem sig_eq_zero : f.sig m = 0 ↔ m = 0 := by
  have := Nat.two_pow_pos (f.prec - 1)
  have hm := Nat.div_add_mod' m (2 ^ (f.prec - 1))
  unfold Fmt.sig
  split
  case isTrue h => rw [h] at hm; omega
  case isFalse h =>
    have : m ≠ 0 := fun hz => h (by rw [hz, Nat.zero_div])
    omega

/-- The bits of a magnitude are its significand and the exponent's units. -/
theorem expo_sig_bits (f : Fmt) (m : Nat) : (f.expo m - f.emin).toNat * 2 ^ (f.prec - 1) + f.sig m = m := by
  have hm := Nat.div_add_mod' m (2 ^ (f.prec - 1))
  have he : (f.expo m - f.emin).toNat = m / 2 ^ (f.prec - 1) - 1 := by unfold Fmt.expo; omega
  rw [he, Fmt.sig]
  split
  case isTrue h => rw [h] at hm ⊢; omega
  case isFalse h =>
    obtain ⟨k, hk⟩ := Nat.exists_eq_succ_of_ne_zero h
    rw [hk, Nat.succ_mul] at hm
    rw [hk, Nat.succ_sub_one]
    omega

theorem roundUp_of_exact (rm : Rm) (neg : Bool) (n : Nat) {d : Nat} (hd : 0 < d) : roundUp rm neg n 0 d = false := by
  cases rm <;> simp [roundUp, hd.ne]

/-- A multiple of 2^q has no remainder in units of it. -/
theorem units_dyadic (n : Nat) (q : Int) : ∃ d, 0 < d ∧ units (n * (pow2 q).1) (pow2 q).2 q = (n, 0, d) := by
  have hd : 0 < (pow2 q).2 * (pow2 (-q)).2 := Nat.mul_pos (pow2_den_pos q) (pow2_den_pos (-q))
  refine ⟨_, hd, ?_⟩
  rw [units, Nat.mul_assoc, pow2_neg, Nat.mul_div_cancel _ hd, Nat.mul_mod_left]

/-- The unit in which a value of the format is rounded is that of its own significand. -/
theorem unit_of_val (f : Fmt) (hs : f.sig m ≠ 0) :
    max (ilog2 (f.sig m * (pow2 (f.expo m)).1) (pow2 (f.expo m)).2 - (f.prec - 1 : Nat)) f.emin = f.expo m := by
  have hn : f.sig m * (pow2 (f.expo m)).1 ≠ 0 := Nat.mul_ne_zero hs (pow2_num_pos _).ne'
  have hd : (0 : ℚ) < (pow2 (f.expo m)).2 := by exact_mod_cast pow2_den_pos (f.expo m)
  have at_least (k : Nat) : (k : Int) + f.expo m ≤ ilog2 (f.sig m * (pow2 (f.expo m)).1) (pow2 (f.expo m)).2 ↔ 2 ^ k ≤ f.sig m := by
    rw [le_ilog2 hn (pow2_den_pos _).ne', Nat.cast_mul, pow2_cast, ← mul_assoc, mul_le_mul_iff_left₀ hd, zpow_add₀ two_ne_zero,
      mul_le_mul_iff_left₀ (by positivity), zpow_natCast]
    exact_mod_cast Iff.rfl
  have upper : ¬ (f.prec - 1 + 1 : Nat) + f.expo m ≤ ilog2 (f.sig m * (pow2 (f.expo m)).1) (pow2 (f.expo m)).2 := by
    have := sig_lt f m
    rw [at_least, pow_succ']
    omega
  by_cases he : m / 2 ^ (f.prec - 1) = 0
  · have : f.expo m = f.emin := by simp [Fmt.expo, he]
    omega
  · have lower := (at_least (f.prec - 1)).2 (by simp [Fmt.sig, he])
    have : f.emin ≤ f.expo m := by unfold Fmt.expo; omega
    omega

theorem roundF_dyadic (rm : Rm) (neg : Bool) (hm : m < f.infBits) :
    roundF f rm (.dyadic neg (f.sig m) (f.expo m)) = (if neg then f.signBit else 0) + m := by
  have bits := expo_sig_bits f m
  by_cases hs : f.sig m = 0
  · obtain rfl := sig_eq_zero.1 hs
    simp [Xr.dyadic, roundF, hs]
  · obtain ⟨d, hd, hu⟩ := units_dyadic (f.sig m) (f.expo m)
    have hn : f.sig m * (pow2 (f.expo m)).1 ≠ 0 := Nat.mul_ne_zero hs (pow2_num_pos _).ne'
    simp only [Xr.dyadic, roundF, hn, if_false, unit_of_val f hs, hu, roundUp_of_exact rm neg _ hd, Bool.false_eq_true, Nat.add_zero, bits,
      hm.not_ge]

/-- A bit pattern that is no NaN is what its value rounds to, in every mode. -/
theorem roundF_val (rm : Rm) (hx : x < 2 * f.signBit) (h : x % f.signBit ≤ f.infBits) : roundF f rm (f.val x) = x := by
  rcases h.lt_or_eq with h | h
  · rw [val_of_fin h, roundF_dyadic rm _ h, negBit_add_mod hx]
  · rw [val_of_inf h, roundF, ← h, Nat.add_comm, negBit_add_mod hx]

/-! ## The order of values, with −0 below +0 (R102) -/

theorem sig_mul_expo (f : Fmt) (m : Nat) : (f.sig m : ℚ) * 2 ^ f.expo m = fmtMag f m := by
  unfold Fmt.sig Fmt.expo fmtMag
  by_cases he : m / 2 ^ (f.prec - 1) = 0
  · have : m % 2 ^ (f.prec - 1) = m := Nat.mod_eq_of_lt ((Nat.div_eq_zero_iff_lt (Nat.two_pow_pos _)).1 he)
    simp [he, this]
  · simp [he, Nat.one_le_iff_ne_zero]

theorem fmtMag_nonneg (f : Fmt) (m : Nat) : 0 ≤ fmtMag f m := by
  rw [← sig_mul_expo]; positivity

@[simp] theorem fmtMag_zero (f : Fmt) : fmtMag f 0 = 0 := by
  rw [← sig_mul_expo, sig_eq_zero.2 rfl, Nat.cast_zero, zero_mul]

/-- The significands of one exponent's bits end where those of the next begin. -/
theorem fmtMag_lt_next (f : Fmt) (m : Nat) : fmtMag f m < 2 ^ (f.prec - 1) * 2 ^ (f.emin + (m / 2 ^ (f.prec - 1) : Nat)) := by
  have hr : ((m % 2 ^ (f.prec - 1) : Nat) : ℚ) < 2 ^ (f.prec - 1) := by exact_mod_cast Nat.mod_lt m (Nat.two_pow_pos (f.prec - 1))
  rw [← sig_mul_expo, Fmt.sig, Fmt.expo]
  split
  case isTrue h => rw [h]; gcongr
  case isFalse h =>
    obtain ⟨e, he⟩ := Nat.exists_eq_succ_of_ne_zero h
    rw [he, Nat.succ_sub_one, Nat.cast_succ, ← add_assoc, zpow_add_one₀ two_ne_zero, mul_comm _ (2 : ℚ), ← mul_assoc]
    gcongr
    push_cast at hr ⊢
    linarith

theorem le_fmtMag (h : m / 2 ^ (f.prec - 1) ≠ 0) : 2 ^ (f.prec - 1) * 2 ^ f.expo m ≤ fmtMag f m := by
  rw [← sig_mul_expo, Fmt.sig, if_neg h]
  gcongr
  push_cast
  exact le_add_of_nonneg_right (by positivity)

/-- Larger magnitude bits stand for larger magnitudes. -/
theorem fmtMag_strictMono (f : Fmt) : StrictMono (fmtMag f) := by
  intro m n hmn
  rcases (Nat.div_le_div_right (c := 2 ^ (f.prec - 1)) hmn.le).eq_or_lt with he | he
  · have hm := Nat.div_add_mod' m (2 ^ (f.prec - 1))
    have hn := Nat.div_add_mod' n (2 ^ (f.prec - 1))
    have hs : f.sig m < f.sig n := by
      unfold Fmt.sig
      rw [he] at hm ⊢
      split <;> omega
    rw [← sig_mul_expo, ← sig_mul_expo, Fmt.expo, he, ← Fmt.expo]
    gcongr
  · refine (fmtMag_lt_next f m).trans_le (le_trans ?_ (le_fmtMag (Nat.ne_zero_of_lt he)))
    gcongr
    · exact one_le_two
    · unfold Fmt.expo; omega

/-- The order of sign and magnitude. -/
def magLt : Bool → Nat → Bool → Nat → Bool
  | false, m, false, n => decide (m < n)
  | true, m, true, n => decide (n < m)
  | neg, _, _, _ => neg

theorem signed_dyadic (neg : Bool) (f : Fmt) (m : Nat) :
    ((signed neg (f.sig m * (pow2 (f.expo m)).1) : Int) : ℚ) = (if neg then -fmtMag f m else fmtMag f m) * (pow2 (f.expo m)).2 := by
  have h : ((f.sig m * (pow2 (f.expo m)).1 : Nat) : ℚ) = fmtMag f m * (pow2 (f.expo m)).2 := by
    rw [Nat.cast_mul, pow2_cast, ← mul_assoc, sig_mul_expo]
  cases neg <;> simp only [signed, Bool.false_eq_true, if_false, if_true, Int.cast_neg, Int.cast_natCast, h, neg_mul]

theorem signed_dyadic_lt (a b : Bool) (f : Fmt) (m n : Nat) :
    signed a (f.sig m * (pow2 (f.expo m)).1) * (pow2 (f.expo n)).2 < signed b (f.sig n * (pow2 (f.expo n)).1) * (pow2 (f.expo m)).2 ↔
      (if a then -fmtMag f m else fmtMag f m) < (if b then -fmtMag f n else fmtMag f n) := by
  have hm : (0 : ℚ) < (pow2 (f.expo m)).2 := by exact_mod_cast pow2_den_pos _
  have hn : (0 : ℚ) < (pow2 (f.expo n)).2 := by exact_mod_cast pow2_den_pos _
  rw [← Int.cast_lt (R := ℚ), Int.cast_mul, Int.cast_mul, signed_dyadic, signed_dyadic, Int.cast_natCast, Int.cast_natCast,
    mul_right_comm _ _ ((pow2 (f.expo m)).2 : ℚ), mul_lt_mul_iff_left₀ hn, mul_lt_mul_iff_left₀ hm]

theorem dyadic_lt (a b : Bool) (f : Fmt) (m n : Nat) :
    Xr.lt true (.dyadic a (f.sig m) (f.expo m)) (.dyadic b (f.sig n) (f.expo n)) = magLt a m b n := by
  have zero (k : Nat) : f.sig k * (pow2 (f.expo k)).1 = 0 ↔ k = 0 := by
    rw [Nat.mul_eq_zero, sig_eq_zero, or_iff_left (pow2_num_pos _).ne']
  simp only [Xr.dyadic, Xr.lt, zero, signed_dyadic_lt]
  split
  case isTrue h => obtain ⟨rfl, rfl⟩ := h; cases a <;> cases b <;> rfl
  case isFalse h =>
    have hm := fmtMag_nonneg f m
    have hn := fmtMag_nonneg f n
    match a, b with
    | false, false => simp [magLt, (fmtMag_strictMono f).lt_iff_lt]
    | true, true => simp [magLt, (fmtMag_strictMono f).lt_iff_lt]
    | false, true => simp [magLt]; linarith
    | true, false =>
      have pos : 0 < fmtMag f m + fmtMag f n := by
        have grows (k : Nat) (hk : k ≠ 0) : 0 < fmtMag f k := by
          simpa using fmtMag_strictMono f (Nat.pos_of_ne_zero hk)
        by_cases hz : m = 0
        · exact add_pos_of_nonneg_of_pos hm (grows n fun hc => h ⟨hz, hc⟩)
        · exact add_pos_of_pos_of_nonneg (grows m hz) hn
      simp [magLt]; linarith

/-- The values of two bit patterns, no NaN among them, stand in the order of their signs and magnitudes. -/
theorem val_lt (hx : x % f.signBit ≤ f.infBits) (hy : y % f.signBit ≤ f.infBits) :
    Xr.lt true (f.val x) (f.val y) = magLt (f.negBit x) (x % f.signBit) (f.negBit y) (y % f.signBit) := by
  rcases hx.lt_or_eq with hx | hx <;> rcases hy.lt_or_eq with hy | hy
  · rw [val_of_fin hx, val_of_fin hy, dyadic_lt]
  · rw [val_of_fin hx, val_of_inf hy]
    cases f.negBit x <;> cases f.negBit y <;> simp [Xr.dyadic, Xr.lt, magLt] <;> omega
  · rw [val_of_inf hx, val_of_fin hy]
    cases f.negBit x <;> cases f.negBit y <;> simp [Xr.dyadic, Xr.lt, magLt] <;> omega
  · rw [val_of_inf hx, val_of_inf hy]
    cases f.negBit x <;> cases f.negBit y <;> simp [Xr.lt, magLt, hx, hy]

/-- Of two different bit patterns, no NaN among them, one is below the other. -/
theorem val_lt_swap (hx : x < 2 * f.signBit) (hy : y < 2 * f.signBit) (hxn : x % f.signBit ≤ f.infBits) (hyn : y % f.signBit ≤ f.infBits)
    (hne : x ≠ y) : Xr.lt true (f.val y) (f.val x) = !Xr.lt true (f.val x) (f.val y) := by
  rw [val_lt hxn hyn, val_lt hyn hxn]
  rw [← negBit_add_mod hx, ← negBit_add_mod hy] at hne
  cases hbx : f.negBit x <;> cases hby : f.negBit y <;> simp [magLt] <;> grind

end Formats

/-! ## F32 registers: minimum, maximum, sign and class (R102, R105) -/

section F32
variable {i : Instr} {s : State} {g : Gang} {t : Team} {m : Rm} {d : Dst} {a b : Src} {x y : Nat → Word}

/-- The value of an F32 register. -/
def f32Val (w : Word) : Xr := Fmt.f32.val w.toNat

/-- Whether an F32 register holds a NaN (R33). -/
def f32Nan (w : Word) : Bool := decide (0x7F800000 < w.toNat % 2 ^ 31)

@[simp] theorem isNan_f32Val (w : Word) : (f32Val w).isNan = f32Nan w := isNan_val

theorem f32Nan_eq_false {w : Word} : f32Nan w = false ↔ w.toNat % Fmt.f32.signBit ≤ Fmt.f32.infBits := by
  rw [f32Nan, decide_eq_false_iff_not, Nat.not_lt]; rfl

/-- An F32 register that holds a NaN rounds to the canonical one, any other to itself. -/
theorem round_f32Val (m : Rm) (w : Word) : BitVec.ofNat 32 (roundF .f32 m (f32Val w)) = if f32Nan w then 0x7FC00000 else w := by
  cases h : f32Nan w with
  | true => rw [f32Val, val_of_nan (f := .f32) (of_decide_eq_true h)]; rfl
  | false => rw [f32Val, roundF_val m w.isLt (f32Nan_eq_false.1 h), BitVec.ofNat_toNat, BitVec.setWidth_eq, if_neg Bool.false_ne_true]

theorem f32Val_lt_swap {v w : Word} (hv : f32Nan v = false) (hw : f32Nan w = false) (hne : v ≠ w) :
    Xr.lt true (f32Val w) (f32Val v) = !Xr.lt true (f32Val v) (f32Val w) :=
  val_lt_swap v.isLt w.isLt (f32Nan_eq_false.1 hv) (f32Nan_eq_false.1 hw) fun h => hne (BitVec.eq_of_toNat_eq h)

theorem round_xrMin (m : Rm) (v w : Word) : BitVec.ofNat 32 (roundF .f32 m (xrMin (f32Val v) (f32Val w))) =
    if f32Nan v && f32Nan w then 0x7FC00000 else if f32Nan v then w else if f32Nan w then v
      else if Xr.lt true (f32Val v) (f32Val w) then v else w := by
  cases hv : f32Nan v <;> cases hw : f32Nan w
  case false.false =>
    simp only [xrMin, isNan_f32Val, hv, hw, Bool.false_eq_true, if_false, Bool.and_false]
    by_cases hne : v = w
    · subst hne; simp [round_f32Val, hv]
    · rw [f32Val_lt_swap hv hw hne]
      cases Xr.lt true (f32Val v) (f32Val w) <;> simp [round_f32Val, hv, hw]
  all_goals simp [xrMin, round_f32Val, hv, hw]

theorem round_xrMax (m : Rm) (v w : Word) : BitVec.ofNat 32 (roundF .f32 m (xrMax (f32Val v) (f32Val w))) =
    if f32Nan v && f32Nan w then 0x7FC00000 else if f32Nan v then w else if f32Nan w then v
      else if Xr.lt true (f32Val v) (f32Val w) then w else v := by
  cases hv : f32Nan v <;> cases hw : f32Nan w
  case false.false =>
    cases hlt : Xr.lt true (f32Val v) (f32Val w) <;> simp [xrMax, round_f32Val, hv, hw, hlt]
  all_goals simp [xrMax, round_f32Val, hv, hw]

theorem negBit_f32 (w : Word) : Fmt.f32.negBit w.toNat = w.msb := by
  rw [Fmt.negBit, BitVec.msb_eq_decide, Nat.mod_eq_of_lt (b := 2 * Fmt.f32.signBit) w.isLt]; rfl

theorem abs_bits (w : Word) : (w &&& 0x7FFFFFFF).toNat % 2 ^ 31 = w.toNat % 2 ^ 31 := by
  rw [BitVec.toNat_and, Nat.and_mod_two_pow]
  exact (Nat.and_two_pow_sub_one_eq_mod ..).trans (Nat.mod_mod ..)

theorem neg_bits (w : Word) : (w ^^^ 0x80000000).toNat % 2 ^ 31 = w.toNat % 2 ^ 31 := by
  rw [BitVec.toNat_xor, Nat.xor_mod_two_pow]
  exact Nat.xor_zero _

/-- fabs clears bit 31 (R102). -/
theorem xrAbs_f32Val (w : Word) : xrAbs (f32Val w) = f32Val (w &&& 0x7FFFFFFF) :=
  op_val_of_sign (f := .f32) (sign := fun _ => false) (fun _ _ _ => rfl) (fun _ => rfl) rfl (abs_bits w) (by
    rw [negBit_f32, BitVec.msb_and, show (0x7FFFFFFF : Word).msb = false from rfl, Bool.and_false])

/-- fneg inverts bit 31 (R102). -/
theorem neg_f32Val (w : Word) : (f32Val w).neg = f32Val (w ^^^ 0x80000000) :=
  op_val_of_sign (f := .f32) (sign := not) (fun _ _ _ => rfl) (fun _ => rfl) rfl (neg_bits w) (by
    rw [negBit_f32, negBit_f32, BitVec.msb_xor, show (0x80000000 : Word).msb = true from rfl, Bool.xor_true])

theorem round_xrAbs (m : Rm) (w : Word) :
    BitVec.ofNat 32 (roundF .f32 m (xrAbs (f32Val w))) = if f32Nan w then 0x7FC00000 else w &&& 0x7FFFFFFF := by
  rw [xrAbs_f32Val, round_f32Val, f32Nan, abs_bits]; rfl

theorem round_neg (m : Rm) (w : Word) :
    BitVec.ofNat 32 (roundF .f32 m (f32Val w).neg) = if f32Nan w then 0x7FC00000 else w ^^^ 0x80000000 := by
  rw [neg_f32Val, round_f32Val, f32Nan, neg_bits]; rfl

/-- The classes of F32 patterns as ranges of the pattern (R105). -/
theorem fclsBit_eq (w : Word) : fclsBit w.toNat =
    if f32Nan w then 0 else if w.toNat = 0xFF800000 then 1 else if 0x80800000 ≤ w.toNat then 2 else if 0x80000000 < w.toNat then 3
      else if w.toNat = 0x80000000 then 4 else if w.toNat = 0 then 5 else if w.toNat < 0x00800000 then 6
      else if w.toNat < 0x7F800000 then 7 else 8 := by
  have hw := w.isLt
  simp only [fclsBit, f32Nan, decide_eq_true_eq]
  have ranges : ∀ n, 0x7F800000 < n ∨ n = 0x7F800000 ∨ n = 0 ∨ (0 < n ∧ n < 0x00800000) ∨ (0x00800000 ≤ n ∧ n < 0x7F800000) := by omega
  rcases ranges (w.toNat % 2 ^ 31) with nan | inf | zero | subnormal | normal
  all_goals
    rcases Nat.lt_or_ge w.toNat (2 ^ 31) with positive | negative <;> simp (disch := omega) only [if_pos, if_neg]

theorem readF_of_reads (hx : ReadsTag .f32 a i s g t x) {lane : Nat} {f : Fibre} (he : Executes s g t i lane f) :
    readF (envOf s t lane f.fidx) f a = .ok (f32Val (x f.fidx)) := by
  simp only [readF, hx lane f he]; rfl

theorem evf1_completes {op : Xr → Xr} (hi : aluOf i = some (evf1 m op d a)) (hd : NoSreg d) (hb : Begins i s g t)
    (hx : ReadsTag .f32 a i s g t x) : Completes i s g t fun k => Wr.one d (BitVec.ofNat 32 (roundF .f32 m (op (f32Val (x k))))) .f32 :=
  alu_completes hi hb fun lane f he => ⟨by rw [evf1, readF_of_reads hx he]; rfl, one_sregs hd ..⟩

theorem evf2_completes {op : Xr → Xr → Xr} (hi : aluOf i = some (evf2 m op d a b)) (hd : NoSreg d) (hb : Begins i s g t)
    (hx : ReadsTag .f32 a i s g t x) (hy : ReadsTag .f32 b i s g t y) :
    Completes i s g t fun k => Wr.one d (BitVec.ofNat 32 (roundF .f32 m (op (f32Val (x k)) (f32Val (y k))))) .f32 :=
  alu_completes hi hb fun lane f he => ⟨by rw [evf2, readF_of_reads hx he, readF_of_reads hy he]; rfl, one_sregs hd ..⟩

theorem fcls_completes {c : Ctl} (hd : NoSreg d) (hb : Begins (.fcls c d a) s g t) (hx : ReadsTag .f32 a (.fcls c d a) s g t x) :
    Completes (.fcls c d a) s g t fun k => Wr.one d (BitVec.ofNat 32 (2 ^ fclsBit (x k).toNat)) .n32 :=
  alu_completes rfl hb fun lane f he => ⟨by simp only [evFcls, hx lane f he]; rfl, one_sregs hd ..⟩

end F32

/-- Settles O11: the result of fmin, fmax, fabs and fneg is an operand, its sign changed or not, so that its rounding leaves it as it is but
for a NaN; the order of the values is that of their patterns, in which −0 stands below +0 (R102). The class follows from the pattern's
range (R105). -/
theorem fpMinMaxSignAndClass : Obligations.FpMinMaxSignAndClass := by
  unfold Obligations.FpMinMaxSignAndClass
  intro s g t c d a b x y hd isNan below
  refine ⟨?fmin, ?fmax, ?fabs, ?fneg, ?fcls⟩
  case fmin => exact fun hb hx hy => (evf2_completes (op := xrMin) rfl hd hb hx hy).congr fun k => congrArg (Wr.one d · _) (round_xrMin ..)
  case fmax => exact fun hb hx hy => (evf2_completes (op := xrMax) rfl hd hb hx hy).congr fun k => congrArg (Wr.one d · _) (round_xrMax ..)
  case fabs => exact fun hb hx => (evf1_completes (op := xrAbs) rfl hd hb hx).congr fun k => congrArg (Wr.one d · _) (round_xrAbs ..)
  case fneg => exact fun hb hx => (evf1_completes (op := Xr.neg) rfl hd hb hx).congr fun k => congrArg (Wr.one d · _) (round_neg ..)
  case fcls => exact fun hb hx => ⟨fun k => fclsBit (x k).toNat, fun k => fclsBit_eq (x k), fcls_completes hd hb hx⟩

end Sys2Proof.Machine
end

section
/-! SUPPORT. Proofs about the collectives of a crew: a gang of which every fibre traps in one issue, the whole crew's issue and its check, and what the
members read by rank (R161, R171 to R176). -/

namespace Sys2Proof.Machine

/-! ## Lists in rising order -/

theorem insertBy_last {α : Type} {key : α → Nat} {x : α} {l : List α} (h : ∀ y ∈ l, key y ≤ key x) : insertBy key x l = l ++ [x] := by
  induction l with
  | nil => rfl
  | cons y l ih =>
    rw [List.forall_mem_cons] at h
    rw [insertBy, if_neg (by omega), ih h.2, List.cons_append]

theorem insertBy_sorted {α : Type} (key : α → Nat) (x : α) {l : List α} (h : l.Pairwise fun a b => key a ≤ key b) :
    (insertBy key x l).Pairwise fun a b => key a ≤ key b := by
  induction l with
  | nil => exact List.pairwise_singleton ..
  | cons y l ih =>
    obtain ⟨hy, hl⟩ := List.pairwise_cons.1 h
    unfold insertBy
    split
    case isTrue hx => exact List.pairwise_cons.2 ⟨List.forall_mem_cons.2 ⟨hx.le, fun z hz => hx.le.trans (hy z hz)⟩, h⟩
    case isFalse hx =>
      refine List.pairwise_cons.2 ⟨fun z hz => ?_, ih hl⟩
      rcases (mem_insertBy ..).1 hz with rfl | hz
      · exact not_lt.1 hx
      · exact hy z hz

theorem sortBy_sorted {α : Type} (key : α → Nat) (l : List α) : (sortBy key l).Pairwise fun a b => key a ≤ key b :=
  List.foldlRecOn l _ (motive := List.Pairwise fun a b => key a ≤ key b) .nil fun _ h x _ => insertBy_sorted key x h

theorem foldl_insertBy_of_sorted {α : Type} {key : α → Nat} {acc l : List α} (h : (acc ++ l).Pairwise fun a b => key a ≤ key b) :
    l.foldl (fun acc x => insertBy key x acc) acc = acc ++ l := by
  induction l generalizing acc with
  | nil => rw [List.foldl_nil, List.append_nil]
  | cons x l ih =>
    have before : ∀ y ∈ acc, key y ≤ key x := fun y hy => (List.pairwise_append.1 h).2.2 y hy x List.mem_cons_self
    rw [List.append_cons] at h ⊢
    rw [List.foldl_cons, insertBy_last before, ih h]

theorem sortBy_of_sorted {α : Type} {key : α → Nat} {l : List α} (h : l.Pairwise fun a b => key a ≤ key b) : sortBy key l = l :=
  foldl_insertBy_of_sorted (acc := []) h

/-- In a rising list an element has its index below it. -/
theorem filter_lt_length {l : List Nat} (h : l.Pairwise (· < ·)) {n : Nat} (hn : n < l.length) :
    (l.filter fun k => decide (k < l[n])).length = n := by
  induction l generalizing n with
  | nil => exact absurd hn (Nat.not_lt_zero n)
  | cons a l ih =>
    obtain ⟨ha, hl⟩ := List.pairwise_cons.1 h
    cases n with
    | zero => simpa using fun k hk => (ha k hk).le
    | succ n =>
      have hn' : n < l.length := Nat.lt_of_succ_lt_succ hn
      have : a < l[n] := ha _ (List.getElem_mem hn')
      simpa [this] using ih hl hn'

/-! ## The gang's fibres in the order of their fidx -/

section Gathered
variable {s : State} {i : Instr} {g : Gang} {t : Team} {pc : DWord}

theorem Issuing.ids_rising (h : Issuing s i g t pc) : g.ids.Pairwise (· < ·) := by
  have hn : g.ids.Nodup := ((sortBy_perm _ _).map _).nodup_iff.2 h.nodup
  have hs : g.ids.Pairwise (· ≤ ·) := List.pairwise_map.2 (sortBy_sorted _ _)
  exact (hs.and hn).imp fun ⟨hle, hne⟩ => lt_of_le_of_ne hle hne

/-- What the gang's fibres are for, said of their fidx. -/
theorem Issuing.gather_map {α : Type} (h : Issuing s i g t pc) {F : Ex → α} {G : Nat → α}
    (hF : ∀ lane f, Member s g t lane f → F (exOf s t i lane f) = G f.fidx) : (gather s t g i).map F = g.ids.map G := by
  rw [Gang.ids, ← h.gather_fidx, List.map_map]
  refine List.map_congr_left fun e he => ?_
  obtain ⟨lane, f, hm, rfl, -⟩ := h.pre_none he
  exact hF lane f hm

theorem Issuing.gather_rising (h : Issuing s i g t pc) :
    (gather s t g i).Pairwise fun a b => a.f.fidx < b.f.fidx :=
  List.pairwise_map.1 (h.gather_fidx ▸ h.ids_rising)

/-- Where the whole gang executes, its fibres are the executing ones. -/
theorem Issuing.gather_runs (h : Issuing s i g t pc) (hall : AllExecute i s g t) :
    (gather s t g i).filter (runs i) = gather s t g i :=
  List.filter_eq_self.2 fun e he => by
    obtain ⟨lane, f, hm, rfl, -⟩ := h.pre_none he
    exact (hall lane f hm).2

theorem Issuing.gather_ne_nil (h : Issuing s i g t pc) : gather s t g i ≠ [] := by
  obtain ⟨m, hm⟩ := List.exists_mem_of_ne_nil _ h.full
  obtain ⟨f, hf, hfx, -⟩ := h.fibre m hm
  exact List.ne_nil_of_mem (Issuing.mem_gather (lane := m.1) (f := f) ⟨by rw [hfx]; exact hm, by rw [hfx]; exact hf⟩)

theorem Issuing.first_none (h : Issuing s i g t pc) {e : Ex}
    (he : e ∈ gather s t g i) : e.first = none := by
  obtain ⟨lane, f, -, rfl, -, -, hp⟩ := h.pre_none he
  exact (Option.or_eq_none_iff.1 hp).1

@[simp] theorem issuing_key (f : Fibre) : f.issuing.key = f.key := rfl

theorem Issuing.key_eq (h : Issuing s i g t pc) {lane : Nat} {f : Fibre}
    (hm : Member s g t lane f) : f.issuing.key = t.key f.fidx := by
  obtain ⟨f', hf, -, hteam, -⟩ := h.fibre _ hm.1
  obtain rfl : f = f' := Option.some.inj (hm.2.symm.trans hf)
  rw [issuing_key, Fibre.key, Team.key, hteam]

end Gathered

/-! ## A gang of which every fibre traps (R26, R161, R344) -/

/-- An instruction that names a crew is no release, nor is it a yield point or one that a shim carries out (R159, R314, R352). -/
theorem crew_no_release {i : Instr} {n : Nat} (hq : crewOf i = some n) : releaseOf i = none := by
  cases i <;> first | rfl | cases hq

theorem crew_no_yield {i : Instr} {n : Nat} (hq : crewOf i = some n) : (∀ p, i ≠ .yield p) ∧ ∀ p, i ≠ .retry p := by
  constructor <;> (rintro p rfl; cases hq)

theorem crew_no_shim {i : Instr} {n : Nat} (hq : crewOf i = some n) (s : State) (ctx : Nat) (x : Trap) : shimOf s ctx i x = none := by
  unfold shimOf
  split
  · cases hq
  · rfl

/-- The record of a trap that a fibre raises in an issue. -/
def issueRec (i : Instr) (e : Ex) (x : Trap) : TrapRec := trapRec e.f x e.f.pc (restartPc e.f) (isTree i) none

theorem trapRec_trap (f : Fibre) (x : Trap) (ipc rpc : DWord) (tree : Bool) (shim : Option DWord) : (trapRec f x ipc rpc tree shim).trap = x := by
  unfold trapRec
  split <;> rfl

theorem stopsOnly_of_code {r : TrapRec} (h : r.trap.code ≠ .breakpoint) (s : State) (t : Team) : stopsOnly s t r = false := by
  rw [stopsOnly, beq_eq_false_iff_ne.2 h, Bool.false_and]

theorem weave_all (i : Instr) {es : List Ex} (A : Ex → Act) (h : ∀ e ∈ es, runs i e = true) : weave i es (es.map A) = es.map fun e => (e, A e) := by
  induction es with
  | nil => rfl
  | cons e es ih =>
    rw [List.forall_mem_cons] at h
    simp [weave, h.1, ih h.2]

theorem uniform_traps (i : Instr) (s : State) (tid : Nat) (iss : Nat × Nat) (es : List Ex) (x : Ex → Trap) :
    uniform i s tid iss (es.map fun e => (e, Act.trap (x e))) = (s, es.map fun e => (e, Act.trap (x e))) := by
  have none : sregWrites (es.map fun e => (e, Act.trap (x e))) = [] := by
    rw [sregWrites, List.foldl_map, foldl_same]
  rw [uniform, none, List.foldl_nil]

theorem yields_traps {i : Instr} (hy : ∀ p, i ≠ .yield p) (hr : ∀ p, i ≠ .retry p) (es : List Ex) (x : Ex → Trap) :
    yields i (es.map fun e => (e, Act.trap (x e))) = false := by
  unfold yields
  rw [List.any_map]
  split
  · exact absurd rfl (hy _)
  · exact absurd rfl (hr _)
  · simp

/-- Where every fibre traps, the settlement dissolves the gang and makes one event of the traps. -/
theorem settle_traps {i : Instr} {mode : RankMode} {s : State} {t : Team} {g : Gang} {es : List Ex} {x : Ex → Trap} {n : Nat}
    (hq : crewOf i = some n) (hgang : s.gang g.gid = some g) (hfirst : ∀ e ∈ es, e.first = none) (hx : ∀ e ∈ es, (x e).code ≠ .breakpoint) :
    settle i mode s t g (es.map fun e => (e, Act.trap (x e))) =
      (trapEvent { s with gangs := s.gangs.filter (·.gid != g.gid) } t.id (some (g.slot, g.issuedAt s.clock))
        (es.map fun e => (e.f, issueRec i e (x e)))).unissue := by
  have hstop : ((es.map fun e => (e.f, issueRec i e (x e))).any fun e => stopsOnly s t e.2) = false := by
    refine List.any_eq_false.2 fun y hy => ?_
    obtain ⟨e, he, rfl⟩ := List.mem_map.1 hy
    rw [stopsOnly_of_code (by rw [issueRec, trapRec_trap]; exact hx e he)]
    exact Bool.false_ne_true
  have hrec : es.map (fun e => (e.f, trapRec e.f (x e) e.f.pc (restartPc e.f) (isTree i && e.first.isNone) none)) =
      es.map fun e => (e.f, issueRec i e (x e)) :=
    List.map_congr_left fun e he => by rw [hfirst e he, Option.isNone_none, Bool.and_true, issueRec]
  unfold settle
  extract_lets iss
  rw [uniform_traps]
  simp only [List.filterMap_map, Function.comp_def, filterMap_some, filterMap_const_none, List.foldl_map, foldl_same, crew_no_shim hq, hrec,
    yields_traps (crew_no_yield hq).1 (crew_no_yield hq).2, List.filter_nil, List.map_nil, List.foldl_nil, List.append_nil, hstop,
    bne_self_eq_false, Bool.or_false, Bool.false_eq_true, if_false]
  rw [show parts (es.map fun e => (e, Act.trap (x e))) = false from by simp [parts, List.any_map], regang_empty hgang]

/-- A fibre that traps, with its place among those that trap with it. -/
def struck (e : (Fibre × TrapRec) × Nat) : Nat × Fibre := (e.1.1.key, raiseTrap e.1.1 { e.1.2 with order := e.2 })

/-- One event of fibres in rising order, none of which is only stopped: each traps with its place, and the team has one more event (R344). -/
theorem trapEvent_rising {s : State} {t : Team} {iss : Option (Nat × Nat)} {l : List (Fibre × TrapRec)} (ht : s.team t.id = some t) (hl : l ≠ [])
    (hr : l.Pairwise fun a b => a.1.fidx < b.1.fidx) (hx : ∀ e ∈ l, e.2.trap.code ≠ .breakpoint) :
    trapEvent s t.id iss l =
      (ungang (markRest { s with fibres := putAll (l.zipIdx.map struck) s.fibres } t.id (l.map (·.1.fidx))) t.id (l.map (·.1.fidx))).setTeam t.id
        { t with pendEv := t.pendEv ++ [{ num := none, clk := s.clock, fibres := l.map (·.1.fidx), issue := iss }] } := by
  have hlive : l.filter (fun e => !stopsOnly s t e.2) = l :=
    List.filter_eq_self.2 fun e he => by rw [stopsOnly_of_code (hx e he)]; rfl
  have hstopped : l.filter (fun e => stopsOnly s t e.2) = [] :=
    List.filter_eq_nil_iff.2 fun e he => by rw [stopsOnly_of_code (hx e he)]; exact Bool.false_ne_true
  unfold trapEvent
  rw [ht]
  simp only [sortBy_of_sorted (key := fun e : Fibre × TrapRec => e.1.fidx) (hr.imp fun h => h.le), hlive, hstopped, List.foldl_nil]
  rw [foldl_setFibre l.zipIdx (fun e => e.1.1.key) (fun e => raiseTrap e.1.1 { e.1.2 with order := e.2 })]
  cases l with
  | nil => exact absurd rfl hl
  | cons e l =>
    have same : (ungang (markRest { s with fibres := putAll (((e :: l).zipIdx).map struck) s.fibres } t.id ((e :: l).map (·.1.fidx))) t.id
      ((e :: l).map (·.1.fidx))).team t.id = some t := ht
    simp only [← struck.eq_1]
    rw [same]
    rfl

theorem gid_of_mem_ungang {s : State} {team : Nat} {l : List Nat} {h : Gang} (hh : h ∈ (ungang (markRest s team l) team l).gangs) :
    ∃ h0 ∈ s.gangs, h0.gid = h.gid := by
  obtain ⟨h1, hm, rfl⟩ := List.mem_map.1 (List.mem_filter.1 hh).1
  obtain ⟨h0, hm0, rfl⟩ := List.mem_map.1 hm
  refine ⟨h0, hm0, ?_⟩
  split <;> split <;> rfl

/-- The fibres of a gang with the records of the traps that they raise in one issue. -/
def issueTraps (s : State) (t : Team) (g : Gang) (i : Instr) (x : Nat → Trap) : List (Fibre × TrapRec) :=
  (gather s t g i).map fun e => (e.f, issueRec i e (x e.f.fidx))

section Whole
variable {s : State} {i : Instr} {g : Gang} {t : Team} {pc : DWord} {x : Nat → Trap}

theorem Issuing.issueTraps_ids (h : Issuing s i g t pc) : (issueTraps s t g i x).map (·.1.fidx) = g.ids := by
  rw [issueTraps, List.map_map]
  exact h.gather_fidx

theorem Issuing.struck_keys (h : Issuing s i g t pc) : ((issueTraps s t g i x).zipIdx.map struck).map (·.1) = g.ids.map t.key := by
  have keys : ((issueTraps s t g i x).zipIdx.map struck).map (·.1) = (issueTraps s t g i x).map (·.1.key) := by
    rw [List.map_map, ← List.zipIdx_map_fst 0 (issueTraps s t g i x), List.map_map, List.zipIdx_map_fst]; rfl
  rw [keys, issueTraps, List.map_map]
  exact h.gather_map fun lane f hm => h.key_eq hm

theorem Issuing.struck_nodup (h : Issuing s i g t pc) : (((issueTraps s t g i x).zipIdx.map struck).map (·.1)).Nodup := by
  rw [h.struck_keys]
  exact (h.ids_rising.imp fun hlt => hlt.ne).map _ fun a b hne heq => hne (by unfold Team.key at heq; omega)

/-- A fibre's place among those that trap with it is the number of those before it (R344). -/
theorem Issuing.struck_mem (h : Issuing s i g t pc) {lane : Nat} {f : Fibre} (hm : Member s g t lane f) :
    (t.key f.fidx, raiseTrap f.issuing { issueRec i (exOf s t i lane f) (x f.fidx) with
      order := (g.ids.filter fun k => decide (k < f.fidx)).length }) ∈ (issueTraps s t g i x).zipIdx.map struck := by
  obtain ⟨n, hn, he⟩ := List.getElem_of_mem (Issuing.mem_gather (i := i) hm)
  have hl : n < (issueTraps s t g i x).length := by rw [issueTraps, List.length_map]; exact hn
  have entry : (issueTraps s t g i x)[n] = (f.issuing, issueRec i (exOf s t i lane f) (x f.fidx)) := by
    simp only [issueTraps, List.getElem_map, he]; rfl
  have hid : n < g.ids.length := by rw [← h.issueTraps_ids (x := x), List.length_map]; exact hl
  have id : g.ids[n] = f.fidx := by simp only [← h.issueTraps_ids (x := x), List.getElem_map, entry]; rfl
  have place : (g.ids.filter fun k => decide (k < f.fidx)).length = n := id ▸ filter_lt_length h.ids_rising hid
  refine List.mem_map.2 ⟨((issueTraps s t g i x)[n], n), by simp [List.mem_zipIdx_iff_getElem?], ?_⟩
  rw [entry, place, ← h.key_eq hm]
  rfl

/-- The machine after an issue in which every fibre of the gang traps. -/
def trappedWhole (s : State) (t : Team) (g : Gang) (i : Instr) (x : Nat → Trap) : State :=
  ((ungang (markRest
    { s with gangs := s.gangs.filter (·.gid != g.gid), fibres := putAll ((issueTraps s t g i x).zipIdx.map struck) s.fibres } t.id g.ids)
    t.id g.ids).setTeam t.id
      { t with pendEv := t.pendEv ++ [{ num := none, clk := s.clock, fibres := g.ids, issue := some (g.slot, g.issuedAt s.clock) }] }).unissue

/-- Bodies that give each fibre of the gang a trap, none of them a breakpoint. -/
theorem issueWith_traps {mode : RankMode} {body : Body} {n : Nat} (hq : crewOf i = some n) (h : Issuing s i g t pc) (hall : AllExecute i s g t)
    (hb : body (gather s t g i) s = some (s, (gather s t g i).map fun e => .trap (x e.f.fidx)))
    (hx : ∀ lane f, Member s g t lane f → (x f.fidx).code ≠ .breakpoint) : issueWith i mode body s = .next (trappedWhole s t g i x) := by
  have hcode : ∀ e ∈ gather s t g i, (x e.f.fidx).code ≠ .breakpoint := fun e he => by
    obtain ⟨lane, f, hm, rfl, -⟩ := h.pre_none he
    exact hx lane f hm
  have settled := settle_traps (mode := mode) (t := t) (x := fun e => x e.f.fidx) hq h.gang (fun e he => h.first_none he) hcode
  have ht : s.team t.id = some t := h.tid ▸ h.team
  rw [← issueTraps, trapEvent_rising (t := t) (l := issueTraps s t g i x) (by exact ht) (by simpa [issueTraps] using h.gather_ne_nil)
    (List.pairwise_map.2 h.gather_rising) (by simpa [issueTraps, issueRec, trapRec_trap] using hcode), h.issueTraps_ids] at settled
  rw [trappedWhole, ← settled]
  unfold issueWith
  simp only [h.issue, h.gang, h.team, h.gather_runs hall, releaseWait_none (crew_no_release hq), hb]
  rw [weave_all i _ fun e he => (List.mem_filter.1 ((h.gather_runs hall).symm ▸ he)).2]

/-- A whole gang traps: its bodies give each of its fibres a trap, and none of these is a breakpoint (R26, R161, R344). -/
theorem traps_whole {mode : RankMode} {body : Body} {n : Nat} (hex : exec i s = issueWith i mode body s) (hq : crewOf i = some n)
    (h : Issuing s i g t pc) (hall : AllExecute i s g t) (hb : body (gather s t g i) s = some (s, (gather s t g i).map fun e => .trap (x e.f.fidx)))
    (hx : ∀ lane f, Member s g t lane f → (x f.fidx).code ≠ .breakpoint) : TrapsWhole i s g t x := by
  refine ⟨trappedWhole s t g i x, _, hex.trans (issueWith_traps hq h hall hb hx), rfl, look_put_same .., rfl, rfl, fun _ => rfl, fun h1 h1m => ?gangs,
    fun lane f hm => look_putAll_of_mem _ s.fibres h.struck_nodup _ (h.struck_mem hm), fun k hk => look_putAll_of_not_mem _ _ k fun y hy => ?others⟩
  case gangs =>
    obtain ⟨h0, hm, hg⟩ := gid_of_mem_ungang h1m
    rw [← hg]
    simpa using (List.mem_filter.1 hm).2
  case others =>
    have key : y.1 ∈ g.ids.map t.key := h.struck_keys ▸ List.mem_map_of_mem hy
    obtain ⟨_, hn, hkey⟩ := List.mem_map.1 key
    obtain ⟨m, hm, rfl⟩ := List.mem_map.1 hn
    exact hkey ▸ hk m ((sortBy_perm _ _).mem_iff.1 hm)

end Whole

/-! ## Operands of an issuing fibre (R57) -/

@[simp] theorem readSrc_issuing (e : Env) (f : Fibre) (a : Src) : readSrc e f.issuing a = readSrc e f a := by
  cases a with
  | sp p => cases p <;> rfl
  | v | s | b | int | fc => rfl

@[simp] theorem readInt_issuing (e : Env) (f : Fibre) (a : Src) : readInt e f.issuing a = readInt e f a := by
  rw [readInt, readInt, readSrc_issuing]

@[simp] theorem readTag_issuing (e : Env) (f : Fibre) (tag : Tag) (a : Src) : readTag e f.issuing tag a = readTag e f tag a := by
  rw [readTag, readTag, readSrc_issuing]

@[simp] theorem readF_issuing (e : Env) (f : Fibre) (a : Src) : readF e f.issuing a = readF e f a := by
  rw [readF, readF, readTag_issuing]

/-! ## No operand raises a breakpoint (R13, R30, R204) -/

/-- The traps of a computation are no breakpoints. -/
def NoBreak {α : Type} (r : Except Trap α) : Prop := ∀ x, r = .error x → x.code ≠ .breakpoint

theorem NoBreak.ok {α : Type} (v : α) : NoBreak (.ok v : Except Trap α) := fun _ h => nomatch h

theorem NoBreak.error {α : Type} {x : Trap} (h : x.code ≠ .breakpoint) : NoBreak (.error x : Except Trap α) := by
  rintro _ ⟨⟩
  exact h

theorem NoBreak.bind {α β : Type} {r : Except Trap α} {k : α → Except Trap β} (hr : NoBreak r) (hk : ∀ v, NoBreak (k v)) : NoBreak (r >>= k) := by
  cases r with
  | error x => exact .error (hr x rfl)
  | ok v => exact hk v

theorem noBreak_readSrc (e : Env) (f : Fibre) (a : Src) : NoBreak (readSrc e f a) := by
  cases a with
  | v n =>
    refine .bind ?_ fun _ => .ok _
    unfold readV
    split
    · exact .error nofun
    · split
      · exact .error nofun
      · exact .ok _
  | s n =>
    refine .bind ?_ fun _ => .ok _
    unfold readS
    split
    · exact .error nofun
    · exact .ok _
  | b | sp | int | fc => exact .ok _

theorem noBreak_need (o : Opd) (ok : Bool) : NoBreak (o.need ok) := by
  unfold Opd.need
  split
  · exact .ok _
  · exact .error nofun

theorem noBreak_readInt (e : Env) (f : Fibre) (a : Src) : NoBreak (readInt e f a) :=
  (noBreak_readSrc e f a).bind fun _ => NoBreak.bind (noBreak_need _ _) fun _ => .ok _

theorem noBreak_readF (e : Env) (f : Fibre) (a : Src) : NoBreak (readF e f a) :=
  ((noBreak_readSrc e f a).bind fun _ => NoBreak.bind (noBreak_need _ _) fun _ => .ok _).bind fun _ => .ok _

/-! ## Crew-wide issue (R161) -/

/-- The checks of shfl and cbcast: the rank operand, then the value (R172, R173). -/
def checkPair (a b : Src) : Ex → Except Trap Unit := fun e => do let _ ← readInt e.env e.f b; let _ ← readSrc e.env e.f a; pure ()

/-- The trap that a member raises by itself. -/
def ownTrap (reads : Ex → Except Trap Unit) (e : Ex) : Option Trap :=
  match e.pre with
  | some t => some t
  | none => match reads e with | .error t => some t | .ok _ => none

/-- A check that ends with this trap, or with none. -/
def verdict : Option Trap → Except Trap Unit
  | some x => .error x
  | none => .ok ()

theorem ownTrap_of_verdict {reads : Ex → Except Trap Unit} {e : Ex} {o : Option Trap} (hp : e.pre = none) (h : reads e = verdict o) :
    ownTrap reads e = o := by
  rw [ownTrap, hp, h]
  cases o <;> rfl

section Crew
variable {i : Instr} {s : State} {g : Gang} {t : Team} {pc : DWord} {q : Fin 8} {c : Crew} {reads : Ex → Except Trap Unit} {b : Crew → Body}
  {own : Nat → Option Trap} {w : Nat → Wr}

theorem Issuing.own_eq (h : Issuing s i g t pc) (hr : ∀ lane f, Member s g t lane f → reads (exOf s t i lane f) = verdict (own f.fidx)) {e : Ex}
    (he : e ∈ gather s t g i) : ownTrap reads e = own e.f.fidx := by
  obtain ⟨lane, f, hm, rfl, -, -, hp⟩ := h.pre_none he
  exact ownTrap_of_verdict hp (hr lane f hm)

/-- The body where the gang's fibres are the crew's live members and none of them traps by itself, else a trap at each. -/
theorem Issuing.crewBody_eq (h : Issuing s i g t pc) (n : Nat) :
    crewBody n reads b (gather s t g i) s =
      (t.crew n).elim (some (s, (gather s t g i).map fun e => .trap ((ownTrap reads e).getD { code := .crewPartial, aux := n }))) fun c =>
        if g.ids = liveOf c ∧ (gather s t g i).all (fun e => (ownTrap reads e).isNone) then b c (gather s t g i) s
        else some (s, (gather s t g i).map fun e => .trap ((ownTrap reads e).getD { code := .crewPartial, aux := n })) := by
  obtain ⟨e, es, he⟩ := List.exists_cons_of_ne_nil h.gather_ne_nil
  have team : s.team e.f.team = some t := by
    obtain ⟨lane, f, -, rfl, ht, -⟩ := h.pre_none (he ▸ List.mem_cons_self)
    exact (congrArg s.team (ht.trans h.tid)).trans h.team
  rw [Gang.ids, ← h.gather_fidx, he]
  unfold crewBody
  simp only [team, Option.bind_some]
  cases t.crew n <;> rfl

/-- Where the executing fibres are not the crew's live members, or one of them traps by itself, all the others raise CREW_PARTIAL (R161). -/
theorem crew_partial (hex : exec i s = issueWith i .none (crewBody q.val reads b) s) (hq : crewOf i = some q.val) (h : Issuing s i g t pc)
    (hall : AllExecute i s g t) (hnoBreak : ∀ e, NoBreak (reads e))
    (hr : ∀ lane f, Member s g t lane f → reads (exOf s t i lane f) = verdict (own f.fidx))
    (hnot : ∀ c, t.crew q.val = some c → g.ids = liveOf c → ∃ k ∈ g.ids, own k ≠ none) :
    TrapsWhole i s g t fun k => (own k).getD { code := .crewPartial, aux := q.val } := by
  refine traps_whole hex hq h hall ?body fun lane f hm => ?code
  case body =>
    have traps : ((gather s t g i).map fun e => Act.trap ((ownTrap reads e).getD { code := .crewPartial, aux := q.val })) =
        (gather s t g i).map fun e => .trap ((own e.f.fidx).getD { code := .crewPartial, aux := q.val }) :=
      List.map_congr_left fun e he => by rw [h.own_eq hr he]
    rw [h.crewBody_eq, traps]
    cases hc : t.crew q.val with
    | none => rfl
    | some c =>
      refine if_neg fun ⟨hids, hnone⟩ => ?_
      obtain ⟨k, hk, ho⟩ := hnot c hc hids
      rw [Gang.ids, ← h.gather_fidx] at hk
      obtain ⟨e, he, rfl⟩ := List.mem_map.1 hk
      exact ho (h.own_eq hr he ▸ Option.isNone_iff_eq_none.1 (List.all_eq_true.1 hnone e he))
  case code =>
    cases ho : own f.fidx with
    | none => exact nofun
    | some x => exact hnoBreak _ x ((hr lane f hm).trans (by rw [ho]; rfl))

theorem WholeCrew.all (hW : WholeCrew i s g t q c) : AllExecute i s g t := hW.2.1

theorem WholeCrew.ids (hW : WholeCrew i s g t q c) : g.ids = liveOf c := hW.2.2

theorem WholeCrew.executes (hW : WholeCrew i s g t q c) {lane : Nat} {f : Fibre} (hm : Member s g t lane f) : Executes s g t i lane f :=
  hW.all lane f hm

/-- The body of a crew-wide instruction at the whole crew. -/
theorem crewBody_whole (h : Issuing s i g t pc) (hW : WholeCrew i s g t q c) (hr : ∀ lane f, Executes s g t i lane f → reads (exOf s t i lane f) = .ok ()) :
    crewBody q.val reads b (gather s t g i) s = b c (gather s t g i) s := by
  obtain ⟨hc, hall, hids⟩ := hW
  have none_traps : (gather s t g i).all (fun e => (ownTrap reads e).isNone) = true := List.all_eq_true.2 fun e he =>
    Option.isNone_iff_eq_none.2 (h.own_eq (own := fun _ => none) (fun lane f hm => hr lane f (hall lane f hm)) he)
  rw [h.crewBody_eq, hc, Option.elim_some, if_pos ⟨hids, none_traps⟩]

/-- What the members are for, said of the live members in rank order. -/
theorem WholeCrew.gather_map {α : Type} {F : Ex → α} {G : Nat → α} (hW : WholeCrew i s g t q c) (h : Issuing s i g t pc)
    (hF : ∀ lane f, Executes s g t i lane f → F (exOf s t i lane f) = G f.fidx) : (gather s t g i).map F = (liveOf c).map G := by
  obtain ⟨-, hall, hids⟩ := hW
  rw [h.gather_map fun lane f hm => hF lane f (hall lane f hm), hids]

/-- The whole crew passes a crew-wide instruction, each member with what the body gives it. -/
theorem crew_performs (hex : exec i s = issueWith i .none (crewBody q.val reads b) s) (hq : crewOf i = some q.val) (hB : Begins i s g t)
    (hW : WholeCrew i s g t q c) (hr : ∀ lane f, Executes s g t i lane f → reads (exOf s t i lane f) = .ok ())
    (hb : ∀ pc, Issuing s i g t pc → b c (gather s t g i) s = some (s, (gather s t g i).map fun e => goWr e (w e.f.fidx)))
    (hw : ∀ k, (w k).sregs = []) : Performs i s g t s fun _ f => { f := f.issuing, w := w f.fidx } := by
  obtain ⟨pc, h, hbrk⟩ := hB
  have same {lane : Nat} {f : Fibre} (hm : Member s g t lane f) :=
    passWith_same (i := i) (W := fun e => { f := e.f, w := w e.f.fidx }) (fun _ _ _ => ⟨rfl, rfl⟩) hm
  obtain ⟨s', hs, hp⟩ := issueWith_pass (mode := .none) (body := crewBody q.val reads b) (t1 := t) (W := fun e => { f := e.f, w := w e.f.fidx }) h
    (releaseWait_none (crew_no_release hq) s g _) (by rw [h.gather_runs hW.all, crewBody_whole h hW hr]; exact hb pc h) rfl (fun _ _ => rfl) rfl
    (h.tid ▸ h.team) rfl (fun _ _ _ => hw _) (fun _ _ hm => (same hm).1) (fun _ _ hm => (same hm).2)
    (fun lane f hm => by rw [passWith_pc h hm, ite_self, Option.getD_none]) (yields_go (crew_no_yield hq).1 (crew_no_yield hq).2 _ _) hbrk
  exact ⟨s', hex.trans hs, (passWith_eq_pass i s t w ▸ hp : Passed s s' g t (Fibre.pass i s t w))⟩

end Crew

/-! ## Values by rank (R171 to R176) -/

section Values
variable {s : State} {g : Gang} {t : Team} {gd : Guard} {q : Fin 8} {c : Crew} {d : Dst} {a b : Src}

theorem pdWr_eq (pd : Option (Fin 16)) (v : Bool) : pdWr pd v = { preds := (pd.map fun d => (d.val, v)).toList } := by
  cases pd <;> rfl

/-- What vote gives each member (R171). -/
def voteWr (c : Crew) (p : Nat → Bool) : VoteOp → Wr
  | .any pd => { preds := (pd.map fun d => (d.val, (liveOf c).any p)).toList }
  | .all pd => { preds := (pd.map fun d => (d.val, (liveOf c).all p)).toList }
  | .ballot d => Wr.one d (BitVec.ofNat 32 ((liveOf c).map fun k => if p k then 2 ^ rankAt c k else 0).sum) .n32

theorem vote_performs {op : VoteOp} {ps : Fin 16} {p : Nat → Bool} (hB : Begins (.vote gd op ps q) s g t) (hW : WholeCrew (.vote gd op ps q) s g t q c)
    (hp : ∀ lane f, Member s g t lane f → predBit f.preds ps.val = p f.fidx) (hop : ∀ n, op ≠ .ballot (.s n)) :
    Performs (.vote gd op ps q) s g t s fun _ f => { f := f.issuing, w := voteWr c p op } := by
  have bits (pc) (h : Issuing s (.vote gd op ps q) g t pc) :
      ((gather s t g (.vote gd op ps q)).map fun e => (rankOf c e, predBit e.f.preds ps.val)) = (liveOf c).map fun k => (rankAt c k, p k) :=
    hW.gather_map h fun lane f he => Prod.ext rfl (hp lane f he.1)
  refine crew_performs (w := fun _ => voteWr c p op) rfl rfl hB hW (fun _ _ _ => rfl) (fun pc h => ?body) fun _ => ?sregs
  case body =>
    rw [bits pc h]
    cases op with
    | any pd => simp only [List.any_map, pdWr_eq]; rfl
    | all pd => simp only [List.all_map, pdWr_eq]; rfl
    | ballot d =>
      have weigh (k : Nat) : bit (p k) * 2 ^ rankAt c k = if p k then 2 ^ rankAt c k else 0 := by
        cases p k <;> simp [bit]
      simp only [List.map_map, Function.comp_def, weigh, voteWr]
  case sregs =>
    cases op with
    | any | all => rfl
    | ballot d => exact one_sregs (fun n hd => hop n (hd ▸ rfl)) ..

theorem look_map {α β : Type} (key : α → Nat) (v : α → β) (j : Nat) (l : List α) :
    look j (l.map fun k => (key k, v k)) = (l.find? fun k => key k == j).map v := by
  induction l with
  | nil => rfl
  | cons k l ih =>
    rw [List.map_cons, look, ih, List.find?_cons]
    by_cases h : j = key k
    · simp [h]
    · simp [h, beq_eq_false_iff_ne.2 (Ne.symm h)]

/-- The value at a partner's rank, or one's own where no live member has that rank below 32 (R172). -/
theorem look_partner {β : Type} (key : Nat → Nat) (v : Nat → β) (j : Int) (l : List Nat) (me : Nat) :
    (if 0 ≤ j ∧ j < 32 then (look j.toNat (l.map fun k => (key k, v k))).getD (v me) else v me) =
      v ((l.find? fun k => decide (j < 32) && decide ((key k : Int) = j)).getD me) := by
  split
  case isTrue hj =>
    have same : (fun k => decide (j < 32) && decide ((key k : Int) = j)) = fun k => key k == j.toNat := by
      funext k
      rw [decide_eq_true hj.2, Bool.true_and, Bool.eq_iff_iff, decide_eq_true_iff, beq_iff_eq]
      omega
    rw [look_map, same, Option.getD_map]
  case isFalse hj =>
    rw [List.find?_eq_none.2 fun k _ => by simp; omega, Option.getD_none]

theorem checkPair_ok {i : Instr} {x : Nat → Opd} {u : Nat → Word} (hx : ReadsAny a i s g t x) (hu : ReadsInt b i s g t u) {lane : Nat} {f : Fibre}
    (he : Executes s g t i lane f) : checkPair a b (exOf s t i lane f) = .ok () := by
  have hx := hx lane f he
  have hu := hu lane f he
  simp only at hx hu
  simp only [checkPair, exOf, readInt_issuing, readSrc_issuing, hu, hx]
  rfl

/-- A member's value and tag. -/
def Opd.reg (o : Opd) : Reg := ⟨o.val, o.tag⟩

/-- The value that a member of shfl or cbcast gives. -/
def regOpd (a : Src) (e : Ex) : Reg := match readSrc e.env e.f a with | .ok o => ⟨o.val, o.tag⟩ | .error _ => Reg.zero

/-- The rank that a member of shfl or cbcast names. -/
def rankOpd (b : Src) (e : Ex) : Nat := match readInt e.env e.f b with | .ok v => v.toNat | .error _ => 0

theorem regOpd_of_reads {i : Instr} {x : Nat → Opd} (hx : ReadsAny a i s g t x) {lane : Nat} {f : Fibre} (he : Executes s g t i lane f) :
    regOpd a (exOf s t i lane f) = (x f.fidx).reg := by
  have hx := hx lane f he
  simp only at hx
  simp only [regOpd, exOf, readSrc_issuing, hx]; rfl

theorem rankOpd_of_reads {i : Instr} {u : Nat → Word} (hu : ReadsInt b i s g t u) {lane : Nat} {f : Fibre} (he : Executes s g t i lane f) :
    rankOpd b (exOf s t i lane f) = (u f.fidx).toNat := by
  have hu := hu lane f he
  simp only at hu
  simp only [rankOpd, exOf, readInt_issuing, hu]

theorem intOpd_of_reads {i : Instr} {x : Nat → Word} (hx : ReadsInt a i s g t x) {lane : Nat} {f : Fibre} (he : Executes s g t i lane f) :
    intOpd a (exOf s t i lane f) = x f.fidx := by
  have hx := hx lane f he
  simp only at hx
  simp only [intOpd, exOf, readInt_issuing, hx]

theorem fltOpd_of_reads {i : Instr} {x : Nat → Word} (hx : ReadsTag .f32 a i s g t x) {lane : Nat} {f : Fibre} (he : Executes s g t i lane f) :
    fltOpd a (exOf s t i lane f) = f32Val (x f.fidx) := by
  simp only [fltOpd, exOf, readF_issuing, readF_of_reads hx he]

theorem checkInt_ok {i : Instr} {x : Nat → Word} (hx : ReadsInt a i s g t x) {lane : Nat} {f : Fibre} (he : Executes s g t i lane f) :
    checkInt a (exOf s t i lane f) = .ok () := by
  have hx := hx lane f he
  simp only at hx
  simp only [checkInt, exOf, readInt_issuing, hx]; rfl

theorem checkF_ok {i : Instr} {x : Nat → Word} (hx : ReadsTag .f32 a i s g t x) {lane : Nat} {f : Fibre} (he : Executes s g t i lane f) :
    checkF a (exOf s t i lane f) = .ok () := by
  simp only [checkF, exOf, readF_issuing, readF_of_reads hx he]; rfl

/-- What shfl gives a member: the value at its partner's rank, or its own (R172). -/
def shflReg (m : ShflMode) (a b : Src) (c : Crew) (es : List Ex) (e : Ex) : Reg :=
  let j := partner m (rankOf c e) (rankOpd b e)
  if 0 ≤ j ∧ j < 32 then (look j.toNat (es.map fun e => (rankOf c e, regOpd a e))).getD (regOpd a e) else regOpd a e

/-- The member whose value shfl gives the member n. -/
def shflFrom (m : ShflMode) (c : Crew) (u : Nat → Word) (n : Nat) : Nat :=
  let j := partner m (rankAt c n) (u n).toNat
  ((liveOf c).find? fun k => decide (j < 32) && decide ((rankAt c k : Int) = j)).getD n

theorem shflReg_eq {i : Instr} {m : ShflMode} {x : Nat → Opd} {u : Nat → Word} {pc : DWord} (h : Issuing s i g t pc) (hW : WholeCrew i s g t q c)
    (hx : ReadsAny a i s g t x) (hu : ReadsInt b i s g t u) {lane : Nat} {f : Fibre} (he : Executes s g t i lane f) :
    shflReg m a b c (gather s t g i) (exOf s t i lane f) = (x (shflFrom m c u f.fidx)).reg := by
  have vals : ((gather s t g i).map fun e => (rankOf c e, regOpd a e)) = (liveOf c).map fun k => (rankAt c k, (x k).reg) :=
    hW.gather_map h fun lane f he => Prod.ext rfl (regOpd_of_reads hx he)
  rw [shflReg, vals, rankOpd_of_reads hu he, regOpd_of_reads hx he]
  exact look_partner (rankAt c) (fun k => (x k).reg) ..

theorem shfl_performs {m : ShflMode} {x : Nat → Opd} {u : Nat → Word} (hd : NoSreg d) (hB : Begins (.shfl gd m d a b q) s g t)
    (hW : WholeCrew (.shfl gd m d a b q) s g t q c) (hx : ReadsAny a (.shfl gd m d a b q) s g t x) (hu : ReadsInt b (.shfl gd m d a b q) s g t u) :
    Performs (.shfl gd m d a b q) s g t s fun _ f =>
      { f := f.issuing, w := Wr.one d (x (shflFrom m c u f.fidx)).val (x (shflFrom m c u f.fidx)).tag } := by
  refine crew_performs (reads := checkPair a b) (w := fun n => Wr.one d (x (shflFrom m c u n)).val (x (shflFrom m c u n)).tag) rfl rfl hB hW
    (fun _ _ he => checkPair_ok hx hu he) (fun pc h => ?body) fun n => one_sregs hd ..
  refine congrArg (fun l => some (s, l)) (List.map_congr_left fun e he => ?_)
  obtain ⟨lane, f, hm, rfl, -⟩ := h.pre_none he
  exact congrArg (fun r : Reg => goWr (exOf s t _ lane f) (Wr.one d r.val r.tag)) (shflReg_eq h hW hx hu (hW.executes hm))

theorem dedupe_of_const {α : Type} [DecidableEq α] {l : List α} {v : α} (hl : l ≠ []) (h : ∀ y ∈ l, y = v) : dedupe l = [v] := by
  obtain ⟨y, l, rfl⟩ := List.exists_cons_of_ne_nil hl
  rw [List.forall_mem_cons] at h
  obtain ⟨rfl, h⟩ := h
  refine List.foldlRecOn l _ (motive := (· = [y])) rfl fun acc ha z hz => ?_
  rw [ha, h z hz, if_pos (List.mem_singleton.2 rfl)]

theorem mem_dedupe {α : Type} [DecidableEq α] {l : List α} {y : α} (hy : y ∈ l) : y ∈ dedupe l := by
  have grown (acc : List α) (h : y ∈ acc ∨ y ∈ l) : y ∈ l.foldl (fun acc x => if x ∈ acc then acc else acc ++ [x]) acc := by
    clear hy
    induction l generalizing acc with
    | nil => simpa using h
    | cons z l ih =>
      rw [List.foldl_cons]
      refine ih _ ?_
      rw [List.mem_cons] at h
      split
      case isTrue hz => exact h.elim .inl (Or.imp_left fun heq : y = z => heq ▸ hz)
      case isFalse => rw [List.mem_append, List.mem_singleton]; tauto
  exact grown [] (.inr hy)

theorem dedupe_of_ne {α : Type} [DecidableEq α] {l : List α} {y z : α} (hy : y ∈ l) (hz : z ∈ l) (h : y ≠ z) : 1 < (dedupe l).length := by
  by_contra hle
  match hd : dedupe l with
  | [] => exact List.not_mem_nil (hd ▸ mem_dedupe hy)
  | [v] =>
    have hy' := mem_dedupe hy
    have hz' := mem_dedupe hz
    rw [hd, List.mem_singleton] at hy' hz'
    exact h (hy'.trans hz'.symm)
  | _ :: _ :: _ => simp [hd] at hle

/-- What cbcast does at its members (R173). -/
def cbcastBody (d : Dst) (a b : Src) (q : Fin 8) (c : Crew) : Body := fun es s =>
  let ranks := dedupe (es.map (rankOpd b))
  if 1 < ranks.length then some (s, es.map fun _ => .trap { code := .nonuniform, aux := b.code })
  else match es.find? fun e => rankOf c e == ranks.headD 0 with
    | none => some (s, es.map fun _ => .trap { code := .crewPartial, aux := q.val })
    | some x => some (s, es.map fun e => goWr e (Wr.one d (regOpd a x).val (regOpd a x).tag))

theorem exec_cbcast (s : State) :
    exec (.cbcast gd d a b q) s = issueWith (.cbcast gd d a b q) .none (crewBody q.val (checkPair a b) (cbcastBody d a b q)) s := rfl

theorem cbcastBody_differ {es : List Ex} {y z : Ex} (hy : y ∈ es) (hz : z ∈ es) (h : rankOpd b y ≠ rankOpd b z) :
    cbcastBody d a b q c es s = some (s, es.map fun _ => .trap { code := .nonuniform, aux := b.code }) :=
  if_pos (dedupe_of_ne (List.mem_map_of_mem hy) (List.mem_map_of_mem hz) h)

/-- One rank named by all: its live member's value, or a trap where there is none. -/
theorem cbcastBody_same {es : List Ex} {r : Nat} (hne : es ≠ []) (h : ∀ e ∈ es, rankOpd b e = r) :
    cbcastBody d a b q c es s = some (s, (es.find? fun e => rankOf c e == r).elim (es.map fun _ => .trap { code := .crewPartial, aux := q.val })
      fun x => es.map fun e => goWr e (Wr.one d (regOpd a x).val (regOpd a x).tag)) := by
  have ranks : dedupe (es.map (rankOpd b)) = [r] :=
    dedupe_of_const (by simpa using hne) (List.forall_mem_map.2 h)
  simp only [cbcastBody, ranks, List.length_singleton, lt_irrefl, if_false, List.headD_cons]
  cases es.find? fun e => rankOf c e == r <;> rfl

theorem cbcast_performs {x : Nat → Opd} {u : Word} {k : Nat} (hd : NoSreg d) (hB : Begins (.cbcast gd d a b q) s g t)
    (hW : WholeCrew (.cbcast gd d a b q) s g t q c) (hx : ReadsAny a (.cbcast gd d a b q) s g t x)
    (hu : ReadsInt b (.cbcast gd d a b q) s g t fun _ => u) (hk : (liveOf c).find? (fun k => rankAt c k == u.toNat) = some k) :
    Performs (.cbcast gd d a b q) s g t s fun _ f => { f := f.issuing, w := Wr.one d (x k).val (x k).tag } := by
  refine crew_performs (w := fun _ => Wr.one d (x k).val (x k).tag) (exec_cbcast s) rfl hB hW (fun _ _ he => checkPair_ok hx hu he) (fun pc h => ?body)
    fun _ => one_sregs hd ..
  have reads {e : Ex} (he : e ∈ gather s t g (.cbcast gd d a b q)) : rankOpd b e = u.toNat ∧ regOpd a e = (x e.f.fidx).reg := by
    obtain ⟨lane, f, hm, rfl, -⟩ := h.pre_none he
    exact ⟨rankOpd_of_reads hu (hW.executes hm), regOpd_of_reads hx (hW.executes hm)⟩
  have found : ((gather s t g (.cbcast gd d a b q)).find? fun e => rankOf c e == u.toNat).map (·.f.fidx) = some k := by
    rw [← hk, ← hW.ids, Gang.ids, ← h.gather_fidx, List.find?_map]; rfl
  obtain ⟨e, hfind, rfl⟩ := Option.map_eq_some_iff.1 found
  rw [cbcastBody_same h.gather_ne_nil fun e he => (reads he).1, hfind, Option.elim_some, (reads (List.mem_of_find?_eq_some hfind)).2]
  rfl

/-- Where the crew is whole and its members raise nothing by themselves, what the body traps with is what they raise (R173). -/
theorem cbcast_traps {x : Nat → Opd} {u : Nat → Word} {pc : DWord} {y : Trap} (h : Issuing s (.cbcast gd d a b q) g t pc)
    (hW : WholeCrew (.cbcast gd d a b q) s g t q c) (hx : ReadsAny a (.cbcast gd d a b q) s g t x) (hu : ReadsInt b (.cbcast gd d a b q) s g t u)
    (hb : cbcastBody d a b q c (gather s t g (.cbcast gd d a b q)) s = some (s, (gather s t g (.cbcast gd d a b q)).map fun _ => .trap y))
    (hy : y.code ≠ .breakpoint) : TrapsWhole (.cbcast gd d a b q) s g t fun _ => y :=
  traps_whole (exec_cbcast s) rfl h hW.all ((crewBody_whole h hW fun _ _ he => checkPair_ok hx hu he).trans hb) fun _ _ _ => hy

theorem cbcast_nonuniform {x : Nat → Opd} {u : Nat → Word} {pc : DWord} (h : Issuing s (.cbcast gd d a b q) g t pc)
    (hW : WholeCrew (.cbcast gd d a b q) s g t q c) (hx : ReadsAny a (.cbcast gd d a b q) s g t x) (hu : ReadsInt b (.cbcast gd d a b q) s g t u)
    {j k : Nat} (hj : j ∈ g.ids) (hk : k ∈ g.ids) (hne : u j ≠ u k) :
    TrapsWhole (.cbcast gd d a b q) s g t fun _ => { code := .nonuniform, aux := b.code } := by
  have member {n : Nat} (hn : n ∈ g.ids) : ∃ e ∈ gather s t g (.cbcast gd d a b q), rankOpd b e = (u n).toNat := by
    rw [Gang.ids, ← h.gather_fidx] at hn
    obtain ⟨e, he, rfl⟩ := List.mem_map.1 hn
    obtain ⟨lane, f, hm, rfl, -⟩ := h.pre_none he
    exact ⟨_, he, rankOpd_of_reads hu (hW.executes hm)⟩
  obtain ⟨y, hy, hyu⟩ := member hj
  obtain ⟨z, hz, hzu⟩ := member hk
  exact cbcast_traps h hW hx hu (cbcastBody_differ hy hz (by rw [hyu, hzu]; exact fun heq => hne (BitVec.eq_of_toNat_eq heq))) nofun

theorem cbcast_partial {x : Nat → Opd} {r : Word} {pc : DWord} (h : Issuing s (.cbcast gd d a b q) g t pc)
    (hW : WholeCrew (.cbcast gd d a b q) s g t q c) (hx : ReadsAny a (.cbcast gd d a b q) s g t x)
    (hr : ReadsInt b (.cbcast gd d a b q) s g t fun _ => r) (hno : ∀ k ∈ liveOf c, rankAt c k ≠ r.toNat) :
    TrapsWhole (.cbcast gd d a b q) s g t fun _ => { code := .crewPartial, aux := q.val } := by
  have absent : (gather s t g (.cbcast gd d a b q)).find? (fun e => rankOf c e == r.toNat) = none := by
    rw [← hW.ids, Gang.ids, ← h.gather_fidx, List.forall_mem_map] at hno
    exact List.find?_eq_none.2 fun e he heq => hno e he (beq_iff_eq.1 heq)
  refine cbcast_traps h hW hx hr ?_ nofun
  rw [cbcastBody_same h.gather_ne_nil fun e he => ?_, absent, Option.elim_none]
  obtain ⟨lane, f, hm, rfl, -⟩ := h.pre_none he
  exact rankOpd_of_reads hr (hW.executes hm)

/-! ## Reductions and scans (R174 to R176) -/

theorem crewSum_eq (x : Nat → Word) (m : Rm) (ks : List Nat) : crewSum x m ks = fltSum m (ks.map fun k => f32Val (x k)) := by
  rw [crewSum, fltSum, List.foldl_map]; rfl

theorem crewBest_eq (x : Nat → Word) (op : Xr → Xr → Xr) (ks : List Nat) : crewBest x op ks = fltFold op (ks.map fun k => f32Val (x k)) := by
  rw [crewBest, fltFold, List.foldl_map]; rfl

theorem crewFold_eq (x : Nat → Word) (op : RedOp) (ty : Sgn) (ks : List Nat) :
    crewFold x op ty ks = (ks.map x).tail.foldl (redOp op ty) ((ks.map x).headD 0) := by
  rw [crewFold, List.map_tail]

theorem credi_performs {op : RedOp} {ty : Sgn} {x : Nat → Word} (hd : NoSreg d) (hB : Begins (.credi gd op ty d a q) s g t)
    (hW : WholeCrew (.credi gd op ty d a q) s g t q c) (hx : ReadsInt a (.credi gd op ty d a q) s g t x) :
    Performs (.credi gd op ty d a q) s g t s fun _ f => { f := f.issuing, w := Wr.one d (crewFold x op ty (liveOf c)) (signTag ty) } := by
  refine crew_performs (w := fun _ => _) rfl rfl hB hW (fun _ _ he => checkInt_ok hx he) (fun pc h => ?_) fun _ => one_sregs hd ..
  have vals := hW.gather_map h fun lane f he => intOpd_of_reads hx he
  have tag : sgnTag ty = signTag ty := by cases ty <;> rfl
  simp only [vals, crewFold_eq, tag]

/-- What credf reduces the members' values to (R175). -/
def credfVal (x : Nat → Word) (ks : List Nat) : FRedOp → Nat
  | .sum m => crewSum x m ks
  | .min => crewBest x xrMin ks
  | .max => crewBest x xrMax ks

theorem credf_performs {op : FRedOp} {x : Nat → Word} (hd : NoSreg d) (hB : Begins (.credf gd op d a q) s g t)
    (hW : WholeCrew (.credf gd op d a q) s g t q c) (hx : ReadsTag .f32 a (.credf gd op d a q) s g t x) :
    Performs (.credf gd op d a q) s g t s fun _ f => { f := f.issuing, w := Wr.one d (BitVec.ofNat 32 (credfVal x (liveOf c) op)) .f32 } := by
  refine crew_performs (w := fun _ => _) rfl rfl hB hW (fun _ _ he => checkF_ok hx he) (fun pc h => ?_) fun _ => one_sregs hd ..
  have vals := hW.gather_map (G := fun k => f32Val (x k)) h fun lane f he => fltOpd_of_reads hx he
  cases op <;> simp only [vals, credfVal, crewSum_eq, crewBest_eq]

/-- The value of a scan over members that read these values (R176). -/
theorem scanVal_eq {op : ScanOp} {ty : ScanTy} {x : Nat → Word} {es : List Ex}
    (h : ∀ e ∈ es, if ty = .f then fltOpd a e = f32Val (x e.f.fidx) else intOpd a e = x e.f.fidx) :
    scanVal op ty a es = crewScan x op ty (es.map (·.f.fidx)) := by
  by_cases he : es = []
  · subst he; rfl
  have hk : es.map (·.f.fidx) ≠ [] := by simpa using he
  unfold scanVal crewScan
  rw [if_neg he, if_neg hk]
  cases ty with
  | f =>
    have vals : es.map (fltOpd a) = (es.map (·.f.fidx)).map fun k => f32Val (x k) := by
      rw [List.map_map]; exact List.map_congr_left fun e he => h e he
    cases op <;> simp only [vals, crewSum_eq, crewBest_eq]
  | s | n =>
    have vals : es.map (intOpd a) = (es.map (·.f.fidx)).map x := by
      rw [List.map_map]; exact List.map_congr_left fun e he => h e he
    cases op <;> simp only [vals, crewFold_eq] <;> rfl

/-- The check of cscan's source (R176). -/
theorem checkScan_ok {i : Instr} {ty : ScanTy} {x : Nat → Word} (hx : if ty = .f then ReadsTag .f32 a i s g t x else ReadsInt a i s g t x)
    {lane : Nat} {f : Fibre} (he : Executes s g t i lane f) : (if ty = .f then checkF a else checkInt a) (exOf s t i lane f) = .ok () := by
  split at hx
  case isTrue hf => rw [if_pos hf]; exact checkF_ok hx he
  case isFalse hf => rw [if_neg hf]; exact checkInt_ok hx he

theorem scanOpd_of_reads {i : Instr} {ty : ScanTy} {x : Nat → Word} (hx : if ty = .f then ReadsTag .f32 a i s g t x else ReadsInt a i s g t x)
    {lane : Nat} {f : Fibre} (he : Executes s g t i lane f) :
    if ty = .f then fltOpd a (exOf s t i lane f) = f32Val (x f.fidx) else intOpd a (exOf s t i lane f) = x f.fidx := by
  split at hx
  case isTrue hf => rw [if_pos hf]; exact fltOpd_of_reads hx he
  case isFalse hf => rw [if_neg hf]; exact intOpd_of_reads hx he

/-- Whether a scan gives the member n the value of the member k: k's rank is below, or with no `.excl` its own (R176). -/
def scanTakes (c : Crew) (excl : Bool) (n k : Nat) : Bool := rankAt c k < rankAt c n || (!excl && rankAt c k == rankAt c n)

/-- The members whose values a scan gives the member n. -/
def scanRange (c : Crew) (excl : Bool) (n : Nat) : List Nat := (liveOf c).filter (scanTakes c excl n)

/-- The tag of a scan's value (R176). -/
def scanTag : ScanTy → Tag
  | .s => .i32
  | .n => .n32
  | .f => .f32

theorem cscan_performs {op : ScanOp} {excl : Bool} {ty : ScanTy} {x : Nat → Word} (hd : NoSreg d) (hB : Begins (.cscan gd op excl ty d a q) s g t)
    (hW : WholeCrew (.cscan gd op excl ty d a q) s g t q c)
    (hx : if ty = .f then ReadsTag .f32 a (.cscan gd op excl ty d a q) s g t x else ReadsInt a (.cscan gd op excl ty d a q) s g t x) :
    Performs (.cscan gd op excl ty d a q) s g t s fun _ f =>
      { f := f.issuing, w := Wr.one d (BitVec.ofNat 32 (crewScan x op ty (scanRange c excl f.fidx))) (scanTag ty) } := by
  refine crew_performs (w := fun n => Wr.one d (BitVec.ofNat 32 (crewScan x op ty (scanRange c excl n))) (scanTag ty))
    rfl rfl hB hW (fun _ _ he => checkScan_ok hx he) (fun pc h => ?body) fun _ => one_sregs hd ..
  refine congrArg (fun l => some (s, l)) (List.map_congr_left fun e _ => ?_)
  have range : ((gather s t g (.cscan gd op excl ty d a q)).filter fun y => scanTakes c excl e.f.fidx y.f.fidx).map (·.f.fidx) =
      scanRange c excl e.f.fidx := by
    rw [scanRange, ← hW.ids, Gang.ids, ← h.gather_fidx, List.filter_map]; rfl
  have value : scanVal op ty a ((gather s t g (.cscan gd op excl ty d a q)).filter fun y => scanTakes c excl e.f.fidx y.f.fidx) =
      crewScan x op ty (scanRange c excl e.f.fidx) := by
    rw [← range]
    refine scanVal_eq fun y hy => ?_
    obtain ⟨lane, f, hm, rfl, -⟩ := h.pre_none (List.mem_filter.1 hy).1
    exact scanOpd_of_reads hx (hW.executes hm)
  exact congrArg (fun v => goWr e (Wr.one d (BitVec.ofNat 32 v) (scanTag ty))) value

end Values

/-! ## The checks of a collective (R161) -/

section Checks
variable {a b : Src}

theorem noBreak_checkInt (e : Ex) : NoBreak (checkInt a e) := NoBreak.bind (noBreak_readInt _ _ _) fun _ => .ok _

theorem noBreak_checkF (e : Ex) : NoBreak (checkF a e) := NoBreak.bind (noBreak_readF _ _ _) fun _ => .ok _

theorem noBreak_checkPair (e : Ex) : NoBreak (checkPair a b e) :=
  NoBreak.bind (noBreak_readInt _ _ _) fun _ => NoBreak.bind (noBreak_readSrc _ _ _) fun _ => .ok _

variable {s : State} {t : Team} {i : Instr} {lane : Nat} {f : Fibre}

theorem checkInt_exOf : checkInt a (exOf s t i lane f) = (readInt (envOf s t lane f.fidx) f a).map fun _ => () := by
  rw [← readInt_issuing]; rfl

theorem checkF_exOf : checkF a (exOf s t i lane f) = (readTag (envOf s t lane f.fidx) f .f32 a).map fun _ => () := by
  rw [← readTag_issuing]
  show (readTag (envOf s t lane f.fidx) f.issuing .f32 a >>= _) >>= _ = _
  cases readTag (envOf s t lane f.fidx) f.issuing .f32 a <;> rfl

theorem checkPair_exOf : checkPair a b (exOf s t i lane f) = match readInt (envOf s t lane f.fidx) f b with
    | .ok _ => (readSrc (envOf s t lane f.fidx) f a).map fun _ => ()
    | .error x => .error x := by
  rw [← readInt_issuing, ← readSrc_issuing]
  show (readInt (envOf s t lane f.fidx) f.issuing b >>= _) = _
  cases readInt (envOf s t lane f.fidx) f.issuing b <;> rfl

end Checks

/-- Settles O25: the fibres of a whole crew are its live members in rank order, so that what each member's operands read, listed over the gang, is the
list of values that the statement reduces, scans or searches by rank (R171 to R176); a gang that is not the whole crew, or some of whose members
trap by themselves, traps whole (R161), and so does cbcast where the ranks differ or name no live member (R173). -/
theorem crewCollectives : Obligations.CrewCollectives := by
  unfold Obligations.CrewCollectives
  refine ⟨fun s g t gd q c => ⟨?vote, ?shfl, ?cbcast⟩, fun s g t gd q c d a x hd => ⟨?credi, ?credf, ?cscan⟩, ?partly, ?ranks⟩
  case vote => exact fun op ps p hB hW hp hop => vote_performs hB hW hp hop
  case shfl => exact fun m d a b x u hd hB hW hx hu => shfl_performs hd hB hW hx hu
  case cbcast => exact fun d a b x u k hd hB hW hx hu hk => cbcast_performs hd hB hW hx hu hk
  case credi => exact fun op ty hB hW hx => credi_performs hd hB hW hx
  case credf => exact fun op hB hW hx => credf_performs hd hB hW hx
  case cscan => exact fun op excl ty hB hW hx => cscan_performs hd hB hW hx
  case partly =>
    intro s g t gd q i check own pc hi h hall hown hnot
    obtain ⟨op, ps, rfl, rfl⟩ | ⟨op, ty, d, a, rfl, rfl⟩ | ⟨op, d, a, rfl, rfl⟩ | ⟨op, excl, ty, d, a, rfl, rfl⟩ |
      ⟨m, d, a, b, rfl | rfl, rfl⟩ := hi
    · exact crew_partial rfl rfl h hall (fun _ => .ok _) (fun lane f hm => hown lane f hm) hnot
    · exact crew_partial rfl rfl h hall noBreak_checkInt (fun lane f hm => checkInt_exOf.trans (hown lane f hm)) hnot
    · exact crew_partial rfl rfl h hall noBreak_checkF (fun lane f hm => checkF_exOf.trans (hown lane f hm)) hnot
    · cases ty with
      | f => exact crew_partial rfl rfl h hall noBreak_checkF (fun lane f hm => checkF_exOf.trans (hown lane f hm)) hnot
      | s | n => exact crew_partial rfl rfl h hall noBreak_checkInt (fun lane f hm => checkInt_exOf.trans (hown lane f hm)) hnot
    all_goals exact crew_partial rfl rfl h hall noBreak_checkPair (fun lane f hm => checkPair_exOf.trans (hown lane f hm)) hnot
  case ranks =>
    intro s g t gd q c d a b x u pc i h hW hx hu
    refine ⟨?_, fun r hr hno => cbcast_partial h hW hx (by obtain rfl : u = fun _ => r := funext hr; exact hu) hno⟩
    rintro ⟨j, hj, k, hk, hne⟩
    exact cbcast_nonuniform h hW hx hu hj hk hne

end Sys2Proof.Machine
end
